-- ==== Sys2Proof/Word.lean ====
section
/-! DEFINITION. The data units of the ZN62 (00_scope.md, "Data units"): words of 32 bits, half-words of 16 bits, the bytes of a frame, and station addresses. -/

namespace Sys2Proof

/-- A segment word or transfer buffer word, 32 bits. -/
abbrev Word := BitVec 32

/-- A half-word of the local port, 16 bits. -/
abbrev Half := BitVec 16

/-- A byte of a frame. -/
abbrev Byte := BitVec 8

/-- A station address 1 to 16, held as the address minus 1 (the ADDR strap value, and the address field of the arbitration key, R116, R131). -/
abbrev Station := Fin 16

/-- The station address 1 to 16 that software and frames show. -/
def addressOf (p : Station) : Nat := p.val + 1

/-- The low half of a word. -/
def lowHalf (w : Word) : Half := w.extractLsb' 0 16

/-- The high half of a word. -/
def highHalf (w : Word) : Half := w.extractLsb' 16 16

/-- The word with the given high and low halves. -/
def joinHalves (hi lo : Half) : Word := hi ++ lo

end Sys2Proof
end

