-- ==== Sys2Proof/Syntax.lean ====
section
/-! DEFINITION. The commands of the ZN62: one constructor for each row of spec/opcode_table.json, and the frames that two of them carry. -/

namespace Sys2Proof

/-- The class of a frame, the first part of its arbitration key (R116): class 0 for responses, class 1 for requests and PRESENCE. -/
inductive FrameClass where
  | response
  | request
  deriving DecidableEq, Repr

/-- A frame on the line (R116) without start delimiter, stuff bits, check and end mark: the three parts of its key, its kind code and the bytes between the length field and the check. The length field is the number of those bytes. -/
structure Frame where
  cls : FrameClass
  rank : BitVec 4
  sender : Station
  kind : BitVec 4
  body : List Byte
  deriving DecidableEq, Repr

/-- What the line gives in the places of an arbitration key (R118): the nine key bits, and the bit in the place of the stuff bit within the key this station sends, of no effect where it sends none. -/
structure KeyRead where
  bits : BitVec 9
  stuffBit : Bool
  deriving DecidableEq, Repr

/-- The steps of the ZN62, each whole and indivisible, in the order of the table. -/
inductive Instr where
  /-- PIN_RESET: RESET# goes low with these values at the ADDR and RATE straps. -/
  | pinReset (addr : Station) (rate : BitVec 2)
  /-- RESET_RELEASE: RESET# returns high with these values at the straps, which are kept. -/
  | resetRelease (addr : Station) (rate : BitVec 2)
  /-- CLEARING_DONE -/
  | clearingDone
  /-- LOCAL_READ_LOW_HALF: a read cycle at LA[13:1] = la, LA[0] = 0. Below 4096, la is the segment word. -/
  | localReadLowHalf (la : BitVec 13)
  /-- LOCAL_READ_HIGH_HALF: a read cycle at LA[13:1] = la, LA[0] = 1. Below 4096, la is the segment word. -/
  | localReadHighHalf (la : BitVec 13)
  /-- LOCAL_WRITE_LOW_HALF: a write cycle of the low half of segment word a. -/
  | localWriteLowHalf (a : BitVec 12) (v : Half)
  /-- LOCAL_WRITE_HIGH_HALF: a write cycle of the high half of segment word a. -/
  | localWriteHighHalf (a : BitVec 12) (v : Half)
  /-- LOCAL_CYCLE_END: the controller raises its strobe or LCS#. -/
  | localCycleEnd
  /-- LOCAL_WORD_READ: the arbiter grants the local word read claim. -/
  | localWordRead
  /-- LOCAL_WORD_WRITE: the arbiter grants the local word write claim. -/
  | localWordWrite
  /-- TRANSFER_BUFFER_WRITE: a write cycle at half-word `high` of word j of buffer b. -/
  | transferBufferWrite (b j : Fin 16) (high : Bool) (v : Half)
  /-- LOCAL_REGISTER_WRITE: a write cycle at half-word address la. -/
  | localRegisterWrite (la : BitVec 14) (v : Half)
  /-- POST: a write of any value to the POST location. -/
  | post (v : Half)
  /-- COMPLETION_CONSUME: a write of any value to the completion CONSUME location. -/
  | completionConsume (v : Half)
  /-- EVENT_CONSUME: a write of any value to the event CONSUME location. -/
  | eventConsume (v : Half)
  /-- GROUP_VIEW_SNAPSHOT: a read of the first half-word of group view position 0. -/
  | groupViewSnapshot
  /-- CONFIGURE: command code 1 written to the command location. -/
  | configure
  /-- JOIN: command code 2. -/
  | join
  /-- LEAVE: command code 3. -/
  | leave
  /-- REVOKE: command code 4. -/
  | revoke
  /-- START_DELIMITER: a start delimiter is seen, and keyRead is what is then read from the line in the key's places. -/
  | startDelimiter (keyRead : KeyRead)
  /-- CONTENTION_WON -/
  | contentionWon
  /-- TRANSMIT_SENT -/
  | transmitSent
  /-- TRANSMIT_FAULT -/
  | transmitFault
  /-- LINE_IDLE -/
  | lineIdle
  /-- GOOD_FRAME: the frame f ends at its end mark with a good check. -/
  | goodFrame (f : Frame)
  /-- FRAME_DISCARDED: a frame ends; bits are what was read after its start delimiter, stuff bits included. -/
  | frameDiscarded (bits : List Bool)
  /-- FRAME_IN_HAND -/
  | frameInHand
  /-- RD_RANGE_READ -/
  | rdRangeRead
  /-- WR_APPLY -/
  | wrApply
  /-- RDS_EVALUATION -/
  | rdsEvaluation
  /-- SLOT_CAPTURE -/
  | slotCapture
  /-- GOPEN: the GE takes it. -/
  | gopen
  /-- GWRITE: the GE takes it. -/
  | gwrite
  /-- GWRITE_APPLY -/
  | gwriteApply
  /-- GCLOSE: the GE takes it. -/
  | gclose
  /-- GROUP_COMMIT -/
  | groupCommit
  /-- GABORT: the GE takes it. -/
  | gabort
  /-- GROUP_ROLLBACK -/
  | groupRollback
  /-- IDLE_TIMER_EXPIRY of group table entry g. -/
  | idleTimerExpiry (g : Fin 4)
  /-- GE_TAKE_EXPIRY -/
  | geTakeExpiry
  /-- GE_TAKE_PEER_LOST -/
  | geTakePeerLost
  /-- GE_TAKE_PEER_RESTARTED -/
  | geTakePeerRestarted
  /-- GE_TAKE_REVOKE -/
  | geTakeRevoke
  /-- GE_TAKE_START_OF_LEAVING -/
  | geTakeStartOfLeaving
  /-- SRU_TAKE_ANNOUNCEMENT -/
  | sruTakeAnnouncement
  /-- RE_TAKE_ANNOUNCEMENT -/
  | reTakeAnnouncement
  /-- RESTART_PURGE -/
  | restartPurge
  /-- SRU_TAKE_START_OF_LEAVING -/
  | sruTakeStartOfLeaving
  /-- RE_TAKE_START_OF_LEAVING -/
  | reTakeStartOfLeaving
  /-- DISCARD_TIMER_EXPIRY of deferred slot i. -/
  | discardTimerExpiry (i : Fin 4)
  /-- LAST_HEARD_EXPIRY of peer p. -/
  | lastHeardExpiry (p : Station)
  /-- QUIET_TIMER_EXPIRY -/
  | quietTimerExpiry
  /-- LISTEN_TIMER_EXPIRY -/
  | listenTimerExpiry
  /-- LEAVING_PRESENCE_DUE -/
  | leavingPresenceDue
  /-- RESPONSE_WINDOW_EXPIRY of outstanding entry e. -/
  | responseWindowExpiry (e : Fin 8)
  /-- BACKOFF_EXPIRY of outstanding entry e. -/
  | backoffExpiry (e : Fin 8)
  /-- DEFERRAL_DEADLINE_EXPIRY of outstanding entry e. -/
  | deferralDeadlineExpiry (e : Fin 8)
  /-- DOMINANT_BIT_IN_GAP -/
  | dominantBitInGap
  deriving DecidableEq, Repr

end Sys2Proof
end

