-- ==== Sys2Proof/Config.lean ====
section
/-! DEFINITION. What is fixed for every ZN62: the sizes of its queues and tables, the bit rates of the straps (R114), and the free values: an order the manual leaves open, and values it does not state. -/

namespace Sys2Proof.Config

/-- Words of the segment (R1). -/
def segmentWords : Nat := 4096

/-- Entries of the undo log pool (R19). -/
def undoEntries : Nat := 128

/-- Entries of the response queue (R75). -/
def responseEntries : Nat := 8

/-- Descriptors of the submission queue (R93). -/
def submissionEntries : Nat := 16

/-- Entries of the completion queue (R146). -/
def completionEntries : Nat := 16

/-- Entries of the event queue (R147). -/
def eventEntries : Nat := 16

/-- The maximum frame length in bytes, that of a GWRITE with 16 data words (R125). -/
def maxFrameBytes : Nat := 71

/-- Recessive bit times of the idle gap (R115). -/
def idleGapBits : Nat := 12

/-- The bit rate in kbit/s that the RATE strap selects (Table 7-1). -/
def bitRateKbit (rate : BitVec 2) : Nat := 1250 * 2 ^ rate.toNat

/-- The bit time in nanoseconds at the strapped rate (Table 7-1). -/
def bitTimeNs (rate : BitVec 2) : Nat := 800 / 2 ^ rate.toNat

/-- FREE VALUE (log 9). "The Peer Table and the RE may take a response in either order" (R127): true means that the RE takes it first. The argument is the model's own counter. -/
opaque requesterTakesFirst : Nat → Bool

/-- FREE VALUE (log 37). What the fields of the event window's head read while the event queue is empty, which R147 and Table 10-5 do not state. The arguments are the model's own counter and the number of the field, from 0. -/
opaque emptyEventField : Nat → Nat → BitVec 16

end Sys2Proof.Config
end

