-- ==== Sys2Proof/Machine/Store.lean ====
section
/-! DEFINITION. The two kinds of container State is made of: a sparse list of key and value pairs in one canonical form, and a table of fixed size. -/

namespace Sys2Proof.Machine

/-- Key and value pairs with strictly rising keys. -/
abbrev Sparse (α : Type) := List (Nat × α)

/-- The value listed at key k. -/
def Sparse.get {α : Type} : Sparse α → Nat → Option α
  | [], _ => none
  | (k', v) :: r, k => if k = k' then some v else Sparse.get r k

/-- List v at key k, in place of what was listed there. -/
def Sparse.put {α : Type} : Sparse α → Nat → α → Sparse α
  | [], k, v => [(k, v)]
  | (k', v') :: r, k, v =>
    if k < k' then (k, v) :: (k', v') :: r
    else if k = k' then (k, v) :: r
    else (k', v') :: Sparse.put r k v

/-- List nothing at key k. -/
def Sparse.erase {α : Type} (m : Sparse α) (k : Nat) : Sparse α := m.filter (fun e => e.1 ≠ k)

/-- The canonical form of a sparse list: keys strictly rising and below `size`. -/
abbrev Sparse.wf {α : Type} (size : Nat) (m : Sparse α) : Prop :=
  m.Pairwise (fun e e' => e.1 < e'.1) ∧ ∀ e ∈ m, e.1 < size

/-- An addressed RAM of 32-bit words: the segment (R1) and the transfer buffers (R144). A word that is not listed reads 0, the value clearing and pin reset give (R13, R144). -/
abbrev Mem := Sparse Word

/-- The word at an address. -/
def Mem.read (m : Mem) (a : Nat) : Word := (Sparse.get m a).getD 0

/-- Store a word; storing 0, what an unlisted word reads as, removes the entry. -/
def Mem.write (m : Mem) (a : Nat) (w : Word) : Mem := if w = 0 then Sparse.erase m a else Sparse.put m a w

/-- Store words at consecutive addresses, in address order. -/
def Mem.writeAll : Mem → Nat → List Word → Mem
  | m, _, [] => m
  | m, a, w :: ws => Mem.writeAll (Mem.write m a w) (a + 1) ws

/-- The canonical form of a memory: that of a sparse list, with no entry equal to what an unlisted address reads as. -/
abbrev Mem.wf (size : Nat) (m : Mem) : Prop := Sparse.wf size m ∧ ∀ e ∈ m, e.2 ≠ 0

/-- A table of n like entries. -/
abbrev Table (n : Nat) (α : Type) := Vector α n

/-- The entry at an index. -/
def Table.at {n : Nat} {α : Type} (t : Table n α) (i : Fin n) : α := t[i.val]'i.isLt

/-- Replace the entry at an index. -/
def Table.put {n : Nat} {α : Type} (t : Table n α) (i : Fin n) (x : α) : Table n α := Vector.set t i.val x i.isLt

/-- Apply a function to every entry. -/
def Table.each {n : Nat} {α β : Type} (f : α → β) (t : Table n α) : Table n β :=
  ⟨⟨t.toList.map f⟩, by simp⟩

/-- Every entry the same. -/
def Table.const (n : Nat) {α : Type} (x : α) : Table n α := Vector.replicate n x

/-- The indexes of a table of four, in ascending order. -/
def all4 : List (Fin 4) := [0, 1, 2, 3]

/-- The indexes of a table of eight, in ascending order. -/
def all8 : List (Fin 8) := [0, 1, 2, 3, 4, 5, 6, 7]

end Sys2Proof.Machine
end

