-- ==== Sys2Proof/Machine/State.lean ====
section
/-! DEFINITION. The state of the ZN62 as plain data, one structure for each block of Table 0-1, the state after pin reset, and the reasons a step can stop. -/

namespace Sys2Proof.Machine

/-- No command of this block stops the machine: the manual describes no such condition. A closed type with no constructor (log 1). -/
inductive Fault where
  deriving DecidableEq, Repr

/-- Why a command has no meaning. -/
inductive Refusal where
  /-- Raised by exec for a command whose meaning is not written. Safe. No arm of exec raises it. -/
  | notModelled (mnemonic : String)
  deriving DecidableEq, Repr

/-- A timer: stopped, or running since it was started at this many microseconds. The time left is not counted (log 2). -/
inductive Timer where
  | stopped
  | running (us : Nat)
  deriving DecidableEq, Repr

/-- The five station states (Table 8-1). -/
inductive StationState where
  | clearing
  | setup
  | listening
  | joined
  | leaving
  deriving DecidableEq, Repr

/-- The mark of a PRESENCE frame (Table 10-2). -/
inductive Mark where
  | plain
  | fresh
  | leaving
  deriving DecidableEq, Repr

/-- Why a peer is down: silent or left (R84, R85). -/
inductive Departure where
  | silent
  | left
  deriving DecidableEq, Repr

/-- The causes of abort (Table 2-2). -/
inductive AbortCause where
  | requested
  | expired
  | peerLost
  | peerRestarted
  | revoked
  | leaving
  deriving DecidableEq, Repr

/-- The refusal reasons (Table 10-2). -/
inductive Reason where
  | malformed
  | range
  | notPermitted
  | conflict
  | selfHeld
  | noGroup
  | groupExists
  | groupTableFull
  | logFull
  | notServing
  deriving DecidableEq, Repr

/-- An answer to a request, as queued (R75). -/
inductive Reply where
  | data (ws : List Word)
  | done (n : Nat)
  | defer
  | busy
  | refuse (r : Reason)
  deriving DecidableEq, Repr

/-- The last outcome of a reply record (R72): it does not include the data words of a REPLY_DATA. -/
inductive Recorded where
  | data
  | done (n : Nat)
  | defer
  | busy
  | refuse (r : Reason)
  deriving DecidableEq, Repr

/-- A reply record that is valid (R72). One that is not valid is absent: its other fields have no meaning. -/
structure Record where
  seq : Byte
  kind : BitVec 4
  outcome : Recorded
  deriving DecidableEq, Repr

/-- PRESENT or ABSENT (R80). -/
inductive Presence where
  | absent
  | present
  deriving DecidableEq, Repr

/-- A peer entry (Table 5-1). -/
structure Peer where
  presence : Presence
  departure : Option Departure
  heardAgain : Bool
  freshWaiting : Bool
  timer : Timer
  record : Option Record
  nextSeq : Byte
  deriving DecidableEq, Repr

/-- The four blocks that present claims to the segment access arbiter (R12). -/
inductive Claimant where
  | ge
  | sru
  | te
  | lp
  deriving DecidableEq, Repr

/-- The Segment Memory. The access map stands in the active configuration record (R3). What each waiting claim is for stands in its claimant's state. -/
structure Sgm where
  words : Mem
  claims : List Claimant
  clearing : Bool
  deriving DecidableEq, Repr

/-- An OPEN group table entry (Table 2-1). Its log list is its entries of the undo log, in their order there; its place in open order stands in the order. -/
structure Group where
  owner : Station
  tag : BitVec 4
  held : Nat
  idle : Timer
  deriving DecidableEq, Repr

/-- An undo log entry in use (R19). -/
structure UndoEntry where
  group : Fin 4
  addr : Nat
  old : Word
  deriving DecidableEq, Repr

/-- Work that waits for the GE (R22). -/
inductive GeWork where
  /-- the group frame the TE has in hand -/
  | frame
  /-- the idle expiry of a group -/
  | expiry (g : Fin 4)
  /-- a peer announced lost or departed; `report`: the PT will act on the end report (R81) -/
  | gone (p : Station) (report : Bool)
  /-- a peer announced restarted; `reports`: how many announcements, joined ones included, whose end report the PT will act on (R22, R81) -/
  | restarted (p : Station) (reports : Nat)
  | revoke
  | startOfLeaving
  deriving DecidableEq, Repr

/-- What ends with a list of rollbacks. -/
inductive OpEnd where
  /-- REPLY_DONE with 0 words, for a GABORT (R32) -/
  | reply
  /-- an end report for a lost or departed peer (R86) -/
  | gone (p : Station) (report : Bool)
  /-- end reports for a restarted peer (R87) -/
  | restarted (p : Station) (reports : Nat)
  /-- the report that no group is open (R38) -/
  | noGroupOpen
  /-- nothing more (expiry, REVOKE) -/
  | nothing
  deriving DecidableEq, Repr

/-- The GE operation in progress, whose claim is at the arbiter (R22). -/
inductive GeOp where
  | gwrite (g : Fin 4)
  | commit (g : Fin 4)
  /-- the list of groups still to be rolled back, the first one's claim presented (R31) -/
  | rollback (cause : AbortCause) (list : List (Fin 4)) (fin : OpEnd)
  deriving DecidableEq, Repr

/-- The Group Engine. `following`: the rollback claim of the operation follows another of its list (R31). -/
structure Ge where
  table : Table 4 (Option Group)
  order : List (Fin 4)
  undo : List UndoEntry
  holds : Sparse (Fin 4)
  work : List GeWork
  op : Option GeOp
  following : Bool
  deriving DecidableEq, Repr

/-- The state of a deferred slot in use (R42), with its capture pending mark or its captured data. -/
inductive SlotState where
  | waiting (capturePending : Bool)
  | ready (data : List Word)
  deriving DecidableEq, Repr

/-- A deferred slot in use (Table 3-1). -/
structure Slot where
  requester : Station
  seq : Byte
  addr : Nat
  count : Nat
  state : SlotState
  discard : Timer
  deriving DecidableEq, Repr

/-- Work of the SRU that needs a claim (R45). -/
inductive SruWork where
  /-- the RDS the TE has in hand, evaluated as new; `behind`: it was handed over behind other work of the SRU (log 33) -/
  | evaluate (behind : Bool)
  | capture (i : Fin 4)
  deriving DecidableEq, Repr

/-- Whether work is an evaluation, rather than a capture. -/
def SruWork.isEvaluate : SruWork → Bool
  | .evaluate _ => true
  | .capture _ => false

/-- An announcement of the PT (Table 5-2). -/
inductive Announcement where
  | lost (p : Station)
  | departed (p : Station)
  | restarted (p : Station)
  deriving DecidableEq, Repr

/-- The Settled-Read Unit. The claim of the first work is at the arbiter. -/
structure Sru where
  slots : Table 4 (Option Slot)
  work : List SruWork
  announced : Option Announcement
  startOfLeaving : Bool
  deriving DecidableEq, Repr

/-- The seven request kinds. -/
inductive ReqKind where
  | rd
  | rds
  | wr
  | gopen
  | gwrite
  | gclose
  | gabort
  deriving DecidableEq, Repr

/-- A request frame that is not MALFORMED (R67). Fields a kind does not carry are 0. -/
structure Request where
  kind : ReqKind
  seq : Byte
  retry : Bool
  tag : BitVec 4
  addr : Nat
  data : List Word
  count : Nat
  deriving DecidableEq, Repr

/-- What the frame in hand waits for. -/
inductive HandStage where
  | rdClaim
  | wrClaim
  | sru
  | ge
  deriving DecidableEq, Repr

/-- The frame in hand (R63). -/
structure Hand where
  sender : Station
  req : Request
  stage : HandStage
  deriving DecidableEq, Repr

/-- A response queue entry (R75). `purged`: to be removed when its transmission ends (R77). -/
structure Response where
  requester : Station
  seq : Byte
  reply : Reply
  attempts : Nat
  purged : Bool
  deriving DecidableEq, Repr

/-- The Target Engine. The reply records stand in the peer entries. -/
structure Te where
  input : Option Frame
  hand : Option Hand
  closed : Bool
  queue : List Response
  restarted : Option Station
  deriving DecidableEq, Repr

/-- The Peer Table, indexed by station address minus 1 (R80). -/
structure Pt where
  peers : Table 16 Peer
  deriving DecidableEq, Repr

/-- A descriptor at the full 16 bits of each field (R153). -/
structure Descriptor where
  kind : Half
  target : Half
  address : Half
  count : Half
  tag : Half
  buffer : Half
  userTag : Half
  deriving DecidableEq, Repr

/-- A descriptor of the submission queue, with the mark the start of LEAVING puts on it (R111). -/
structure Queued where
  desc : Descriptor
  cancelled : Bool
  deriving DecidableEq, Repr

/-- Completion statuses (Table 10-2). -/
inductive Status where
  | ok
  | refused
  | noResponse
  | busyLimit
  | deferralTimeout
  | peerAbsent
  | peerRestarted
  | cancelled
  | invalid
  deriving DecidableEq, Repr

/-- The checks a descriptor can fail (R97). -/
inductive Check where
  | kind
  | target
  | count
  | buffer
  deriving DecidableEq, Repr

/-- Completion details (R109): for REFUSED the reason byte as received (R152). -/
inductive Detail where
  | none
  | reason (code : Byte)
  | cause (d : Departure)
  | check (c : Check)
  deriving DecidableEq, Repr

/-- A completion (R109). -/
structure Completion where
  userTag : Half
  kind : Half
  target : Half
  status : Status
  detail : Detail
  words : Nat
  buffer : Half
  attempts : Nat
  deriving DecidableEq, Repr

/-- The states of an outstanding entry that is not FREE (R99). -/
inductive EntryState where
  | readyToSend
  | awaitResponse
  | backoff
  | completing
  deriving DecidableEq, Repr

/-- The result an entry holds in COMPLETING (R99). -/
structure Result where
  status : Status
  detail : Detail
  words : Nat
  deriving DecidableEq, Repr

/-- An outstanding entry that is not FREE (R99). `deferred`: deferral start is not absent (log 20). -/
structure Entry where
  desc : Descriptor
  seq : Byte
  state : EntryState
  attempts : Nat
  lost : Nat
  busy : Nat
  deferred : Bool
  deadlinePassed : Bool
  window : Timer
  backoff : Timer
  deadline : Timer
  result : Option Result
  deriving DecidableEq, Repr

/-- The Requester Engine. The loans are the descriptors it holds (R95). -/
structure Re where
  queue : List Queued
  table : Table 8 (Option Entry)
  ready : List (Fin 8)
  completing : List (Fin 8)
  stalled : Bool
  announced : Option Announcement
  startOfLeaving : Bool
  deriving DecidableEq, Repr

/-- The line view (R115), GAP with its count of recessive bit times (log 14). -/
inductive LineView where
  | idle
  | frame
  | gap (count : Nat)
  deriving DecidableEq, Repr

/-- What can be offered to the transmit slot (R121). -/
inductive Offer where
  | response
  | presence (m : Mark)
  | request (e : Fin 8)
  deriving DecidableEq, Repr

/-- The transmit slot (R117, R118, R121). -/
inductive TxSlot where
  | empty
  | chosen (o : Offer)
  | contending (o : Offer) (key : BitVec 9)
  /-- The frame on the line and the bits sent for it after the start delimiter; `orphan`: the owner takes its report without effect (R110, R122, R136). -/
  | onLine (o : Offer) (frame : Frame) (bits : List Bool) (orphan : Bool)
  deriving DecidableEq, Repr

/-- The Link Controller. `receive` is the receive frame: the nine key bits read so far, without the stuff bit; the rest come with the command that ends the frame (log 11). -/
structure Lc where
  view : LineView
  last0 : Station
  last1 : Station
  slot : TxSlot
  receive : Option (BitVec 9)
  deriving DecidableEq, Repr

/-- A page record (R3, Table 10-6). -/
structure Page where
  readOpen : Half
  writeSet : Half
  deriving DecidableEq, Repr

/-- A configuration record in the units and codes of Table 10-6. -/
structure ConfigRecord where
  responseWindow : Half
  lostLimit : Half
  busyLimit : Half
  retryInterval : Half
  deferralDeadline : Half
  discardTime : Half
  idleLifetime : Half
  presenceInterval : Half
  pages : Table 64 Page
  deriving DecidableEq, Repr

/-- The four commands (R132). -/
inductive Command where
  | configure
  | join
  | leave
  | revoke
  deriving DecidableEq, Repr

/-- The results of a command (Table 8-3). -/
inductive CommandResult where
  | accepted
  | refusedConfig (field : Nat) (page : Nat)
  | wrongState
  | busy
  deriving DecidableEq, Repr

/-- Station Control. -/
structure Stc where
  state : StationState
  address : Station
  rate : BitVec 2
  active : ConfigRecord
  staged : ConfigRecord
  command : Option (Command × CommandResult)
  listen : Timer
  quiet : Timer
  due : Option Mark
  noGroupOpen : Bool
  deriving DecidableEq, Repr

/-- The events (R147). -/
inductive Event where
  | peerUp (p : Station) (fresh : Bool)
  | peerDown (p : Station) (d : Departure)
  | groupCommitted (p : Station) (tag : BitVec 4) (held : Nat)
  | groupAborted (p : Station) (tag : BitVec 4) (cause : AbortCause)
  | localWriteRefused (a : Nat)
  | stateChanged (st : StationState)
  deriving DecidableEq, Repr

/-- What a bus cycle does (R141). -/
inductive BusCycle where
  | read (la : BitVec 14)
  | write (la : BitVec 14) (v : Half)
  deriving DecidableEq, Repr

/-- How far a bus cycle has come: its claim waits; it waits for the end of clearing without a claim (R14, R141); its work is done, with the half-word a read drives. -/
inductive CycleWork where
  | claim
  | clearing
  | done (result : Half)
  deriving DecidableEq, Repr

/-- The bus cycle in progress. `strobe`: the controller still holds its strobe and LCS# low. -/
structure Cycle where
  bus : BusCycle
  strobe : Bool
  work : CycleWork
  deriving DecidableEq, Repr

/-- The post results (Table 10-2); NONE is the absent one. -/
inductive PostResult where
  | accepted
  | queueFull
  | bufferBusy
  | notJoined
  deriving DecidableEq, Repr

/-- One OPEN position of the group view (R151). -/
structure GroupPosition where
  owner : Station
  tag : BitVec 4
  held : Nat
  deriving DecidableEq, Repr

/-- The Local Port. `snapshot` lists the OPEN positions of the group view; the positions after them are FREE. -/
structure Lp where
  cycle : Option Cycle
  nextStrobe : Option BusCycle
  latch : Option (BitVec 12 × Half)
  stagedLow : Option (BitVec 12 × Half)
  buffers : Mem
  completions : List Completion
  events : List Event
  eventsLost : Bool
  snapshot : List GroupPosition
  window : Descriptor
  postResult : Option PostResult
  deriving DecidableEq, Repr

/-- The machine: RESET#, the nine blocks, the counter the free values are read with (logs 9, 10 and 37), and the queue of commands that wait. -/
structure State where
  resetLow : Bool
  sgm : Sgm
  ge : Ge
  sru : Sru
  te : Te
  pt : Pt
  re : Re
  lc : Lc
  stc : Stc
  lp : Lp
  freeCount : Nat
  pending : List Instr
  deriving DecidableEq, Repr

/-- The defaults of Tables 8-2 and 10-6. -/
def ConfigRecord.default : ConfigRecord where
  responseWindow := 1000
  lostLimit := 3
  busyLimit := 8
  retryInterval := 500
  deferralDeadline := 20
  discardTime := 4
  idleLifetime := 20
  presenceInterval := 10
  pages := Table.const 64 { readOpen := 1, writeSet := 0 }

/-- A peer entry at pin reset (R81). -/
def Peer.reset : Peer where
  presence := .absent
  departure := none
  heardAgain := false
  freshWaiting := false
  timer := .stopped
  record := none
  nextSeq := 0

/-- The submission window at pin reset (R145). -/
def Descriptor.zero : Descriptor := ⟨0, 0, 0, 0, 0, 0, 0⟩

/-- The machine while RESET# is low: every block at its reset contents (R13, R40, R60, R79, R81, R113, R128, R131, R142 to R151). Nothing of the segment is listed; the straps read 0 (log 3). -/
def State.reset : State where
  resetLow := true
  sgm := { words := [], claims := [], clearing := false }
  ge := { table := Table.const 4 none, order := [], undo := [], holds := [], work := [], op := none, following := false }
  sru := { slots := Table.const 4 none, work := [], announced := none, startOfLeaving := false }
  te := { input := none, hand := none, closed := false, queue := [], restarted := none }
  pt := { peers := Table.const 16 Peer.reset }
  re := { queue := [], table := Table.const 8 none, ready := [], completing := [], stalled := false, announced := none, startOfLeaving := false }
  lc := { view := .gap 0, last0 := 15, last1 := 15, slot := .empty, receive := none }
  stc := { state := .clearing, address := 0, rate := 0, active := ConfigRecord.default, staged := ConfigRecord.default, command := none, listen := .stopped, quiet := .stopped, due := none, noGroupOpen := false }
  lp := { cycle := none, nextStrobe := none, latch := none, stagedLow := none, buffers := [], completions := [], events := [], eventsLost := false, snapshot := [], window := Descriptor.zero, postResult := none }
  freeCount := 0
  pending := []

end Sys2Proof.Machine
end

