-- ==== Sys2Proof/Machine/Operands.lean ====
section
/-! DEFINITION. The operands of commands: the fields of frames (section 10.2), read from a received frame's bytes and laid out into a sent one's, and the codes of Tables 10-1 and 10-2. -/

namespace Sys2Proof.Machine

/-! Kind codes (Table 10-1). -/

def kindRd : BitVec 4 := 1
def kindRds : BitVec 4 := 2
def kindWr : BitVec 4 := 3
def kindGopen : BitVec 4 := 4
def kindGwrite : BitVec 4 := 5
def kindGclose : BitVec 4 := 6
def kindGabort : BitVec 4 := 7
def kindPresence : BitVec 4 := 8
def kindReplyData : BitVec 4 := 9
def kindReplyDone : BitVec 4 := 10
def kindReplyDefer : BitVec 4 := 11
def kindReplyBusy : BitVec 4 := 12
def kindReplyRefuse : BitVec 4 := 13

/-- The kind code of a request kind. -/
def ReqKind.code : ReqKind → BitVec 4
  | .rd => kindRd
  | .rds => kindRds
  | .wr => kindWr
  | .gopen => kindGopen
  | .gwrite => kindGwrite
  | .gclose => kindGclose
  | .gabort => kindGabort

/-- The reason code (Table 10-2). -/
def Reason.code : Reason → Byte
  | .malformed => 1
  | .range => 2
  | .notPermitted => 3
  | .conflict => 4
  | .selfHeld => 5
  | .noGroup => 6
  | .groupExists => 7
  | .groupTableFull => 8
  | .logFull => 9
  | .notServing => 10

/-- The presence mark code (Table 10-2). -/
def Mark.code : Mark → Byte
  | .plain => 0
  | .fresh => 1
  | .leaving => 2

/-- The presence mark a code names. -/
def Mark.ofCode (b : Byte) : Option Mark :=
  if b = 0 then some .plain else if b = 1 then some .fresh else if b = 2 then some .leaving else none

/-- The byte that holds a station address (10.2). -/
def addressByte (p : Station) : Byte := BitVec.ofNat 8 (addressOf p)

/-- The station a 16-bit address names: 1 to 16. -/
def stationOfHalf (t : Half) : Option Station :=
  if h : 1 ≤ t.toNat ∧ t.toNat ≤ 16 then some ⟨t.toNat - 1, by omega⟩ else none

/-- The four bytes of a data word, most significant first. -/
def bytesOfWord (w : Word) : List Byte :=
  [w.extractLsb' 24 8, w.extractLsb' 16 8, w.extractLsb' 8 8, w.extractLsb' 0 8]

/-- The data words that bytes hold, four to a word; none when a remainder is left. -/
def wordsOfBytes : List Byte → Option (List Word)
  | [] => some []
  | a :: b :: c :: d :: r => (wordsOfBytes r).map (fun ws => (a ++ b ++ c ++ d) :: ws)
  | _ => none

/-- Data words as bytes. -/
def bytesOfWords : List Word → List Byte
  | [] => []
  | w :: ws => bytesOfWord w ++ bytesOfWords ws

/-- A field of two bytes. -/
def twoBytes (hi lo : Byte) : Nat := hi.toNat * 256 + lo.toNat

/-- The retry mark is the least significant bit of the flags byte; the other bits are ignored (R152). -/
def retryOf (flags : Byte) : Bool := flags.getLsbD 0

/-- The tag is the least significant four bits of the tag byte (R152). -/
def tagOf (b : Byte) : BitVec 4 := b.extractLsb' 0 4

/-- A count of 1 to 16. -/
def countValid (n : Nat) : Bool := decide (1 ≤ n) && decide (n ≤ 16)

/-- The common request header: target, sequence number, flags (Table 10-3). -/
structure Header where
  target : Byte
  seq : Byte
  flags : Byte
  deriving DecidableEq, Repr

/-- The common request header of a frame that is long enough to hold one. -/
def headerOf (f : Frame) : Option Header :=
  match f.body with
  | t :: q :: fl :: _ => some ⟨t, q, fl⟩
  | _ => none

/-- The first address and count that a frame carries in the places an RDS has them (Table 10-3), whatever its length beyond them. -/
def rdsRange (f : Frame) : Option (Nat × Nat) :=
  match f.body with
  | _ :: _ :: _ :: ah :: al :: c :: _ => some (twoBytes ah al, c.toNat)
  | _ => none

/-- Whether a frame is a request frame: of class 1 and not PRESENCE (R61). -/
def isRequest (f : Frame) : Bool := decide (f.cls = .request) && decide (f.kind ≠ kindPresence)

/-- The fields of a GOPEN, GCLOSE or GABORT after the header: one tag byte (Table 10-3). -/
def tagFields (k : ReqKind) (q fl : Byte) : List Byte → Option Request
  | [t] => some { kind := k, seq := q, retry := retryOf fl, tag := tagOf t, addr := 0, data := [], count := 0 }
  | _ => none

/-- The fields of an RD or RDS after the header: address and count, and no data words. -/
def readFields (k : ReqKind) (q fl : Byte) : List Byte → Option Request
  | [ah, al, c] =>
    if countValid c.toNat then
      some { kind := k, seq := q, retry := retryOf fl, tag := 0, addr := twoBytes ah al, data := [], count := c.toNat }
    else none
  | _ => none

/-- Address, count and data words, as many as the count (WR, and GWRITE after its tag). -/
def writeFields (k : ReqKind) (q fl : Byte) (tag : BitVec 4) : List Byte → Option Request
  | ah :: al :: c :: ds =>
    match wordsOfBytes ds with
    | some ws =>
      if countValid c.toNat && decide (ws.length = c.toNat) then
        some { kind := k, seq := q, retry := retryOf fl, tag := tag, addr := twoBytes ah al, data := ws, count := c.toNat }
      else none
    | none => none
  | _ => none

/-- A GWRITE after the header: its tag, then as a WR. -/
def gwriteFields (q fl : Byte) : List Byte → Option Request
  | t :: r => writeFields .gwrite q fl (tagOf t) r
  | [] => none

/-- The request a frame carries; none when it is MALFORMED (R67). -/
def requestOf (f : Frame) : Option Request :=
  match f.body with
  | _ :: q :: fl :: r =>
    if f.kind = kindRd then readFields .rd q fl r
    else if f.kind = kindRds then readFields .rds q fl r
    else if f.kind = kindWr then writeFields .wr q fl 0 r
    else if f.kind = kindGopen then tagFields .gopen q fl r
    else if f.kind = kindGwrite then gwriteFields q fl r
    else if f.kind = kindGclose then tagFields .gclose q fl r
    else if f.kind = kindGabort then tagFields .gabort q fl r
    else none
  | _ => none

/-- What a response says (R104): the reason byte of a REPLY_REFUSE and the count of a REPLY_DONE stand as received (R152). -/
inductive Answer where
  | data (ws : List Word)
  | done (n : Byte)
  | defer
  | busy
  | refuse (code : Byte)
  deriving DecidableEq, Repr

/-- A received response frame. -/
structure ResponseFields where
  requester : Byte
  seq : Byte
  answer : Answer
  deriving DecidableEq, Repr

/-- The fields of a response frame; none when its length does not agree with its kind or, for REPLY_DATA, with the count it carries (R126). A REPLY_DATA with 17 data words and count 17 is of the maximum length and agrees with its count; that it passes is the model's choice (log 29). -/
def responseOf (f : Frame) : Option ResponseFields :=
  match f.body with
  | r :: q :: rest =>
    if f.kind = kindReplyData then
      match rest with
      | c :: ds =>
        match wordsOfBytes ds with
        | some ws => if ws.length = c.toNat then some ⟨r, q, .data ws⟩ else none
        | none => none
      | [] => none
    else if f.kind = kindReplyDone then
      match rest with
      | [n] => some ⟨r, q, .done n⟩
      | _ => none
    else if f.kind = kindReplyDefer then (if rest = [] then some ⟨r, q, .defer⟩ else none)
    else if f.kind = kindReplyBusy then (if rest = [] then some ⟨r, q, .busy⟩ else none)
    else if f.kind = kindReplyRefuse then
      match rest with
      | [n] => some ⟨r, q, .refuse n⟩
      | _ => none
    else none
  | _ => none

/-- The mark of a PRESENCE frame whose length, sender field and mark code are in order (R126). -/
def presenceOf (f : Frame) : Option Mark :=
  if f.cls = .request ∧ f.kind = kindPresence then
    match f.body with
    | [s, m] => if s = addressByte f.sender then Mark.ofCode m else none
    | _ => none
  else none

/-- The format checks of R126, which a frame with a good check must pass to be a good frame. -/
def formatOk (f : Frame) : Bool :=
  decide (f.body.length ≤ Config.maxFrameBytes) &&
  match f.cls with
  | .response => (responseOf f).isSome
  | .request => if f.kind = kindPresence then (presenceOf f).isSome else (headerOf f).isSome

/-- The frame that carries a queued response (Table 10-3). -/
def responseFrame (own : Station) (rank : BitVec 4) (r : Response) : Frame :=
  let head := [addressByte r.requester, r.seq]
  match r.reply with
  | .data ws => ⟨.response, rank, own, kindReplyData, head ++ (BitVec.ofNat 8 ws.length :: bytesOfWords ws)⟩
  | .done n => ⟨.response, rank, own, kindReplyDone, head ++ [BitVec.ofNat 8 n]⟩
  | .defer => ⟨.response, rank, own, kindReplyDefer, head⟩
  | .busy => ⟨.response, rank, own, kindReplyBusy, head⟩
  | .refuse c => ⟨.response, rank, own, kindReplyRefuse, head ++ [c.code]⟩

/-- A PRESENCE frame: the station's own address and the mark (Table 10-3, R122). -/
def presenceFrame (own : Station) (rank : BitVec 4) (m : Mark) : Frame :=
  ⟨.request, rank, own, kindPresence, [addressByte own, m.code]⟩

/-- The flags byte: the retry mark, every other bit sent 0 (R152). -/
def flagsByte (retry : Bool) : Byte := if retry then 1 else 0

/-- The frame of one copy of a request (R100): low eight bits of target and count, all bits of the address, the least significant four bits of the tag (R153). -/
def requestFrame (own : Station) (rank : BitVec 4) (d : Descriptor) (seq : Byte) (retry : Bool) (data : List Word) : Frame :=
  let kind := d.kind.extractLsb' 0 4
  let head := [d.target.extractLsb' 0 8, seq, flagsByte retry]
  let tag : Byte := (d.tag.extractLsb' 0 4).setWidth 8
  let range := [d.address.extractLsb' 8 8, d.address.extractLsb' 0 8, d.count.extractLsb' 0 8]
  let body :=
    if kind = kindRd ∨ kind = kindRds then head ++ range
    else if kind = kindWr then head ++ range ++ bytesOfWords data
    else if kind = kindGwrite then head ++ (tag :: range) ++ bytesOfWords data
    else head ++ [tag]
  ⟨.request, rank, own, kind, body⟩

/-- A reply as its reply record keeps it (R72). -/
def Reply.recorded : Reply → Recorded
  | .data _ => .data
  | .done n => .done n
  | .defer => .defer
  | .busy => .busy
  | .refuse r => .refuse r

/-- The reply a final outcome is replayed as (Table 4-2, R73). -/
def Recorded.replay : Recorded → Option Reply
  | .done n => some (.done n)
  | .refuse r => some (.refuse r)
  | .data => none
  | .defer => none
  | .busy => none

/-- Whether a kind code is WR or a group kind, whose final outcomes are replayed (R73). -/
def replayedKind (k : BitVec 4) : Bool :=
  decide (k = kindWr) || decide (k = kindGopen) || decide (k = kindGwrite) || decide (k = kindGclose) || decide (k = kindGabort)

end Sys2Proof.Machine
end

