-- ==== Sys2Proof/Machine/Flags.lean ====
section
/-! DEFINITION. What software sees as codes and flags: the code values of Table 10-2, and the output pins LRDY, LD and ATTN# (R141, R148), computed from State. -/

namespace Sys2Proof.Machine

/-- Station state codes. -/
def StationState.code : StationState → Half
  | .clearing => 0
  | .setup => 1
  | .listening => 2
  | .joined => 3
  | .leaving => 4

/-- Completion status codes. -/
def Status.code : Status → Half
  | .ok => 1
  | .refused => 2
  | .noResponse => 3
  | .busyLimit => 4
  | .deferralTimeout => 5
  | .peerAbsent => 6
  | .peerRestarted => 7
  | .cancelled => 8
  | .invalid => 9

/-- Departure cause codes. -/
def Departure.code : Departure → Half
  | .silent => 1
  | .left => 2

/-- Codes of the failed check of an INVALID. -/
def Check.code : Check → Half
  | .kind => 1
  | .target => 2
  | .count => 3
  | .buffer => 4

/-- Completion detail codes. -/
def Detail.code : Detail → Half
  | .none => 0
  | .reason b => b.setWidth 16
  | .cause d => d.code
  | .check c => c.code

/-- Abort cause codes. -/
def AbortCause.code : AbortCause → Half
  | .requested => 1
  | .expired => 2
  | .peerLost => 3
  | .peerRestarted => 4
  | .revoked => 5
  | .leaving => 6

/-- Post result codes; 0 is NONE. -/
def postResultCode : Option PostResult → Half
  | none => 0
  | some .accepted => 1
  | some .queueFull => 2
  | some .bufferBusy => 3
  | some .notJoined => 4

/-- Command codes. -/
def Command.code : Command → Half
  | .configure => 1
  | .join => 2
  | .leave => 3
  | .revoke => 4

/-- The command a code names. -/
def Command.ofCode (v : Half) : Option Command :=
  if v = 1 then some .configure else if v = 2 then some .join else if v = 3 then some .leave else if v = 4 then some .revoke else none

/-- Command result codes. -/
def CommandResult.code : CommandResult → Half
  | .accepted => 1
  | .refusedConfig _ _ => 2
  | .wrongState => 3
  | .busy => 4

/-- A station address as a half-word. -/
def addressHalf (p : Station) : Half := BitVec.ofNat 16 (addressOf p)

/-- An event's kind and three fields (Tables 10-2 and 10-7). -/
def Event.halves : Event → Half × Half × Half × Half
  | .peerUp p fresh => (1, addressHalf p, if fresh then 1 else 0, 0)
  | .peerDown p d => (2, addressHalf p, d.code, 0)
  | .groupCommitted p t n => (3, addressHalf p, t.setWidth 16, BitVec.ofNat 16 n)
  | .groupAborted p t c => (4, addressHalf p, t.setWidth 16, c.code)
  | .localWriteRefused a => (5, BitVec.ofNat 16 a, 0, 0)
  | .stateChanged st => (6, st.code, 0, 0)

/-- LRDY (R141): high once the work of the cycle in progress is done and until the cycle ends. -/
def State.lrdy (s : State) : Bool :=
  match s.lp.cycle with
  | some ⟨_, _, .done _⟩ => true
  | _ => false

/-- The half-word driven on LD, if any (R141): the result of a read whose work is done, until the cycle ends. -/
def State.ld (s : State) : Option Half :=
  match s.lp.cycle with
  | some ⟨.read _, _, .done v⟩ => some v
  | _ => none

/-- ATTN# is asserted while the completion queue or the event queue holds an entry (R148). -/
def State.attention (s : State) : Bool := !s.lp.completions.isEmpty || !s.lp.events.isEmpty

end Sys2Proof.Machine
end

