-- ==== Sys2Proof/Machine/Wire.lean ====
section
/-! DEFINITION. A frame as bits on the line (R116) and its reception (R125, R126). A bit is true when recessive (1) and false when dominant (0). The start delimiter is not part of these bits. -/

namespace Sys2Proof.Machine

/-- The bits of a field, most significant first (R116). -/
def msbFirst {n : Nat} (w : BitVec n) : List Bool := (List.range n).map (fun i => w.getLsbD (n - 1 - i))

/-- The number bits spell, most significant first. -/
def ofMsbFirst (bs : List Bool) : Nat := bs.foldl (fun a b => 2 * a + b.toNat) 0

/-- The class bit: 0 for responses, 1 for requests. -/
def classBit : FrameClass → Bool
  | .response => false
  | .request => true

/-- The address field of a key: the station address minus 1. -/
def addressField (p : Station) : BitVec 4 := BitVec.ofNat 4 p.val

/-- The nine-bit arbitration key (R116). -/
def keyOf (c : FrameClass) (rank : BitVec 4) (p : Station) : BitVec 9 :=
  BitVec.ofBool (classBit c) ++ rank ++ addressField p

/-- The bits from the first bit of the key to the last bit of the fields, before stuffing: key, kind (4), length (8), fields. -/
def payloadBits (f : Frame) : List Bool :=
  msbFirst (keyOf f.cls f.rank f.sender) ++ msbFirst f.kind ++ msbFirst (BitVec.ofNat 8 f.body.length) ++ f.body.flatMap msbFirst

/-- One bit into the check register, generator x^16 + x^12 + x^5 + 1 (R116). -/
def crcStep (r : BitVec 16) (b : Bool) : BitVec 16 :=
  if (r.getLsbD 15) != b then (r <<< 1) ^^^ 0x1021#16 else r <<< 1

/-- The check over bits, the register preset to all ones (R116). -/
def crc (bs : List Bool) : BitVec 16 := bs.foldl crcStep 0xFFFF#16

/-- Stuffing (R116): after seven equal bits in a row, stuff bits counted, a bit of the other state. `last` and `run` are the last bit sent and how many times it stands. -/
def stuff : Bool → Nat → List Bool → List Bool
  | _, _, [] => []
  | last, run, b :: bs =>
    let run' := if b = last then run + 1 else 1
    if run' = 7 then b :: (!b) :: stuff (!b) 1 bs else b :: stuff b run' bs

/-- The stuff bit within a key (R116, R118): a bit of the other state after seven equal key bits, where a key bit follows. A stuff bit after the ninth key bit is not within the key. -/
def keyStuffBit (k : BitVec 9) : Option Bool :=
  let first := k.extractLsb' 2 7
  let second := k.extractLsb' 1 7
  if first = 0 ∨ first = 127 ∨ second = 0 ∨ second = 127 then some (!k.getLsbD 2) else none

/-- The bits of a frame after its start delimiter: payload and check, stuffed, and the dominant end mark. -/
def frameBits (f : Frame) : List Bool :=
  stuff false 0 (payloadBits f ++ msbFirst (crc (payloadBits f))) ++ [false]

/-- Why bits are not those of a good frame (R126). `cutOff`: they end before the frame does, at none of the ends of R125. -/
inductive Discard where
  | stuffing
  | cutOff
  | overLength
  | missingEndMark
  | badCheck
  | badFormat
  deriving DecidableEq, Repr

/-- The reader's place in the bits: the last bit read, its run, the bits left. -/
structure Reader where
  last : Bool
  run : Nat
  rest : List Bool
  deriving DecidableEq, Repr

/-- Remove the stuff bit that follows a run of seven; an eighth equal bit is a stuffing violation (R116, R125). -/
def unstuff (r : Reader) : Except Discard Reader :=
  if r.run = 7 then
    match r.rest with
    | [] => .error .cutOff
    | x :: bs => if x = r.last then .error .stuffing else .ok ⟨x, 1, bs⟩
  else .ok r

/-- Read n bits, removing the stuff bits before them (R116, R125). -/
def readBits : Nat → Reader → Except Discard (List Bool × Reader)
  | 0, r => .ok ([], r)
  | n + 1, r =>
    match unstuff r with
    | .error e => .error e
    | .ok r =>
      match r.rest with
      | [] => .error .cutOff
      | b :: bs =>
        match readBits n ⟨b, if b = r.last then r.run + 1 else 1, bs⟩ with
        | .ok (w, r') => .ok (b :: w, r')
        | .error e => .error e

/-- The bytes that bits spell, eight to a byte. -/
def bytesOfBits : Nat → List Bool → List Byte
  | 0, _ => []
  | n + 1, bs => BitVec.ofNat 8 (ofMsbFirst (bs.take 8)) :: bytesOfBits n (bs.drop 8)

/-- The frame that the 21 bits of key, kind and length and the bits of the fields spell. -/
def frameOfBits (h : List Bool) (fields : List Bool) : Frame where
  cls := if h.headD false then .request else .response
  rank := BitVec.ofNat 4 (ofMsbFirst ((h.drop 1).take 4))
  sender := Fin.ofNat 16 (ofMsbFirst ((h.drop 5).take 4))
  kind := BitVec.ofNat 4 (ofMsbFirst ((h.drop 9).take 4))
  body := bytesOfBits (ofMsbFirst (h.drop 13)) fields

/-- The end of a reception, after the stuff bit that may follow the check: the end mark must be dominant, the check right, the format in order (R116, R125, R126). -/
def finishReception (h fields check : List Bool) (r : Reader) : Except Discard Frame :=
  match unstuff r with
  | .error e => .error e
  | .ok r =>
    match r.rest with
    | [] => .error .cutOff
    | true :: _ => .error .missingEndMark
    | false :: _ =>
      if check = msbFirst (crc (h ++ fields)) then
        if formatOk (frameOfBits h fields) then .ok (frameOfBits h fields) else .error .badFormat
      else .error .badCheck

/-- Reception of a frame from the bits after its start delimiter (R125, R126): the good frame, or why it is discarded. -/
def receive (bits : List Bool) : Except Discard Frame :=
  match readBits 21 ⟨false, 0, bits⟩ with
  | .error e => .error e
  | .ok (h, r) =>
    let n := ofMsbFirst (h.drop 13)
    if Config.maxFrameBytes < n then .error .overLength
    else
      match readBits (8 * n) r with
      | .error e => .error e
      | .ok (fields, r') =>
        match readBits 16 r' with
        | .error e => .error e
        | .ok (check, r'') => finishReception h fields check r''

/-- Whether the bits are those of a frame that has ended and is not good (R125, R126). -/
def isDiscarded (bits : List Bool) : Bool :=
  match receive bits with
  | .ok _ => false
  | .error .cutOff => false
  | .error _ => true

end Sys2Proof.Machine
end

