-- ==== Sys2Proof/Machine/Ops.lean ====
section
/-! DEFINITION. The operations the blocks share: segment reads and hold tests, claims, events, deferred slots, answers to requests, peer entries, and offers to the transmit slot. -/

namespace Sys2Proof.Machine

/-- The three outcomes of a command. -/
abbrev Answered := Host.Outcome State Fault Refusal

/-! ### The segment (chapter 1) -/

/-- The stored value of a segment word (R1). -/
def storedWord (s : State) (a : Nat) : Word := Mem.read s.sgm.words a

/-- The group that holds a word (R6, R20). -/
def heldBy (s : State) (a : Nat) : Option (Fin 4) := Sparse.get s.ge.holds a

/-- The log list of a group, in order of first write (R19). -/
def logOf (undo : List UndoEntry) (g : Fin 4) : List UndoEntry := undo.filter (fun e => e.group = g)

/-- The old value a group's log list keeps for a word (R7). -/
def oldValue (undo : List UndoEntry) (g : Fin 4) (a : Nat) : Option Word :=
  ((logOf undo g).find? (fun e => e.addr = a)).map (·.old)

/-- The committed image of a word (R7). -/
def committed (s : State) (a : Nat) : Word :=
  match heldBy s a with
  | none => storedWord s a
  | some g => (oldValue s.ge.undo g a).getD (storedWord s a)

/-- The addresses of a range. -/
def rangeOf (addr count : Nat) : List Nat := List.range' addr count

/-- A range is held when at least one of its words is (R6). -/
def rangeHeld (s : State) (addr count : Nat) : Bool := (rangeOf addr count).any (fun a => (heldBy s a).isSome)

/-- The range test (R2). -/
def rangeValid (addr count : Nat) : Bool := decide (addr + count ≤ Config.segmentWords)

/-- The pages a valid range covers (R2): that of its first word and that of its last. -/
def pagesOf (addr count : Nat) : List (Fin 64) := [Fin.ofNat 64 (addr / 64), Fin.ofNat 64 ((addr + count - 1) / 64)]

/-- The read permission test (R4). -/
def readPermitted (s : State) (addr count : Nat) : Bool :=
  (pagesOf addr count).all (fun p => decide ((s.stc.active.pages.at p).readOpen = 1))

/-- The write permission test (R5, R154). -/
def writePermitted (s : State) (p : Station) (addr count : Nat) : Bool :=
  (pagesOf addr count).all (fun q => (s.stc.active.pages.at q).writeSet.getLsbD p.val)

/-- Store words at consecutive addresses. -/
def storeWords (addr : Nat) (ws : List Word) (s : State) : State :=
  { s with sgm := { s.sgm with words := s.sgm.words.writeAll addr ws } }

/-! ### The segment access arbiter (R10, R12) -/

/-- Present a claim: it arrives behind those already waiting. -/
def presentClaim (c : Claimant) (s : State) : State :=
  { s with sgm := { s.sgm with claims := s.sgm.claims ++ [c] } }

/-- Whether a waiting claim may yet arrive later than its place shows. The manual leaves open how soon after a release notice the SRU presents a capture claim (R11, section 2.12, log 8), how soon after its previous claim has ended or been withdrawn the SRU presents that of an evaluation handed over behind other work (R45, log 33), and how soon after one rollback claim of a list the GE presents the next (R31, log 32): each has the earliest place it can have. -/
def mayArriveLater (s : State) : Claimant → Bool
  | .sru =>
    match s.sru.work with
    | .capture _ :: _ => true
    | .evaluate behind :: _ => behind
    | [] => false
  | .ge => s.ge.following
  | _ => false

/-- Whether the arbiter can grant this claimant's claim next (R12): it waits, and no claim stands before it but those that may arrive later (logs 8, 32 and 33). -/
def granted (c : Claimant) (s : State) : Bool :=
  !s.sgm.clearing && s.sgm.claims.contains c && (s.sgm.claims.takeWhile (· ≠ c)).all (mayArriveLater s)

/-- The claim granted leaves the waiting claims, and the others keep their order (R12). -/
def takeClaim (c : Claimant) (s : State) : State := { s with sgm := { s.sgm with claims := s.sgm.claims.erase c } }

/-! ### Free values -/

/-- The next free value (logs 9 and 37). -/
def countFree (s : State) : State := { s with freeCount := s.freeCount + 1 }

/-! ### Events (R147) -/

/-- Append an event, or set the events-lost flag when the queue is full. -/
def postEvent (e : Event) (s : State) : State :=
  if s.lp.events.length < Config.eventEntries then { s with lp := { s.lp with events := s.lp.events ++ [e] } }
  else { s with lp := { s.lp with eventsLost := true } }

/-! ### Deferred slots (chapter 3) -/

/-- Replace the SRU's work. The claim of its first work is the one at the arbiter (R45): when the first work changes, its claim is withdrawn and the new first one's takes its place among the waiting claims at once. R45 says only that it is presented after the previous one; until it is granted, a claim behind it may still be granted before it (`granted`, the model's choice: log 8 for a capture, log 33 for an evaluation that stood behind other work). -/
def setSruWork (w : List SruWork) (s : State) : State :=
  let s' : State := { s with sru := { s.sru with work := w } }
  if s.sru.work.head? = w.head? then s'
  else
    let rest := s.sgm.claims.erase .sru
    { s' with sgm := { s.sgm with claims := if w = [] then rest else rest ++ [.sru] } }

/-- Free a slot for any cause: its timer stops, its data is dropped and a pending capture is withdrawn (R53). -/
def freeSlot (i : Fin 4) (s : State) : State :=
  setSruWork (s.sru.work.filter (fun w => w ≠ .capture i))
    { s with sru := { s.sru with slots := s.sru.slots.put i none } }

/-- The slot a requester holds (R43). -/
def slotOf (s : State) (p : Station) : Option (Fin 4) :=
  all4.find? (fun i => decide ((s.sru.slots.at i).map (·.requester) = some p))

/-- Free the slot a requester holds, if it has one. -/
def freeSlotOf (p : Station) (s : State) : State :=
  match slotOf s p with
  | some i => freeSlot i s
  | none => s

/-- What a report of stored addresses makes of a slot (R54): READY with a stored word in its range, it is discarded. -/
def slotAfterStore (addrs : List Nat) (sl : Option Slot) : Option Slot :=
  match sl with
  | some ⟨p, q, a, n, .ready ws, t⟩ =>
    if addrs.any (fun b => decide (a ≤ b) && decide (b < a + n)) then none else some ⟨p, q, a, n, .ready ws, t⟩
  | other => other

/-- The report of stored addresses a storing claim makes (R11, R54). -/
def reportStores (addrs : List Nat) (s : State) : State :=
  { s with sru := { s.sru with slots := s.sru.slots.each (slotAfterStore addrs) } }

/-- Whether a slot is WAITING without capture pending, and its range is free (R51). -/
def capturable (s : State) (sl : Option Slot) : Bool :=
  match sl with
  | some ⟨_, _, a, n, .waiting false, _⟩ => !rangeHeld s a n
  | _ => false

/-- A slot with capture pending set. -/
def markPending (sl : Slot) : Slot := { sl with state := .waiting true }

/-- The release notice (R51): every WAITING slot whose range is now free is marked, and the captures are queued in slot order. The first capture claim takes its place among the waiting claims at once; until it is granted, a claim that arrives later may still be granted before it (`granted`, log 8). -/
def releaseNotice (s : State) : State :=
  let marked := all4.filter (fun i => capturable s (s.sru.slots.at i))
  setSruWork (s.sru.work ++ marked.map .capture)
    { s with sru := { s.sru with slots := s.sru.slots.each (fun sl => if capturable s sl then sl.map markPending else sl) } }

/-! ### Answers (section 4.3, section 4.4) -/

/-- Change a peer entry. -/
def updatePeer (p : Station) (f : Peer → Peer) (s : State) : State :=
  { s with pt := { s.pt with peers := s.pt.peers.put p (f (s.pt.peers.at p)) } }

/-- Append an entry to the response queue (R75). -/
def queueResponse (p : Station) (seq : Byte) (r : Reply) (s : State) : State :=
  { s with te := { s.te with queue := s.te.queue ++ [⟨p, seq, r, 0, false⟩] } }

/-- Write the requester's reply record, then append the response (R72). -/
def answer (p : Station) (seq : Byte) (kind : BitVec 4) (r : Reply) (s : State) : State :=
  queueResponse p seq r (updatePeer p (fun e => { e with record := some ⟨seq, kind, r.recorded⟩ }) s)

/-- End the evaluation of the frame in hand with an outcome; none is "dropped", without response and record (R72). -/
def finishHand (r : Option Reply) (s : State) : State :=
  match s.te.hand with
  | none => s
  | some h =>
    let s' : State := { s with te := { s.te with hand := none } }
    match r with
    | none => s'
    | some r => answer h.sender h.req.seq h.req.kind.code r s'

/-! ### Offers to the transmit slot (section 7.5) -/

/-- Withdraw an offer (R122): chosen or contending, it leaves the slot; on the line, the frame is completed and its report has no effect. -/
def TxSlot.without (o : Offer) : TxSlot → TxSlot
  | .empty => .empty
  | .chosen o' => if o' = o then .empty else .chosen o'
  | .contending o' k => if o' = o then .empty else .contending o' k
  | .onLine o' f b orphan => .onLine o' f b (orphan || decide (o' = o))

/-- Withdraw an offer from the transmit slot. -/
def withdrawOffer (o : Offer) (s : State) : State :=
  { s with lc := { s.lc with slot := s.lc.slot.without o } }

/-- The offer that is on the line, with an owner that waits for its report. -/
def onLineOffer (s : State) : Option Offer :=
  match s.lc.slot with
  | .onLine o _ _ false => some o
  | _ => none

/-- Transmit selection (R121): what the LC may choose in the station state, in the order of the rule. -/
def selectOffer (s : State) : Option Offer :=
  match s.stc.state with
  | .clearing => none
  | .setup => none
  | .listening => if s.stc.due = some .fresh then some (.presence .fresh) else none
  | _ =>
    if s.te.queue ≠ [] then some .response
    else
      match s.stc.due with
      | some m => some (.presence m)
      | none => (s.re.ready.find? (fun e => onLineOffer s ≠ some (.request e))).map .request

/-- The slot that selection gives. -/
def TxSlot.ofOffer : Option Offer → TxSlot
  | none => .empty
  | some o => .chosen o

/-- While the line is IDLE, the LC chooses whenever an offer appears or is withdrawn (R121). -/
def reselect (s : State) : State :=
  if s.lc.view = .idle then { s with lc := { s.lc with slot := TxSlot.ofOffer (selectOffer s) } } else s

/-- A command's effect, after which the LC chooses again if the line is IDLE. -/
def nextWithSelection (s : State) : Answered := .next (reselect s)

/-! ### Times from the active configuration record (Tables 8-2 and 10-6), in microseconds -/

def responseWindow (s : State) : Timer := .running s.stc.active.responseWindow.toNat
def retryInterval (s : State) : Timer := .running s.stc.active.retryInterval.toNat
def deferralDeadline (s : State) : Timer := .running (1000 * s.stc.active.deferralDeadline.toNat)
def discardTime (s : State) : Timer := .running (1000 * s.stc.active.discardTime.toNat)
def idleLifetime (s : State) : Timer := .running (1000 * s.stc.active.idleLifetime.toNat)
def presenceInterval (s : State) : Timer := .running (1000 * s.stc.active.presenceInterval.toNat)
def listenTime (s : State) : Timer := .running (2 * (1000 * s.stc.active.presenceInterval.toNat))
def absenceTime (s : State) : Timer := .running (3 * (1000 * s.stc.active.presenceInterval.toNat))

/-- Whether a timer runs. -/
def Timer.isRunning : Timer → Bool
  | .stopped => false
  | .running _ => true

end Sys2Proof.Machine
end

