-- ==== Sys2Proof/Machine/Requester.lean ====
section
/-! DEFINITION. The Requester Engine (chapter 6): admission, copies, responses, completion, announcements, leaving; and the commands that are its own steps. -/

namespace Sys2Proof.Machine

/-! ### The table, the queue and the loans -/

/-- Replace an outstanding entry; none is FREE. -/
def putEntry (e : Fin 8) (x : Option Entry) (s : State) : State :=
  { s with re := { s.re with table := s.re.table.put e x } }

/-- The buffer a descriptor references (section 6.1). -/
def bufferOf (d : Descriptor) : Option (Fin 16) :=
  if d.kind = 1 ∨ d.kind = 2 ∨ d.kind = 3 ∨ d.kind = 5 then
    if h : d.buffer.toNat < 16 then some ⟨d.buffer.toNat, h⟩ else none
  else none

/-- A buffer is lent while a queued descriptor or an entry that is not FREE references it (R94, R95). -/
def lent (s : State) (b : Fin 16) : Bool :=
  s.re.queue.any (fun q => decide (bufferOf q.desc = some b)) ||
  all8.any (fun e => decide ((s.re.table.at e).bind (fun x => bufferOf x.desc) = some b))

/-- The key of word j of buffer b in the buffers' memory. -/
def bufferKey (b j : Nat) : Nat := 16 * b + j

/-- The data words a copy of a WR or GWRITE carries: words 0 to count−1 of its buffer (R95). -/
def bufferData (s : State) (d : Descriptor) : List Word :=
  match bufferOf d with
  | some b => (List.range d.count.toNat).map (fun j => s.lp.buffers.read (bufferKey b.val j))
  | none => []

/-- Write the data words of a REPLY_DATA into the entry's buffer from word 0 (R95). -/
def writeBuffer (d : Descriptor) (ws : List Word) (s : State) : State :=
  match bufferOf d with
  | some b => { s with lp := { s.lp with buffers := s.lp.buffers.writeAll (bufferKey b.val 0) ws } }
  | none => s

/-- Whether an entry that is not FREE has this target (R96). -/
def targetTaken (s : State) (t : Half) : Bool :=
  all8.any (fun e => decide ((s.re.table.at e).map (fun x => x.desc.target) = some t))

/-- The lowest-numbered FREE entry (R97). -/
def freeEntry (s : State) : Option (Fin 8) := all8.find? (fun e => (s.re.table.at e).isNone)

/-- The candidate: the oldest queued descriptor whose target has no entry that is not FREE (R96). -/
def candidate (s : State) : Option Queued := s.re.queue.find? (fun q => !targetTaken s q.desc.target)

/-- The kinds that use count and buffer (section 6.1). -/
def usesBuffer (k : Half) : Bool := decide (k = 1) || decide (k = 2) || decide (k = 3) || decide (k = 5)

/-- The peer check of admission (R97, step 5). -/
def peerCheck (e : Peer) : Option (Status × Detail) :=
  match e.presence, e.departure with
  | .absent, _ => some (.peerAbsent, .cause .silent)
  | .present, some d => some (.peerAbsent, .cause d)
  | .present, none => none

/-- The checks of the candidate, in order (R97): the status and detail of the first that fails. -/
def checkDescriptor (s : State) (d : Descriptor) : Option (Status × Detail) :=
  if ¬ (1 ≤ d.kind.toNat ∧ d.kind.toNat ≤ 7) then some (.invalid, .check .kind)
  else
    match stationOfHalf d.target with
    | none => some (.invalid, .check .target)
    | some p =>
      if p = s.stc.address then some (.invalid, .check .target)
      else if usesBuffer d.kind && !countValid d.count.toNat then some (.invalid, .check .count)
      else if usesBuffer d.kind && decide (15 < d.buffer.toNat) then some (.invalid, .check .buffer)
      else peerCheck (s.pt.peers.at p)

/-- Whether the completion queue has space (R146). -/
def completionSpace (s : State) : Bool := decide (s.lp.completions.length < Config.completionEntries)

/-- Append a completion. -/
def postCompletion (c : Completion) (s : State) : State :=
  { s with lp := { s.lp with completions := s.lp.completions ++ [c] } }

/-- The completion of a descriptor (R109). -/
def completionFor (d : Descriptor) (st : Status) (dt : Detail) (words attempts : Nat) : Completion :=
  ⟨d.userTag, d.kind, d.target, st, dt, words, d.buffer, attempts⟩

/-! ### Admission (section 6.2) -/

/-- Take a descriptor out of the submission queue. -/
def dequeue (q : Queued) (s : State) : State := { s with re := { s.re with queue := s.re.queue.erase q } }

/-- Retire a descriptor with a completion of 0 words and 0 attempts (R97). -/
def retire (q : Queued) (st : Status) (dt : Detail) (s : State) : State :=
  postCompletion (completionFor q.desc st dt 0 0) (dequeue q s)

/-- An entry as admission makes it (R99). -/
def freshEntry (d : Descriptor) (seq : Byte) : Entry :=
  { desc := d, seq := seq, state := .readyToSend, attempts := 0, lost := 0, busy := 0, deferred := false, deadlinePassed := false, window := .stopped, backoff := .stopped, deadline := .stopped, result := none }

/-- Place an entry last in the ready order (R100). -/
def makeReady (e : Fin 8) (s : State) : State := { s with re := { s.re with ready := s.re.ready ++ [e] } }

/-- Admit a descriptor that has passed every check (R97, R98). -/
def admitEntry (e : Fin 8) (q : Queued) (s : State) : State :=
  match stationOfHalf q.desc.target with
  | none => s
  | some p =>
    makeReady e (putEntry e (some (freshEntry q.desc (s.pt.peers.at p).nextSeq))
      (updatePeer p (fun x => { x with nextSeq := x.nextSeq + 1 }) (dequeue q s)))

/-- Mark admission stalled (R97). -/
def stall (s : State) : State := { s with re := { s.re with stalled := true } }

/-- Attempts at admission, at most n, until a condition of R96 fails or a stall stops it. Each takes one descriptor from the queue. -/
def attemptAdmission : Nat → State → State
  | 0, s => s
  | n + 1, s =>
    if s.stc.state = .joined ∧ s.re.stalled = false then
      match freeEntry s, candidate s with
      | some e, some q =>
        match checkDescriptor s q.desc with
        | some (st, dt) => if completionSpace s then attemptAdmission n (retire q st dt s) else stall s
        | none => attemptAdmission n (admitEntry e q s)
      | _, _ => s
    else s

/-- Admission, as often as the conditions of R96 hold. -/
def admission (s : State) : State := attemptAdmission s.re.queue.length s

/-! ### Finishing (R99, R109) -/

/-- An entry with its three timers stopped. -/
def Entry.stopTimers (x : Entry) : Entry := { x with window := .stopped, backoff := .stopped, deadline := .stopped }

/-- The entry leaves the ready order and its offer is withdrawn (R99, R122). -/
def retractEntry (e : Fin 8) (s : State) : State :=
  withdrawOffer (.request e) { s with re := { s.re with ready := s.re.ready.erase e } }

/-- An outstanding entry finishes (R99, R109): its completion is posted and it becomes FREE, or it waits in COMPLETING. -/
def finishEntry (e : Fin 8) (st : Status) (dt : Detail) (words : Nat) (s : State) : State :=
  match s.re.table.at e with
  | none => s
  | some x =>
    let s' := retractEntry e s
    if completionSpace s then
      admission (putEntry e none (postCompletion (completionFor x.desc st dt words x.attempts) s'))
    else
      let s'' := putEntry e (some { x.stopTimers with state := .completing, result := some ⟨st, dt, words⟩ }) s'
      { s'' with re := { s''.re with completing := s''.re.completing ++ [e] } }

/-- Post the results waiting in COMPLETING, oldest first, while the completion queue has space (R109); at most n. -/
def postWaiting : Nat → State → State
  | 0, s => s
  | n + 1, s =>
    match s.re.completing with
    | [] => s
    | e :: es =>
      if completionSpace s then
        let s' : State := { s with re := { s.re with completing := es } }
        match s.re.table.at e with
        | some x =>
          match x.result with
          | some r => postWaiting n (putEntry e none (postCompletion (completionFor x.desc r.status r.detail r.words x.attempts) s'))
          | none => postWaiting n (putEntry e none s')
        | none => postWaiting n s'
      else s

/-- Retire the descriptors marked cancelled, oldest first, as space allows and after those waiting in COMPLETING (R111); at most n. -/
def retireCancelled : Nat → State → State
  | 0, s => s
  | n + 1, s =>
    if s.re.completing = [] ∧ completionSpace s = true then
      match s.re.queue.find? (·.cancelled) with
      | some q => retireCancelled n (retire q .cancelled .none s)
      | none => s
    else s

/-- The completion queue has gained space (R97, R109, R111): waiting results are posted, then cancelled descriptors are retired; when none waits in COMPLETING a stall ends; then admission is attempted. The candidate is then the oldest descriptor that qualifies (R96), which an older one may have come to be because a posted result has freed its target; R97 leaves open whether the stalled descriptor would be checked before it (the model's choice, log 34). -/
def completionSpaceGained (s : State) : State :=
  let s1 := postWaiting s.re.completing.length s
  let s2 := retireCancelled s1.re.queue.length s1
  let s3 : State := if s2.re.completing = [] then { s2 with re := { s2.re with stalled := false } } else s2
  admission s3

/-! ### Posting (R94) -/

/-- Keep the result of a POST. -/
def setPostResult (r : PostResult) (s : State) : State := { s with lp := { s.lp with postResult := some r } }

/-- Append a descriptor to the submission queue. -/
def enqueue (d : Descriptor) (s : State) : State := { s with re := { s.re with queue := s.re.queue ++ [⟨d, false⟩] } }

/-- Whether a descriptor references a buffer that is lent. -/
def bufferBusy (s : State) (d : Descriptor) : Bool :=
  match bufferOf d with
  | some b => lent s b
  | none => false

/-- The post result of a descriptor (R94). -/
def decidePost (s : State) (d : Descriptor) : PostResult :=
  if s.stc.state ≠ .joined then .notJoined
  else if Config.submissionEntries ≤ s.re.queue.length then .queueFull
  else if bufferBusy s d then .bufferBusy
  else .accepted

/-- A POST of the submission window (R94, R145), after which admission is attempted (R96). -/
def postWindow (s : State) : State :=
  match decidePost s s.lp.window with
  | .accepted => admission (enqueue s.lp.window (setPostResult .accepted s))
  | r => setPostResult r s

/-! ### The end of a copy's transmission (R101) -/

/-- Change a live entry in place. -/
def updateEntry (e : Fin 8) (f : Entry → Entry) (s : State) : State :=
  putEntry e ((s.re.table.at e).map f) s

/-- Attempts raised by 1, held at 255. -/
def Entry.attempted (x : Entry) : Entry := { x with attempts := min 255 (x.attempts + 1) }

/-- An entry enters BACKOFF with its backoff timer started at the retry interval. -/
def Entry.backOff (t : Timer) (x : Entry) : Entry := { x with state := .backoff, window := .stopped, backoff := t }

/-- An entry leaves the ready order. -/
def leaveReady (e : Fin 8) (s : State) : State := { s with re := { s.re with ready := s.re.ready.erase e } }

/-- The attempt counts as lost (R101, R102). -/
def attemptLost (e : Fin 8) (x : Entry) (s : State) : State :=
  let x' := { x with lost := x.lost + 1 }
  let s' := putEntry e (some x') s
  if s.stc.active.lostLimit.toNat < x'.lost then finishEntry e .noResponse .none 0 s'
  else leaveReady e (putEntry e (some (x'.backOff (retryInterval s))) s')

/-- A copy ended without a response: a transmit fault (R101) or the expiry of the response window (R102). -/
def copyUnanswered (e : Fin 8) (x : Entry) (s : State) : State :=
  if x.deadlinePassed then finishEntry e .deferralTimeout .none 0 s
  else if s.stc.state = .leaving then finishEntry e .cancelled .none 0 s
  else attemptLost e x s

/-- The RE takes the report sent of an entry's copy (R101). -/
def copySent (e : Fin 8) (s : State) : State :=
  leaveReady e (updateEntry e (fun x => { x.attempted with state := .awaitResponse, window := responseWindow s }) s)

/-- The RE takes the report fault of an entry's copy (R101). -/
def copyFaulted (e : Fin 8) (s : State) : State :=
  match s.re.table.at e with
  | none => s
  | some x => copyUnanswered e x.attempted (putEntry e (some x.attempted) s)

/-! ### Responses (section 6.5) -/

/-- Whether a response can match an entry in its state (R104). -/
def matchable (s : State) (e : Fin 8) (x : Entry) : Bool :=
  match x.state with
  | .awaitResponse => true
  | .backoff => true
  | .readyToSend => decide (1 ≤ x.attempts) && decide (onLineOffer s ≠ some (.request e))
  | .completing => false

/-- Whether the response of this sender and sequence number matches an entry (R104). -/
def entryMatches (s : State) (p : Station) (seq : Byte) (e : Fin 8) : Bool :=
  match s.re.table.at e with
  | none => false
  | some x => matchable s e x && decide (stationOfHalf x.desc.target = some p) && decide (x.seq = seq)

/-- The entry a response matches (R104). -/
def matchingEntry (s : State) (p : Station) (seq : Byte) : Option (Fin 8) := all8.find? (entryMatches s p seq)

/-- Deferral start set and the deadline timer started at the first REPLY_DEFER; the lost count back to 0 (R106). -/
def Entry.noteDeferral (t : Timer) (x : Entry) : Entry :=
  { x with deferred := true, deadline := if x.deferred then x.deadline else t, lost := 0 }

/-- Whether the response is timely (R104). -/
def Entry.timely (x : Entry) : Bool := decide (x.state = .awaitResponse)

/-- After a timely REPLY_DEFER or REPLY_BUSY that does not finish the entry: BACKOFF, or CANCELLED in LEAVING (R106, R107). -/
def backOffOrCancel (e : Fin 8) (x : Entry) (s : State) : State :=
  if s.stc.state = .leaving then finishEntry e .cancelled .none 0 (putEntry e (some x) s)
  else putEntry e (some (x.backOff (retryInterval s))) s

/-- A matching REPLY_DEFER (R106). -/
def takeDefer (e : Fin 8) (x : Entry) (s : State) : State :=
  let x' := x.noteDeferral (deferralDeadline s)
  if x.timely then
    if x.deadlinePassed then finishEntry e .deferralTimeout .none 0 s else backOffOrCancel e x' s
  else putEntry e (some x') s

/-- A matching REPLY_BUSY (R107). -/
def takeBusy (e : Fin 8) (x : Entry) (s : State) : State :=
  if x.timely then
    if x.deadlinePassed then finishEntry e .deferralTimeout .none 0 s
    else
      let x' := { x with busy := x.busy + 1, lost := 0 }
      if s.stc.active.busyLimit.toNat < x'.busy then finishEntry e .busyLimit .none 0 (putEntry e (some x') s)
      else backOffOrCancel e x' s
  else s

/-- A response that matches entry e (R104 to R107); of a kind the entry cannot receive, it is discarded. -/
def takeAnswer (e : Fin 8) (x : Entry) (a : Answer) (s : State) : State :=
  match a with
  | .refuse c => finishEntry e .refused (.reason c) 0 s
  | .data ws =>
    if (x.desc.kind = 1 ∨ x.desc.kind = 2) ∧ ws.length = x.desc.count.toNat then
      finishEntry e .ok .none ws.length (writeBuffer x.desc ws s)
    else s
  | .done n =>
    if x.desc.kind = 1 ∨ x.desc.kind = 2 then s else finishEntry e .ok .none n.toNat s
  | .defer => if x.desc.kind = 2 then takeDefer e x s else s
  | .busy => if x.desc.kind = 2 then takeBusy e x s else s

/-- The RE takes a response frame passed to it (R104). -/
def takeResponse (p : Station) (r : ResponseFields) (s : State) : State :=
  match matchingEntry s p r.seq with
  | none => s
  | some e =>
    match s.re.table.at e with
    | none => s
    | some x => takeAnswer e x r.answer s

/-! ### Announcements and leaving (section 6.7) -/

/-- The peer an announcement names. -/
def Announcement.peer : Announcement → Station
  | .lost p => p
  | .departed p => p
  | .restarted p => p

/-- The status an announcement finishes an entry with (R110). -/
def Announcement.status : Announcement → Status × Detail
  | .lost _ => (.peerAbsent, .cause .silent)
  | .departed _ => (.peerAbsent, .cause .left)
  | .restarted _ => (.peerRestarted, .none)

/-- Whether an entry is live: not FREE and not COMPLETING. -/
def Entry.live (x : Entry) : Bool := decide (x.state ≠ .completing)

/-- The live entry toward a peer (R110). -/
def liveEntryToward (s : State) (p : Station) : Option (Fin 8) :=
  all8.find? (fun e =>
    match s.re.table.at e with
    | none => false
    | some x => x.live && decide (stationOfHalf x.desc.target = some p))

/-- The RE takes the announcement that waits (R110). -/
def reTakeAnnouncement (s : State) : State :=
  match s.re.announced with
  | none => s
  | some a =>
    let s' : State := { s with re := { s.re with announced := none } }
    match liveEntryToward s' a.peer with
    | none => s'
    | some e => finishEntry e a.status.1 a.status.2 0 s'

/-- Whether the start of LEAVING cancels an entry: READY_TO_SEND not on the line, or BACKOFF (R111). -/
def cancelledAtLeaving (s : State) (e : Fin 8) : Bool :=
  match s.re.table.at e with
  | none => false
  | some x =>
    match x.state with
    | .readyToSend => decide (onLineOffer s ≠ some (.request e))
    | .backoff => true
    | .awaitResponse => false
    | .completing => false

/-- Cancel the entries of a list, in order (R111, step 1). -/
def cancelEntries : List (Fin 8) → State → State
  | [], s => s
  | e :: es, s => cancelEntries es (if cancelledAtLeaving s e then finishEntry e .cancelled .none 0 s else s)

/-- Mark every queued descriptor cancelled (R111, step 2). -/
def markCancelled (s : State) : State :=
  { s with re := { s.re with queue := s.re.queue.map (fun q => { q with cancelled := true }) } }

/-- The RE takes the start of LEAVING (R111). -/
def reTakeStartOfLeaving (s : State) : State :=
  if s.re.startOfLeaving then
    let s1 := cancelEntries all8 { s with re := { s.re with startOfLeaving := false } }
    let s2 := markCancelled s1
    retireCancelled s2.re.queue.length s2
  else s

/-- The RE is empty (R112). -/
def reEmpty (s : State) : Bool := all8.all (fun e => (s.re.table.at e).isNone) && s.re.queue.isEmpty

/-! ### The RE's own steps -/

/-- RE_TAKE_ANNOUNCEMENT (R110). -/
def execReTakeAnnouncement (s : State) : Answered := nextWithSelection (reTakeAnnouncement s)

/-- RE_TAKE_START_OF_LEAVING (R111). -/
def execReTakeStartOfLeaving (s : State) : Answered := nextWithSelection (reTakeStartOfLeaving s)

/-- RESPONSE_WINDOW_EXPIRY (R102): the response window timer of an entry in AWAIT_RESPONSE expires. -/
def execResponseWindowExpiry (e : Fin 8) (s : State) : Answered :=
  match s.re.table.at e with
  | none => .next s
  | some x =>
    if x.state = .awaitResponse ∧ x.window.isRunning = true then
      nextWithSelection (copyUnanswered e { x with window := .stopped } (putEntry e (some { x with window := .stopped }) s))
    else .next s

/-- BACKOFF_EXPIRY (R103): the entry enters READY_TO_SEND, last in the ready order. -/
def execBackoffExpiry (e : Fin 8) (s : State) : Answered :=
  match s.re.table.at e with
  | none => .next s
  | some x =>
    if x.state = .backoff ∧ x.backoff.isRunning = true then
      nextWithSelection (makeReady e (putEntry e (some { x with state := .readyToSend, backoff := .stopped }) s))
    else .next s

/-- DEFERRAL_DEADLINE_EXPIRY (R108). -/
def execDeferralDeadlineExpiry (e : Fin 8) (s : State) : Answered :=
  match s.re.table.at e with
  | none => .next s
  | some x =>
    if x.deadline.isRunning then
      let x' := { x with deadline := .stopped }
      let s' := putEntry e (some x') s
      let flagged := putEntry e (some { x' with deadlinePassed := true }) s
      match x.state with
      | .backoff => nextWithSelection (finishEntry e .deferralTimeout .none 0 s')
      | .readyToSend =>
        if onLineOffer s = some (.request e) then .next flagged
        else nextWithSelection (finishEntry e .deferralTimeout .none 0 s')
      | .awaitResponse => .next flagged
      | .completing => .next s
    else .next s

end Sys2Proof.Machine
end

