-- ==== Sys2Proof/Machine/Peers.lean ====
section
/-! DEFINITION. The Peer Table (chapter 5): hearing peers, announcements and how they reach the other blocks, the end of a loss; and the commands that are steps of an announcement. -/

namespace Sys2Proof.Machine

/-! ### Work for the GE (R22) -/

/-- Whether no group frame stands in a list of work. -/
def noFrame (ws : List GeWork) : Bool := ws.all (fun w => w ≠ .frame)

/-- Join a REVOKE to one that is already waiting with no group frame behind it (R22). -/
def revokeJoins : List GeWork → Bool
  | [] => false
  | w :: ws => (decide (w = .revoke) && noFrame ws) || revokeJoins ws

/-- Join a restart announcement to one for the same peer that is already waiting with no group frame behind it (R22); none when there is none. -/
def joinRestart (p : Station) : List GeWork → Option (List GeWork)
  | [] => none
  | w :: ws =>
    match joinRestart p ws with
    | some ws' => some (w :: ws')
    | none =>
      match w with
      | .restarted q n => if q = p ∧ noFrame ws = true then some (.restarted q (n + 1) :: ws) else none
      | _ => none

/-- The GE's work with one more piece behind it, or joined to identical work (R22). -/
def addWork (w : GeWork) (ws : List GeWork) : List GeWork :=
  match w with
  | .revoke => if revokeJoins ws then ws else ws ++ [.revoke]
  | .restarted p n =>
    match joinRestart p ws with
    | some ws' => ws'
    | none => ws ++ [.restarted p n]
  | w => ws ++ [w]

/-- Work reaches the GE. -/
def giveGe (w : GeWork) (s : State) : State := { s with ge := { s.ge with work := addWork w s.ge.work } }

/-! ### The other blocks take an announcement (Table 5-2) -/

/-- The SRU takes the announcement that waits: the peer's slot is freed (R58). -/
def sruTakeAnnouncement (s : State) : State :=
  match s.sru.announced with
  | none => s
  | some a => freeSlotOf a.peer { s with sru := { s.sru with announced := none } }

/-- Whether the response head is on the line. -/
def headOnLine (s : State) : Bool := decide (onLineOffer s = some .response)

/-- The response queue without the entries of a peer (R77); a head on the line stays, marked to be removed when its transmission ends. -/
def purgeQueue (p : Station) (onLine : Bool) (q : List Response) : List Response :=
  match q with
  | [] => []
  | r :: rs =>
    let rest := rs.filter (fun x => x.requester ≠ p)
    if r.requester = p then (if onLine then { r with purged := true } :: rest else rest) else r :: rest

/-- Whether the purge removes the head, so that its offer is withdrawn (R77). -/
def purgeWithdraws (p : Station) (s : State) : Bool :=
  match s.te.queue with
  | [] => false
  | r :: _ => decide (r.requester = p) && !headOnLine s

/-- The TE takes the restart announcement that waits (R77). -/
def restartPurge (s : State) : State :=
  match s.te.restarted with
  | none => s
  | some p =>
    let s' : State := { s with te := { s.te with restarted := none, queue := purgeQueue p (headOnLine s) s.te.queue } }
    if purgeWithdraws p s then withdrawOffer .response s' else s'

/-- The PT hands an announcement to the blocks of Table 5-2 (R88). An SRU, RE or TE that still has one waiting takes that one first. -/
def announce (a : Announcement) (s : State) : State :=
  let w : GeWork := match a with
    | .lost p => .gone p true
    | .departed p => .gone p true
    | .restarted p => .restarted p 1
  let s1 := sruTakeAnnouncement (giveGe w s)
  let s2 := reTakeAnnouncement { s1 with sru := { s1.sru with announced := some a } }
  let s3 : State := { s2 with re := { s2.re with announced := some a } }
  match a with
  | .restarted p =>
    let s4 := restartPurge s3
    { s4 with te := { s4.te with restarted := some p } }
  | _ => s3

/-! ### Hearing a peer (sections 5.2 to 5.5) -/

/-- A settled PRESENT entry: no departure pending (R80). -/
def Peer.settled (e : Peer) : Bool := decide (e.presence = .present) && e.departure.isNone

/-- An entry that becomes PRESENT with its last-heard timer started. -/
def Peer.up (t : Timer) (e : Peer) : Peer := { e with presence := .present, timer := t }

/-- A good frame other than a fresh or leaving PRESENCE (R83). -/
def hearPlain (p : Station) (s : State) : State :=
  let e := s.pt.peers.at p
  match e.presence with
  | .absent => postEvent (.peerUp p false) (updatePeer p (Peer.up (absenceTime s)) s)
  | .present =>
    if e.settled then updatePeer p (fun x => { x with timer := absenceTime s }) s
    else updatePeer p (fun x => { x with heardAgain := true }) s

/-- A leaving PRESENCE (R85). -/
def hearLeaving (p : Station) (s : State) : State :=
  let e := s.pt.peers.at p
  match e.presence with
  | .absent => s
  | .present =>
    if e.settled then announce (.departed p) (updatePeer p (fun x => { x with timer := .stopped, departure := some .left }) s)
    else updatePeer p (fun x => { x with heardAgain := false, freshWaiting := false }) s

/-- A fresh PRESENCE (R87). -/
def hearFresh (p : Station) (s : State) : State :=
  let e := s.pt.peers.at p
  if e.presence = .present ∧ e.departure ≠ none then updatePeer p (fun x => { x with freshWaiting := true }) s
  else announce (.restarted p) (updatePeer p (fun x => { x.up (absenceTime s) with record := none }) s)

/-- The PT uses frames in LISTENING, JOINED and LEAVING (R82). -/
def ptUsesFrames (s : State) : Bool :=
  match s.stc.state with
  | .clearing => false
  | .setup => false
  | _ => true

/-- The PT takes a good frame (R82). -/
def hear (f : Frame) (s : State) : State :=
  if ptUsesFrames s && decide (f.sender ≠ s.stc.address) then
    match presenceOf f with
    | some .leaving => hearLeaving f.sender s
    | some .fresh => hearFresh f.sender s
    | _ => hearPlain f.sender s
  else s

/-! ### The GE's end reports (R86, R87) -/

/-- An entry that becomes ABSENT, with departure pending, heard again and fresh waiting cleared (R86, R81). -/
def Peer.down (e : Peer) : Peer :=
  { e with presence := .absent, departure := none, heardAgain := false, freshWaiting := false, timer := .stopped }

/-- The PT takes the end report of a lost or departed peer (R86). -/
def endOfLoss (p : Station) (s : State) : State :=
  let e := s.pt.peers.at p
  match e.departure with
  | none => s
  | some d =>
    let s1 := postEvent (.peerDown p d) (updatePeer p Peer.down s)
    if e.freshWaiting then hearFresh p s1
    else if e.heardAgain then postEvent (.peerUp p false) (updatePeer p (Peer.up (absenceTime s1)) s1)
    else s1

/-- The PT takes the end reports of a restarted peer, one for each announcement joined (R87, R22). -/
def endOfRestart (p : Station) : Nat → State → State
  | 0, s => s
  | n + 1, s => endOfRestart p n (postEvent (.peerUp p true) s)

/-! ### The steps of an announcement -/

/-- SRU_TAKE_ANNOUNCEMENT (R58). -/
def execSruTakeAnnouncement (s : State) : Answered := .next (sruTakeAnnouncement s)

/-- RESTART_PURGE (R77). -/
def execRestartPurge (s : State) : Answered := nextWithSelection (restartPurge s)

/-- LAST_HEARD_EXPIRY (R84): the timer of a settled PRESENT peer expires; the peer is announced lost, with departure pending silent. -/
def execLastHeardExpiry (p : Station) (s : State) : Answered :=
  let e := s.pt.peers.at p
  if e.settled && e.timer.isRunning then
    nextWithSelection (announce (.lost p) (updatePeer p (fun x => { x with timer := .stopped, departure := some .silent }) s))
  else .next s

end Sys2Proof.Machine
end

