-- ==== Sys2Proof/Machine/Settled.lean ====
section
/-! DEFINITION. The Settled-Read Unit (chapter 3): re-issue matching, evaluation as new, capture and freeing, and the commands that are the SRU's steps. -/

namespace Sys2Proof.Machine

/-- Change a slot. -/
def updateSlot (i : Fin 4) (f : Slot → Slot) (s : State) : State :=
  { s with sru := { s.sru with slots := s.sru.slots.put i ((s.sru.slots.at i).map f) } }

/-- The slot that a retry-marked RDS matches (R46): same requester, seq, address and count. -/
def matchingSlot (s : State) (p : Station) (r : Request) : Option (Fin 4) :=
  all4.find? (fun i =>
    match s.sru.slots.at i with
    | none => false
    | some sl => decide (sl.requester = p) && decide (sl.seq = r.seq) && decide (sl.addr = r.addr) && decide (sl.count = r.count))

/-- Whether a frame is, by the fields of its report, a re-issue of the settled read in a slot (R46, R56): an RDS with the retry mark set and the slot's seq, first address and count. -/
def reissues (f : Frame) (h : Header) (sl : Slot) : Bool :=
  decide (f.kind = kindRds) && retryOf h.flags && decide (h.seq = sl.seq) && decide (rdsRange f = some (sl.addr, sl.count))

/-- The frame-taken report to the SRU, with kind, seq, first address, count and retry mark (R64): the requester's slot is freed (R56) unless the frame is a re-issue of its settled read. An RDS that is none counts as evaluated as new (R47), one that the TE then refuses included (log 30). -/
def frameTakenReport (f : Frame) (h : Header) (s : State) : State :=
  match slotOf s f.sender with
  | none => s
  | some i => if ((s.sru.slots.at i).map (reissues f h)).getD false then s else freeSlot i s

/-- A re-issue answered from its slot (R46). -/
def answerFromSlot (i : Fin 4) (s : State) : State :=
  match s.sru.slots.at i with
  | none => s
  | some sl =>
    match sl.state with
    | .waiting _ => finishHand (some .defer) (updateSlot i (fun x => { x with discard := discardTime s }) s)
    | .ready ws => finishHand (some (.data ws)) (freeSlot i s)

/-- Evaluation as new (R47): the requester's slot is freed, and the evaluation claim takes its turn, marked when other work of the SRU stands before it (R45, log 33). -/
def evaluateAsNew (p : Station) (s : State) : State :=
  let s' := freeSlotOf p s
  setSruWork (s'.sru.work ++ [.evaluate (!s'.sru.work.isEmpty)]) s'

/-- The SRU takes an RDS handed over by the TE (R44, R46, R47). -/
def takeRds (p : Station) (r : Request) (s : State) : State :=
  match (if r.retry then matchingSlot s p r else none) with
  | some i => answerFromSlot i s
  | none => evaluateAsNew p s

/-- Whether a word of the range is held by a group of the requester (R50). -/
def selfHeld (s : State) (p : Station) (addr count : Nat) : Bool :=
  (rangeOf addr count).any (fun a =>
    match heldBy s a with
    | none => false
    | some g => decide ((s.ge.table.at g).map (·.owner) = some p))

/-- The stored values of a range, in address order. -/
def storedRange (s : State) (addr count : Nat) : List Word := (rangeOf addr count).map (storedWord s)

/-- The lowest-numbered FREE slot (R42). -/
def freeSlotIndex (s : State) : Option (Fin 4) := all4.find? (fun i => (s.sru.slots.at i).isNone)

/-- Allocate a slot in WAITING (R48, case 5). -/
def allocateSlot (i : Fin 4) (h : Hand) (s : State) : State :=
  { s with sru := { s.sru with slots := s.sru.slots.put i (some ⟨h.sender, h.req.seq, h.req.addr, h.req.count, .waiting false, discardTime s⟩) } }

/-- The evaluation claim's outcome, with the slot it allocates (R48, R49). The cases stand in the rule's order. -/
def decideRds (s : State) (h : Hand) : Option Reply × Option (Fin 4) :=
  let e := s.pt.peers.at h.sender
  if e.presence = .absent ∨ e.departure ≠ none then (none, none)
  else if s.stc.state = .leaving then (some (.refuse .notServing), none)
  else if selfHeld s h.sender h.req.addr h.req.count then (some (.refuse .selfHeld), none)
  else if rangeHeld s h.req.addr h.req.count = false then (some (.data (storedRange s h.req.addr h.req.count)), none)
  else
    match freeSlotIndex s with
    | some i => (some .defer, some i)
    | none => (some .busy, none)

/-- The SRU's claim has been performed: its first work is done and the next one's claim is presented (R45). -/
def sruWorkDone (s : State) : State := setSruWork s.sru.work.tail (takeClaim .sru s)

/-- RDS_EVALUATION (R48). -/
def execRdsEvaluation (s : State) : Answered :=
  match s.sru.work, s.te.hand with
  | .evaluate _ :: _, some h =>
    if h.stage = .sru ∧ granted .sru s = true then
      match decideRds s h with
      | (r, some i) => nextWithSelection (finishHand r (allocateSlot i h (sruWorkDone s)))
      | (r, none) => nextWithSelection (finishHand r (sruWorkDone s))
    else .next s
  | _, _ => .next s

/-- What a capture claim makes of its slot (R52). -/
def captured (s : State) (sl : Slot) : Slot :=
  if rangeHeld s sl.addr sl.count then { sl with state := .waiting false }
  else { sl with state := .ready (storedRange s sl.addr sl.count), discard := discardTime s }

/-- SLOT_CAPTURE (R52). -/
def execSlotCapture (s : State) : Answered :=
  match s.sru.work with
  | .capture i :: _ =>
    if granted .sru s then .next (sruWorkDone (updateSlot i (captured s) s)) else .next s
  | _ => .next s

/-- Free every slot (R59). -/
def freeAllSlots (s : State) : State := all4.foldl (fun s i => freeSlot i s) s

/-- The SRU takes the start of LEAVING (R59). -/
def sruTakeStartOfLeaving (s : State) : State :=
  if s.sru.startOfLeaving then freeAllSlots { s with sru := { s.sru with startOfLeaving := false } } else s

/-- SRU_TAKE_START_OF_LEAVING (R59). -/
def execSruTakeStartOfLeaving (s : State) : Answered := .next (sruTakeStartOfLeaving s)

/-- DISCARD_TIMER_EXPIRY (R55): the slot is freed, WAITING or READY. -/
def execDiscardTimerExpiry (i : Fin 4) (s : State) : Answered :=
  match s.sru.slots.at i with
  | none => .next s
  | some sl => if sl.discard.isRunning then .next (freeSlot i s) else .next s

end Sys2Proof.Machine
end

