-- ==== Sys2Proof/Machine/Groups.lean ====
section
/-! DEFINITION. The Group Engine (chapter 2): the group table, the undo log and the hold map, and the commands that are the GE's steps. -/

namespace Sys2Proof.Machine

/-! ### The group table, the undo log and the hold map -/

/-- The OPEN group of an owner peer and tag. -/
def findGroup (ge : Ge) (p : Station) (tag : BitVec 4) : Option (Fin 4) :=
  all4.find? (fun g => decide ((ge.table.at g).map (fun x => (x.owner, x.tag)) = some (p, tag)))

/-- The lowest-numbered FREE entry (R17). -/
def freeGroup (ge : Ge) : Option (Fin 4) := all4.find? (fun g => (ge.table.at g).isNone)

/-- Open a group in entry g (R23): last in open order, nothing held, its idle timer started. -/
def Ge.opened (g : Fin 4) (p : Station) (tag : BitVec 4) (t : Timer) (ge : Ge) : Ge :=
  { ge with table := ge.table.put g (some ⟨p, tag, 0, t⟩), order := ge.order ++ [g] }

/-- The words of a range that group g does not hold (R25). -/
def newlyHeld (ge : Ge) (g : Fin 4) (addr count : Nat) : List Nat :=
  (rangeOf addr count).filter (fun a => Sparse.get ge.holds a ≠ some g)

/-- Whether a word of the range is held by a group other than g (R25). -/
def conflicts (ge : Ge) (g : Fin 4) (addr count : Nat) : Bool :=
  (rangeOf addr count).any (fun a => (Sparse.get ge.holds a).isSome && decide (Sparse.get ge.holds a ≠ some g))

/-- Free undo log entries (R19). -/
def freeLog (ge : Ge) : Nat := Config.undoEntries - ge.undo.length

/-- Mark words held by group g. -/
def holdAll (g : Fin 4) (holds : Sparse (Fin 4)) (as : List Nat) : Sparse (Fin 4) :=
  as.foldl (fun h a => Sparse.put h a g) holds

/-- Any idle expiry of group g not yet taken is discarded (R33). -/
def dropExpiry (g : Fin 4) (ws : List GeWork) : List GeWork := ws.filter (fun w => w ≠ .expiry g)

/-- The log, the holds, the held-word count and the idle timer after an applied GWRITE (R26); `words` are the stored values before it. -/
def Ge.written (g : Fin 4) (addr count : Nat) (words : Mem) (t : Timer) (ge : Ge) : Ge :=
  let new := newlyHeld ge g addr count
  { ge with
    table := ge.table.put g ((ge.table.at g).map (fun x => { x with held := x.held + new.length, idle := t }))
    undo := ge.undo ++ new.map (fun a => ⟨g, a, words.read a⟩)
    holds := holdAll g ge.holds new
    work := dropExpiry g ge.work }

/-- Group g ends (R27, R28): its holds are released, its entries return to the pool, its entry becomes FREE, its timer is stopped with any expiry discarded, and it leaves open order. -/
def Ge.ended (g : Fin 4) (ge : Ge) : Ge :=
  { ge with
    table := ge.table.put g none
    order := ge.order.erase g
    undo := ge.undo.filter (fun e => e.group ≠ g)
    holds := ge.holds.filter (fun e => e.2 ≠ g)
    work := dropExpiry g ge.work }

/-- Restore the old values of a log list, last appended first (R28). -/
def restoreLog (log : List UndoEntry) (words : Mem) : Mem :=
  log.reverse.foldl (fun m e => m.write e.addr e.old) words

/-- Change the GE's state. -/
def updateGe (f : Ge → Ge) (s : State) : State := { s with ge := f s.ge }

/-- Set the operation in progress. -/
def setOp (op : Option GeOp) (s : State) : State := { s with ge := { s.ge with op := op } }

/-- Mark whether the rollback claim of the operation follows another of its list (R31). -/
def setFollowing (b : Bool) (s : State) : State := { s with ge := { s.ge with following := b } }

/-- The first waiting work has been taken. -/
def takeWork (s : State) : State := { s with ge := { s.ge with work := s.ge.work.tail } }

/-- The waiting work in the order in which the GE can take work that is no frame (R22). A group frame accepted before LEAVE can reach the GE before the start of LEAVING or after it (R38, log 36): while the start of LEAVING waits behind the frame, the frame may yet arrive later than the work next to it. -/
def frameLater (ws : List GeWork) : List GeWork :=
  match ws with
  | .frame :: w :: rest => if (w :: rest).contains .startOfLeaving then w :: .frame :: rest else ws
  | ws => ws

/-- The first waiting work that is no frame has been taken (log 36). -/
def takeOther (s : State) : State := { s with ge := { s.ge with work := (frameLater s.ge.work).tail } }

/-- The group frame in hand when the GE takes it next: no operation is in progress and it stands first in the waiting work (R22). -/
def frameTaken (k : ReqKind) (s : State) : Option Hand :=
  match s.ge.op, s.ge.work, s.te.hand with
  | none, .frame :: _, some h => if h.stage = .ge ∧ h.req.kind = k then some h else none
  | _, _, _ => none

/-! ### The end of an operation -/

/-- What ends with the last rollback of a list (R31, R32, R38, R86, R87). -/
def endOperation (fin : OpEnd) (s : State) : State :=
  match fin with
  | .reply => finishHand (some (.done 0)) s
  | .gone p report => if report then endOfLoss p s else s
  | .restarted p n => endOfRestart p n s
  | .noGroupOpen => { s with stc := { s.stc with noGroupOpen := true } }
  | .nothing => s

/-- Begin the rollbacks of a list fixed at this moment (R31): the first claim is presented, or the operation ends at once. -/
def beginRollbacks (cause : AbortCause) (list : List (Fin 4)) (fin : OpEnd) (s : State) : State :=
  match list with
  | [] => endOperation fin s
  | gs => presentClaim .ge (setOp (some (.rollback cause gs fin)) s)

/-- The OPEN groups of a peer, in open order. -/
def groupsOf (ge : Ge) (p : Station) : List (Fin 4) :=
  ge.order.filter (fun g => decide ((ge.table.at g).map (·.owner) = some p))

/-! ### Group frames (R23, R24, R27, R32) -/

/-- The outcome of a GOPEN, with the entry a new group takes (R23). -/
def decideGopen (s : State) (h : Hand) : Option Reply × Option (Fin 4) :=
  if s.stc.state = .leaving then (some (.refuse .notServing), none)
  else if (s.pt.peers.at h.sender).presence = .absent then (none, none)
  else if (findGroup s.ge h.sender h.req.tag).isSome then (some (.refuse .groupExists), none)
  else
    match freeGroup s.ge with
    | none => (some (.refuse .groupTableFull), none)
    | some g => (some (.done 0), some g)

/-- GOPEN (R23). -/
def execGopen (s : State) : Answered :=
  match frameTaken .gopen s with
  | none => .next s
  | some h =>
    match decideGopen s h with
    | (r, some g) => nextWithSelection (finishHand r (updateGe (Ge.opened g h.sender h.req.tag (idleLifetime s)) (takeWork s)))
    | (r, none) => nextWithSelection (finishHand r (takeWork s))

/-- The tests of a GWRITE outside any claim (R24): the group, or the reason. -/
def decideGwrite (s : State) (h : Hand) : Except Reason (Fin 4) :=
  match findGroup s.ge h.sender h.req.tag with
  | none => .error .noGroup
  | some g =>
    if rangeValid h.req.addr h.req.count = false then .error .range
    else if writePermitted s h.sender h.req.addr h.req.count = false then .error .notPermitted
    else .ok g

/-- GWRITE (R24). -/
def execGwrite (s : State) : Answered :=
  match frameTaken .gwrite s with
  | none => .next s
  | some h =>
    match decideGwrite s h with
    | .error r => nextWithSelection (finishHand (some (.refuse r)) (takeWork s))
    | .ok g => .next (presentClaim .ge (setOp (some (.gwrite g)) (takeWork s)))

/-- The tests of a GWRITE inside its claim (R25). -/
def decideApply (ge : Ge) (g : Fin 4) (addr count : Nat) : Option Reason :=
  if conflicts ge g addr count then some .conflict
  else if freeLog ge < (newlyHeld ge g addr count).length then some .logFull
  else none

/-- GWRITE_APPLY (R25, R26). -/
def execGwriteApply (s : State) : Answered :=
  match s.ge.op, s.te.hand with
  | some (.gwrite g), some h =>
    if granted .ge s then
      let s1 := setOp none (takeClaim .ge s)
      match decideApply s.ge g h.req.addr h.req.count with
      | some r => nextWithSelection (finishHand (some (.refuse r)) s1)
      | none =>
        let s2 := updateGe (Ge.written g h.req.addr h.req.count s.sgm.words (idleLifetime s)) s1
        let s3 := reportStores (rangeOf h.req.addr h.req.count) (storeWords h.req.addr h.req.data s2)
        nextWithSelection (finishHand (some (.done h.req.count)) s3)
    else .next s
  | _, _ => .next s

/-- GCLOSE (R27). -/
def execGclose (s : State) : Answered :=
  match frameTaken .gclose s with
  | none => .next s
  | some h =>
    match findGroup s.ge h.sender h.req.tag with
    | none => nextWithSelection (finishHand (some (.refuse .noGroup)) (takeWork s))
    | some g => .next (presentClaim .ge (setOp (some (.commit g)) (takeWork s)))

/-- GROUP_COMMIT (R27): GROUP_COMMITTED is posted, the SRU is told of the release and REPLY_DONE is returned. -/
def execGroupCommit (s : State) : Answered :=
  match s.ge.op with
  | some (.commit g) =>
    if granted .ge s then
      match s.ge.table.at g with
      | none => .next s
      | some x =>
        let s1 := postEvent (.groupCommitted x.owner x.tag x.held) (updateGe (Ge.ended g) (setOp none (takeClaim .ge s)))
        nextWithSelection (finishHand (some (.done x.held)) (releaseNotice s1))
    else .next s
  | _ => .next s

/-- GABORT (R32). -/
def execGabort (s : State) : Answered :=
  match frameTaken .gabort s with
  | none => .next s
  | some h =>
    match findGroup s.ge h.sender h.req.tag with
    | none => nextWithSelection (finishHand (some (.refuse .noGroup)) (takeWork s))
    | some g => .next (beginRollbacks .requested [g] .reply (takeWork s))

/-! ### Rollback (R28, R31) -/

/-- One group's rollback claim: words restored and reported, holds released, the entry FREE, GROUP_ABORTED posted (R28). -/
def rollbackGroup (cause : AbortCause) (g : Fin 4) (s : State) : State :=
  match s.ge.table.at g with
  | none => s
  | some x =>
    let log := logOf s.ge.undo g
    let s1 : State := { s with sgm := { s.sgm with words := restoreLog log s.sgm.words } }
    let s2 := updateGe (Ge.ended g) (reportStores (log.map (·.addr)) s1)
    postEvent (.groupAborted x.owner x.tag cause) s2

/-- Before the release notice of a rollback with cause LEAVING, the SRU has taken the start of LEAVING: the notice finds no WAITING slot (R59, log 31). -/
def slotsBeforeNotice (cause : AbortCause) (s : State) : State :=
  if cause = .leaving then sruTakeStartOfLeaving s else s

/-- After a rollback: the release notice, and the next rollback claim of the list or the end of the operation. The next rollback claim takes its place at once, behind the SRU's capture claim; how soon the GE presents it is open (R31), so that until it is granted a claim that arrives later may still be granted before it (`granted`, logs 8 and 32). -/
def afterRollback (cause : AbortCause) (rest : List (Fin 4)) (fin : OpEnd) (s : State) : State :=
  match rest with
  | [] => endOperation fin (setFollowing false (setOp none (releaseNotice s)))
  | gs => presentClaim .ge (releaseNotice (setFollowing true (setOp (some (.rollback cause gs fin)) s)))

/-- GROUP_ROLLBACK (R28, R31). -/
def execGroupRollback (s : State) : Answered :=
  match s.ge.op with
  | some (.rollback cause (g :: rest) fin) =>
    if granted .ge s then
      nextWithSelection (afterRollback cause rest fin (slotsBeforeNotice cause (rollbackGroup cause g (takeClaim .ge s))))
    else .next s
  | _ => .next s

/-! ### Other work of the GE (R22, R33 to R38) -/

/-- IDLE_TIMER_EXPIRY (R33): the expiry waits as GE work. -/
def execIdleTimerExpiry (g : Fin 4) (s : State) : Answered :=
  match s.ge.table.at g with
  | none => .next s
  | some x =>
    if x.idle.isRunning then
      .next (giveGe (.expiry g) (updateGe (fun ge => { ge with table := ge.table.put g (some { x with idle := .stopped }) }) s))
    else .next s

/-- GE_TAKE_EXPIRY (R33): the group's rollback, or nothing when the group has ended. -/
def execGeTakeExpiry (s : State) : Answered :=
  match s.ge.op, frameLater s.ge.work with
  | none, .expiry g :: _ =>
    match s.ge.table.at g with
    | none => .next (takeOther s)
    | some _ => .next (beginRollbacks .expired [g] .nothing (takeOther s))
  | _, _ => .next s

/-- GE_TAKE_PEER_LOST (R35). -/
def execGeTakePeerLost (s : State) : Answered :=
  match s.ge.op, frameLater s.ge.work with
  | none, .gone p report :: _ =>
    nextWithSelection (beginRollbacks .peerLost (groupsOf s.ge p) (.gone p report) (takeOther s))
  | _, _ => .next s

/-- GE_TAKE_PEER_RESTARTED (R36). -/
def execGeTakePeerRestarted (s : State) : Answered :=
  match s.ge.op, frameLater s.ge.work with
  | none, .restarted p n :: _ =>
    .next (beginRollbacks .peerRestarted (groupsOf s.ge p) (.restarted p n) (takeOther s))
  | _, _ => .next s

/-- GE_TAKE_REVOKE (R37). -/
def execGeTakeRevoke (s : State) : Answered :=
  match s.ge.op, frameLater s.ge.work with
  | none, .revoke :: _ => .next (beginRollbacks .revoked s.ge.order .nothing (takeOther s))
  | _, _ => .next s

/-- GE_TAKE_START_OF_LEAVING (R38): also before a group frame that may arrive later (log 36). -/
def execGeTakeStartOfLeaving (s : State) : Answered :=
  match s.ge.op, frameLater s.ge.work with
  | none, .startOfLeaving :: _ => .next (beginRollbacks .leaving s.ge.order .noGroupOpen (takeOther s))
  | _, _ => .next s

end Sys2Proof.Machine
end

