-- ==== Sys2Proof/Machine/Target.lean ====
section
/-! DEFINITION. The Target Engine (chapter 4): the input place, the check sequence of Table 4-1, the claims of RD and WR, and the commands that are the TE's steps. -/

namespace Sys2Proof.Machine

/-- Step 3 (R73): the reply a retry-marked frame is replayed with, when it is a matching re-send. -/
def replayFor (s : State) (p : Station) (kind : BitVec 4) (h : Header) : Option Reply :=
  if retryOf h.flags && replayedKind kind then
    match (s.pt.peers.at p).record with
    | none => none
    | some r => if r.seq = h.seq ∧ r.kind = kind then r.outcome.replay else none
  else none

/-- Whether the response to this requester and sequence number is still queued (R73). -/
def stillQueued (s : State) (p : Station) (seq : Byte) : Bool :=
  s.te.queue.any (fun r => decide (r.requester = p) && decide (r.seq = seq))

/-- Put a frame in hand with the block it waits for. -/
def takeInHand (p : Station) (r : Request) (st : HandStage) (s : State) : State :=
  { s with te := { s.te with hand := some ⟨p, r, st⟩ } }

/-- The tests of RD, WR and RDS outside any claim (R68, R69, R70): range, then permission. -/
def testRange (s : State) (p : Station) (r : Request) : Option Reason :=
  if rangeValid r.addr r.count = false then some .range
  else if r.kind = .wr then (if writePermitted s p r.addr r.count then none else some .notPermitted)
  else if readPermitted s r.addr r.count then none else some .notPermitted

/-- A frame served by the TE after its tests, or refused (R68, R69, R70). -/
def afterTests (p : Station) (r : Request) (s : State) (serve : State) : State :=
  match testRange s p r with
  | some c => answer p r.seq r.kind.code (.refuse c) s
  | none => serve

/-- Step 6: a well-formed request by kind (R68 to R71). A group frame stands last in the GE's waiting work at once; how soon it reaches the GE is open (R38), so that while the start of LEAVING waits behind it, what waits behind it may be taken before it (`frameLater`, the model's choice, log 36). -/
def dispatchRequest (p : Station) (r : Request) (s : State) : State :=
  match r.kind with
  | .rd => afterTests p r s (presentClaim .te (takeInHand p r .rdClaim s))
  | .wr => afterTests p r s (presentClaim .te (takeInHand p r .wrClaim s))
  | .rds => afterTests p r s (takeRds p r (takeInHand p r .sru s))
  | _ => giveGe .frame (takeInHand p r .ge s)

/-- Steps 4 to 6 of Table 4-1 (R66, R67). -/
def evaluate (f : Frame) (h : Header) (s : State) : State :=
  if s.stc.state = .leaving then answer f.sender h.seq f.kind (.refuse .notServing) s
  else
    match requestOf f with
    | none => answer f.sender h.seq f.kind (.refuse .malformed) s
    | some r => dispatchRequest f.sender r s

/-- Steps 3 to 6 of Table 4-1, after the SRU has taken its report. -/
def replayOrEvaluate (f : Frame) (h : Header) (s : State) : State :=
  match replayFor s f.sender f.kind h with
  | some r => if stillQueued s f.sender h.seq then s else queueResponse f.sender h.seq r s
  | none => evaluate f h s

/-- The check sequence of a frame taken into hand (Table 4-1, R64). -/
def checkSequence (f : Frame) (s : State) : State :=
  if Config.responseEntries ≤ s.te.queue.length then s
  else
    match headerOf f with
    | none => s
    | some h => replayOrEvaluate f h (frameTakenReport f h s)

/-- The frame in the input place moves into hand when none is in hand, and is evaluated (R63, R64). -/
def takeNextFrame (s : State) : State :=
  match s.te.hand, s.te.input with
  | none, some f => checkSequence f { s with te := { s.te with input := none } }
  | _, _ => s

/-- FRAME_IN_HAND (R64). -/
def execFrameInHand (s : State) : Answered := nextWithSelection (takeNextFrame s)

/-- Whether the TE takes a request frame passed to it (R62). -/
def teServes (s : State) : Bool :=
  match s.stc.state with
  | .joined => true
  | .leaving => !s.te.closed
  | _ => false

/-- A restart of peer p that waits for the SRU is taken before a request frame that p sent after it can reach the SRU: no slot from before the restart remains for that frame (R58, log 38). -/
def takeRestartOf (p : Station) (s : State) : State :=
  if s.sru.announced = some (.restarted p) then sruTakeAnnouncement s else s

/-- A request frame enters the input place (R63). -/
def enterInput (f : Frame) (s : State) : State :=
  let s' := takeRestartOf f.sender s
  { s' with te := { s'.te with input := some f } }

/-- A request frame passed to the TE (R62, R63). A frame that stands in the input place while none is in hand moves into hand first; then the new frame takes the input place or, when it is occupied, is dropped. -/
def passRequest (f : Frame) (s : State) : State :=
  if teServes s then
    let s' := if s.te.input.isSome then takeNextFrame s else s
    if s'.te.input.isSome then s' else enterInput f s'
  else s

/-- RD_RANGE_READ (R68): the committed image of the range, all within the claim. -/
def execRdRangeRead (s : State) : Answered :=
  match s.te.hand with
  | none => .next s
  | some h =>
    if h.stage = .rdClaim ∧ granted .te s = true then
      nextWithSelection (finishHand (some (.data ((rangeOf h.req.addr h.req.count).map (committed s)))) (takeClaim .te s))
    else .next s

/-- WR_APPLY (R69): CONFLICT if any word is held, otherwise stored and reported. -/
def execWrApply (s : State) : Answered :=
  match s.te.hand with
  | none => .next s
  | some h =>
    if h.stage = .wrClaim ∧ granted .te s = true then
      if rangeHeld s h.req.addr h.req.count then
        nextWithSelection (finishHand (some (.refuse .conflict)) (takeClaim .te s))
      else
        nextWithSelection (finishHand (some (.done h.req.count))
          (reportStores (rangeOf h.req.addr h.req.count) (storeWords h.req.addr h.req.data (takeClaim .te s))))
    else .next s

/-- The TE is quiet (R78). -/
def teQuiet (s : State) : Bool := s.te.hand.isNone && s.te.input.isNone && s.te.queue.isEmpty

end Sys2Proof.Machine
end

