-- ==== Sys2Proof/Machine/Station.lean ====
section
/-! DEFINITION. Station Control (chapter 8, section 5.7): the station state, the four commands, the configuration record, and the presence timers with the commands that are their expiries. -/

namespace Sys2Proof.Machine

/-- Change Station Control's own state. -/
def updateStc (f : Stc → Stc) (s : State) : State := { s with stc := f s.stc }

/-- A change of station state, with its STATE_CHANGED event (R130). -/
def enterState (st : StationState) (s : State) : State :=
  postEvent (.stateChanged st) (updateStc (fun c => { c with state := st }) s)

/-! ### The configuration record (R133, R134, R154) -/

/-- The fields of a record in the order of Table 8-2, each with its number and whether it fails. -/
def failingFields (c : ConfigRecord) : List (Nat × Bool) :=
  let bad (v : Half) (lo hi : Nat) : Bool := decide (v.toNat < lo) || decide (hi < v.toNat)
  let badStep (v : Half) : Bool := bad v 250 8000 || decide (v.toNat % 250 ≠ 0)
  [(1, badStep c.responseWindow), (2, bad c.lostLimit 0 7), (3, bad c.busyLimit 1 15), (4, badStep c.retryInterval),
   (5, bad c.deferralDeadline 1 255), (6, bad c.discardTime 1 32), (7, bad c.idleLifetime 1 255), (8, bad c.presenceInterval 2 100)]

/-- Whether a read-open code is one of those for yes and no. -/
def badPage (p : Page) : Bool := decide (1 < p.readOpen.toNat)

/-- The first failing field with its page, if any field fails (R134, R154). -/
def configFailure (c : ConfigRecord) : Option (Nat × Nat) :=
  match (failingFields c).find? (·.2) with
  | some (n, _) => some (n, 0)
  | none => (c.pages.toList.findIdx? badPage).map (fun p => (9, p))

/-! ### Entering SETUP (R81, R137, R139) -/

/-- End reports of announcements made before the station entered SETUP will be without effect (R81). -/
def GeWork.stale : GeWork → GeWork
  | .gone p _ => .gone p false
  | .restarted p _ => .restarted p 0
  | w => w

/-- The same for the operation in progress. -/
def OpEnd.stale : OpEnd → OpEnd
  | .gone p _ => .gone p false
  | .restarted p _ => .restarted p 0
  | e => e

/-- The operation in progress with a stale end. -/
def GeOp.stale : GeOp → GeOp
  | .rollback c l e => .rollback c l e.stale
  | o => o

/-- The reports of the GE's work up to now will be without effect (R81). -/
def staleReports (ge : Ge) : Ge := { ge with work := ge.work.map GeWork.stale, op := ge.op.map GeOp.stale }

/-- The SRU, the RE and the TE take what still waits for them, before the station has left the link (log 15). -/
def takeAllWaiting (s : State) : State :=
  restartPurge (reTakeAnnouncement (sruTakeAnnouncement (reTakeStartOfLeaving (sruTakeStartOfLeaving s))))

/-- The peer table on entering SETUP (R81): every entry ABSENT, no event; at the end of LEAVING the reply records are cleared too. -/
def peersDown (clearRecords : Bool) (s : State) : State :=
  { s with pt := { s.pt with peers := s.pt.peers.each (fun e => if clearRecords then { e.down with record := none } else e.down) } }

/-- SETUP is entered from LEAVING (R139, R78, R63). -/
def endLeaving (s : State) : State :=
  let s1 := updateStc (fun c => { c with due := none, quiet := .stopped }) (takeAllWaiting s)
  let s2 := updateGe staleReports (peersDown true (enterState .setup s1))
  { s2 with te := { s2.te with closed := false, input := none } }

/-- SETUP is entered from LISTENING (R137). A fresh PRESENCE not yet on the line is withdrawn; one on the line is completed without effect. -/
def leaveListening (s : State) : State :=
  let s1 := enterState .setup (takeAllWaiting s)
  let s2 := updateStc (fun c => { c with listen := .stopped, due := none }) (withdrawOffer (.presence .fresh) s1)
  updateGe staleReports (peersDown false s2)

/-! ### The commands (R132) -/

/-- Keep a command and its result (R132, R149). -/
def setCommand (c : Command) (r : CommandResult) (s : State) : State :=
  updateStc (fun x => { x with command := some (c, r) }) s

/-- CONFIGURE in SETUP (R134). -/
def configureInSetup (s : State) : State :=
  match configFailure s.stc.staged with
  | some (n, p) => setCommand .configure (.refusedConfig n p) s
  | none => setCommand .configure .accepted (updateStc (fun c => { c with active := c.staged }) s)

/-- JOIN in SETUP (R135). -/
def joinInSetup (s : State) : State :=
  let s1 := enterState .listening (setCommand .join .accepted s)
  let s2 : State := { s1 with pt := { s1.pt with peers := s1.pt.peers.each (fun e => { e with nextSeq := 0 }) } }
  let s3 : State := { s2 with lc := { s2.lc with last0 := 15, last1 := 15 } }
  updateStc (fun c => { c with listen := listenTime s }) s3

/-- LEAVE in JOINED (R138): the start of LEAVING is passed to the GE, the SRU and the RE. -/
def leaveJoined (s : State) : State :=
  let s1 := enterState .leaving s
  let s2 := giveGe .startOfLeaving (updateStc (fun c => { c with noGroupOpen := false }) s1)
  { s2 with sru := { s2.sru with startOfLeaving := true }, re := { s2.re with startOfLeaving := true } }

/-- CONFIGURE by station state (Table 8-3). -/
def commandConfigure (s : State) : State :=
  match s.stc.state with
  | .setup => configureInSetup s
  | .leaving => setCommand .configure .busy s
  | _ => setCommand .configure .wrongState s

/-- JOIN by station state (Table 8-3). -/
def commandJoin (s : State) : State :=
  match s.stc.state with
  | .setup => joinInSetup s
  | .leaving => setCommand .join .busy s
  | _ => setCommand .join .wrongState s

/-- LEAVE by station state (Table 8-3). -/
def commandLeave (s : State) : State :=
  match s.stc.state with
  | .listening => leaveListening (setCommand .leave .accepted s)
  | .joined => leaveJoined (setCommand .leave .accepted s)
  | .leaving => setCommand .leave .busy s
  | _ => setCommand .leave .wrongState s

/-- REVOKE by station state (Table 8-3, R140). -/
def commandRevoke (s : State) : State :=
  match s.stc.state with
  | .joined => giveGe .revoke (setCommand .revoke .accepted s)
  | .leaving => giveGe .revoke (setCommand .revoke .accepted s)
  | _ => setCommand .revoke .wrongState s

/-- A command written at the local port (R132). -/
def takeCommand (c : Command) (s : State) : State :=
  match c with
  | .configure => commandConfigure s
  | .join => commandJoin s
  | .leave => commandLeave s
  | .revoke => commandRevoke s

/-! ### The presence timers (R90, R91, R92) -/

/-- QUIET_TIMER_EXPIRY (R90): a plain PRESENCE becomes due. -/
def execQuietTimerExpiry (s : State) : Answered :=
  if s.stc.quiet.isRunning then
    nextWithSelection (updateStc (fun c => { c with quiet := .stopped, due := c.due.or (some .plain) }) s)
  else .next s

/-- LISTEN_TIMER_EXPIRY (R91, R136): the fresh PRESENCE becomes due. -/
def execListenTimerExpiry (s : State) : Answered :=
  if s.stc.listen.isRunning then
    nextWithSelection (updateStc (fun c => { c with listen := .stopped, due := some .fresh }) s)
  else .next s

/-- The three conditions for ending LEAVING, while the leaving PRESENCE is not yet due (R139). -/
def leavingDone (s : State) : Bool :=
  decide (s.stc.state = .leaving) && decide (s.stc.due ≠ some .leaving) && s.stc.noGroupOpen && reEmpty s && teQuiet s

/-- LEAVING_PRESENCE_DUE (R139, R92): the TE is closed, the quiet timer stopped, and the leaving PRESENCE replaces a plain one. -/
def execLeavingPresenceDue (s : State) : Answered :=
  if leavingDone s then
    let s1 : State := { s with te := { s.te with closed := true } }
    let s2 := withdrawOffer (.presence .plain) s1
    nextWithSelection (updateStc (fun c => { c with quiet := .stopped, due := some .leaving }) s2)
  else .next s

end Sys2Proof.Machine
end

