-- ==== Sys2Proof/Machine/Link.lean ====
section
/-! DEFINITION. The Link Controller (chapter 7): contention, rank and last winner, transmission and reception, and the commands that are its steps. -/

namespace Sys2Proof.Machine

/-- Change the Link Controller's own state. -/
def updateLc (f : Lc → Lc) (s : State) : State := { s with lc := f s.lc }

/-! ### Contention, rank and last winner (sections 7.3, 7.4) -/

/-- The class an offer contends in (R121). -/
def Offer.cls : Offer → FrameClass
  | .response => .response
  | .presence _ => .request
  | .request _ => .request

/-- The last winner of a class (R120). -/
def lastWinner (lc : Lc) : FrameClass → Station
  | .response => lc.last0
  | .request => lc.last1

/-- Set the last winner of a class (R120). -/
def Lc.won (c : FrameClass) (p : Station) (lc : Lc) : Lc :=
  match c with
  | .response => { lc with last0 := p }
  | .request => { lc with last1 := p }

/-- The rank (i − w − 1) mod 16, i and w the station address and the last winner minus 1 (R119). -/
def rankOf (i w : Station) : BitVec 4 := BitVec.ofFin (i - w - 1)

/-- The rank this station computes for a class. -/
def rankFor (s : State) (c : FrameClass) : BitVec 4 := rankOf s.stc.address (lastWinner s.lc c)

/-- The key built for an offer (R119). -/
def keyFor (s : State) (o : Offer) : BitVec 9 := keyOf o.cls (rankFor s o.cls) s.stc.address

/-- Whether every bit of a key is read as sent, the stuff bit within it included (R118). -/
def keyReadAsSent (k : BitVec 9) (keyRead : KeyRead) : Bool :=
  decide (keyRead.bits = k) && ((keyStuffBit k).all (· == keyRead.stuffBit))

/-- The transmit slot after the key has been read: every bit of it and the stuff bit within it read as sent, the station still contends; at the first other bit it withdraws and keeps its chosen frame (R118). -/
def slotAfterKey (s : State) (keyRead : KeyRead) : TxSlot :=
  match selectOffer s with
  | none => .empty
  | some o => if keyReadAsSent (keyFor s o) keyRead then .contending o (keyFor s o) else .chosen o

/-- START_DELIMITER (R115, R117, R118, R121, R125): on an IDLE line the view becomes FRAME, a receive frame begins, and the LC chooses afresh and contends. -/
def execStartDelimiter (keyRead : KeyRead) (s : State) : Answered :=
  if s.lc.view = .idle then
    .next (updateLc (fun lc => { lc with view := .frame, receive := some keyRead.bits, slot := slotAfterKey s keyRead }) s)
  else .next s

/-! ### The frame of an offer (R122) -/

/-- The rank field of a key. -/
def keyRank (k : BitVec 9) : BitVec 4 := k.extractLsb' 4 4

/-- Whether a descriptor's kind carries data words. -/
def carriesData (d : Descriptor) : Bool := decide (d.kind = 3) || decide (d.kind = 5)

/-- The contents the LC takes from the owner of an offer (R122, R75, R100). -/
def offerFrame (s : State) (o : Offer) (rank : BitVec 4) : Option Frame :=
  match o with
  | .response => s.te.queue.head?.map (responseFrame s.stc.address rank)
  | .presence m => some (presenceFrame s.stc.address rank m)
  | .request e =>
    (s.re.table.at e).map (fun x =>
      requestFrame s.stc.address rank x.desc x.seq (decide (x.attempts ≠ 0)) (if carriesData x.desc then bufferData s x.desc else []))

/-- CONTENTION_WON (R118, R122): the frame goes on the line with the contents its owner has at that moment. -/
def execContentionWon (s : State) : Answered :=
  match s.lc.slot with
  | .contending o k =>
    match offerFrame s o (keyRank k) with
    | some f => .next (updateLc (fun lc => { lc with slot := .onLine o f (frameBits f) false }) s)
    | none => .next (updateLc (fun lc => { lc with slot := .empty }) s)
  | _ => .next s

/-! ### The end of a transmission (R123, R124) -/

/-- The TE takes the report sent: the head is removed (R76, R77). -/
def responseSent (s : State) : State := { s with te := { s.te with queue := s.te.queue.tail } }

/-- The TE takes the report fault (R76, R77): attempts raised, or the head removed at the third fault or when a restart has purged it. -/
def responseFaulted (s : State) : State :=
  match s.te.queue with
  | [] => s
  | r :: rs =>
    if r.purged = true ∨ 2 ≤ r.attempts then { s with te := { s.te with queue := rs } }
    else { s with te := { s.te with queue := { r with attempts := r.attempts + 1 } :: rs } }

/-- The fresh PRESENCE reported sent in LISTENING: the station enters JOINED and the quiet timer starts (R136). -/
def freshSent (s : State) : State :=
  if s.stc.state = .listening then
    updateStc (fun c => { c with quiet := presenceInterval s }) (enterState .joined (updateStc (fun c => { c with due := none }) s))
  else s

/-- Station Control takes the report sent of a PRESENCE, with its mark (R90, R91, R92, R136, R139). -/
def presenceSent (m : Mark) (s : State) : State :=
  if s.stc.due = some m then
    match m with
    | .plain => updateStc (fun c => { c with due := none }) s
    | .fresh => freshSent s
    | .leaving => endLeaving s
  else s

/-- The owner takes the report sent (R123). -/
def reportSent (o : Offer) (s : State) : State :=
  match o with
  | .response => responseSent s
  | .presence m => presenceSent m s
  | .request e => copySent e s

/-- The owner takes the report fault (R124); a PRESENCE stays due. -/
def reportFault (o : Offer) (s : State) : State :=
  match o with
  | .response => responseFaulted s
  | .presence _ => s
  | .request e => copyFaulted e s

/-- A frame of this station has been sent (R90): in JOINED and LEAVING, unless the leaving PRESENCE is due, the quiet timer restarts and a due plain PRESENCE is withdrawn. `before` is the state at the report. -/
def frameSent (before s : State) : State :=
  if (s.stc.state = .joined ∨ s.stc.state = .leaving) ∧ before.stc.due ≠ some .leaving then
    updateStc (fun c => { c with quiet := presenceInterval s, due := if c.due = some .plain then none else c.due }) s
  else s

/-- TRANSMIT_SENT (R123). -/
def execTransmitSent (s : State) : Answered :=
  match s.lc.slot with
  | .onLine o _ _ orphan =>
    let s1 := updateLc (fun lc => Lc.won o.cls s.stc.address { lc with slot := .empty, view := .gap 0, receive := none }) s
    nextWithSelection (frameSent s (if orphan then s1 else reportSent o s1))
  | _ => .next s

/-- TRANSMIT_FAULT (R124): the frame is abandoned; the line view moves on when the frame has ended at the receivers (log 13). -/
def execTransmitFault (s : State) : Answered :=
  match s.lc.slot with
  | .onLine o _ _ orphan =>
    let s1 := updateLc (fun lc => { lc with slot := .empty }) s
    nextWithSelection (if orphan then s1 else reportFault o s1)
  | _ => .next s

/-! ### Line view and reception (R115, R125 to R127) -/

/-- A contending slot keeps its chosen frame when the frame that was contended for has ended. -/
def TxSlot.withdrawn : TxSlot → TxSlot
  | .contending o _ => .chosen o
  | x => x

/-- Whether this station's frame is on the line. -/
def TxSlot.sending : TxSlot → Bool
  | .onLine _ _ _ _ => true
  | _ => false

/-- Whether a frame of another station is being received. -/
def receiving (s : State) : Bool := s.lc.receive.isSome && !s.lc.slot.sending

/-- The frame being received ends: the line view enters GAP (R115, R125). -/
def endReception (s : State) : State :=
  updateLc (fun lc => { lc with view := .gap 0, receive := none, slot := lc.slot.withdrawn }) s

/-- The 12th recessive bit time makes the line IDLE and the LC chooses (R115, R121). -/
def lineBecomesIdle (s : State) : State := updateLc (fun lc => { lc with view := .idle }) s

/-- LINE_IDLE (R115, R121): GAP becomes IDLE. Twelve recessive bits while a frame is received have ended that frame by a stuffing violation first (log 13). -/
def execLineIdle (s : State) : Answered :=
  if s.resetLow then .next s
  else
    match s.lc.view with
    | .idle => .next s
    | .gap _ => nextWithSelection (lineBecomesIdle s)
    | .frame => if s.lc.slot.sending then .next s else nextWithSelection (lineBecomesIdle (endReception s))

/-- DOMINANT_BIT_IN_GAP (R115): the count goes back to 0. -/
def execDominantBitInGap (s : State) : Answered :=
  match s.lc.view with
  | .gap _ => .next (updateLc (fun lc => { lc with view := .gap 0 }) s)
  | _ => .next s

/-- A request frame addressed to this station is passed on to the TE (R61, R82). -/
def passToTarget (f : Frame) (s : State) : State :=
  if isRequest f && ptUsesFrames s && decide (f.sender ≠ s.stc.address) &&
      decide ((headerOf f).map (·.target) = some (addressByte s.stc.address)) then passRequest f s
  else s

/-- A response frame whose requester field is this station's address is passed to the RE (R104, R127). -/
def passToRequester (f : Frame) (s : State) : State :=
  match responseOf f with
  | some r => if r.requester = addressByte s.stc.address then takeResponse f.sender r s else s
  | none => s

/-- Steps 2 and 3 of R127 for a response: the PT and the RE take it in either order (log 9). -/
def takeResponseFrame (f : Frame) (s : State) : State :=
  let s' := countFree s
  if Config.requesterTakesFirst s.freeCount then hear f (passToRequester f s') else passToRequester f (hear f s')

/-- What a good frame does at its end (R127). -/
def takeGoodFrame (f : Frame) (s : State) : State :=
  let s1 := updateLc (Lc.won f.cls f.sender) (endReception s)
  match f.cls with
  | .response => if f.sender = s.stc.address then hear f s1 else takeResponseFrame f s1
  | .request => passToTarget f (hear f s1)

/-- GOOD_FRAME (R127). A frame that fails the format checks of R126 is discarded (log 11). -/
def execGoodFrame (f : Frame) (s : State) : Answered :=
  if receiving s then
    if formatOk f then nextWithSelection (takeGoodFrame f s) else .next (endReception s)
  else .next s

/-- FRAME_DISCARDED (R126): the frame is passed to no block. Bits that are those of a good frame after all are taken as that frame (log 11); bits that reach none of the ends of R125 end no frame, and nothing happens (log 1). -/
def execFrameDiscarded (bits : List Bool) (s : State) : Answered :=
  if receiving s then
    match receive bits with
    | .error .cutOff => .next s
    | .error _ => .next (endReception s)
    | .ok f => nextWithSelection (takeGoodFrame f s)
  else .next s

end Sys2Proof.Machine
end

