-- ==== Sys2Proof/Machine/LocalPort.lean ====
section
/-! DEFINITION. The Local Port (chapter 9): bus cycles, the segment, the local address map with every read and write of it (Tables 10-4 to 10-7), and the commands of the local controller. -/

namespace Sys2Proof.Machine

/-- The segment word of a half-word address. -/
def wordOf (la : BitVec 14) : BitVec 12 := la.extractLsb' 1 12

/-- Whether a half-word address is the high one of its word. -/
def isHigh (la : BitVec 14) : Bool := la.getLsbD 0

/-- Whether a half-word address lies in the segment (Table 10-4). -/
def inSegment (la : BitVec 14) : Bool := decide (la.toNat < 0x2000)

/-- Half of a word. -/
def halfOf (high : Bool) (w : Word) : Half := if high then highHalf w else lowHalf w

/-- Whether a cycle is a read of a low half of the segment, the one that leaves the word latch filled (R142). -/
def isLowRead : BusCycle → Bool
  | .read la => inSegment la && !isHigh la
  | .write _ _ => false

/-! ### Reads outside the segment (R144 to R151, Tables 10-4 to 10-7) -/

/-- A half-word of a transfer buffer (R144). -/
def readBuffer (s : State) (la : Nat) : Half :=
  halfOf (decide (la % 2 = 1)) (s.lp.buffers.read ((la - 0x2000) / 2))

/-- The fields of a configuration record at 0x2200 to 0x2207 (Table 10-6). -/
def configField (c : ConfigRecord) : Nat → Half
  | 0 => c.responseWindow
  | 1 => c.lostLimit
  | 2 => c.busyLimit
  | 3 => c.retryInterval
  | 4 => c.deferralDeadline
  | 5 => c.discardTime
  | 6 => c.idleLifetime
  | 7 => c.presenceInterval
  | _ => 0

/-- The page record of an address of 0x2280 to 0x22FF. -/
def pageAt (la : Nat) : Fin 64 := Fin.ofNat 64 ((la - 0x2280) / 2)

/-- A read of the configuration area returns the staged record (R133, R149). -/
def readConfig (s : State) (la : Nat) : Half :=
  if la < 0x2280 then configField s.stc.staged (la - 0x2200)
  else
    let p := s.stc.staged.pages.at (pageAt la)
    if la % 2 = 0 then p.readOpen else p.writeSet

/-- The fields of a descriptor at 0x2300 to 0x2306. -/
def descriptorField (d : Descriptor) : Nat → Half
  | 0 => d.kind
  | 1 => d.target
  | 2 => d.address
  | 3 => d.count
  | 4 => d.tag
  | 5 => d.buffer
  | 6 => d.userTag
  | _ => 0

/-- The fields of the completion window's head at 0x2312 to 0x2319. -/
def completionField (c : Completion) : Nat → Half
  | 0 => c.userTag
  | 1 => c.kind
  | 2 => c.target
  | 3 => c.status.code
  | 4 => c.detail.code
  | 5 => BitVec.ofNat 16 c.words
  | 6 => c.buffer
  | 7 => BitVec.ofNat 16 c.attempts
  | _ => 0

/-- The fields of the event window's head at 0x2323 to 0x2326. -/
def eventField (e : Event) : Nat → Half
  | 0 => e.halves.1
  | 1 => e.halves.2.1
  | 2 => e.halves.2.2.1
  | 3 => e.halves.2.2.2
  | _ => 0

/-- 1 for true. -/
def flagHalf (b : Bool) : Half := if b then 1 else 0

/-- A read of the submission window (R145). -/
def readSubmission (s : State) (k : Nat) : Half :=
  if k = 8 then postResultCode s.lp.postResult else descriptorField s.lp.window k

/-- A read of the completion window (R146); when the queue is empty every field reads 0. -/
def readCompletion (s : State) (k : Nat) : Half :=
  if k = 0 then flagHalf (!s.lp.completions.isEmpty)
  else if k = 1 then BitVec.ofNat 16 s.lp.completions.length
  else
    match s.lp.completions.head? with
    | none => 0
    | some c => completionField c (k - 2)

/-- Whether a location shows a field of the event window's head while the event queue is empty. R147 and Table 10-5 do not state what it then reads: a free value (log 37). -/
def readsNoEvent (s : State) (la : Nat) : Bool := s.lp.events.isEmpty && decide (0x2323 ≤ la ∧ la ≤ 0x2326)

/-- A read of the event window (R147); when the queue is empty a field of the head reads as a free value (log 37). -/
def readEvent (s : State) (k : Nat) : Half :=
  if k = 0 then flagHalf (!s.lp.events.isEmpty)
  else if k = 1 then BitVec.ofNat 16 s.lp.events.length
  else if k = 2 then flagHalf s.lp.eventsLost
  else
    match s.lp.events.head? with
    | none => if k < 7 then Config.emptyEventField s.freeCount (k - 3) else 0
    | some e => eventField e (k - 3)

/-- The field and page a command result names (R134, R149). -/
def resultField : CommandResult → Half × Half
  | .refusedConfig n p => (BitVec.ofNat 16 n, BitVec.ofNat 16 p)
  | _ => (0, 0)

/-- Outstanding entries that are not FREE (R149). -/
def busyEntries (s : State) : Nat := (all8.filter (fun e => (s.re.table.at e).isSome)).length

/-- A read of the station status area (R149). -/
def readStatus (s : State) (k : Nat) : Half :=
  if k = 0 then s.stc.state.code
  else if k = 1 then addressHalf s.stc.address
  else if k = 2 then s.stc.rate.setWidth 16
  else if k = 3 then (s.stc.command.map (fun c => c.1.code)).getD 0
  else if k = 4 then (s.stc.command.map (fun c => c.2.code)).getD 0
  else if k = 5 then (s.stc.command.map (fun c => (resultField c.2).1)).getD 0
  else if k = 6 then (s.stc.command.map (fun c => (resultField c.2).2)).getD 0
  else if k = 7 then BitVec.ofNat 16 s.re.queue.length
  else if k = 8 then BitVec.ofNat 16 (busyEntries s)
  else 0

/-- The state half-word of a peer position (R150, 10.3). -/
def peerStateHalf (e : Peer) : Half :=
  flagHalf (decide (e.presence = .present)) ||| (flagHalf e.record.isSome <<< 1)

/-- A read of the peer view (R150). -/
def readPeer (s : State) (k : Nat) : Half :=
  let e := s.pt.peers.at (Fin.ofNat 16 (k / 2))
  if k % 2 = 0 then peerStateHalf e
  else
    match e.record with
    | none => 0
    | some r => r.seq.setWidth 16

/-- A read of the group view: the snapshot (R151). -/
def readGroupView (s : State) (k : Nat) : Half :=
  match s.lp.snapshot[k / 8]? with
  | none => 0
  | some g =>
    if k % 8 = 0 then 1
    else if k % 8 = 1 then addressHalf g.owner
    else if k % 8 = 2 then g.tag.setWidth 16
    else if k % 8 = 3 then BitVec.ofNat 16 g.held
    else 0

/-- A read of a location outside the segment (Table 10-4). -/
def readLocation (s : State) (la : Nat) : Half :=
  if la < 0x2200 then readBuffer s la
  else if la < 0x2300 then readConfig s la
  else if la < 0x2310 then readSubmission s (la - 0x2300)
  else if la < 0x2320 then readCompletion s (la - 0x2310)
  else if la < 0x2330 then readEvent s (la - 0x2320)
  else if la < 0x2340 then readStatus s (la - 0x2330)
  else if la < 0x2360 then readPeer s (la - 0x2340)
  else if la < 0x2380 then readGroupView s (la - 0x2360)
  else 0

/-- The OPEN positions of the group view, in open order (R18, R151). -/
def groupPositions (ge : Ge) : List GroupPosition :=
  ge.order.filterMap (fun g => (ge.table.at g).map (fun x => ⟨x.owner, x.tag, x.held⟩))

/-- A new snapshot of the group view (R151). -/
def takeSnapshot (s : State) : State := { s with lp := { s.lp with snapshot := groupPositions s.ge } }

/-! ### Writes outside the segment (R144 to R147, R149) -/

/-- A word with one half replaced. -/
def setHalf (high : Bool) (v : Half) (w : Word) : Word := if high then joinHalves v (lowHalf w) else joinHalves (highHalf w) v

/-- A write to a transfer buffer half-word; to a lent buffer it is ignored (R144). -/
def writeBufferHalf (b j : Fin 16) (high : Bool) (v : Half) (s : State) : State :=
  if lent s b then s
  else
    let k := bufferKey b.val j.val
    { s with lp := { s.lp with buffers := s.lp.buffers.write k (setHalf high v (s.lp.buffers.read k)) } }

/-- A write to a field of the configuration record (R133). -/
def setConfigField (c : ConfigRecord) (k : Nat) (v : Half) : ConfigRecord :=
  match k with
  | 0 => { c with responseWindow := v }
  | 1 => { c with lostLimit := v }
  | 2 => { c with busyLimit := v }
  | 3 => { c with retryInterval := v }
  | 4 => { c with deferralDeadline := v }
  | 5 => { c with discardTime := v }
  | 6 => { c with idleLifetime := v }
  | 7 => { c with presenceInterval := v }
  | _ => c

/-- A write to a page record: the read-open code at the even address, the write set at the odd one. -/
def setPageField (c : ConfigRecord) (la : Nat) (v : Half) : ConfigRecord :=
  let p := c.pages.at (pageAt la)
  { c with pages := c.pages.put (pageAt la) (if la % 2 = 0 then { p with readOpen := v } else { p with writeSet := v }) }

/-- A write to the configuration area goes to the staged record at once (R133, R149). -/
def writeConfig (la : Nat) (v : Half) (s : State) : State :=
  updateStc (fun c => { c with staged := if la < 0x2280 then setConfigField c.staged (la - 0x2200) v else setPageField c.staged la v }) s

/-- A write to a field of the submission window (R145). -/
def setDescriptorField (d : Descriptor) (k : Nat) (v : Half) : Descriptor :=
  match k with
  | 0 => { d with kind := v }
  | 1 => { d with target := v }
  | 2 => { d with address := v }
  | 3 => { d with count := v }
  | 4 => { d with tag := v }
  | 5 => { d with buffer := v }
  | 6 => { d with userTag := v }
  | _ => d

/-- A write to the completion CONSUME location (R146). -/
def consumeCompletion (s : State) : State :=
  match s.lp.completions with
  | [] => s
  | _ :: rest => completionSpaceGained { s with lp := { s.lp with completions := rest } }

/-- A write to the event CONSUME location (R147). -/
def consumeEvent (s : State) : State :=
  match s.lp.events with
  | [] => s
  | _ :: rest => { s with lp := { s.lp with events := rest, eventsLost := s.lp.eventsLost && !rest.isEmpty } }

/-- A write to the command location; a code that names no command changes nothing (R132). -/
def writeCommand (v : Half) (s : State) : State :=
  match Command.ofCode v with
  | some c => takeCommand c s
  | none => s

/-- A write to a location from 0x2300 on (Table 10-5); every address not listed there ignores writes. -/
def writeWindow (k : Nat) (v : Half) (s : State) : State :=
  if k < 7 then { s with lp := { s.lp with window := setDescriptorField s.lp.window k v } }
  else if k = 0x07 then postWindow s
  else if k = 0x1A then consumeCompletion s
  else if k = 0x2A then consumeEvent s
  else if k = 0x33 then writeCommand v s
  else s

/-- A write to a location outside the segment (Table 10-4). -/
def writeLocation (la : Nat) (v : Half) (s : State) : State :=
  if la < 0x2200 then
    writeBufferHalf (Fin.ofNat 16 ((la - 0x2000) / 32)) (Fin.ofNat 16 (la / 2)) (decide (la % 2 = 1)) v s
  else if la < 0x2300 then writeConfig la v s
  else writeWindow (la - 0x2300) v s

/-! ### Bus cycles (R141) -/

/-- Set the cycle in progress. -/
def setCycle (c : Option Cycle) (s : State) : State := { s with lp := { s.lp with cycle := c } }

/-- A read outside the segment; that of the first half-word of the group view takes a new snapshot first (R151). -/
def snapshotFor (la : BitVec 14) (s : State) : State := if la.toNat = 0x2360 then takeSnapshot s else s

/-- A read that takes a free value uses it up, so that the next such read takes another (log 37). -/
def countRead (la : BitVec 14) (s : State) : State := if readsNoEvent s la.toNat then countFree s else s

/-- A cycle whose claim is presented. -/
def beginClaim (b : BusCycle) (s : State) : State := presentClaim .lp (setCycle (some ⟨b, true, .claim⟩) s)

/-- A segment cycle that presents no claim: in CLEARING it waits, otherwise its work is done at once (R141, R14). -/
def beginNoClaim (b : BusCycle) (result : Half) (work : State → State) (s : State) : State :=
  if s.stc.state = .clearing then setCycle (some ⟨b, true, .clearing⟩) s
  else setCycle (some ⟨b, true, .done result⟩) (work s)

/-- The staged low half takes a word address and a value (R143). -/
def stageLow (a : BitVec 12) (v : Half) (s : State) : State := { s with lp := { s.lp with stagedLow := some (a, v) } }

/-- The high half the word latch holds for word a (R142). -/
def latched (s : State) (a : BitVec 12) : Option Half :=
  match s.lp.latch with
  | some (b, v) => if b = a then some v else none
  | none => none

/-- A read cycle begins (R141, R142). -/
def beginRead (la : BitVec 14) (s : State) : State :=
  if inSegment la then
    if isHigh la then
      match latched s (wordOf la) with
      | some v => beginNoClaim (.read la) v id s
      | none => beginClaim (.read la) s
    else beginClaim (.read la) s
  else
    let s' := snapshotFor la s
    setCycle (some ⟨.read la, true, .done (readLocation s' la.toNat)⟩) (countRead la s')

/-- A write cycle begins (R141, R143). -/
def beginWrite (la : BitVec 14) (v : Half) (s : State) : State :=
  if inSegment la then
    if isHigh la then beginClaim (.write la v) s
    else beginNoClaim (.write la v) 0 (stageLow (wordOf la) v) s
  else setCycle (some ⟨.write la v, true, .done 0⟩) (writeLocation la.toNat v s)

/-- A cycle begins. -/
def beginCycle (b : BusCycle) (s : State) : State :=
  match b with
  | .read la => beginRead la s
  | .write la v => beginWrite la v s

/-- A cycle whose work is done ends (R141): the word latch is emptied unless it was a low-half segment read (R142). -/
def closeCycle (b : BusCycle) (s : State) : State :=
  { s with lp := { s.lp with cycle := none, latch := if isLowRead b then s.lp.latch else none } }

/-- The controller raises its strobe or LCS# (R141): a cycle whose work is done ends; otherwise its work goes on and only the strobe is gone, and a later strobe that has begun no cycle is withdrawn. -/
def raiseStrobe (s : State) : State :=
  match s.lp.cycle with
  | none => s
  | some ⟨b, _, .done _⟩ => closeCycle b s
  | some ⟨b, true, w⟩ => setCycle (some ⟨b, false, w⟩) s
  | some ⟨_, false, _⟩ => { s with lp := { s.lp with nextStrobe := none } }

/-- A strobe is presented (R141): with a cycle's work still in progress it begins no cycle until that work is done. -/
def presentStrobe (b : BusCycle) (s : State) : State :=
  match s.lp.cycle with
  | none => beginCycle b s
  | some _ => { s with lp := { s.lp with nextStrobe := some b } }

/-- The controller begins a bus cycle; none begins while RESET# is low (R141), and none is left to begin at RESET_RELEASE: a strobe that is low then begins its cycle by a command given after it (the model's choice, log 35). A strobe still low from an earlier cycle has been raised first (log 7). -/
def busCycle (b : BusCycle) (s : State) : State :=
  if s.resetLow then s else presentStrobe b (raiseStrobe s)

/-- The strobe that waited for the work of an earlier cycle begins its cycle (R141). -/
def beginWaiting (s : State) : State :=
  match s.lp.nextStrobe with
  | none => s
  | some b => beginCycle b { s with lp := { s.lp with nextStrobe := none } }

/-- The work of the cycle in progress is done (R141): LRDY is asserted with the result, or, when its strobe was raised before, the cycle counts as ended and the next one can begin. -/
def workDone (c : Cycle) (result : Half) (s : State) : State :=
  if c.strobe then setCycle (some ⟨c.bus, true, .done result⟩) s else beginWaiting (closeCycle c.bus s)

/-- The cycle whose claim waits. -/
def claimingCycle (s : State) : Option Cycle :=
  match s.lp.cycle with
  | some ⟨b, st, .claim⟩ => some ⟨b, st, .claim⟩
  | _ => none

/-- The local word read claim of word a (R142): a low-half read loads the word latch. -/
def localWordRead (c : Cycle) (la : BitVec 14) (s : State) : State :=
  let w := committed s (wordOf la).toNat
  let s1 := takeClaim .lp s
  if isHigh la then workDone c (highHalf w) s1
  else workDone c (lowHalf w) { s1 with lp := { s1.lp with latch := some (wordOf la, highHalf w) } }

/-- The low half a high-half write stores over (R143): the staged low half of the same word, or the low half of the stored value. -/
def lowForWrite (s : State) (a : BitVec 12) : Half :=
  match s.lp.stagedLow with
  | some (b, v) => if b = a then v else lowHalf (storedWord s a.toNat)
  | none => lowHalf (storedWord s a.toNat)

/-- The staged low half holds nothing (R143). -/
def dropStaged (s : State) : State := { s with lp := { s.lp with stagedLow := none } }

/-- The local word write claim of word a (R143): an unheld word is stored and reported, a held word is refused. -/
def localWordWrite (c : Cycle) (la : BitVec 14) (v : Half) (s : State) : State :=
  let a := (wordOf la).toNat
  let s1 := takeClaim .lp s
  let s2 :=
    if (heldBy s a).isSome then postEvent (.localWriteRefused a) s1
    else reportStores [a] (storeWords a [joinHalves v (lowForWrite s (wordOf la))] s1)
  workDone c 0 (dropStaged s2)

/-- A segment cycle that waited for the end of clearing without a claim does its work (R14, R141). -/
def resumeAfterClearing (s : State) : State :=
  match s.lp.cycle with
  | some ⟨.write la v, st, .clearing⟩ => workDone ⟨.write la v, st, .clearing⟩ 0 (stageLow (wordOf la) v s)
  | some ⟨.read la, st, .clearing⟩ => workDone ⟨.read la, st, .clearing⟩ ((latched s (wordOf la)).getD 0) s
  | _ => s

/-! ### The commands of the local controller -/

/-- The half-word address of a segment word's half. -/
def segmentAddress (a : BitVec 12) (high : Bool) : BitVec 14 := BitVec.ofNat 14 (2 * a.toNat + high.toNat)

/-- LOCAL_READ_LOW_HALF (R142): a read cycle with LA[0] = 0. -/
def execLocalReadLowHalf (la : BitVec 13) (s : State) : Answered :=
  .next (busCycle (.read (BitVec.ofNat 14 (2 * la.toNat))) s)

/-- LOCAL_READ_HIGH_HALF (R142): a read cycle with LA[0] = 1. -/
def execLocalReadHighHalf (la : BitVec 13) (s : State) : Answered :=
  .next (busCycle (.read (BitVec.ofNat 14 (2 * la.toNat + 1))) s)

/-- LOCAL_WRITE_LOW_HALF (R143). -/
def execLocalWriteLowHalf (a : BitVec 12) (v : Half) (s : State) : Answered :=
  .next (busCycle (.write (segmentAddress a false) v) s)

/-- LOCAL_WRITE_HIGH_HALF (R143). -/
def execLocalWriteHighHalf (a : BitVec 12) (v : Half) (s : State) : Answered :=
  .next (busCycle (.write (segmentAddress a true) v) s)

/-- LOCAL_CYCLE_END (R141). -/
def execLocalCycleEnd (s : State) : Answered := .next (raiseStrobe s)

/-- LOCAL_WORD_READ (R142). -/
def execLocalWordRead (s : State) : Answered :=
  match claimingCycle s with
  | some ⟨.read la, st, w⟩ =>
    if granted .lp s then nextWithSelection (localWordRead ⟨.read la, st, w⟩ la s) else .next s
  | _ => .next s

/-- LOCAL_WORD_WRITE (R143). -/
def execLocalWordWrite (s : State) : Answered :=
  match claimingCycle s with
  | some ⟨.write la v, st, w⟩ =>
    if granted .lp s then nextWithSelection (localWordWrite ⟨.write la v, st, w⟩ la v s) else .next s
  | _ => .next s

/-- The half-word address of half of word j of buffer b (Table 10-4). -/
def bufferAddress (b j : Fin 16) (high : Bool) : BitVec 14 :=
  BitVec.ofNat 14 (0x2000 + 32 * b.val + 2 * j.val + high.toNat)

/-- TRANSFER_BUFFER_WRITE (R144). -/
def execTransferBufferWrite (b j : Fin 16) (high : Bool) (v : Half) (s : State) : Answered :=
  .next (busCycle (.write (bufferAddress b j high) v) s)

/-- LOCAL_REGISTER_WRITE (R145, R133, R132): a write cycle at any address does what a write there does. -/
def execLocalRegisterWrite (la : BitVec 14) (v : Half) (s : State) : Answered :=
  nextWithSelection (busCycle (.write la v) s)

/-- POST (R94, R145). -/
def execPost (v : Half) (s : State) : Answered := nextWithSelection (busCycle (.write 0x2307 v) s)

/-- COMPLETION_CONSUME (R146). -/
def execCompletionConsume (v : Half) (s : State) : Answered := nextWithSelection (busCycle (.write 0x231A v) s)

/-- EVENT_CONSUME (R147). -/
def execEventConsume (v : Half) (s : State) : Answered := .next (busCycle (.write 0x232A v) s)

/-- GROUP_VIEW_SNAPSHOT (R151). -/
def execGroupViewSnapshot (s : State) : Answered := .next (busCycle (.read 0x2360) s)

/-- CONFIGURE (R132, R134). -/
def execConfigure (s : State) : Answered := .next (busCycle (.write 0x2333 Command.configure.code) s)

/-- JOIN (R132, R135). -/
def execJoin (s : State) : Answered := nextWithSelection (busCycle (.write 0x2333 Command.join.code) s)

/-- LEAVE (R132, R137, R138). -/
def execLeave (s : State) : Answered := nextWithSelection (busCycle (.write 0x2333 Command.leave.code) s)

/-- REVOKE (R132, R140). -/
def execRevoke (s : State) : Answered := .next (busCycle (.write 0x2333 Command.revoke.code) s)

end Sys2Proof.Machine
end

