-- ==== Sys2Proof/Machine/Reset.lean ====
section
/-! DEFINITION. Pin reset and clearing (R13, R131, and the reset rule of every chapter). -/

namespace Sys2Proof.Machine

/-- The strap values (R131). -/
def setStraps (addr : Station) (rate : BitVec 2) (s : State) : State :=
  updateStc (fun c => { c with address := addr, rate := rate }) s

/-- Every block at its reset contents, RESET# low. The segment's stored values, which nothing can observe before clearing sets them to zero (R13), stay as they are; so do the model's own counter and queue. -/
def resetContents (s : State) : State :=
  { State.reset with
    sgm := { State.reset.sgm with words := s.sgm.words }
    freeCount := s.freeCount
    pending := s.pending }

/-- PIN_RESET (R131, R13, R40, R60, R79, R81, R113, R128). -/
def execPinReset (addr : Station) (rate : BitVec 2) (s : State) : Answered := .next (setStraps addr rate (resetContents s))

/-- The SGM presents the clearing claim, which is granted at once, and the line view starts in GAP with its count at 0 (R13, R115). -/
def beginClearing (s : State) : State :=
  { s with resetLow := false, sgm := { s.sgm with clearing := true }, lc := { s.lc with view := .gap 0 } }

/-- RESET_RELEASE (R13, R131, R115): the strap values held when RESET# returns high are kept. No bus cycle begins within the step (log 35). -/
def execResetRelease (addr : Station) (rate : BitVec 2) (s : State) : Answered :=
  if s.resetLow then .next (beginClearing (setStraps addr rate s)) else .next s

/-- Every stored value zero, and the clearing claim ended (R13). -/
def clearSegment (s : State) : State := { s with sgm := { s.sgm with words := [], clearing := false } }

/-- CLEARING_DONE (R13, R131, R14): SETUP is entered, and a segment cycle that waited without a claim goes on. -/
def execClearingDone (s : State) : Answered :=
  if s.sgm.clearing then nextWithSelection (resumeAfterClearing (enterState .setup (clearSegment s))) else .next s

end Sys2Proof.Machine
end

