-- ==== Sys2Proof/Machine/Dispatch.lean ====
section
/-! DEFINITION. One arm for each command. -/

namespace Sys2Proof.Machine

/-- A command's effect on everything but the queue. -/
def exec (i : Instr) (s : State) : Host.Outcome State Fault Refusal :=
  match i with
  | .pinReset addr rate => Sys2Proof.Machine.execPinReset addr rate s
  | .resetRelease addr rate => Sys2Proof.Machine.execResetRelease addr rate s
  | .clearingDone => Sys2Proof.Machine.execClearingDone s
  | .localReadLowHalf la => Sys2Proof.Machine.execLocalReadLowHalf la s
  | .localReadHighHalf la => Sys2Proof.Machine.execLocalReadHighHalf la s
  | .localWriteLowHalf a v => Sys2Proof.Machine.execLocalWriteLowHalf a v s
  | .localWriteHighHalf a v => Sys2Proof.Machine.execLocalWriteHighHalf a v s
  | .localCycleEnd => Sys2Proof.Machine.execLocalCycleEnd s
  | .localWordRead => Sys2Proof.Machine.execLocalWordRead s
  | .localWordWrite => Sys2Proof.Machine.execLocalWordWrite s
  | .transferBufferWrite b j high v => Sys2Proof.Machine.execTransferBufferWrite b j high v s
  | .localRegisterWrite la v => Sys2Proof.Machine.execLocalRegisterWrite la v s
  | .post v => Sys2Proof.Machine.execPost v s
  | .completionConsume v => Sys2Proof.Machine.execCompletionConsume v s
  | .eventConsume v => Sys2Proof.Machine.execEventConsume v s
  | .groupViewSnapshot => Sys2Proof.Machine.execGroupViewSnapshot s
  | .configure => Sys2Proof.Machine.execConfigure s
  | .join => Sys2Proof.Machine.execJoin s
  | .leave => Sys2Proof.Machine.execLeave s
  | .revoke => Sys2Proof.Machine.execRevoke s
  | .startDelimiter keyRead => Sys2Proof.Machine.execStartDelimiter keyRead s
  | .contentionWon => Sys2Proof.Machine.execContentionWon s
  | .transmitSent => Sys2Proof.Machine.execTransmitSent s
  | .transmitFault => Sys2Proof.Machine.execTransmitFault s
  | .lineIdle => Sys2Proof.Machine.execLineIdle s
  | .goodFrame f => Sys2Proof.Machine.execGoodFrame f s
  | .frameDiscarded bits => Sys2Proof.Machine.execFrameDiscarded bits s
  | .frameInHand => Sys2Proof.Machine.execFrameInHand s
  | .rdRangeRead => Sys2Proof.Machine.execRdRangeRead s
  | .wrApply => Sys2Proof.Machine.execWrApply s
  | .rdsEvaluation => Sys2Proof.Machine.execRdsEvaluation s
  | .slotCapture => Sys2Proof.Machine.execSlotCapture s
  | .gopen => Sys2Proof.Machine.execGopen s
  | .gwrite => Sys2Proof.Machine.execGwrite s
  | .gwriteApply => Sys2Proof.Machine.execGwriteApply s
  | .gclose => Sys2Proof.Machine.execGclose s
  | .groupCommit => Sys2Proof.Machine.execGroupCommit s
  | .gabort => Sys2Proof.Machine.execGabort s
  | .groupRollback => Sys2Proof.Machine.execGroupRollback s
  | .idleTimerExpiry g => Sys2Proof.Machine.execIdleTimerExpiry g s
  | .geTakeExpiry => Sys2Proof.Machine.execGeTakeExpiry s
  | .geTakePeerLost => Sys2Proof.Machine.execGeTakePeerLost s
  | .geTakePeerRestarted => Sys2Proof.Machine.execGeTakePeerRestarted s
  | .geTakeRevoke => Sys2Proof.Machine.execGeTakeRevoke s
  | .geTakeStartOfLeaving => Sys2Proof.Machine.execGeTakeStartOfLeaving s
  | .sruTakeAnnouncement => Sys2Proof.Machine.execSruTakeAnnouncement s
  | .reTakeAnnouncement => Sys2Proof.Machine.execReTakeAnnouncement s
  | .restartPurge => Sys2Proof.Machine.execRestartPurge s
  | .sruTakeStartOfLeaving => Sys2Proof.Machine.execSruTakeStartOfLeaving s
  | .reTakeStartOfLeaving => Sys2Proof.Machine.execReTakeStartOfLeaving s
  | .discardTimerExpiry slot => Sys2Proof.Machine.execDiscardTimerExpiry slot s
  | .lastHeardExpiry p => Sys2Proof.Machine.execLastHeardExpiry p s
  | .quietTimerExpiry => Sys2Proof.Machine.execQuietTimerExpiry s
  | .listenTimerExpiry => Sys2Proof.Machine.execListenTimerExpiry s
  | .leavingPresenceDue => Sys2Proof.Machine.execLeavingPresenceDue s
  | .responseWindowExpiry e => Sys2Proof.Machine.execResponseWindowExpiry e s
  | .backoffExpiry e => Sys2Proof.Machine.execBackoffExpiry e s
  | .deferralDeadlineExpiry e => Sys2Proof.Machine.execDeferralDeadlineExpiry e s
  | .dominantBitInGap => Sys2Proof.Machine.execDominantBitInGap s

end Sys2Proof.Machine
end

