-- ==== Sys2Proof/WellFormed.lean ====
section
/-! DEFINITION. What a command's operands must be for the row to be what happens: a LOCAL_REGISTER_WRITE is at a location with no behaviour of its own, a GOOD_FRAME passes the format checks, the bits of a FRAME_DISCARDED are those of a frame that has ended and is not good. Every other operand is in range by its type. -/

namespace Sys2Proof

/-- A location outside the segment and the transfer buffers whose write is no other row's (Tables 10-4, 10-5): not POST, not a CONSUME, not a command code at the command location (R132). -/
def plainLocation (la : BitVec 14) (v : Half) : Bool :=
  decide (0x2200 ≤ la.toNat) && decide (la ≠ 0x2307) && decide (la ≠ 0x231A) && decide (la ≠ 0x232A) &&
  !(decide (la = 0x2333) && (Machine.Command.ofCode v).isSome)

/-- Well-formedness of a command. -/
def Instr.wellFormed : Instr → Bool
  | .localRegisterWrite la v => plainLocation la v
  | .goodFrame f => Machine.formatOk f
  | .frameDiscarded bits => Machine.isDiscarded bits
  | .pinReset _ _ | .resetRelease _ _ | .clearingDone | .localReadLowHalf _ | .localReadHighHalf _
  | .localWriteLowHalf _ _ | .localWriteHighHalf _ _ | .localCycleEnd | .localWordRead | .localWordWrite
  | .transferBufferWrite _ _ _ _ | .post _ | .completionConsume _ | .eventConsume _ | .groupViewSnapshot
  | .configure | .join | .leave | .revoke | .startDelimiter _ | .contentionWon | .transmitSent | .transmitFault | .lineIdle
  | .frameInHand | .rdRangeRead | .wrApply | .rdsEvaluation | .slotCapture | .gopen | .gwrite | .gwriteApply | .gclose
  | .groupCommit | .gabort | .groupRollback | .idleTimerExpiry _ | .geTakeExpiry | .geTakePeerLost | .geTakePeerRestarted
  | .geTakeRevoke | .geTakeStartOfLeaving | .sruTakeAnnouncement | .reTakeAnnouncement | .restartPurge
  | .sruTakeStartOfLeaving | .reTakeStartOfLeaving | .discardTimerExpiry _ | .lastHeardExpiry _ | .quietTimerExpiry
  | .listenTimerExpiry | .leavingPresenceDue | .responseWindowExpiry _ | .backoffExpiry _ | .deferralDeadlineExpiry _
  | .dominantBitInGap => true

end Sys2Proof
end

