-- ==== Sys2Proof/Safety.lean ====
section
/-! DEFINITION. The words the statements are written in: what a step shows outside, the laws the manual gives for the whole station, and the invariants that keep them. -/

namespace Sys2Proof.Machine

/-! ### Words of the statements about single commands -/

/-- The local port can begin a cycle: RESET# is high and no cycle is in progress (R141). -/
def State.portReady (s : State) : Prop := s.resetLow = false ∧ s.lp.cycle = none

/-- The bus cycle a command of the local controller begins (R141, Table 10-4). -/
def busOf : Instr → Option BusCycle
  | .localReadLowHalf la => some (.read (BitVec.ofNat 14 (2 * la.toNat)))
  | .localReadHighHalf la => some (.read (BitVec.ofNat 14 (2 * la.toNat + 1)))
  | .localWriteLowHalf a v => some (.write (BitVec.ofNat 14 (2 * a.toNat)) v)
  | .localWriteHighHalf a v => some (.write (BitVec.ofNat 14 (2 * a.toNat + 1)) v)
  | .transferBufferWrite b j high v => some (.write (BitVec.ofNat 14 (0x2000 + 32 * b.val + 2 * j.val + high.toNat)) v)
  | .localRegisterWrite la v => some (.write la v)
  | .post v => some (.write 0x2307 v)
  | .completionConsume v => some (.write 0x231A v)
  | .eventConsume v => some (.write 0x232A v)
  | .groupViewSnapshot => some (.read 0x2360)
  | .configure => some (.write 0x2333 1)
  | .join => some (.write 0x2333 2)
  | .leave => some (.write 0x2333 3)
  | .revoke => some (.write 0x2333 4)
  | _ => none

/-- The event queue after one more event reached it (R147). -/
def Lp.withEvent (e : Event) (lp : Lp) : Lp :=
  if lp.events.length < 16 then { lp with events := lp.events ++ [e] } else { lp with eventsLost := true }

/-- The TE after the frame in hand h has been answered with r (R63, R75). -/
def Te.answered (h : Hand) (r : Reply) (te : Te) : Te :=
  { te with hand := none, queue := te.queue ++ [⟨h.sender, h.req.seq, r, 0, false⟩] }

/-- The peer entries after an outcome has been written to the reply record of p (R72). -/
def Pt.recorded (p : Station) (seq : Byte) (kind : BitVec 4) (r : Reply) (pt : Pt) : Pt :=
  { pt with peers := pt.peers.put p { pt.peers.at p with record := some ⟨seq, kind, r.recorded⟩ } }

/-- The arbiter can grant this claimant's claim next (R12): the clearing claim is not in progress, the claim waits, and those before it may each arrive later than their places show: the SRU's claim for a capture (R11, log 8) or for an evaluation handed over behind other work (R45, log 33), the GE's for a further rollback of its list (R31, log 32). -/
def Granted (c : Claimant) (s : State) : Prop :=
  s.sgm.clearing = false ∧ ∃ earlier later, s.sgm.claims = earlier ++ c :: later ∧
    ∀ d ∈ earlier, (d = .sru ∧ ∃ w ws, s.sru.work = w :: ws ∧ w ≠ .evaluate false) ∨ (d = .ge ∧ s.ge.following = true)

/-- A key has the stuff bit b within it (R116, R118): seven equal key bits stand before the ninth, and b is of the other state. -/
def KeyHasStuffBit (k : BitVec 9) (b : Bool) : Prop :=
  ∃ n, n ≤ 1 ∧ ∀ i, i < 7 → (msbFirst k)[n + i]? = some (!b)

/-- Every bit of a key is read back as sent, the stuff bit within it included (R118). -/
def KeyReadBack (k : BitVec 9) (r : KeyRead) : Prop := r.bits = k ∧ ∀ b, KeyHasStuffBit k b → r.stuffBit = b

/-- Nothing waits for the SRU, the RE or the TE to take it: no announcement and no start of LEAVING (R88, R138). -/
def NothingWaits (s : State) : Prop :=
  s.sru.announced = none ∧ s.sru.startOfLeaving = false ∧ s.re.announced = none ∧ s.re.startOfLeaving = false ∧ s.te.restarted = none

/-- The GE when its end reports for what it has been told up to now are without effect (R81): the same work and operation, each lost, departed or restarted one marked. -/
def Ge.unreported (ge : Ge) : Ge :=
  { ge with
    work := ge.work.map (fun w => match w with
      | .gone p _ => .gone p false
      | .restarted p _ => .restarted p 0
      | w => w)
    op := match ge.op with
      | some (.rollback c l (.gone p _)) => some (.rollback c l (.gone p false))
      | some (.rollback c l (.restarted p _)) => some (.rollback c l (.restarted p 0))
      | op => op }

/-- The transmit slot and the rest of the Link Controller after a step that changes no more than the offers: while the line is IDLE the LC has chosen again (R121), otherwise nothing has changed. -/
def LinkFollows (s t : State) : Prop :=
  t.lc = { s.lc with slot := if s.lc.view = .idle then TxSlot.ofOffer (selectOffer { t with lc := s.lc }) else s.lc.slot }

/-- Whether a slot is READY with one of these addresses in its range (R54). -/
def readyHit (addrs : List Nat) (sl : Slot) : Prop :=
  (∃ ws, sl.state = .ready ws) ∧ ∃ a ∈ addrs, sl.addr ≤ a ∧ a < sl.addr + sl.count

/-- The SRU after a report of stored addresses (R54): the READY slots hit are FREE, and nothing else has changed. -/
def ReportTaken (addrs : List Nat) (s t : State) : Prop :=
  (∀ i sl, s.sru.slots.at i = some sl → (readyHit addrs sl → t.sru.slots.at i = none) ∧ (¬ readyHit addrs sl → t.sru.slots.at i = some sl)) ∧
  (∀ i, s.sru.slots.at i = none → t.sru.slots.at i = none) ∧
  t.sru.work = s.sru.work ∧ t.sru.announced = s.sru.announced ∧ t.sru.startOfLeaving = s.sru.startOfLeaving

/-- The slots marked by a release notice in state u (R51): WAITING, no capture pending, range free. -/
def marked (u : State) (i : Fin 4) : Bool :=
  match u.sru.slots.at i with
  | some ⟨_, _, a, n, .waiting false, _⟩ => !rangeHeld u a n
  | _ => false

/-- The SRU after a release notice taken in state u (R51, R45): each marked slot has capture pending, the captures stand behind the SRU's work in ascending slot number, and nothing else has changed. -/
def NoticeTaken (u t : State) : Prop :=
  (∀ i, marked u i = true → ∃ sl, u.sru.slots.at i = some sl ∧ t.sru.slots.at i = some { sl with state := .waiting true }) ∧
  (∀ i, marked u i = false → t.sru.slots.at i = u.sru.slots.at i) ∧
  t.sru.work = u.sru.work ++ ([0, 1, 2, 3].filter (marked u)).map .capture ∧
  t.sru.announced = u.sru.announced ∧ t.sru.startOfLeaving = u.sru.startOfLeaving

/-- The local port of t is that of s, but for the event queue and its flag. -/
def LpButEvents (s t : State) : Prop := t.lp = { s.lp with events := t.lp.events, eventsLost := t.lp.eventsLost }

/-- A read cycle at a half-word address. -/
def readCommand (la : BitVec 14) : Instr :=
  if la.getLsbD 0 then .localReadHighHalf (la.extractLsb' 1 13) else .localReadLowHalf (la.extractLsb' 1 13)

/-- The cycle of b stands with its work done, LRDY asserted and result v (R141). -/
def State.cycleDone (b : BusCycle) (v : Half) (s : State) : State := { s with lp := { s.lp with cycle := some ⟨b, true, .done v⟩ } }

/-- A descriptor of kind RD, RDS, WR or GWRITE references its buffer (section 6.1). -/
def Descriptor.references (d : Descriptor) (b : Fin 16) : Prop :=
  (d.kind = 1 ∨ d.kind = 2 ∨ d.kind = 3 ∨ d.kind = 5) ∧ d.buffer.toNat = b.val

/-- A buffer is lent while a queued descriptor or an outstanding entry that is not FREE references it (R94, R95). -/
def Lent (s : State) (b : Fin 16) : Prop :=
  (∃ q ∈ s.re.queue, q.desc.references b) ∨ ∃ e x, s.re.table.at e = some x ∧ x.desc.references b

/-- The fields of a descriptor in the order of 0x2300 to 0x2306 (Table 10-5). -/
def Descriptor.fields (d : Descriptor) : List Half := [d.kind, d.target, d.address, d.count, d.tag, d.buffer, d.userTag]

/-- The fields of a configuration record in the order of 0x2200 to 0x2207 (Table 10-6). -/
def ConfigRecord.fields (c : ConfigRecord) : List Half :=
  [c.responseWindow, c.lostLimit, c.busyLimit, c.retryInterval, c.deferralDeadline, c.discardTime, c.idleLifetime, c.presenceInterval]

/-- What the submission, completion and event windows and the status area show, location by location (Table 10-5). An address not listed reads 0. With an empty event queue the table gives the fields of its head no value (`NoEventRead`). -/
def windowTable (s : State) : List (Nat × Half) :=
  let head (f : Completion → Half) : Half := (s.lp.completions.head?.map f).getD 0
  let event : List (Nat × Half) := match s.lp.events with
    | [] => []
    | e :: _ => [(0x2323, e.halves.1), (0x2324, e.halves.2.1), (0x2325, e.halves.2.2.1), (0x2326, e.halves.2.2.2)]
  let command (f : Command × CommandResult → Half) : Half := (s.stc.command.map f).getD 0
  [(0x2300, s.lp.window.kind), (0x2301, s.lp.window.target), (0x2302, s.lp.window.address), (0x2303, s.lp.window.count),
   (0x2304, s.lp.window.tag), (0x2305, s.lp.window.buffer), (0x2306, s.lp.window.userTag), (0x2308, postResultCode s.lp.postResult)] ++
  [(0x2310, if s.lp.completions = [] then 0 else 1), (0x2311, BitVec.ofNat 16 s.lp.completions.length),
   (0x2312, head (·.userTag)), (0x2313, head (·.kind)), (0x2314, head (·.target)), (0x2315, head (·.status.code)),
   (0x2316, head (·.detail.code)), (0x2317, head (fun c => BitVec.ofNat 16 c.words)), (0x2318, head (·.buffer)),
   (0x2319, head (fun c => BitVec.ofNat 16 c.attempts))] ++
  [(0x2320, if s.lp.events = [] then 0 else 1), (0x2321, BitVec.ofNat 16 s.lp.events.length), (0x2322, if s.lp.eventsLost then 1 else 0)] ++ event ++
  [(0x2330, s.stc.state.code), (0x2331, BitVec.ofNat 16 (s.stc.address.val + 1)), (0x2332, s.stc.rate.setWidth 16),
   (0x2333, command (·.1.code)), (0x2334, command (·.2.code)),
   (0x2335, command (fun c => match c.2 with | .refusedConfig n _ => BitVec.ofNat 16 n | _ => 0)),
   (0x2336, command (fun c => match c.2 with | .refusedConfig _ p => BitVec.ofNat 16 p | _ => 0)),
   (0x2337, BitVec.ofNat 16 s.re.queue.length),
   (0x2338, BitVec.ofNat 16 (([0, 1, 2, 3, 4, 5, 6, 7] : List (Fin 8)).filter (fun e => (s.re.table.at e).isSome)).length)]

/-- A read of a field of the event window's head while the event queue is empty: its value is not stated (R147, Table 10-5), and is a free value (log 37). -/
def NoEventRead (la : Nat) (s : State) : Prop := s.lp.events = [] ∧ 0x2323 ≤ la ∧ la ≤ 0x2326

/-- What location k of position p of the group view shows from a snapshot (Table 10-4): state, owner, tag, held-word count, then zeros; a FREE position shows 0 in all. -/
def groupViewShows (snapshot : List GroupPosition) (p : Fin 4) (k : Fin 8) : Half :=
  match snapshot[p.val]? with
  | none => 0
  | some g => [1, BitVec.ofNat 16 (g.owner.val + 1), g.tag.setWidth 16, BitVec.ofNat 16 g.held, 0, 0, 0, 0].getD k.val 0

/-- The GE's work after a REVOKE reached it (R22, R140): joined to a REVOKE that already waits with no group frame behind it, otherwise last. -/
def RevokeWaits (ws ws' : List GeWork) : Prop :=
  ((∃ l r, ws = l ++ GeWork.revoke :: r ∧ GeWork.frame ∉ r) → ws' = ws) ∧
  ((¬ ∃ l r, ws = l ++ GeWork.revoke :: r ∧ GeWork.frame ∉ r) → ws' = ws ++ [.revoke])

/-- Work that is no frame is the next that the GE can take, with the work that then waits (R22): it waits first, or a group frame accepted before LEAVE waits before it while the start of LEAVING waits behind that frame, which may yet reach the GE later (R38, log 36). -/
def OtherNext (ws : List GeWork) (w : GeWork) (rest : List GeWork) : Prop :=
  ws = w :: rest ∨ ∃ more, ws = .frame :: w :: more ∧ GeWork.startOfLeaving ∈ w :: more ∧ rest = .frame :: more

/-- Station Control after it has been told that a frame of this station was sent (R90): in JOINED and LEAVING, unless the leaving PRESENCE is due, the quiet timer starts anew and a plain PRESENCE is no longer due. -/
def Stc.quieted (c : Stc) : Stc :=
  if (c.state = .joined ∨ c.state = .leaving) ∧ c.due ≠ some .leaving then
    { c with quiet := .running (1000 * c.active.presenceInterval.toNat), due := if c.due = some .plain then none else c.due }
  else c

/-- The Link Controller when a frame being received has ended (R115, R125): GAP, no receive frame, and a chosen frame kept. -/
def Lc.ended (lc : Lc) : Lc :=
  { lc with view := .gap 0, receive := none, slot := match lc.slot with | .contending o _ => .chosen o | x => x }

/-- The bytes a queued reply is sent as after requester and sequence number, with its kind code (Tables 10-1 and 10-3). -/
def Reply.sentAs : Reply → BitVec 4 × List Byte
  | .data ws => (9, BitVec.ofNat 8 ws.length :: ws.flatMap bytesOfWord)
  | .done n => (10, [BitVec.ofNat 8 n])
  | .defer => (11, [])
  | .busy => (12, [])
  | .refuse r => (13, [r.code])

/-- The bytes a request of a descriptor is sent as after target, sequence number and flags (Table 10-3, R153): low eight bits of the count, all bits of the address, the least significant four bits of the tag. -/
def Descriptor.sentAs (d : Descriptor) (data : List Word) : List Byte :=
  let tag : Byte := (d.tag.extractLsb' 0 4).setWidth 8
  let range : List Byte := [d.address.extractLsb' 8 8, d.address.extractLsb' 0 8, d.count.extractLsb' 0 8]
  if d.kind = 1 ∨ d.kind = 2 then range
  else if d.kind = 3 then range ++ data.flatMap bytesOfWord
  else if d.kind = 5 then tag :: range ++ data.flatMap bytesOfWord
  else [tag]

/-- Words 0 to n - 1 of a buffer. -/
def bufferWords (s : State) (b : Fin 16) (n : Nat) : List Word := (List.range n).map (fun j => s.lp.buffers.read (16 * b.val + j))

/-- A frame that is taken as a good one: GOOD_FRAME, or FRAME_DISCARDED with bits that are those of a good frame after all (log 11). -/
def taken : Instr → Frame → Prop
  | .goodFrame f, f' => f = f' ∧ formatOk f = true
  | .frameDiscarded bits, f' => receive bits = .ok f'
  | _, _ => False

/-- What the withdrawal of offer o makes of the transmit slot (R122): a frame not yet on the line leaves it, one on the line is completed without a report, and any other stays. -/
def Withdrawn (o : Offer) (slot slot' : TxSlot) : Prop :=
  (∀ f b, slot = .onLine o f b false → slot' = .onLine o f b true) ∧
  (slot = .chosen o ∨ (∃ k, slot = .contending o k) → slot' = .empty) ∧
  ((∀ f b, slot ≠ .onLine o f b false) → slot ≠ .chosen o → (∀ k, slot ≠ .contending o k) → slot' = slot)

/-- Whether a response of sender p with sequence number q matches outstanding entry e (R104). -/
def Matches (s : State) (p : Station) (q : Byte) (x : Entry) (e : Fin 8) : Prop :=
  s.re.table.at e = some x ∧ x.desc.target.toNat = p.val + 1 ∧ x.seq = q ∧
  (x.state = .awaitResponse ∨ x.state = .backoff ∨ (x.state = .readyToSend ∧ 1 ≤ x.attempts ∧ onLineOffer s ≠ some (.request e)))

/-- The station after the frame in hand h has been answered with r (R63, R72, R75). -/
def State.answered (h : Hand) (r : Reply) (s : State) : State :=
  { s with te := s.te.answered h r, pt := s.pt.recorded h.sender h.req.seq h.req.kind.code r }

/-- The claims waiting after the SRU's work has changed from ws to ws' (R45, R53): the claim at the arbiter is that of the first work, withdrawn and presented anew when the first work is another. That the next claim takes its place at once is the model's choice (logs 8, 33). -/
def ClaimFollows (ws ws' : List SruWork) (cs cs' : List Claimant) : Prop :=
  (ws.head? = ws'.head? → cs' = cs) ∧ (ws.head? ≠ ws'.head? → cs' = cs.erase .sru ++ (if ws' = [] then [] else [.sru]))

/-- Every word of a range lies in a page that is read-open (R4). -/
def readOpenRange (s : State) (addr count : Nat) : Prop :=
  ∀ a, addr ≤ a → a < addr + count → (s.stc.active.pages.at (Fin.ofNat 64 (a / 64))).readOpen = 1

/-- Every word of a range lies in a page whose write set has the requester (R5). -/
def writableRange (s : State) (p : Station) (addr count : Nat) : Prop :=
  ∀ a, addr ≤ a → a < addr + count → (s.stc.active.pages.at (Fin.ofNat 64 (a / 64))).writeSet.getLsbD p.val = true

/-- An operation that ends a list of groups begins in state u (R31): with groups to roll back it presents the first claim, with none it ends at once. -/
def Begun (cause : AbortCause) (list : List (Fin 4)) (fin : OpEnd) (u : State) : State :=
  if list = [] then endOperation fin u
  else { u with ge := { u.ge with op := some (.rollback cause list fin) }, sgm := { u.sgm with claims := u.sgm.claims ++ [.ge] } }

/-- The Group Engine when group g has ended (R27, R28), its holds apart: the entry is FREE, out of open order, its log entries are back in the pool and no expiry of it waits. -/
def EndedBut (g : Fin 4) (ge ge' : Ge) : Prop :=
  ge' = { ge with
    table := ge.table.put g none
    order := ge.order.erase g
    undo := ge.undo.filter (fun e => e.group ≠ g)
    work := ge.work.filter (fun w => w ≠ .expiry g)
    holds := ge'.holds }

/-! ### Laws of the station -/

/-- The station is at its reset contents, as it is while RESET# is low: everything but the straps, the segment's words (R13), the model's counter and the queue of commands (logs 5, 10, 21). -/
def HeldInReset (s : State) : Prop :=
  s = { State.reset with
        sgm := { State.reset.sgm with words := s.sgm.words }
        stc := { State.reset.stc with address := s.stc.address, rate := s.stc.rate }
        freeCount := s.freeCount
        pending := s.pending }

/-- While RESET# is low the station is at its reset contents; the clearing claim is in progress in CLEARING once RESET# is high (R13, R131); and in CLEARING every block but the port, the line and the configuration is as pin reset left it (R13, R148), so nothing waits, runs or is offered. -/
structure ClearingLaws (s : State) : Prop where
  reset : s.resetLow = true → HeldInReset s
  clearing : s.sgm.clearing = true ↔ s.stc.state = .clearing ∧ s.resetLow = false
  blocks : s.stc.state = .clearing → s.ge = State.reset.ge ∧ s.sru = State.reset.sru ∧ s.te = State.reset.te ∧ s.pt = State.reset.pt ∧
    s.re = State.reset.re ∧ s.lc.slot = .empty ∧ s.stc.listen = .stopped ∧ s.stc.quiet = .stopped ∧ s.stc.due = none ∧
    s.lp.completions = [] ∧ s.lp.events = [] ∧ s.lp.eventsLost = false

/-- The queues of fixed size (R63, R64, R75, R93, R146, R147): the response queue has room for the answer of the frame in hand, and the events-lost flag is never set while the event queue is empty. -/
def QueuesBounded (s : State) : Prop :=
  s.te.queue.length + (if s.te.hand.isSome then 1 else 0) ≤ 8 ∧ s.re.queue.length ≤ 16 ∧ s.lp.completions.length ≤ 16 ∧
  s.lp.events.length ≤ 16 ∧ (s.lp.eventsLost = true → s.lp.events ≠ [])

/-- The laws of holds and log entries (R17, R18, R19, R20, R21) and of the operation in progress (R22, R31). -/
structure HoldLaws (ge : Ge) : Prop where
  /-- a word is marked held by a group exactly when that group's log has an entry for it -/
  held : ∀ a g, Sparse.get ge.holds a = some g ↔ ∃ e ∈ ge.undo, e.addr = a ∧ e.group = g
  /-- no two log entries in use are for one word -/
  oneEntry : (ge.undo.map (·.addr)).Nodup
  /-- an OPEN entry's held-word count is the length of its log list -/
  count : ∀ g x, ge.table.at g = some x → x.held = (ge.undo.filter (fun e => e.group = g)).length
  /-- a FREE entry has no log list -/
  freeLog : ∀ g, ge.table.at g = none → ge.undo.filter (fun e => e.group = g) = []
  /-- the pool has 128 entries -/
  pool : ge.undo.length ≤ 128
  /-- open order names each OPEN entry once and nothing else -/
  order : ge.order.Nodup ∧ ∀ g, g ∈ ge.order ↔ (ge.table.at g).isSome
  /-- no two OPEN groups have the same owner and tag -/
  pair : ∀ g g' x x', ge.table.at g = some x → ge.table.at g' = some x' → x.owner = x'.owner → x.tag = x'.tag → g = g'
  /-- the group a GWRITE is being applied to is OPEN -/
  target : ∀ g, ge.op = some (.gwrite g) → (ge.table.at g).isSome
  /-- only a rollback follows another of its list (R31) -/
  following : ge.following = true → ∃ cause list fin, ge.op = some (.rollback cause list fin)

/-- A write that has passed its tests: a valid range, with as many data words (R2, R67). -/
def Request.writeReady (r : Request) : Prop := r.addr + r.count ≤ 4096 ∧ r.data.length = r.count

/-- The descriptors of live reads and writes fit their buffer (R97). -/
def Descriptor.fits (d : Descriptor) : Prop := bufferOf d ≠ none → d.count.toNat ≤ 16

/-- The two RAMs and the hold map are in canonical form and within their size (R1, R20, R144), and so is everything that waits to be stored into them. -/
structure MemoryCanonical (s : State) : Prop where
  words : Mem.wf 4096 s.sgm.words
  buffers : Mem.wf 256 s.lp.buffers
  holds : Sparse.wf 4096 s.ge.holds
  log : ∀ e ∈ s.ge.undo, e.addr < 4096
  wr : ∀ h, s.te.hand = some h → h.stage = .wrClaim → h.req.writeReady
  gwrite : ∀ g, s.ge.op = some (.gwrite g) → ∃ h, s.te.hand = some h ∧ h.stage = .ge ∧ h.req.writeReady
  /-- a GWRITE handed to the GE has as many data words as its count (R67) -/
  handed : ∀ h, s.te.hand = some h → h.stage = .ge → h.req.kind = .gwrite → h.req.data.length = h.req.count
  entries : ∀ e x, s.re.table.at e = some x → x.desc.fits

/-- What the frame in hand waits for is what the blocks have (R45, R63). When a group frame reaches the GE the manual leaves open; that the GE has it from the moment the TE waits for it is the model's choice (log 36). -/
structure HandMatches (s : State) : Prop where
  /-- the GE has the group frame, as waiting work or as the operation in progress, exactly when the TE waits for it -/
  ge : s.ge.work.count .frame + (match s.ge.op with
      | some (.gwrite _) => 1
      | some (.commit _) => 1
      | some (.rollback _ _ .reply) => 1
      | _ => 0) = (if s.te.hand.map (·.stage) = some .ge then 1 else 0)
  /-- the SRU has the RDS once, exactly when the TE waits for it -/
  sru : s.sru.work.countP (·.isEvaluate) = if s.te.hand.map (·.stage) = some .sru then 1 else 0
  /-- a capture waits for exactly the slots with capture pending -/
  capture : ∀ i, SruWork.capture i ∈ s.sru.work ↔ (s.sru.slots.at i).map (·.state) = some (.waiting true)
  once : s.sru.work.Nodup

/-- Each claimant has at most one claim waiting (R12, R22, R45), exactly while it has work that needs one. How soon the next claim of the SRU or of the GE arrives the manual leaves open; that it stands at once is the model's choice (logs 8, 32, 33). -/
structure ClaimsMatch (s : State) : Prop where
  ge : s.sgm.claims.count .ge = if s.ge.op.isSome then 1 else 0
  sru : s.sgm.claims.count .sru = if s.sru.work = [] then 0 else 1
  te : s.sgm.claims.count .te = if s.te.hand.map (·.stage) = some .rdClaim ∨ s.te.hand.map (·.stage) = some .wrClaim then 1 else 0
  lp : s.sgm.claims.count .lp = if s.lp.cycle.map (·.work) = some .claim then 1 else 0

/-- The deferred slots (R43): a requester has at most one, none while its RDS is being evaluated as new; a READY slot's range holds no held word, and its data is the range as it stands (R54); in LEAVING no slot is in use once the SRU has taken the start of LEAVING (R59). -/
structure SlotLaws (s : State) : Prop where
  one : ∀ i j x y, s.sru.slots.at i = some x → s.sru.slots.at j = some y → x.requester = y.requester → i = j
  evaluating : ∀ h, s.te.hand = some h → h.stage = .sru → ∀ i x, s.sru.slots.at i = some x → x.requester ≠ h.sender
  ready : ∀ i x ws, s.sru.slots.at i = some x → x.state = .ready ws →
    rangeHeld s x.addr x.count = false ∧ ws = (List.range' x.addr x.count).map (fun a => s.sgm.words.read a)
  leaving : s.stc.state = .leaving → s.sru.startOfLeaving = false → ∀ i, s.sru.slots.at i = none

/-- The offer the transmit slot works for, while its owner waits for it. -/
def TxSlot.offer : TxSlot → Option Offer
  | .empty => none
  | .chosen o => some o
  | .contending o _ => some o
  | .onLine o _ _ orphan => if orphan then none else some o

/-- The outstanding table (R94, R96, R99, R100, R109). -/
structure TableLaws (s : State) : Prop where
  /-- at most one entry for each target -/
  target : ∀ e f x y, s.re.table.at e = some x → s.re.table.at f = some y → x.desc.target = y.desc.target → e = f
  /-- the ready order names each READY_TO_SEND entry once and nothing else -/
  ready : s.re.ready.Nodup ∧ ∀ e, e ∈ s.re.ready ↔ (s.re.table.at e).map (·.state) = some .readyToSend
  /-- the entries in COMPLETING, each once, with their results -/
  completing : s.re.completing.Nodup ∧ ∀ e, e ∈ s.re.completing ↔ (s.re.table.at e).map (·.state) = some .completing
  result : ∀ e x, s.re.table.at e = some x → (x.state = .completing ↔ x.result.isSome)
  /-- the window timer runs in AWAIT_RESPONSE alone, the backoff timer in BACKOFF alone -/
  timers : ∀ e x, s.re.table.at e = some x → (x.window.isRunning = true ↔ x.state = .awaitResponse) ∧ (x.backoff.isRunning = true ↔ x.state = .backoff)
  /-- a result waits, and admission stalls, only while the completion queue is full -/
  full : s.re.completing ≠ [] ∨ s.re.stalled = true → 16 ≤ s.lp.completions.length
  /-- a transfer buffer is referenced by at most one queued descriptor or entry that is not FREE (R94) -/
  loans : ∀ b, s.re.queue.countP (fun q => bufferOf q.desc = some b) +
    ([0, 1, 2, 3, 4, 5, 6, 7] : List (Fin 8)).countP (fun e => (s.re.table.at e).bind (fun x => bufferOf x.desc) = some b) ≤ 1
  /-- the transmit slot works for READY_TO_SEND entries only -/
  slot : ∀ e, s.lc.slot.offer = some (.request e) → (s.re.table.at e).map (·.state) = some .readyToSend

/-- The line view and the transmit slot (R115, R117, R121, R125): a receive frame exists in FRAME alone, a key is sent or a frame on the line in FRAME alone, and on an IDLE line the slot holds what the LC chooses. -/
structure LinkLaws (s : State) : Prop where
  receive : s.lc.receive.isSome ↔ s.lc.view = .frame
  sending : ∀ o k f b r, s.lc.slot = .contending o k ∨ s.lc.slot = .onLine o f b r → s.lc.view = .frame
  chosen : s.lc.view = .idle → s.lc.slot = TxSlot.ofOffer (selectOffer s)

/-- The entry of the station's own address is not used (R80), and no frame of its own is served. -/
structure OwnEntryUnused (s : State) : Prop where
  entry : (s.pt.peers.at s.stc.address).presence = .absent ∧ (s.pt.peers.at s.stc.address).departure = none ∧
    (s.pt.peers.at s.stc.address).timer = .stopped ∧ (s.pt.peers.at s.stc.address).record = none
  input : ∀ f, s.te.input = some f → f.sender ≠ s.stc.address
  hand : ∀ h, s.te.hand = some h → h.sender ≠ s.stc.address

end Sys2Proof.Machine
end

