-- ==== Sys2Proof/Certificates/Slice0/Obligations.lean ====
section
/-! DEFINITION. The statements for the provers. -/

open Sys2Proof Sys2Proof.Machine

/-! ### The queue of commands -/

/-- A step runs the command at the front of the queue on the state with the queue's rest. On an empty queue the station idles: the model's choice (log 2), no time passes by itself. -/
def Obligations.StepRunsFrontCommand : Prop :=
  (∀ (c : Instr) (rest : List Instr) (s : State), s.pending = c :: rest → step s = exec c { s with pending := rest }) ∧
  (∀ s : State, s.pending = [] → step s = .next s)

/-- No command faults or is refused, in any state: that each answers a next state is the model's choice (log 1), and so is that none changes the queue (log 21). RESET# is low after a PIN_RESET and high after a RESET_RELEASE; no other command moves it or the strap values (R131). -/
def Obligations.EveryCommandAnswersNext : Prop :=
  ∀ (c : Instr) (s : State), ∃ t, exec c s = .next t ∧ t.pending = s.pending ∧
    match c with
    | .pinReset addr rate => t.resetLow = true ∧ t.stc.address = addr ∧ t.stc.rate = rate
    | .resetRelease addr rate =>
      t.resetLow = false ∧ (s.resetLow = true → t.stc.address = addr ∧ t.stc.rate = rate) ∧
      (s.resetLow = false → t.stc.address = s.stc.address ∧ t.stc.rate = s.stc.rate)
    | _ => t.resetLow = s.resetLow ∧ t.stc.address = s.stc.address ∧ t.stc.rate = s.stc.rate

/-! ### Pin reset and clearing -/

/-- PIN_RESET: every block at its reset contents, whatever it was doing. The straps are those given; the segment's words, not observable until they are cleared (log 5), the model's counter (log 10) and the queue (log 21) stay. -/
def Obligations.PinResetContents : Prop :=
  ∀ (addr : Station) (rate : BitVec 2) (s : State), ∃ t, exec (.pinReset addr rate) s = .next t ∧
    -- the Group Engine (R40)
    ((∀ g, t.ge.table.at g = none) ∧ t.ge.order = [] ∧ t.ge.undo = [] ∧ (∀ a, heldBy t a = none) ∧ t.ge.work = [] ∧ t.ge.op = none) ∧
    -- the Settled-Read Unit (R60)
    ((∀ i, t.sru.slots.at i = none) ∧ t.sru.work = [] ∧ t.sru.announced = none ∧ t.sru.startOfLeaving = false) ∧
    -- the Target Engine (R79)
    (t.te.queue = [] ∧ t.te.input = none ∧ t.te.hand = none ∧ t.te.closed = false ∧ t.te.restarted = none) ∧
    -- the Peer Table (R81)
    (∀ p, t.pt.peers.at p = ⟨.absent, none, false, false, .stopped, none, 0⟩) ∧
    -- the Requester Engine (R113)
    (t.re.queue = [] ∧ (∀ e, t.re.table.at e = none) ∧ t.re.ready = [] ∧ t.re.completing = [] ∧ t.re.stalled = false ∧
      t.re.announced = none ∧ t.re.startOfLeaving = false) ∧
    -- the Link Controller (R128); the address 16 is held as 15
    (t.lc.slot = .empty ∧ t.lc.receive = none ∧ t.lc.last0 = 15 ∧ t.lc.last1 = 15 ∧ t.lc.view = .gap 0) ∧
    -- Station Control (R131), with the defaults of Table 10-6 (R3)
    (t.stc.state = .clearing ∧ t.stc.command = none ∧ t.stc.listen = .stopped ∧ t.stc.quiet = .stopped ∧ t.stc.due = none ∧
      t.stc.noGroupOpen = false ∧ t.stc.address = addr ∧ t.stc.rate = rate ∧ t.stc.staged = t.stc.active ∧
      t.stc.active.responseWindow = 1000 ∧ t.stc.active.lostLimit = 3 ∧ t.stc.active.busyLimit = 8 ∧ t.stc.active.retryInterval = 500 ∧
      t.stc.active.deferralDeadline = 20 ∧ t.stc.active.discardTime = 4 ∧ t.stc.active.idleLifetime = 20 ∧ t.stc.active.presenceInterval = 10 ∧
      ∀ p, t.stc.active.pages.at p = ⟨1, 0⟩) ∧
    -- the Local Port (R141 to R148, R151)
    (t.lp.cycle = none ∧ t.lp.nextStrobe = none ∧ t.lp.latch = none ∧ t.lp.stagedLow = none ∧ (∀ k, t.lp.buffers.read k = 0) ∧
      t.lp.completions = [] ∧ t.lp.events = [] ∧ t.lp.eventsLost = false ∧ t.lp.snapshot = [] ∧ t.lp.window = ⟨0, 0, 0, 0, 0, 0, 0⟩ ∧
      t.lp.postResult = none ∧ t.lrdy = false ∧ t.ld = none ∧ t.attention = false) ∧
    -- the arbiter (R13)
    t.sgm.claims = [] ∧ t.sgm.clearing = false ∧
    t.resetLow = true ∧ t.sgm.words = s.sgm.words ∧ t.freeCount = s.freeCount ∧ t.pending = s.pending

/-- RESET_RELEASE: when RESET# returns high the strap values of that moment are kept, the clearing claim is granted and the line view starts in GAP at 0; nothing else changes. With RESET# already high a RESET_RELEASE changes nothing: the model's choice (log 1). CLEARING_DONE: every word is zero, the clearing claim has ended, SETUP is entered with its event; a segment cycle that waited without a claim does its work, and nothing else changes. -/
def Obligations.ResetReleaseAndClearing : Prop :=
  (∀ (addr : Station) (rate : BitVec 2) (s : State),
     (s.resetLow = true → exec (.resetRelease addr rate) s =
       .next { s with
         resetLow := false
         sgm := { s.sgm with clearing := true }
         lc := { s.lc with view := .gap 0 }
         stc := { s.stc with address := addr, rate := rate } }) ∧
     (s.resetLow = false → exec (.resetRelease addr rate) s = .next s)) ∧
  (∀ s : State, s.sgm.clearing = true →
     let cleared : State := { s with
       sgm := { s.sgm with words := [], clearing := false }
       stc := { s.stc with state := .setup }
       lp := s.lp.withEvent (.stateChanged .setup) }
     (∀ a, cleared.sgm.words.read a = 0) ∧
     (s.lp.cycle.map (·.work) ≠ some .clearing → exec .clearingDone s = .next (reselect cleared)) ∧
     (∀ la v, s.lp.cycle = some ⟨.write la v, true, .clearing⟩ →
       exec .clearingDone s = .next (reselect { cleared with lp := { cleared.lp with
         stagedLow := some (wordOf la, v), cycle := some ⟨.write la v, true, .done 0⟩ } })) ∧
     (∀ la v, s.lp.cycle = some ⟨.read la, true, .clearing⟩ → s.lp.latch = some (wordOf la, v) →
       exec .clearingDone s = .next (reselect { cleared with lp := { cleared.lp with
         cycle := some ⟨.read la, true, .done v⟩ } })) ∧
     (∀ la v, s.lp.cycle = some ⟨.write la v, false, .clearing⟩ →
       exec .clearingDone s = .next (reselect (workDone ⟨.write la v, false, .clearing⟩ 0
         { cleared with lp := { cleared.lp with stagedLow := some (wordOf la, v) } }))) ∧
     (∀ la v, s.lp.cycle = some ⟨.read la, false, .clearing⟩ → s.lp.latch = some (wordOf la, v) →
       exec .clearingDone s = .next (reselect (workDone ⟨.read la, false, .clearing⟩ v cleared))))

/-! ### Bus cycles -/

/-- When the work of the cycle in progress is done (R141): with its strobe still low, the result stands and LRDY is asserted; with its strobe raised before, the cycle has ended, the word latch with it (R142), and a strobe presented meanwhile begins its cycle. -/
def Obligations.CycleWorkDone : Prop :=
  ∀ (b : BusCycle) (w : CycleWork) (result : Half) (s : State),
    workDone ⟨b, true, w⟩ result s = { s with lp := { s.lp with cycle := some ⟨b, true, .done result⟩ } } ∧
    (workDone ⟨b, true, w⟩ result s).lrdy = true ∧
    (∀ la, b = .read la → (workDone ⟨b, true, w⟩ result s).ld = some result) ∧
    (∀ la v, b = .write la v → (workDone ⟨b, true, w⟩ result s).ld = none) ∧
    (let ended : State := { s with lp := { s.lp with cycle := none, latch := if isLowRead b then s.lp.latch else none } }
     (s.lp.nextStrobe = none → workDone ⟨b, false, w⟩ result s = ended) ∧
     (∀ b', s.lp.nextStrobe = some b' →
       workDone ⟨b, false, w⟩ result s = beginCycle b' { ended with lp := { ended.lp with nextStrobe := none } }))

/-- A command of the local controller while a cycle is in progress or RESET# is low (R141). A cycle whose work is done ends first, as its strobe must have been raised (DEDUCED, log 7); a strobe presented while work is in progress waits, and takes the place of one that waited (DEDUCED, log 25); none is taken while RESET# is low, nor kept for its return to high (that it is not kept is the model's choice, log 35). LOCAL_CYCLE_END (R141, R142): the cycle ends once its work is done, and every cycle but a low-half segment read empties the word latch; before that, only the strobe is gone; a later strobe that has begun no cycle is withdrawn (log 25); without a cycle nothing happens (the model's choice, log 1). -/
def Obligations.StrobesDuringCycle : Prop :=
  (∀ (c : Instr) (b : BusCycle) (s : State), busOf c = some b → LinkLaws s →
     (s.resetLow = true → exec c s = .next s) ∧
     (∀ b' st v, s.resetLow = false → s.lp.cycle = some ⟨b', st, .done v⟩ →
       exec c s = exec c { s with lp := { s.lp with cycle := none, latch := if isLowRead b' then s.lp.latch else none } }) ∧
     (∀ b' st w, s.resetLow = false → s.lp.cycle = some ⟨b', st, w⟩ → (w = .claim ∨ w = .clearing) →
       exec c s = .next { s with lp := { s.lp with cycle := some ⟨b', false, w⟩, nextStrobe := some b } })) ∧
  (∀ s : State,
     (s.lp.cycle = none → exec .localCycleEnd s = .next s) ∧
     (∀ b st v, s.lp.cycle = some ⟨b, st, .done v⟩ → ∃ t, exec .localCycleEnd s = .next t ∧
       t = { s with lp := { s.lp with cycle := none, latch := if isLowRead b then s.lp.latch else none } } ∧ t.lrdy = false ∧ t.ld = none) ∧
     (∀ b w, s.lp.cycle = some ⟨b, true, w⟩ → (w = .claim ∨ w = .clearing) →
       exec .localCycleEnd s = .next { s with lp := { s.lp with cycle := some ⟨b, false, w⟩ } }) ∧
     (∀ b w, s.lp.cycle = some ⟨b, false, w⟩ → (w = .claim ∨ w = .clearing) →
       exec .localCycleEnd s = .next { s with lp := { s.lp with nextStrobe := none } }))

/-- LOCAL_READ_LOW_HALF and LOCAL_READ_HIGH_HALF of the segment, LOCAL_WRITE_LOW_HALF and LOCAL_WRITE_HIGH_HALF (R141 to R143, R14): which cycles present a claim, and what those do that present none. -/
def Obligations.SegmentCyclesBegin : Prop :=
  ∀ (a : BitVec 12) (v : Half) (s : State), s.portReady →
    let low : BitVec 14 := BitVec.ofNat 14 (2 * a.toNat)
    let high : BitVec 14 := BitVec.ofNat 14 (2 * a.toNat + 1)
    let claim (b : BusCycle) : State :=
      { s with sgm := { s.sgm with claims := s.sgm.claims ++ [.lp] }, lp := { s.lp with cycle := some ⟨b, true, .claim⟩ } }
    exec (.localReadLowHalf (a.setWidth 13)) s = .next (claim (.read low)) ∧
    ((∀ h, s.lp.latch ≠ some (a, h)) → exec (.localReadHighHalf (a.setWidth 13)) s = .next (claim (.read high))) ∧
    (∀ h, s.lp.latch = some (a, h) → s.stc.state ≠ .clearing →
      exec (.localReadHighHalf (a.setWidth 13)) s = .next { s with lp := { s.lp with cycle := some ⟨.read high, true, .done h⟩ } }) ∧
    (∀ h, s.lp.latch = some (a, h) → s.stc.state = .clearing →
      exec (.localReadHighHalf (a.setWidth 13)) s = .next { s with lp := { s.lp with cycle := some ⟨.read high, true, .clearing⟩ } }) ∧
    (s.stc.state ≠ .clearing → exec (.localWriteLowHalf a v) s =
      .next { s with lp := { s.lp with stagedLow := some (a, v), cycle := some ⟨.write low v, true, .done 0⟩ } }) ∧
    (s.stc.state = .clearing → exec (.localWriteLowHalf a v) s =
      .next { s with lp := { s.lp with cycle := some ⟨.write low v, true, .clearing⟩ } }) ∧
    exec (.localWriteHighHalf a v) s = .next (claim (.write high v))

/-- LOCAL_WORD_READ (R142, R8): within the claim the committed image of the word is read; the half asked for is returned, and a low-half read loads the word latch. Nothing else changes. LOCAL_WORD_WRITE (R143): within the claim an unheld word takes the written high half over the staged low half of the same word or over its own low half, and its address is reported; a held word is refused with its event. The staged low half then holds nothing. Nothing else changes. -/
def Obligations.LocalWordClaims : Prop :=
  (∀ (la : BitVec 14) (st : Bool) (s : State), s.lp.cycle = some ⟨.read la, st, .claim⟩ → Granted .lp s →
     let w := committed s (wordOf la).toNat
     let read : State := { s with
       sgm := { s.sgm with claims := s.sgm.claims.erase .lp }
       lp := { s.lp with latch := if isHigh la then s.lp.latch else some (wordOf la, w.extractLsb' 16 16) } }
     let half : Half := if isHigh la then w.extractLsb' 16 16 else w.extractLsb' 0 16
     exec .localWordRead s = .next (reselect (workDone ⟨.read la, st, .claim⟩ half read))) ∧
  (∀ (la : BitVec 14) (v : Half) (st : Bool) (s : State), s.lp.cycle = some ⟨.write la v, st, .claim⟩ → Granted .lp s →
     let a := wordOf la
     let low : Half := match s.lp.stagedLow with
       | some (b, x) => if b = a then x else (s.sgm.words.read a.toNat).extractLsb' 0 16
       | none => (s.sgm.words.read a.toNat).extractLsb' 0 16
     (∀ g, heldBy s a.toNat = some g →
       exec .localWordWrite s = .next (reselect (workDone ⟨.write la v, st, .claim⟩ 0 { s with
         sgm := { s.sgm with claims := s.sgm.claims.erase .lp }
         lp := { s.lp.withEvent (.localWriteRefused a.toNat) with stagedLow := none } }))) ∧
     (heldBy s a.toNat = none → ∃ u : State,
       exec .localWordWrite s = .next (reselect (workDone ⟨.write la v, st, .claim⟩ 0 u)) ∧
       (∀ b, u.sgm.words.read b = if b = a.toNat then v ++ low else s.sgm.words.read b) ∧
       u.sgm.claims = s.sgm.claims.erase .lp ∧ u.sgm.clearing = s.sgm.clearing ∧ ReportTaken [a.toNat] s u ∧
       u = { s with sgm := u.sgm, sru := u.sru, lp := { s.lp with stagedLow := none } }))


/-! ### The local address map -/

/-- Every half-word outside the segment and the two views reads at once as Tables 10-4 to 10-6 say, and a read changes nothing (R144 to R147, R149); a field of the head of an empty event queue reads as some value, a free one that the read uses up (log 37); a read of the peer view changes nothing either, and its values are those of PeerViewShowsEntries, while the group view is left to GroupViewIsSnapshot. That the two read rows reach every address is DEDUCED (log 6). -/
def Obligations.LocalAreaReads : Prop :=
  ∀ (la : BitVec 14) (s : State), s.portReady → 0x2000 ≤ la.toNat → ¬ (0x2360 ≤ la.toNat ∧ la.toNat < 0x2380) →
    ∃ v u, exec (readCommand la) s = .next (State.cycleDone (.read la) v u) ∧
    (¬ NoEventRead la.toNat s → u = s) ∧ (NoEventRead la.toNat s → u = { s with freeCount := s.freeCount + 1 }) ∧
    (∀ b j : Fin 16, la.toNat = 0x2000 + 32 * b.val + 2 * j.val → v = (s.lp.buffers.read (16 * b.val + j.val)).extractLsb' 0 16) ∧
    (∀ b j : Fin 16, la.toNat = 0x2000 + 32 * b.val + 2 * j.val + 1 → v = (s.lp.buffers.read (16 * b.val + j.val)).extractLsb' 16 16) ∧
    (∀ k : Fin 8, la.toNat = 0x2200 + k.val → v = s.stc.staged.fields.getD k.val 0) ∧
    (0x2208 ≤ la.toNat ∧ la.toNat < 0x2280 → v = 0) ∧
    (∀ p : Fin 64, la.toNat = 0x2280 + 2 * p.val → v = (s.stc.staged.pages.at p).readOpen) ∧
    (∀ p : Fin 64, la.toNat = 0x2281 + 2 * p.val → v = (s.stc.staged.pages.at p).writeSet) ∧
    (0x2300 ≤ la.toNat ∧ la.toNat < 0x2340 → ¬ NoEventRead la.toNat s → v = ((windowTable s).lookup la.toNat).getD 0) ∧
    (0x2380 ≤ la.toNat → v = 0)

/-- The peer view (R150): the two half-words of each position, read as the entry stands. -/
def Obligations.PeerViewShowsEntries : Prop :=
  (∀ (p : Station) (s : State), s.portReady → OwnEntryUnused s →
    let e := s.pt.peers.at p
    let la : BitVec 14 := BitVec.ofNat 14 (0x2340 + 2 * p.val)
    ∃ v w, exec (readCommand la) s = .next (s.cycleDone (.read la) v) ∧
      exec (readCommand (la + 1)) s = .next (s.cycleDone (.read (la + 1)) w) ∧
      (v.getLsbD 0 = true ↔ e.presence = .present) ∧ (v.getLsbD 1 = true ↔ e.record.isSome) ∧ (∀ i, 2 ≤ i → v.getLsbD i = false) ∧
      (∀ r, e.record = some r → w = r.seq.setWidth 16) ∧ (e.record = none → w = 0) ∧
      (p = s.stc.address → v = 0 ∧ w = 0)) ∧
  (∀ addr rate s t, exec (.pinReset addr rate) s = .next t → ∀ p, (t.pt.peers.at p).presence = .absent ∧ (t.pt.peers.at p).record = none)

/-- The group view (R151): a read of the first half-word of position 0, GROUP_VIEW_SNAPSHOT, takes a snapshot with the OPEN groups in open order; that read and every other read of the view return the snapshot; no other command changes it but a pin reset, after which it shows four FREE positions. -/
def Obligations.GroupViewIsSnapshot : Prop :=
  (∀ s : State, s.portReady → HoldLaws s.ge → ∃ snap v, readCommand 0x2360 = .localReadLowHalf 0x11B0 ∧
    exec .groupViewSnapshot s = .next (State.cycleDone (.read 0x2360) v { s with lp := { s.lp with snapshot := snap } }) ∧
    exec (readCommand 0x2360) s = exec .groupViewSnapshot s ∧ v = groupViewShows snap 0 0 ∧
    snap.length = s.ge.order.length ∧ snap.length ≤ 4 ∧
    ∀ (i : Nat) g, s.ge.order[i]? = some g → ∃ x, s.ge.table.at g = some x ∧ snap[i]? = some ⟨x.owner, x.tag, x.held⟩) ∧
  (∀ (p : Fin 4) (k : Fin 8) (s : State), s.portReady → ¬ (p = 0 ∧ k = 0) →
    let la : BitVec 14 := BitVec.ofNat 14 (0x2360 + 8 * p.val + k.val)
    exec (readCommand la) s = .next (s.cycleDone (.read la) (groupViewShows s.lp.snapshot p k))) ∧
  (∀ (c : Instr) (s t : State), exec c s = .next t → (∀ addr rate, c ≠ .pinReset addr rate) →
    t.lp.snapshot = s.lp.snapshot ∨ (t.lp.cycle.map (·.bus) = some (.read 0x2360) ∧ t.lp.snapshot = groupPositions s.ge)) ∧
  (∀ addr rate s t, exec (.pinReset addr rate) s = .next t → ∀ p k, groupViewShows t.lp.snapshot p k = 0)

/-- TRANSFER_BUFFER_WRITE (R144, R95): the half-word of a buffer that is not lent takes the value; a write to a lent buffer is ignored. -/
def Obligations.TransferBufferWritten : Prop :=
  ∀ (b j : Fin 16) (high : Bool) (v : Half) (s : State), s.portReady →
    let bus : BusCycle := .write (BitVec.ofNat 14 (0x2000 + 32 * b.val + 2 * j.val + high.toNat)) v
    let old := s.lp.buffers.read (16 * b.val + j.val)
    (Lent s b → exec (.transferBufferWrite b j high v) s = .next (s.cycleDone bus 0)) ∧
    (¬ Lent s b → ∃ m, exec (.transferBufferWrite b j high v) s = .next (State.cycleDone bus 0 { s with lp := { s.lp with buffers := m } }) ∧
      ∀ k, m.read k = if k = 16 * b.val + j.val then (if high then v ++ old.extractLsb' 0 16 else old.extractLsb' 16 16 ++ v) else s.lp.buffers.read k)

/-- LOCAL_REGISTER_WRITE (R133, R145, R149, Tables 10-4 to 10-6): a descriptor field or a staged configuration field takes the value; every other location that is no command of its own ignores it. -/
def Obligations.RegisterWritten : Prop :=
  ∀ (la : BitVec 14) (v : Half) (s : State), s.portReady → Instr.wellFormed (.localRegisterWrite la v) = true →
    let ends (u : State) : Answered := .next (reselect (u.cycleDone (.write la v) 0))
    (∀ k : Fin 7, la.toNat = 0x2300 + k.val → ∃ d, exec (.localRegisterWrite la v) s = ends { s with lp := { s.lp with window := d } } ∧
      d.fields = s.lp.window.fields.set k.val v) ∧
    (∀ k : Fin 8, la.toNat = 0x2200 + k.val → ∃ c, exec (.localRegisterWrite la v) s = ends { s with stc := { s.stc with staged := c } } ∧
      c.fields = s.stc.staged.fields.set k.val v ∧ c.pages = s.stc.staged.pages) ∧
    (∀ (p : Fin 64) (odd : Bool), la.toNat = 0x2280 + 2 * p.val + odd.toNat →
      ∃ c, exec (.localRegisterWrite la v) s = ends { s with stc := { s.stc with staged := c } } ∧ c.fields = s.stc.staged.fields ∧
        ∀ q, c.pages.at q = if q ≠ p then s.stc.staged.pages.at q
          else if odd then ⟨(s.stc.staged.pages.at p).readOpen, v⟩ else ⟨v, (s.stc.staged.pages.at p).writeSet⟩) ∧
    (0x2208 ≤ la.toNat ∧ la.toNat < 0x2280 ∨ 0x2307 ≤ la.toNat → exec (.localRegisterWrite la v) s = ends s)

/-- POST (R94, R145): the post result from the station state, the queue and the buffer, tested in that order; an ACCEPTED descriptor stands last in the queue, and admission is attempted (R96). -/
def Obligations.PostDecides : Prop :=
  ∀ (v : Half) (s : State), s.portReady →
    let ends (u : State) : Answered := .next (reselect (State.cycleDone (.write 0x2307 v) 0 u))
    let kept (r : PostResult) : State := { s with lp := { s.lp with postResult := some r } }
    let busy := ∃ b, s.lp.window.references b ∧ Lent s b
    (s.stc.state ≠ .joined → exec (.post v) s = ends (kept .notJoined)) ∧
    (s.stc.state = .joined → 16 ≤ s.re.queue.length → exec (.post v) s = ends (kept .queueFull)) ∧
    (s.stc.state = .joined → s.re.queue.length < 16 → busy → exec (.post v) s = ends (kept .bufferBusy)) ∧
    (s.stc.state = .joined → s.re.queue.length < 16 → ¬ busy → exec (.post v) s = ends
      (admission { kept .accepted with re := { s.re with queue := s.re.queue ++ [⟨s.lp.window, false⟩] } }))

/-- Admission (R96 to R98): nothing happens unless the station is JOINED, no stall stands, an entry is FREE and a descriptor is a candidate; the candidate is then checked in the order of R97, and admission goes on with the state that leaves. -/
def Obligations.AdmissionTakesCandidates : Prop :=
  ∀ s : State,
    (s.stc.state ≠ .joined ∨ s.re.stalled = true ∨ (∀ e, s.re.table.at e ≠ none) ∨
      (∀ q ∈ s.re.queue, ∃ e x, s.re.table.at e = some x ∧ x.desc.target = q.desc.target) → admission s = s) ∧
    (∀ (e : Fin 8) (l r : List Queued) (q : Queued), s.stc.state = .joined → s.re.stalled = false →
      s.re.table.at e = none → (∀ f, f < e → s.re.table.at f ≠ none) →
      s.re.queue = l ++ q :: r → (∀ q' ∈ l, ∃ f x, s.re.table.at f = some x ∧ x.desc.target = q'.desc.target) →
      (∀ f x, s.re.table.at f = some x → x.desc.target ≠ q.desc.target) →
      let d := q.desc
      let sized := d.kind = 1 ∨ d.kind = 2 ∨ d.kind = 3 ∨ d.kind = 5
      let without : State := { s with re := { s.re with queue := l ++ r } }
      let retired (st : Status) (dt : Detail) : Prop :=
        (s.lp.completions.length < 16 → admission s = admission { without with
          lp := { s.lp with completions := s.lp.completions ++ [⟨d.userTag, d.kind, d.target, st, dt, 0, d.buffer, 0⟩] } }) ∧
        (16 ≤ s.lp.completions.length → admission s = { s with re := { s.re with stalled := true } })
      let goodKind := 1 ≤ d.kind.toNat ∧ d.kind.toNat ≤ 7
      let goodCount := sized → 1 ≤ d.count.toNat ∧ d.count.toNat ≤ 16
      let goodBuffer := sized → d.buffer.toNat ≤ 15
      (¬ goodKind → retired .invalid (.check .kind)) ∧
      (goodKind → (d.target.toNat = 0 ∨ 16 < d.target.toNat ∨ d.target.toNat = s.stc.address.val + 1) → retired .invalid (.check .target)) ∧
      (goodKind → ∀ p : Station, d.target.toNat = p.val + 1 → p ≠ s.stc.address →
        (¬ goodCount → retired .invalid (.check .count)) ∧
        (goodCount → ¬ goodBuffer → retired .invalid (.check .buffer)) ∧
        (goodCount → goodBuffer →
          ((s.pt.peers.at p).presence = .absent → retired .peerAbsent (.cause .silent)) ∧
          (∀ c, (s.pt.peers.at p).presence = .present → (s.pt.peers.at p).departure = some c → retired .peerAbsent (.cause c)) ∧
          ((s.pt.peers.at p).presence = .present → (s.pt.peers.at p).departure = none →
            admission s = admission { without with
              re := { without.re with
                table := s.re.table.put e (some ⟨d, (s.pt.peers.at p).nextSeq, .readyToSend, 0, 0, 0, false, false, .stopped, .stopped, .stopped, none⟩)
                ready := s.re.ready ++ [e] }
              pt := { s.pt with peers := s.pt.peers.put p { s.pt.peers.at p with nextSeq := (s.pt.peers.at p).nextSeq + 1 } } }))))

/-- COMPLETION_CONSUME (R146, R109, R97, R111): the head leaves; of a full queue, the oldest waiting result takes its place, or with none waiting the oldest cancelled descriptor; a stall ends when no result waits; then admission is attempted, its candidate the oldest that qualifies then (that a stalled one is not checked before an older one whose target the posting has freed is the model's choice, log 34). EVENT_CONSUME (R147): the head leaves, and the events-lost flag is cleared when that empties the queue. -/
def Obligations.QueueHeadsConsumed : Prop :=
  (∀ (v : Half) (s : State), s.portReady →
     let ends (u : State) : Answered := .next (reselect (State.cycleDone (.write 0x231A v) 0 u))
     let unstalled (u : State) : State := if u.re.completing = [] then { u with re := { u.re with stalled := false } } else u
     (s.lp.completions = [] → exec (.completionConsume v) s = ends s) ∧
     (∀ c rest, s.lp.completions = c :: rest → s.re.completing = [] → (∀ q ∈ s.re.queue, q.cancelled = false) →
       exec (.completionConsume v) s = ends (admission (unstalled { s with lp := { s.lp with completions := rest } }))) ∧
     (∀ c rest e es x r, s.lp.completions = c :: rest → rest.length = 15 → s.re.completing = e :: es →
       s.re.table.at e = some x → x.result = some r →
       exec (.completionConsume v) s = ends (admission (unstalled { s with
         lp := { s.lp with completions := rest ++
           [⟨x.desc.userTag, x.desc.kind, x.desc.target, r.status, r.detail, r.words, x.desc.buffer, x.attempts⟩] }
         re := { s.re with table := s.re.table.put e none, completing := es } }))) ∧
     (∀ c rest l q r, s.lp.completions = c :: rest → rest.length = 15 → s.re.completing = [] →
       s.re.queue = l ++ q :: r → q.cancelled = true → (∀ q' ∈ l, q'.cancelled = false) →
       exec (.completionConsume v) s = ends (admission (unstalled { s with
         lp := { s.lp with completions := rest ++ [⟨q.desc.userTag, q.desc.kind, q.desc.target, .cancelled, .none, 0, q.desc.buffer, 0⟩] }
         re := { s.re with queue := l ++ r } })))) ∧
  (∀ (v : Half) (s : State), s.portReady →
     (s.lp.events = [] → exec (.eventConsume v) s = .next (s.cycleDone (.write 0x232A v) 0)) ∧
     (∀ e rest, s.lp.events = e :: rest → exec (.eventConsume v) s = .next (State.cycleDone (.write 0x232A v) 0 { s with
       lp := { s.lp with events := rest, eventsLost := if rest = [] then false else s.lp.eventsLost } })))

/-! ### The four commands -/

/-- Results of commands by station state (R132, Table 8-3), and what a refused command or a code that names no command changes. The status of a command stays until another is written. -/
def Obligations.CommandResults : Prop :=
  (∀ s : State, s.portReady →
    let status (c : Command) (r : CommandResult) (t : State) : Prop := t.stc.command = some (c, r)
    let only (c : Command) (v : Half) (r : CommandResult) : Answered :=
      .next (State.cycleDone (.write 0x2333 v) 0 { s with stc := { s.stc with command := some (c, r) } })
    let st := s.stc.state
    ((st = .clearing ∨ st = .listening ∨ st = .joined) → exec .configure s = only .configure 1 .wrongState) ∧
    (st = .leaving → exec .configure s = only .configure 1 .busy) ∧
    (st = .setup → ∃ t, exec .configure s = .next t ∧ (status .configure .accepted t ∨ ∃ n p, status .configure (.refusedConfig n p) t)) ∧
    (LinkLaws s → (st = .clearing ∨ st = .listening ∨ st = .joined) → exec .join s = only .join 2 .wrongState) ∧
    (LinkLaws s → st = .leaving → exec .join s = only .join 2 .busy) ∧
    (st = .setup → ∃ t, exec .join s = .next t ∧ status .join .accepted t) ∧
    (LinkLaws s → (st = .clearing ∨ st = .setup) → exec .leave s = only .leave 3 .wrongState) ∧
    (LinkLaws s → st = .leaving → exec .leave s = only .leave 3 .busy) ∧
    ((st = .listening ∨ st = .joined) → ∃ t, exec .leave s = .next t ∧ status .leave .accepted t) ∧
    ((st = .clearing ∨ st = .setup ∨ st = .listening) → exec .revoke s = only .revoke 4 .wrongState) ∧
    ((st = .joined ∨ st = .leaving) → ∃ t, exec .revoke s = .next t ∧ status .revoke .accepted t) ∧
    (∀ v : Half, (v.toNat = 0 ∨ 4 < v.toNat) → LinkLaws s →
      exec (.localRegisterWrite 0x2333 v) s = .next (s.cycleDone (.write 0x2333 v) 0))) ∧
  (∀ (c : Instr) (s t : State), exec c s = .next t → t.stc.command ≠ s.stc.command →
    (∃ addr rate, c = .pinReset addr rate) ∨ ∃ v : Half, 1 ≤ v.toNat ∧ v.toNat ≤ 4 ∧ t.lp.cycle.map (·.bus) = some (.write 0x2333 v))

/-- CONFIGURE in SETUP (R134, R154): the fields of the staged record are tested in the order of Table 10-6, then the pages; if all pass, the active record becomes the staged one, otherwise the first that fails is named and the active record stays. JOIN in SETUP (R135): LISTENING with its event, every next sequence number 0, both last winners 16 (held as 15), the listen timer at two presence intervals; nothing else changes. -/
def Obligations.ConfigureAndJoin : Prop :=
  (∀ s : State, s.portReady → s.stc.state = .setup →
     let c := s.stc.staged
     let within (v : Half) (lo hi : Nat) : Prop := lo ≤ v.toNat ∧ v.toNat ≤ hi
     let passes : Nat → Prop := fun
       | 1 => within c.responseWindow 250 8000 ∧ 250 ∣ c.responseWindow.toNat
       | 2 => within c.lostLimit 0 7
       | 3 => within c.busyLimit 1 15
       | 4 => within c.retryInterval 250 8000 ∧ 250 ∣ c.retryInterval.toNat
       | 5 => within c.deferralDeadline 1 255
       | 6 => within c.discardTime 1 32
       | 7 => within c.idleLifetime 1 255
       | 8 => within c.presenceInterval 2 100
       | _ => True
     let pagePasses (p : Fin 64) : Prop := (c.pages.at p).readOpen = 0 ∨ (c.pages.at p).readOpen = 1
     let ends (a : ConfigRecord) (r : CommandResult) : Answered :=
       .next (State.cycleDone (.write 0x2333 1) 0 { s with stc := { s.stc with active := a, command := some (.configure, r) } })
     ((∀ n, passes n) → (∀ p, pagePasses p) → exec .configure s = ends c .accepted) ∧
     (∀ n, ¬ passes n → (∀ m, m < n → passes m) → exec .configure s = ends s.stc.active (.refusedConfig n 0)) ∧
     (∀ p, (∀ n, passes n) → ¬ pagePasses p → (∀ q, q < p → pagePasses q) → exec .configure s = ends s.stc.active (.refusedConfig 9 p.val))) ∧
  (∀ s : State, s.portReady → s.stc.state = .setup → ∃ ps,
     exec .join s = .next (reselect (State.cycleDone (.write 0x2333 2) 0 { s with
       stc := { s.stc with
         state := .listening
         command := some (.join, .accepted)
         listen := .running (2 * (1000 * s.stc.active.presenceInterval.toNat)) }
       lp := s.lp.withEvent (.stateChanged .listening)
       lc := { s.lc with last0 := 15, last1 := 15 }
       pt := { s.pt with peers := ps } })) ∧
     ∀ p, ps.at p = { s.pt.peers.at p with nextSeq := 0 })

/-- LEAVE in LISTENING (R137, R81): the SRU, the RE and the TE take what still waits for them, so that nothing waits any more (DEDUCED, log 15), then SETUP with its event; the listen timer stops, the fresh PRESENCE is no longer due and its offer is withdrawn, one on the line going on without effect (R136); every peer entry is down, its record and sequence number kept; every end report still to come from the GE is marked to have no effect (R81, DEDUCED, log 16). LEAVE in JOINED (R138): LEAVING with its event, the report that no group is open no longer stands (R139), and the start of LEAVING waits for the GE, the SRU and the RE; nothing else changes. REVOKE in JOINED or LEAVING (R140, R22): it waits for the GE, and nothing else changes. -/
def Obligations.LeaveAndRevoke : Prop :=
  (∀ s : State, s.portReady → s.stc.state = .listening →
     let u := restartPurge (reTakeAnnouncement (sruTakeAnnouncement (reTakeStartOfLeaving (sruTakeStartOfLeaving
       { s with stc := { s.stc with command := some (.leave, .accepted) } }))))
     NothingWaits u ∧ ∃ ps slot, exec .leave s = .next (reselect (State.cycleDone (.write 0x2333 3) 0 { u with
       stc := { u.stc with state := .setup, listen := .stopped, due := none }
       lp := u.lp.withEvent (.stateChanged .setup)
       lc := { u.lc with slot := slot }
       ge := u.ge.unreported
       pt := { u.pt with peers := ps } })) ∧
     (∀ p, ps.at p = { u.pt.peers.at p with presence := .absent, departure := none, heardAgain := false, freshWaiting := false, timer := .stopped }) ∧
     Withdrawn (.presence .fresh) u.lc.slot slot) ∧
  (∀ s : State, s.portReady → s.stc.state = .joined →
     exec .leave s = .next (reselect (State.cycleDone (.write 0x2333 3) 0 { s with
       stc := { s.stc with state := .leaving, noGroupOpen := false, command := some (.leave, .accepted) }
       lp := s.lp.withEvent (.stateChanged .leaving)
       ge := { s.ge with work := s.ge.work ++ [.startOfLeaving] }
       sru := { s.sru with startOfLeaving := true }
       re := { s.re with startOfLeaving := true } }))) ∧
  (∀ s : State, s.portReady → (s.stc.state = .joined ∨ s.stc.state = .leaving) → ∃ ws,
     exec .revoke s = .next (State.cycleDone (.write 0x2333 4) 0 { s with
       stc := { s.stc with command := some (.revoke, .accepted) }
       ge := { s.ge with work := ws } }) ∧ RevokeWaits s.ge.work ws)


/-! ### The link: contention and transmission -/

/-- Transmit selection (R121): what the LC chooses by station state, in the order of the rule. START_DELIMITER (R115, R117, R118, R125): on an IDLE line the view becomes FRAME and a receive frame begins; with nothing to offer the station sends nothing; with an offer, it contends when every bit of its key, and the stuff bit within it where it has one, is read back as sent (KeyReadBack), and otherwise withdraws and keeps its chosen frame. That START_DELIMITER carries the bits read in the places of the key and of that stuff bit, so that a contention is one step, is the model's choice (log 12), and so is that nothing happens on a line that is not IDLE (log 1). -/
def Obligations.SelectionAndStartDelimiter : Prop :=
  (∀ s : State,
     ((s.stc.state = .clearing ∨ s.stc.state = .setup) → selectOffer s = none) ∧
     (s.stc.state = .listening → selectOffer s = if s.stc.due = some .fresh then some (.presence .fresh) else none) ∧
     ((s.stc.state = .joined ∨ s.stc.state = .leaving) →
       (s.te.queue ≠ [] → selectOffer s = some .response) ∧
       (s.te.queue = [] → ∀ m, s.stc.due = some m → selectOffer s = some (.presence m)) ∧
       (s.te.queue = [] → s.stc.due = none →
         (∀ l e r, s.re.ready = l ++ e :: r → onLineOffer s ≠ some (.request e) → (∀ e' ∈ l, onLineOffer s = some (.request e')) →
           selectOffer s = some (.request e)) ∧
         ((∀ e ∈ s.re.ready, onLineOffer s = some (.request e)) → selectOffer s = none)))) ∧
  (∀ (r : KeyRead) (s : State),
     let opened (slot : TxSlot) : Answered := .next { s with lc := { s.lc with view := .frame, receive := some r.bits, slot := slot } }
     (s.lc.view = .idle → selectOffer s = none → exec (.startDelimiter r) s = opened .empty) ∧
     (∀ o, s.lc.view = .idle → selectOffer s = some o →
       (KeyReadBack (keyFor s o) r → exec (.startDelimiter r) s = opened (.contending o r.bits)) ∧
       (¬ KeyReadBack (keyFor s o) r → exec (.startDelimiter r) s = opened (.chosen o))) ∧
     (s.lc.view ≠ .idle → exec (.startDelimiter r) s = .next s))

/-- The key and its rank (R119): built at the start delimiter from the station address and the last winner of the frame's class as they then stand; the ranks of one class are a permutation in which the last winner has 15 and the station after it 0; the lowest rank is that of the first contender after the last winner; and a station passed over has a lower rank at the next contention; that the bits read in the places of the key and its stuff bit decide at once whether the station contends on is the model's choice (log 12). -/
def Obligations.RankRotates : Prop :=
  (∀ (s : State) (o : Offer) (r : KeyRead), s.lc.view = .idle → selectOffer s = some o →
    let w : Station := match o with | .response => s.lc.last0 | _ => s.lc.last1
    let c : Nat := match o with | .response => 0 | _ => 1
    ∃ k : BitVec 9, k.toNat = 256 * c + 16 * ((s.stc.address.val + 16 - w.val - 1) % 16) + s.stc.address.val ∧
      (KeyReadBack k r → ∃ t, exec (.startDelimiter r) s = .next t ∧ t.lc.slot = .contending o k) ∧
      (¬ KeyReadBack k r → ∃ t, exec (.startDelimiter r) s = .next t ∧ t.lc.slot = .chosen o)) ∧
  (∀ i w : Station, (rankOf i w).toNat = (i.val + 16 - w.val - 1) % 16) ∧
  (∀ w : Station, Function.Bijective (fun i => rankOf i w) ∧ rankOf w w = 15 ∧ rankOf (w + 1) w = 0) ∧
  (∀ i j w : Station, (rankOf j w).toNat < (rankOf i w).toNat ↔ j ≠ i ∧ ∃ k l : Nat, k < l ∧ l < 16 ∧ j = w + 1 + Fin.ofNat 16 k ∧ i = w + 1 + Fin.ofNat 16 l) ∧
  (∀ i j w : Station, (rankOf j w).toNat < (rankOf i w).toNat → (rankOf i j).toNat < (rankOf i w).toNat)

/-- The last winners (R120): set by a good frame to its sender, by this station's own frame sent to itself, by pin reset and the entry to LISTENING to 16 (held as 15), each for its class; by nothing else. Which frames are good the operand says by the checks of R126: a FRAME_DISCARDED with the bits of a good frame sets the last winner, and a GOOD_FRAME that fails the format checks sets none (the model's choice, log 11); a REPLY_DATA of 17 data words passes them (the model's choice, log 29). With no frame being received neither command sets one (the model's choice, log 1). -/
def Obligations.LastWinnerFollowsFrames : Prop :=
  ∀ (c : Instr) (s t : State), ClearingLaws s → exec c s = .next t →
    (∀ f, taken c f → receiving s = true → t.lc.last0 = (if f.cls = .response then f.sender else s.lc.last0) ∧
      t.lc.last1 = (if f.cls = .request then f.sender else s.lc.last1)) ∧
    (∀ o f b r, c = .transmitSent → s.lc.slot = .onLine o f b r →
      t.lc.last0 = (if o.cls = .response then s.stc.address else s.lc.last0) ∧
      t.lc.last1 = (if o.cls = .request then s.stc.address else s.lc.last1)) ∧
    (∀ addr rate, c = .pinReset addr rate → t.lc.last0 = 15 ∧ t.lc.last1 = 15) ∧
    (s.stc.state ≠ .listening → t.stc.state = .listening → t.lc.last0 = 15 ∧ t.lc.last1 = 15) ∧
    (¬ (∃ f, taken c f ∧ receiving s = true) → ¬ (c = .transmitSent ∧ s.lc.slot.sending = true) →
      (∀ addr rate, c ≠ .pinReset addr rate) → ¬ (s.stc.state ≠ .listening ∧ t.stc.state = .listening) →
      t.lc.last0 = s.lc.last0 ∧ t.lc.last1 = s.lc.last1)

/-- CONTENTION_WON (R118, R122, R75, R100, R152, R153): the frame of the offer goes on the line with the contents its owner has at that moment and the rank of the key sent. Nothing else changes. Outside a contention nothing happens: the model's choice (log 1). -/
def Obligations.ContentionWonSendsFrame : Prop :=
  ∀ (s : State) (k : BitVec 9),
    let sends (o : Offer) (f : Frame) : Prop :=
      exec .contentionWon s = .next { s with lc := { s.lc with slot := .onLine o f (frameBits f) false } }
    let rank : BitVec 4 := k.extractLsb' 4 4
    (∀ r rs, s.lc.slot = .contending .response k → s.te.queue = r :: rs →
      sends .response ⟨.response, rank, s.stc.address, r.reply.sentAs.1, BitVec.ofNat 8 (r.requester.val + 1) :: r.seq :: r.reply.sentAs.2⟩) ∧
    (∀ m, s.lc.slot = .contending (.presence m) k →
      sends (.presence m) ⟨.request, rank, s.stc.address, 8, [BitVec.ofNat 8 (s.stc.address.val + 1), m.code]⟩) ∧
    (∀ e x, s.lc.slot = .contending (.request e) k → s.re.table.at e = some x → 1 ≤ x.desc.kind.toNat → x.desc.kind.toNat ≤ 7 →
      let head : List Byte := [x.desc.target.extractLsb' 0 8, x.seq, if x.attempts = 0 then 0 else 1]
      (x.desc.kind ≠ 3 → x.desc.kind ≠ 5 →
        sends (.request e) ⟨.request, rank, s.stc.address, x.desc.kind.extractLsb' 0 4, head ++ x.desc.sentAs []⟩) ∧
      (∀ b, x.desc.kind = 3 ∨ x.desc.kind = 5 → x.desc.references b →
        sends (.request e) ⟨.request, rank, s.stc.address, x.desc.kind.extractLsb' 0 4,
          head ++ x.desc.sentAs (bufferWords s b x.desc.count.toNat)⟩)) ∧
    ((∀ o k, s.lc.slot ≠ .contending o k) → exec .contentionWon s = .next s)

/-- TRANSMIT_SENT (R123, R120, R90, R76, R77, R101, R136): the line is released, this station is the last winner of the frame's class, the owner takes its report and Station Control learns that a frame was sent. A frame whose offer was withdrawn while it was on the line has no further effect (R122). Nothing else changes. -/
def Obligations.TransmitSentReports : Prop :=
  ∀ (s : State) (o : Offer) (f : Frame) (b : List Bool) (orphan : Bool), s.lc.slot = .onLine o f b orphan →
    let lc : Lc := Lc.won o.cls s.stc.address { s.lc with slot := .empty, view := .gap 0, receive := none }
    let plainly : State := { s with lc := lc, stc := s.stc.quieted }
    (orphan = true → exec .transmitSent s = .next plainly) ∧
    (orphan = false → o = .response → exec .transmitSent s = .next { plainly with te := { s.te with queue := s.te.queue.tail } }) ∧
    (∀ m, orphan = false → o = .presence m → ((m = .plain ∧ (s.stc.state = .joined ∨ s.stc.state = .leaving)) ∨ s.stc.due ≠ some m ∨ (m = .fresh ∧ s.stc.state ≠ .listening)) →
      exec .transmitSent s = .next plainly) ∧
    (orphan = false → o = .presence .fresh → s.stc.due = some .fresh → s.stc.state = .listening →
      exec .transmitSent s = .next { s with
        lc := lc
        stc := { s.stc with state := .joined, due := none, quiet := .running (1000 * s.stc.active.presenceInterval.toNat) }
        lp := s.lp.withEvent (.stateChanged .joined) }) ∧
    (∀ e x, orphan = false → o = .request e → s.re.table.at e = some x → exec .transmitSent s = .next { plainly with
      re := { s.re with
        table := s.re.table.put e (some { x with
          state := .awaitResponse
          attempts := min 255 (x.attempts + 1)
          window := .running s.stc.active.responseWindow.toNat })
        ready := s.re.ready.erase e } })

/-- TRANSMIT_SENT of the leaving PRESENCE (R139, R92, R81, R78): the SRU, the RE and the TE take what still waits for them, so that nothing waits any more (DEDUCED, log 15), then SETUP with its event; no PRESENCE is due; every peer entry is down with its record cleared and its sequence number kept; the TE's closed mark is cleared and its input place emptied; every end report still to come from the GE is marked to have no effect (DEDUCED, log 16). -/
def Obligations.LeavingPresenceSentEntersSetup : Prop :=
  ∀ (s : State) (f : Frame) (b : List Bool), s.lc.slot = .onLine (.presence .leaving) f b false → s.stc.due = some .leaving →
    let u := restartPurge (reTakeAnnouncement (sruTakeAnnouncement (reTakeStartOfLeaving (sruTakeStartOfLeaving
      { s with lc := { s.lc with slot := .empty, view := .gap 0, receive := none, last1 := s.stc.address } }))))
    NothingWaits u ∧ ∃ ps, exec .transmitSent s = .next { u with
      stc := { u.stc with state := .setup, due := none, quiet := .stopped }
      lp := u.lp.withEvent (.stateChanged .setup)
      te := { u.te with closed := false, input := none }
      ge := u.ge.unreported
      pt := { u.pt with peers := ps } } ∧
    ∀ p, ps.at p = { u.pt.peers.at p with
      presence := .absent, departure := none, heardAgain := false, freshWaiting := false, timer := .stopped, record := none }

/-- TRANSMIT_FAULT (R124, R76, R77, R101): the slot is empty and no last winner changes; a response is kept with its attempts raised, or dropped at the third fault or when a restart has purged it; a PRESENCE stays due; a copy counts as lost. -/
def Obligations.TransmitFaultReports : Prop :=
  ∀ (s : State) (o : Offer) (f : Frame) (b : List Bool) (orphan : Bool), s.lc.slot = .onLine o f b orphan →
    let u : State := { s with lc := { s.lc with slot := .empty } }
    (orphan = true → exec .transmitFault s = .next (reselect u)) ∧
    (∀ m, o = .presence m → exec .transmitFault s = .next (reselect u)) ∧
    (∀ r rs, orphan = false → o = .response → s.te.queue = r :: rs →
      exec .transmitFault s = .next (reselect { u with te := { s.te with
        queue := if r.purged = true ∨ r.attempts ≥ 2 then rs else { r with attempts := r.attempts + 1 } :: rs } })) ∧
    (∀ e x, orphan = false → o = .request e → s.re.table.at e = some x →
      let x1 : Entry := { x with attempts := min 255 (x.attempts + 1) }
      let x2 : Entry := { x1 with lost := x.lost + 1 }
      let ends (st : Status) (y : Entry) : Answered :=
        .next (reselect (finishEntry e st .none 0 { u with re := { s.re with table := s.re.table.put e (some y) } }))
      exec .transmitFault s =
        if x.deadlinePassed then ends .deferralTimeout x1
        else if s.stc.state = .leaving then ends .cancelled x1
        else if s.stc.active.lostLimit.toNat < x.lost + 1 then ends .noResponse x2
        else .next (reselect { u with re := { s.re with
          table := s.re.table.put e (some { x2 with
            state := .backoff, window := .stopped, backoff := .running s.stc.active.retryInterval.toNat })
          ready := s.re.ready.erase e } }))

/-- LINE_IDLE and DOMINANT_BIT_IN_GAP (R115, R121): from GAP the line becomes IDLE and the LC chooses; LINE_IDLE says that the count has reached twelve, and the count the state holds is not asked (the model's choice, log 14); a dominant bit sets the count back; a frame of another station has ended by then (DEDUCED, log 13); neither does anything in another view, nor LINE_IDLE while RESET# is low (the model's choice, log 1). -/
def Obligations.LineBecomesIdle : Prop :=
  ∀ s : State,
    let chosen : TxSlot := TxSlot.ofOffer (selectOffer { s with lc := { s.lc with slot := s.lc.ended.slot } })
    (∀ n, s.resetLow = false → s.lc.view = .gap n →
      ∃ slot, exec .lineIdle s = .next { s with lc := { s.lc with view := .idle, slot := slot } } ∧ slot = TxSlot.ofOffer (selectOffer s)) ∧
    (s.resetLow = false → s.lc.view = .frame → s.lc.slot.sending = false →
      exec .lineIdle s = .next { s with lc := { s.lc with view := .idle, receive := none, slot := chosen } }) ∧
    (s.resetLow = true ∨ s.lc.view = .idle ∨ (s.lc.view = .frame ∧ s.lc.slot.sending = true) → exec .lineIdle s = .next s) ∧
    (∀ n, s.lc.view = .gap n → exec .dominantBitInGap s = .next { s with lc := { s.lc with view := .gap 0 } }) ∧
    ((∀ n, s.lc.view ≠ .gap n) → exec .dominantBitInGap s = .next s)

/-! ### The link: reception -/

/-- GOOD_FRAME and FRAME_DISCARDED (R125 to R127): the view enters GAP; a good frame sets the last winner of its class and is passed to the Peer Table, a request then to the TE and a response of another station to the RE, the last two in either order (log 9); a discarded frame does nothing else. Which of the two a frame is, its operand says by the checks of R126 (the model's choice, log 11; so is that a REPLY_DATA of 17 data words passes them, log 29). Without a frame being received nothing happens, nor with bits that reach none of the ends of R125 (the model's choice, log 1). -/
def Obligations.FrameEnds : Prop :=
  ∀ (c : Instr) (s : State),
    let done : State := { s with lc := s.lc.ended }
    (∀ f, taken c f → receiving s = true →
      let u : State := { s with lc := Lc.won f.cls f.sender s.lc.ended }
      let v : State := { u with freeCount := s.freeCount + 1 }
      (f.cls = .request → exec c s = .next (reselect (passToTarget f (hear f u)))) ∧
      (f.cls = .response → f.sender = s.stc.address → exec c s = .next (reselect (hear f u))) ∧
      (f.cls = .response → f.sender ≠ s.stc.address →
        exec c s = .next (reselect (hear f (passToRequester f v))) ∨ exec c s = .next (reselect (passToRequester f (hear f v))))) ∧
    (∀ f, c = .goodFrame f → formatOk f = false → receiving s = true → exec c s = .next done) ∧
    (∀ bits d, c = .frameDiscarded bits → receive bits = .error d → d ≠ .cutOff → receiving s = true → exec c s = .next done) ∧
    (∀ bits, c = .frameDiscarded bits → receive bits = .error .cutOff → exec c s = .next s) ∧
    (((∃ f, c = .goodFrame f) ∨ ∃ bits, c = .frameDiscarded bits) → receiving s = false → exec c s = .next s)

/-- The Peer Table takes a good frame of another station in LISTENING, JOINED and LEAVING alone (R82 to R87). -/
def Obligations.PeerHeard : Prop :=
  ∀ (f : Frame) (s : State),
    let p := f.sender
    let e := s.pt.peers.at p
    let used := (s.stc.state = .listening ∨ s.stc.state = .joined ∨ s.stc.state = .leaving) ∧ p ≠ s.stc.address
    let timer : Timer := .running (3 * (1000 * s.stc.active.presenceInterval.toNat))
    let withEntry (y : Peer) : State := { s with pt := { s.pt with peers := s.pt.peers.put p y } }
    let pending := e.presence = .present ∧ e.departure ≠ none
    (¬ used → hear f s = s) ∧
    (used → presenceOf f ≠ some .fresh → presenceOf f ≠ some .leaving →
      (e.presence = .absent → hear f s =
        { withEntry { e with presence := .present, timer := timer } with lp := s.lp.withEvent (.peerUp p false) }) ∧
      (e.presence = .present → e.departure = none → hear f s = withEntry { e with timer := timer }) ∧
      (pending → hear f s = withEntry { e with heardAgain := true })) ∧
    (used → presenceOf f = some .leaving →
      (e.presence = .absent → hear f s = s) ∧
      (e.presence = .present → e.departure = none → hear f s =
        announce (.departed p) (withEntry { e with timer := .stopped, departure := some .left })) ∧
      (pending → hear f s = withEntry { e with heardAgain := false, freshWaiting := false })) ∧
    (used → presenceOf f = some .fresh →
      (¬ pending → hear f s = announce (.restarted p) (withEntry { e with presence := .present, timer := timer, record := none })) ∧
      (pending → hear f s = withEntry { e with freshWaiting := true }))

/-- An announcement (R88, Table 5-2): it waits for the GE, the SRU and the RE, a restart also for the TE. One that still waits for the SRU, the RE or the TE is taken by that block before it (DEDUCED, log 15), as SRU_TAKE_ANNOUNCEMENT, RE_TAKE_ANNOUNCEMENT and RESTART_PURGE take it; where none waits, nothing is taken. Nothing else changes. -/
def Obligations.AnnouncementReachesBlocks : Prop :=
  (∀ (a : Announcement) (s : State),
    let work : GeWork := match a with
      | .lost p => .gone p true
      | .departed p => .gone p true
      | .restarted p => .restarted p 1
    let v := reTakeAnnouncement (sruTakeAnnouncement { s with ge := { s.ge with work := addWork work s.ge.work } })
    let told (w : State) : State := { w with sru := { w.sru with announced := some a }, re := { w.re with announced := some a } }
    ((∀ p, a ≠ .restarted p) → announce a s = told v) ∧
    (∀ p, a = .restarted p → announce a s =
      { told (restartPurge v) with te := { (restartPurge v).te with restarted := some p } })) ∧
  (∀ s : State,
    exec .sruTakeAnnouncement s = .next (sruTakeAnnouncement s) ∧ (s.sru.announced = none → sruTakeAnnouncement s = s) ∧
    exec .reTakeAnnouncement s = .next (reselect (reTakeAnnouncement s)) ∧ (s.re.announced = none → reTakeAnnouncement s = s) ∧
    exec .restartPurge s = .next (reselect (restartPurge s)) ∧ (s.te.restarted = none → restartPurge s = s))

/-- A request frame is passed to the TE when it is addressed to this station, comes from another and the Peer Table uses frames (R61, R82); the TE takes it in JOINED, and in LEAVING until it is closed (R62); it stands in the input place, or is dropped when that is occupied (R63). A frame that waits there with none in hand moves into hand first (DEDUCED, log 17). A restart of its sender that still waits for the SRU is taken before it stands there, so that no slot from before the restart remains for it (R58; that it is taken in that step is DEDUCED, log 38). -/
def Obligations.RequestFrameReachesInputPlace : Prop :=
  ∀ (f : Frame) (s : State),
    let addressed := f.cls = .request ∧ f.kind ≠ 8 ∧ f.sender ≠ s.stc.address ∧
      (∃ a b r, f.body = BitVec.ofNat 8 (s.stc.address.val + 1) :: a :: b :: r)
    let serves := s.stc.state = .joined ∨ (s.stc.state = .leaving ∧ s.te.closed = false)
    let enters (u : State) : State :=
      let v := if u.sru.announced = some (.restarted f.sender) then sruTakeAnnouncement u else u
      { v with te := { v.te with input := some f } }
    (¬ (addressed ∧ serves) → passToTarget f s = s) ∧
    (addressed → serves → s.te.input = none → passToTarget f s = enters s) ∧
    (addressed → serves → s.te.input ≠ none → s.te.hand ≠ none → passToTarget f s = s) ∧
    (addressed → serves → s.te.input ≠ none → s.te.hand = none →
      passToTarget f s = enters (takeNextFrame s)) ∧
    (∀ u : State, SlotLaws u → u.sru.announced = some (.restarted f.sender) →
      ∀ i x, (enters u).sru.slots.at i = some x → x.requester ≠ f.sender)

/-- A frame sent is read as it was sent: the bits of a frame, stuffed and with their check, are received as that frame, which has not ended before its end mark (R116, R125, R126). The bits after the end of a frame, good or discarded, are no part of it: it ends at the first of the four ends of R125. -/
def Obligations.FrameBitsRoundTrip : Prop :=
  (∀ f : Frame, formatOk f = true →
    receive (frameBits f) = .ok f ∧ ∀ n, n < (frameBits f).length → receive ((frameBits f).take n) = .error .cutOff) ∧
  (∀ bits more : List Bool, receive bits ≠ .error .cutOff → receive (bits ++ more) = receive bits)

/-- The fields of a frame sent are read as they were meant (Table 10-3, R152, R153): a request of a good descriptor by the target's TE, a response by the requester's RE, a PRESENCE by the Peer Table; all three pass the format checks of R126. -/
def Obligations.FrameFieldsRoundTrip : Prop :=
  (∀ (own : Station) (rank : BitVec 4) (d : Descriptor) (seq : Byte) (retry : Bool) (data : List Word),
    1 ≤ d.kind.toNat → d.kind.toNat ≤ 7 → (d.kind = 1 ∨ d.kind = 2 ∨ d.kind = 3 ∨ d.kind = 5 → 1 ≤ d.count.toNat ∧ d.count.toNat ≤ 16) →
    (d.kind = 3 ∨ d.kind = 5 → data.length = d.count.toNat) →
    let f := requestFrame own rank d seq retry data
    formatOk f = true ∧ ∃ r, requestOf f = some r ∧ r.kind.code = d.kind.extractLsb' 0 4 ∧ r.seq = seq ∧ r.retry = retry ∧
      (d.kind = 1 ∨ d.kind = 2 ∨ d.kind = 3 ∨ d.kind = 5 → r.addr = d.address.toNat ∧ r.count = d.count.toNat) ∧
      (4 ≤ d.kind.toNat → r.tag = d.tag.extractLsb' 0 4) ∧ (d.kind = 3 ∨ d.kind = 5 → r.data = data)) ∧
  (∀ (own p : Station) (rank : BitVec 4) (seq : Byte) (reply : Reply) (n : Nat) (purged : Bool),
    (∀ ws, reply = .data ws → ws.length ≤ 16) →
    let f := responseFrame own rank ⟨p, seq, reply, n, purged⟩
    formatOk f = true ∧ responseOf f = some ⟨BitVec.ofNat 8 (p.val + 1), seq, match reply with
      | .data ws => .data ws
      | .done k => .done (BitVec.ofNat 8 k)
      | .defer => .defer
      | .busy => .busy
      | .refuse c => .refuse c.code⟩) ∧
  (∀ (own : Station) (rank : BitVec 4) (m : Mark), formatOk (presenceFrame own rank m) = true ∧ presenceOf (presenceFrame own rank m) = some m)

/-! ### The Requester Engine -/

/-- An outstanding entry finishes (R99, R109, R122): it leaves the ready order and its offer is withdrawn; with space its completion is appended, it becomes FREE and admission is attempted; without, it keeps its result in COMPLETING with its timers stopped. -/
def Obligations.EntryFinishes : Prop :=
  ∀ (e : Fin 8) (st : Status) (dt : Detail) (words : Nat) (s : State) (x : Entry), s.re.table.at e = some x →
    ∃ slot, Withdrawn (.request e) s.lc.slot slot ∧
      (s.lp.completions.length < 16 → finishEntry e st dt words s = admission { s with
        lc := { s.lc with slot := slot }
        lp := { s.lp with completions := s.lp.completions ++
          [⟨x.desc.userTag, x.desc.kind, x.desc.target, st, dt, words, x.desc.buffer, x.attempts⟩] }
        re := { s.re with table := s.re.table.put e none, ready := s.re.ready.erase e } }) ∧
      (16 ≤ s.lp.completions.length → finishEntry e st dt words s = { s with
        lc := { s.lc with slot := slot }
        re := { s.re with
          table := s.re.table.put e (some { x with
            state := .completing, window := .stopped, backoff := .stopped, deadline := .stopped, result := some ⟨st, dt, words⟩ })
          ready := s.re.ready.erase e
          completing := s.re.completing ++ [e] } })

/-- A response (R104 to R107, R152): passed to the RE when its requester field is this station's address; matched by target, sequence number and state; taken by the kinds the entry can receive; final ones finish the entry, a deferral or busy sends it to BACKOFF or ends it; anything else is discarded. -/
def Obligations.ResponseTaken : Prop :=
  ∀ (f : Frame) (s : State), TableLaws s →
    (∀ r, responseOf f = some r → r.requester = BitVec.ofNat 8 (s.stc.address.val + 1) → (∀ e x, ¬ Matches s f.sender r.seq x e) →
      passToRequester f s = s) ∧
    ((∀ r, responseOf f = some r → r.requester ≠ BitVec.ofNat 8 (s.stc.address.val + 1)) → passToRequester f s = s) ∧
    (∀ r e x, responseOf f = some r → r.requester = BitVec.ofNat 8 (s.stc.address.val + 1) → Matches s f.sender r.seq x e →
      let t := passToRequester f s
      let reads := x.desc.kind = 1 ∨ x.desc.kind = 2
      let put (y : Entry) : State := { s with re := { s.re with table := s.re.table.put e (some y) } }
      let retry (y : Entry) : State := put { y with
        state := .backoff, window := .stopped, backoff := .running s.stc.active.retryInterval.toNat }
      let deferred : Entry := { x with
        deferred := true, deadline := if x.deferred then x.deadline else .running (1000 * s.stc.active.deferralDeadline.toNat), lost := 0 }
      let busy : Entry := { x with busy := x.busy + 1, lost := 0 }
      (∀ c, r.answer = .refuse c → t = finishEntry e .refused (.reason c) 0 s) ∧
      (∀ n, r.answer = .done n → ¬ reads → t = finishEntry e .ok .none n.toNat s) ∧
      (∀ ws b, r.answer = .data ws → reads → ws.length = x.desc.count.toNat → x.desc.references b →
        ∃ m, t = finishEntry e .ok .none ws.length { s with lp := { s.lp with buffers := m } } ∧
          ∀ k, m.read k = if 16 * b.val ≤ k ∧ k < 16 * b.val + ws.length then ws.getD (k - 16 * b.val) 0 else s.lp.buffers.read k) ∧
      (r.answer = .defer → x.desc.kind = 2 →
        t = if x.state ≠ .awaitResponse then put deferred
          else if x.deadlinePassed then finishEntry e .deferralTimeout .none 0 s
          else if s.stc.state = .leaving then finishEntry e .cancelled .none 0 (put deferred)
          else retry deferred) ∧
      (r.answer = .busy → x.desc.kind = 2 →
        t = if x.state ≠ .awaitResponse then s
          else if x.deadlinePassed then finishEntry e .deferralTimeout .none 0 s
          else if s.stc.active.busyLimit.toNat < x.busy + 1 then finishEntry e .busyLimit .none 0 (put busy)
          else if s.stc.state = .leaving then finishEntry e .cancelled .none 0 (put busy)
          else retry busy) ∧
      ((∃ n, r.answer = .done n) ∧ reads ∨ (∃ ws, r.answer = .data ws ∧ ¬ (reads ∧ ws.length = x.desc.count.toNat)) ∨
        (r.answer = .defer ∨ r.answer = .busy) ∧ x.desc.kind ≠ 2 → t = s))

/-- RESPONSE_WINDOW_EXPIRY, BACKOFF_EXPIRY and DEFERRAL_DEADLINE_EXPIRY of a running timer (R102, R103, R108, R111). -/
def Obligations.EntryTimersExpire : Prop :=
  ∀ (e : Fin 8) (s : State) (x : Entry), s.re.table.at e = some x →
    let put (y : Entry) : State := { s with re := { s.re with table := s.re.table.put e (some y) } }
    let windowed : Entry := { x with window := .stopped }
    let lost : Entry := { windowed with lost := x.lost + 1 }
    let dead : Entry := { x with deadline := .stopped }
    let ends (st : Status) (y : Entry) : Answered := .next (reselect (finishEntry e st .none 0 (put y)))
    (∀ us, x.state = .awaitResponse → x.window = .running us → exec (.responseWindowExpiry e) s =
      if x.deadlinePassed then ends .deferralTimeout windowed
      else if s.stc.state = .leaving then ends .cancelled windowed
      else if s.stc.active.lostLimit.toNat < x.lost + 1 then ends .noResponse lost
      else .next (reselect { s with re := { s.re with
        table := s.re.table.put e (some { lost with state := .backoff, backoff := .running s.stc.active.retryInterval.toNat })
        ready := s.re.ready.erase e } })) ∧
    (∀ us, x.state = .backoff → x.backoff = .running us → exec (.backoffExpiry e) s =
      .next (reselect { s with re := { s.re with
        table := s.re.table.put e (some { x with state := .readyToSend, backoff := .stopped })
        ready := s.re.ready ++ [e] } })) ∧
    (∀ us, x.deadline = .running us →
      (x.state = .backoff → exec (.deferralDeadlineExpiry e) s = ends .deferralTimeout dead) ∧
      (x.state = .readyToSend → onLineOffer s ≠ some (.request e) → exec (.deferralDeadlineExpiry e) s = ends .deferralTimeout dead) ∧
      (x.state = .awaitResponse ∨ (x.state = .readyToSend ∧ onLineOffer s = some (.request e)) →
        exec (.deferralDeadlineExpiry e) s = .next (put { dead with deadlinePassed := true })))

/-- RE_TAKE_ANNOUNCEMENT, RE_TAKE_START_OF_LEAVING and RESTART_PURGE (R110, R111, R77). A live entry toward the announced peer finishes. At the start of LEAVING the entries in READY_TO_SEND not on the line and those in BACKOFF finish CANCELLED in the order of their numbers, then every queued descriptor is marked, and those the completion queue has space for are retired. A restart removes the peer's entries from the response queue, a head on the line when its transmission ends. The purged head still stands in the queue until then (DEDUCED, log 22). With nothing waiting a command changes nothing but what the LC chooses on an IDLE line (the model's choice, log 1). -/
def Obligations.AnnouncementsTaken : Prop :=
  ∀ s : State,
    (s.re.announced = none → exec .reTakeAnnouncement s = .next (reselect s)) ∧
    (∀ a, s.re.announced = some a → TableLaws s →
      let u : State := { s with re := { s.re with announced := none } }
      let p : Station := match a with | .lost p => p | .departed p => p | .restarted p => p
      let live (e : Fin 8) (x : Entry) : Prop := s.re.table.at e = some x ∧ x.state ≠ .completing ∧ x.desc.target.toNat = p.val + 1
      ((∀ e x, ¬ live e x) → exec .reTakeAnnouncement s = .next (reselect u)) ∧
      (∀ e x, live e x → exec .reTakeAnnouncement s = .next (reselect (match a with
        | .lost _ => finishEntry e .peerAbsent (.cause .silent) 0 u
        | .departed _ => finishEntry e .peerAbsent (.cause .left) 0 u
        | .restarted _ => finishEntry e .peerRestarted .none 0 u)))) ∧
    exec .reTakeStartOfLeaving s = .next (reselect (reTakeStartOfLeaving s)) ∧
    (s.re.startOfLeaving = false → reTakeStartOfLeaving s = s) ∧
    (s.re.startOfLeaving = true →
      let cancels (s : State) (e : Fin 8) : State := match s.re.table.at e with
        | some x => if x.state = .backoff ∨ (x.state = .readyToSend ∧ onLineOffer s ≠ some (.request e)) then finishEntry e .cancelled .none 0 s else s
        | none => s
      let v := all8.foldl cancels { s with re := { s.re with startOfLeaving := false } }
      let n := if v.re.completing = [] then min (16 - v.lp.completions.length) v.re.queue.length else 0
      exec .reTakeStartOfLeaving s = .next (reselect { v with
        re := { v.re with queue := (v.re.queue.drop n).map (fun q => { q with cancelled := true }) }
        lp := { v.lp with completions := v.lp.completions ++ (v.re.queue.take n).map (fun q =>
          ⟨q.desc.userTag, q.desc.kind, q.desc.target, .cancelled, .none, 0, q.desc.buffer, 0⟩) } })) ∧
    (s.te.restarted = none → exec .restartPurge s = .next (reselect s)) ∧
    (∀ p, s.te.restarted = some p →
      let others (q : List Response) : List Response := q.filter (fun r => r.requester ≠ p)
      let purged (q : List Response) (lc : Lc) : Answered := .next (reselect { s with te := { s.te with restarted := none, queue := q }, lc := lc })
      ((∀ r rs, s.te.queue = r :: rs → r.requester ≠ p) → exec .restartPurge s = purged (others s.te.queue) s.lc) ∧
      (∀ r rs, s.te.queue = r :: rs → r.requester = p → onLineOffer s = some .response →
        exec .restartPurge s = purged ({ r with purged := true } :: others rs) s.lc) ∧
      (∀ r rs, s.te.queue = r :: rs → r.requester = p → onLineOffer s ≠ some .response →
        ∃ slot, Withdrawn .response s.lc.slot slot ∧ exec .restartPurge s = purged (others rs) { s.lc with slot := slot }))

/-! ### The Target Engine -/

/-- FRAME_IN_HAND (R63, R64, R66, R67, R72, R73, R75): the frame of the input place comes into hand when none is in hand; with 8 responses queued it is dropped; otherwise the SRU takes its report, a matching re-send is replayed or, its response still queued, dropped, and any other frame is refused in LEAVING, refused MALFORMED, or goes on by its kind. A response that a restart has purged on the line counts among the 8 until its transmission ends (DEDUCED, log 22). With a frame in hand or none in the input place nothing happens (the model's choice, log 1). -/
def Obligations.FrameTakenIntoHand : Prop :=
  ∀ s : State,
    (s.te.hand ≠ none ∨ s.te.input = none → exec .frameInHand s = .next (reselect s)) ∧
    (∀ f, s.te.hand = none → s.te.input = some f →
      let u : State := { s with te := { s.te with input := none } }
      (8 ≤ s.te.queue.length → exec .frameInHand s = .next (reselect u)) ∧
      (∀ target q flags r, f.body = target :: q :: flags :: r → s.te.queue.length < 8 →
        let p := f.sender
        let v := frameTakenReport f ⟨target, q, flags⟩ u
        let queued (rep : Reply) (w : State) : State := { w with te := { w.te with queue := w.te.queue ++ [⟨p, q, rep, 0, false⟩] } }
        let refused (c : Reason) : Answered := .next (reselect (queued (.refuse c) { v with pt := v.pt.recorded p q f.kind (.refuse c) }))
        let resent (o : Recorded) := flags.getLsbD 0 = true ∧ (f.kind = 3 ∨ f.kind = 4 ∨ f.kind = 5 ∨ f.kind = 6 ∨ f.kind = 7) ∧
          (s.pt.peers.at p).record = some ⟨q, f.kind, o⟩
        let waiting := ∃ x ∈ s.te.queue, x.requester = p ∧ x.seq = q
        let final := (∃ n, resent (.done n)) ∨ ∃ c, resent (.refuse c)
        (final → waiting → exec .frameInHand s = .next (reselect v)) ∧
        (∀ n, resent (.done n) → ¬ waiting → exec .frameInHand s = .next (reselect (queued (.done n) v))) ∧
        (∀ c, resent (.refuse c) → ¬ waiting → exec .frameInHand s = .next (reselect (queued (.refuse c) v))) ∧
        (¬ final → s.stc.state = .leaving → exec .frameInHand s = refused .notServing) ∧
        (¬ final → s.stc.state ≠ .leaving → requestOf f = none → exec .frameInHand s = refused .malformed) ∧
        (∀ x, ¬ final → s.stc.state ≠ .leaving → requestOf f = some x → exec .frameInHand s = .next (reselect (dispatchRequest p x v)))))

/-- Requests by kind (R67 to R71, R2, R4, R5): which frames are MALFORMED; RD, WR and RDS tested for range, then permission, and then a claim presented or the RDS handed to the SRU; group frames handed to the GE untested, where each stands last in the waiting work at once (the manual leaves open when it reaches the GE; that it is at once, the earliest place it can have, is the model's choice, log 36). -/
def Obligations.RequestsDispatched : Prop :=
  (∀ (f : Frame) (target q flags : Byte) (r : List Byte), f.body = target :: q :: flags :: r →
    let n := f.body.length
    let count (i : Nat) : Nat := (f.body.getD i 0).toNat
    let counted (i : Nat) := 1 ≤ count i ∧ count i ≤ 16
    (requestOf f ≠ none ↔
      ((f.kind = 1 ∨ f.kind = 2) ∧ n = 6 ∧ counted 5) ∨ (f.kind = 3 ∧ n = 6 + 4 * count 5 ∧ counted 5) ∨
      (f.kind = 5 ∧ n = 7 + 4 * count 6 ∧ counted 6) ∨ ((f.kind = 4 ∨ f.kind = 6 ∨ f.kind = 7) ∧ n = 4)) ∧
    (∀ x, requestOf f = some x → x.kind.code = f.kind ∧ x.seq = q ∧ x.retry = flags.getLsbD 0)) ∧
  (∀ (p : Station) (r : Request) (s : State),
    let inHand (st : HandStage) : State := { s with te := { s.te with hand := some ⟨p, r, st⟩ } }
    let claims (st : HandStage) : State := { inHand st with sgm := { s.sgm with claims := s.sgm.claims ++ [.te] } }
    let refused (c : Reason) : State := { s with
      te := { s.te with queue := s.te.queue ++ [⟨p, r.seq, .refuse c, 0, false⟩] }, pt := s.pt.recorded p r.seq r.kind.code (.refuse c) }
    let tested (permitted : Prop) (served : State) : Prop :=
      (4096 < r.addr + r.count → dispatchRequest p r s = refused .range) ∧
      (r.addr + r.count ≤ 4096 → ¬ permitted → dispatchRequest p r s = refused .notPermitted) ∧
      (r.addr + r.count ≤ 4096 → permitted → dispatchRequest p r s = served)
    (1 ≤ r.count → r.count ≤ 16 →
      (r.kind = .rd → tested (readOpenRange s r.addr r.count) (claims .rdClaim)) ∧
      (r.kind = .wr → tested (writableRange s p r.addr r.count) (claims .wrClaim)) ∧
      (r.kind = .rds → tested (readOpenRange s r.addr r.count) (takeRds p r (inHand .sru)))) ∧
    ((r.kind = .gopen ∨ r.kind = .gwrite ∨ r.kind = .gclose ∨ r.kind = .gabort) →
      dispatchRequest p r s = { inHand .ge with ge := { s.ge with work := s.ge.work ++ [.frame] } }))

/-- RD_RANGE_READ and WR_APPLY (R68, R69, R8, R10): the committed image of the range, all within one claim; a WR refused whole when any word of its range is held, by any group, and otherwise stored whole and reported. Nothing else changes. A claim of any block that cannot be granted next is not performed (R12; that the command then changes nothing is the model's choice, log 1; when a capture claim, a further rollback claim of a list or the claim of an evaluation that stood behind other work arrives is left open, logs 8, 32 and 33). -/
def Obligations.ReadAndWriteClaims : Prop :=
  (∀ (h : Hand) (s : State), s.te.hand = some h → Granted .te s →
    let r := h.req
    let u : State := { s with sgm := { s.sgm with claims := s.sgm.claims.erase .te } }
    (h.stage = .rdClaim →
      exec .rdRangeRead s = .next (reselect (u.answered h (.data ((List.range' r.addr r.count).map (committed s)))))) ∧
    (h.stage = .wrClaim →
      ((∃ a g, r.addr ≤ a ∧ a < r.addr + r.count ∧ heldBy s a = some g) →
        exec .wrApply s = .next (reselect (u.answered h (.refuse .conflict)))) ∧
      ((∀ a, r.addr ≤ a → a < r.addr + r.count → heldBy s a = none) → ∃ v : State,
        exec .wrApply s = .next (reselect (v.answered h (.done r.count))) ∧
        (∀ a, v.sgm.words.read a = if r.addr ≤ a ∧ a < r.addr + r.data.length then r.data.getD (a - r.addr) 0 else s.sgm.words.read a) ∧
        ReportTaken (List.range' r.addr r.count) s v ∧
        v = { u with sgm := { u.sgm with words := v.sgm.words }, sru := v.sru }))) ∧
  (∀ s : State, ∀ p ∈ ([(.localWordRead, .lp), (.localWordWrite, .lp), (.rdRangeRead, .te), (.wrApply, .te), (.rdsEvaluation, .sru),
      (.slotCapture, .sru), (.gwriteApply, .ge), (.groupCommit, .ge), (.groupRollback, .ge)] : List (Instr × Claimant)),
    ¬ Granted p.2 s → exec p.1 s = .next s)

/-! ### The Settled-Read Unit -/

/-- An RDS handed to the SRU (R44, R46, R47): with the retry mark and a slot of the same requester, sequence number, address and count it is answered from that slot, DEFER with the discard timer started anew or the captured data with the slot freed; otherwise the requester's slot is freed and its evaluation is queued, with its claim when it is the SRU's first work, and with a mark when it stands behind other work (how soon its claim then arrives is the model's choice, log 33). -/
def Obligations.SettledReadTaken : Prop :=
  ∀ (h : Hand) (s : State), s.te.hand = some h →
    let p := h.sender
    let r := h.req
    let same (x : Slot) := r.retry = true ∧ x.requester = p ∧ x.seq = r.seq ∧ x.addr = r.addr ∧ x.count = r.count
    let only (i : Fin 4) (x : Slot) := s.sru.slots.at i = some x ∧ x.requester = p ∧ ∀ j y, s.sru.slots.at j = some y → y.requester = p → j = i
    let asNew (v t : State) := ∃ behind cs, (behind = true ↔ v.sru.work ≠ []) ∧ ClaimFollows v.sru.work (v.sru.work ++ [.evaluate behind]) v.sgm.claims cs ∧
      t = { v with sru := { v.sru with work := v.sru.work ++ [.evaluate behind] }, sgm := { v.sgm with claims := cs } }
    (∀ i x b, only i x → same x → x.state = .waiting b →
      takeRds p r s = State.answered h .defer { s with sru := { s.sru with
        slots := s.sru.slots.put i (some { x with discard := .running (1000 * s.stc.active.discardTime.toNat) }) } }) ∧
    (∀ i x ws, only i x → same x → x.state = .ready ws → takeRds p r s = (freeSlot i s).answered h (.data ws)) ∧
    (∀ i x, only i x → ¬ same x → asNew (freeSlot i s) (takeRds p r s)) ∧
    ((∀ i x, s.sru.slots.at i = some x → x.requester ≠ p) → asNew s (takeRds p r s))

/-- RDS_EVALUATION and SLOT_CAPTURE (R45, R48, R49, R50, R52): the six outcomes of an evaluation, in the order of the rule; and what a capture makes of its slot. The SRU's next work follows with its claim, in the place that claim takes at once (the model's choice, logs 8 and 33), and nothing else changes. -/
def Obligations.SettledReadClaims : Prop :=
  ∀ (s : State) (w : SruWork) (rest : List SruWork), s.sru.work = w :: rest → Granted .sru s →
    let owner (g : Fin 4) (p : Station) := (s.ge.table.at g).map (·.owner) = some p
    let stored (addr count : Nat) : List Word := (List.range' addr count).map (fun a => s.sgm.words.read a)
    let free (addr count : Nat) := ∀ a, addr ≤ a → a < addr + count → heldBy s a = none
    let discard : Timer := .running (1000 * s.stc.active.discardTime.toNat)
    ∃ cs, ClaimFollows (w :: rest) rest (s.sgm.claims.erase .sru) cs ∧
      let u : State := { s with sru := { s.sru with work := rest }, sgm := { s.sgm with claims := cs } }
      let withSlot (i : Fin 4) (x : Slot) : State := { u with sru := { u.sru with slots := s.sru.slots.put i (some x) } }
      (∀ b h, w = .evaluate b → s.te.hand = some h → h.stage = .sru →
        let p := h.sender
        let r := h.req
        let present := (s.pt.peers.at p).presence = .present ∧ (s.pt.peers.at p).departure = none
        let own := ∃ a g, r.addr ≤ a ∧ a < r.addr + r.count ∧ heldBy s a = some g ∧ owner g p
        let ends (rep : Reply) : Prop := exec .rdsEvaluation s = .next (reselect (u.answered h rep))
        (¬ present → exec .rdsEvaluation s = .next (reselect { u with te := { s.te with hand := none } })) ∧
        (present → s.stc.state = .leaving → ends (.refuse .notServing)) ∧
        (present → s.stc.state ≠ .leaving → own → ends (.refuse .selfHeld)) ∧
        (present → s.stc.state ≠ .leaving → free r.addr r.count → ends (.data (stored r.addr r.count))) ∧
        (∀ i, present → s.stc.state ≠ .leaving → ¬ own → ¬ free r.addr r.count → s.sru.slots.at i = none → (∀ j, j < i → s.sru.slots.at j ≠ none) →
          exec .rdsEvaluation s = .next (reselect ((withSlot i ⟨p, r.seq, r.addr, r.count, .waiting false, discard⟩).answered h .defer))) ∧
        (present → s.stc.state ≠ .leaving → ¬ own → ¬ free r.addr r.count → (∀ i, s.sru.slots.at i ≠ none) → ends .busy)) ∧
      (∀ i x, w = .capture i → s.sru.slots.at i = some x →
        (free x.addr x.count → exec .slotCapture s = .next (withSlot i { x with state := .ready (stored x.addr x.count), discard := discard })) ∧
        (¬ free x.addr x.count → exec .slotCapture s = .next (withSlot i { x with state := .waiting false })))

/-- How slots are freed (R53, R55, R56, R58, R59): the slot is FREE and its capture withdrawn, and the SRU's next claim takes its place within that step (R53 says only that no later claim waits for the withdrawn one; the place is the model's choice, logs 8 and 33); by DISCARD_TIMER_EXPIRY of a running timer, SRU_TAKE_ANNOUNCEMENT of its requester, the report of any request frame from its requester but a re-issue of its settled read (an RDS that is none and that the TE then refuses included: DEDUCED, log 30), and, all of them, SRU_TAKE_START_OF_LEAVING. With nothing waiting the two taking commands change nothing (the model's choice, log 1). -/
def Obligations.SlotsFreed : Prop :=
  ∀ s : State,
    (∀ i, ∃ cs, ClaimFollows s.sru.work (s.sru.work.filter (fun w => w ≠ .capture i)) s.sgm.claims cs ∧
      freeSlot i s = { s with
        sru := { s.sru with slots := s.sru.slots.put i none, work := s.sru.work.filter (fun w => w ≠ .capture i) }
        sgm := { s.sgm with claims := cs } }) ∧
    (∀ i x us, s.sru.slots.at i = some x → x.discard = .running us → exec (.discardTimerExpiry i) s = .next (freeSlot i s)) ∧
    (s.sru.announced = none → exec .sruTakeAnnouncement s = .next s) ∧
    (∀ a, s.sru.announced = some a →
      let p : Station := match a with | .lost p => p | .departed p => p | .restarted p => p
      let u : State := { s with sru := { s.sru with announced := none } }
      ((∀ i x, s.sru.slots.at i = some x → x.requester ≠ p) → exec .sruTakeAnnouncement s = .next u) ∧
      (∀ i x, SlotLaws s → s.sru.slots.at i = some x → x.requester = p → exec .sruTakeAnnouncement s = .next (freeSlot i u))) ∧
    (∀ (f : Frame) target q flags r, f.body = target :: q :: flags :: r →
      let report := frameTakenReport f ⟨target, q, flags⟩ s
      let reissue (x : Slot) := f.kind = 2 ∧ flags.getLsbD 0 = true ∧ x.seq = q ∧
        ∃ ah al c more, r = ah :: al :: c :: more ∧ x.addr = ah.toNat * 256 + al.toNat ∧ x.count = c.toNat
      ((∀ i x, s.sru.slots.at i = some x → x.requester ≠ f.sender) → report = s) ∧
      (∀ i x, SlotLaws s → s.sru.slots.at i = some x → x.requester = f.sender →
        (reissue x → report = s) ∧ (¬ reissue x → report = freeSlot i s))) ∧
    exec .sruTakeStartOfLeaving s = .next (sruTakeStartOfLeaving s) ∧ (s.sru.startOfLeaving = false → sruTakeStartOfLeaving s = s) ∧
    (s.sru.startOfLeaving = true → ∃ t, sruTakeStartOfLeaving s = t ∧ (∀ i, t.sru.slots.at i = none) ∧ t.sru.startOfLeaving = false ∧
      t.sru.work = s.sru.work.filter (·.isEvaluate) ∧ t.sru.announced = s.sru.announced ∧
      t.sgm.claims.filter (fun c => c ≠ .sru) = s.sgm.claims.filter (fun c => c ≠ .sru) ∧
      (ClaimsMatch s → ClaimFollows s.sru.work t.sru.work s.sgm.claims t.sgm.claims) ∧
      t = { s with sru := t.sru, sgm := { s.sgm with claims := t.sgm.claims } })

/-! ### The Group Engine -/

/-- GOPEN, GWRITE, GCLOSE and GABORT when the GE takes them (R22, R23, R24, R27, R32): each with its tests in the order of its rule, and the claim of a frame that passes them. -/
def Obligations.GroupFramesTaken : Prop :=
  ∀ (h : Hand) (rest : List GeWork) (s : State), HoldLaws s.ge → s.ge.op = none → s.ge.work = .frame :: rest → s.te.hand = some h → h.stage = .ge →
    let p := h.sender
    let r := h.req
    let u : State := { s with ge := { s.ge with work := rest } }
    let isOpen (g : Fin 4) := ∃ x, s.ge.table.at g = some x ∧ x.owner = p ∧ x.tag = r.tag
    let begins (op : GeOp) : Answered := .next { u with ge := { u.ge with op := some op }, sgm := { s.sgm with claims := s.sgm.claims ++ [.ge] } }
    let ends (rep : Reply) : Answered := .next (reselect (u.answered h rep))
    let absent := (s.pt.peers.at p).presence = .absent
    (r.kind = .gopen →
      (s.stc.state = .leaving → exec .gopen s = ends (.refuse .notServing)) ∧
      (s.stc.state ≠ .leaving → absent → exec .gopen s = .next (reselect { u with te := { s.te with hand := none } })) ∧
      (∀ g, s.stc.state ≠ .leaving → ¬ absent → isOpen g → exec .gopen s = ends (.refuse .groupExists)) ∧
      (s.stc.state ≠ .leaving → ¬ absent → (∀ g, ¬ isOpen g) → (∀ g, s.ge.table.at g ≠ none) → exec .gopen s = ends (.refuse .groupTableFull)) ∧
      (∀ g, s.stc.state ≠ .leaving → ¬ absent → (∀ g, ¬ isOpen g) → s.ge.table.at g = none → (∀ j, j < g → s.ge.table.at j ≠ none) →
        exec .gopen s = .next (reselect (State.answered h (.done 0) { u with ge := { u.ge with
          table := s.ge.table.put g (some ⟨p, r.tag, 0, .running (1000 * s.stc.active.idleLifetime.toNat)⟩)
          order := s.ge.order ++ [g] } })))) ∧
    (r.kind = .gwrite → 1 ≤ r.count → r.count ≤ 16 →
      ((∀ g, ¬ isOpen g) → exec .gwrite s = ends (.refuse .noGroup)) ∧
      (∀ g, isOpen g → 4096 < r.addr + r.count → exec .gwrite s = ends (.refuse .range)) ∧
      (∀ g, isOpen g → r.addr + r.count ≤ 4096 → ¬ writableRange s p r.addr r.count → exec .gwrite s = ends (.refuse .notPermitted)) ∧
      (∀ g, isOpen g → r.addr + r.count ≤ 4096 → writableRange s p r.addr r.count → exec .gwrite s = begins (.gwrite g))) ∧
    (r.kind = .gclose →
      ((∀ g, ¬ isOpen g) → exec .gclose s = ends (.refuse .noGroup)) ∧ (∀ g, isOpen g → exec .gclose s = begins (.commit g))) ∧
    (r.kind = .gabort →
      ((∀ g, ¬ isOpen g) → exec .gabort s = ends (.refuse .noGroup)) ∧ (∀ g, isOpen g → exec .gabort s = begins (.rollback .requested [g] .reply)))

/-- GWRITE_APPLY (R25, R26): refused whole for a conflict, then for want of log entries; otherwise its data is stored and reported, each word the group did not yet hold is held with a log entry of its old value, in address order, and the group's count, idle timer and expiry follow. Nothing else changes. -/
def Obligations.GwriteApplied : Prop :=
  ∀ (h : Hand) (g : Fin 4) (x : Group) (s : State), HoldLaws s.ge → s.ge.op = some (.gwrite g) → s.te.hand = some h →
    s.ge.table.at g = some x → Granted .ge s →
    let r := h.req
    let inRange (a : Nat) := r.addr ≤ a ∧ a < r.addr + r.count
    let new := (List.range' r.addr r.count).filter (fun a => heldBy s a ≠ some g)
    let u : State := { s with sgm := { s.sgm with claims := s.sgm.claims.erase .ge }, ge := { s.ge with op := none } }
    let conflict := ∃ a g', inRange a ∧ heldBy s a = some g' ∧ g' ≠ g
    (conflict → exec .gwriteApply s = .next (reselect (u.answered h (.refuse .conflict)))) ∧
    (¬ conflict → 128 < s.ge.undo.length + new.length → exec .gwriteApply s = .next (reselect (u.answered h (.refuse .logFull)))) ∧
    (¬ conflict → s.ge.undo.length + new.length ≤ 128 → ∃ v : State,
      exec .gwriteApply s = .next (reselect (v.answered h (.done r.count))) ∧
      (∀ a, v.sgm.words.read a = if r.addr ≤ a ∧ a < r.addr + r.data.length then r.data.getD (a - r.addr) 0 else s.sgm.words.read a) ∧
      (∀ a, heldBy v a = if inRange a then some g else heldBy s a) ∧
      ReportTaken (List.range' r.addr r.count) s v ∧
      v = { u with
        sgm := { u.sgm with words := v.sgm.words }
        sru := v.sru
        ge := { u.ge with
          table := s.ge.table.put g (some { x with held := x.held + new.length, idle := .running (1000 * s.stc.active.idleLifetime.toNat) })
          undo := s.ge.undo ++ new.map (fun a => ⟨g, a, s.sgm.words.read a⟩)
          holds := v.ge.holds
          work := s.ge.work.filter (fun w => w ≠ .expiry g) } })

/-- GROUP_COMMIT (R27, R9): the holds of the group are released at one instant and its stored values are the committed image; its entry is FREE; GROUP_COMMITTED is posted, the SRU takes the release notice, whose first capture claim takes its place at once and may yet be granted after a later claim (the model's choice, log 8), and the reply names the words held. Nothing else changes. -/
def Obligations.GroupCommitted : Prop :=
  ∀ (h : Hand) (g : Fin 4) (x : Group) (s : State), HoldLaws s.ge → MemoryCanonical s → s.ge.op = some (.commit g) → s.te.hand = some h →
    s.ge.table.at g = some x → Granted .ge s → ∃ u v : State,
    exec .groupCommit s = .next (reselect (v.answered h (.done x.held))) ∧
    EndedBut g { s.ge with op := none } u.ge ∧
    (∀ a, heldBy u a = if heldBy s a = some g then none else heldBy s a) ∧
    u = { s with sgm := { s.sgm with claims := s.sgm.claims.erase .ge }, ge := u.ge, lp := s.lp.withEvent (.groupCommitted x.owner x.tag x.held) } ∧
    NoticeTaken u v ∧ ClaimFollows u.sru.work v.sru.work u.sgm.claims v.sgm.claims ∧
    v = { u with sru := v.sru, sgm := { u.sgm with claims := v.sgm.claims } } ∧
    (∀ a, committed v a = if heldBy s a = some g then s.sgm.words.read a else committed s a)

/-- GROUP_ROLLBACK (R28, R31, R29): the words of the group take their committed image again and are reported, its holds are released at the same instant, its entry is FREE, GROUP_ABORTED is posted and the SRU takes the release notice, in a rollback for LEAVING after it has taken the start of LEAVING, so that no slot is left (R59, DEDUCED, log 31); then the next group of the list presents its claim, or the operation ends. The claim takes its place at once, behind the SRU's captures; these and it may yet be granted after claims that arrive later (the model's choice, logs 8 and 32). -/
def Obligations.GroupRolledBack : Prop :=
  ∀ (cause : AbortCause) (g : Fin 4) (rest : List (Fin 4)) (fin : OpEnd) (x : Group) (s : State), HoldLaws s.ge → MemoryCanonical s →
    s.ge.op = some (.rollback cause (g :: rest) fin) → s.ge.table.at g = some x → Granted .ge s → ∃ u : State,
    (∀ a, u.sgm.words.read a = if heldBy s a = some g then committed s a else s.sgm.words.read a) ∧
    (∀ a, heldBy u a = if heldBy s a = some g then none else heldBy s a) ∧
    (∀ a, committed u a = committed s a) ∧
    EndedBut g s.ge u.ge ∧ ReportTaken ((s.ge.undo.filter (fun e => e.group = g)).map (·.addr)) s u ∧
    u = { s with
      sgm := { s.sgm with claims := s.sgm.claims.erase .ge, words := u.sgm.words }
      ge := u.ge, sru := u.sru, lp := s.lp.withEvent (.groupAborted x.owner x.tag cause) } ∧
    let noticed (w v : State) := NoticeTaken w v ∧ ClaimFollows w.sru.work v.sru.work w.sgm.claims v.sgm.claims ∧
      v = { w with sru := v.sru, sgm := { w.sgm with claims := v.sgm.claims } }
    let claims (w : State) : State := { w with sgm := { w.sgm with claims := w.sgm.claims ++ [.ge] } }
    let taken (w : State) : State := if cause = .leaving then sruTakeStartOfLeaving w else w
    (rest = [] → ∃ v, noticed (taken u) v ∧
      exec .groupRollback s = .next (reselect (endOperation fin { v with ge := { v.ge with op := none, following := false } }))) ∧
    (rest ≠ [] → ∃ v, noticed { taken u with ge := { u.ge with op := some (.rollback cause rest fin), following := true } } v ∧
      exec .groupRollback s = .next (reselect (claims v))) ∧
    (cause = .leaving → fin = .noGroupOpen → s.stc.state = .leaving → SlotLaws s →
      ∃ t, exec .groupRollback s = .next t ∧ ∀ i, t.sru.slots.at i = none)

/-- IDLE_TIMER_EXPIRY and the five commands by which the GE takes work that is no frame (R22, R31, R33, R35 to R38): an expiry waits as work and rolls back its group if it is still OPEN; a lost, departed or restarted peer ends that peer's groups, REVOKE and the start of LEAVING every group, in open order. Work is taken in the order in which it waits; while the start of LEAVING waits behind a group frame, that frame may yet reach the GE later (R38; how soon it does is the model's choice, log 36). -/
def Obligations.GroupWorkTaken : Prop :=
  ∀ s : State,
    (∀ g x us, s.ge.table.at g = some x → x.idle = .running us → exec (.idleTimerExpiry g) s = .next { s with
      ge := { s.ge with table := s.ge.table.put g (some { x with idle := .stopped }), work := s.ge.work ++ [.expiry g] } }) ∧
    (∀ rest, s.ge.op = none →
      let u : State := { s with ge := { s.ge with work := rest } }
      let groupsOf (p : Station) : List (Fin 4) := s.ge.order.filter (fun g => (s.ge.table.at g).map (·.owner) = some p)
      (∀ g, OtherNext s.ge.work (.expiry g) rest →
        (s.ge.table.at g = none → exec .geTakeExpiry s = .next u) ∧
        (s.ge.table.at g ≠ none → exec .geTakeExpiry s = .next (Begun .expired [g] .nothing u))) ∧
      (∀ p report, OtherNext s.ge.work (.gone p report) rest → exec .geTakePeerLost s = .next (reselect (Begun .peerLost (groupsOf p) (.gone p report) u))) ∧
      (∀ p n, OtherNext s.ge.work (.restarted p n) rest → exec .geTakePeerRestarted s = .next (Begun .peerRestarted (groupsOf p) (.restarted p n) u)) ∧
      (OtherNext s.ge.work .revoke rest → exec .geTakeRevoke s = .next (Begun .revoked s.ge.order .nothing u)) ∧
      (OtherNext s.ge.work .startOfLeaving rest → exec .geTakeStartOfLeaving s = .next (Begun .leaving s.ge.order .noGroupOpen u)))

/-- What ends with an operation of the GE (R32, R38, R86, R87, R22): the reply to a GABORT, the report that no group is open, one PEER_UP fresh for each restart joined, nothing for what was marked when SETUP was entered (R81, DEDUCED, log 16), and for a lost or departed peer whose departure is pending PEER_DOWN with its cause, after which a fresh PRESENCE that came meanwhile is taken, or else a frame heard meanwhile makes it PRESENT again. -/
def Obligations.EndReportsTaken : Prop :=
  ∀ s : State,
    endOperation .nothing s = s ∧
    endOperation .noGroupOpen s = { s with stc := { s.stc with noGroupOpen := true } } ∧
    (∀ h, s.te.hand = some h → endOperation .reply s = s.answered h (.done 0)) ∧
    (∀ p, endOperation (.restarted p 0) s = s) ∧
    (∀ p n, endOperation (.restarted p (n + 1)) s = endOperation (.restarted p n) { s with lp := s.lp.withEvent (.peerUp p true) }) ∧
    (∀ p, endOperation (.gone p false) s = s) ∧
    (∀ p, (s.pt.peers.at p).departure = none → endOperation (.gone p true) s = s) ∧
    (∀ p d, (s.pt.peers.at p).departure = some d →
      let e := s.pt.peers.at p
      let down : Peer := { e with presence := .absent, departure := none, heardAgain := false, freshWaiting := false, timer := .stopped }
      let up : Peer := { down with presence := .present, timer := .running (3 * (1000 * s.stc.active.presenceInterval.toNat)) }
      let u (y : Peer) : State := { s with pt := { s.pt with peers := s.pt.peers.put p y }, lp := s.lp.withEvent (.peerDown p d) }
      (e.freshWaiting = true → endOperation (.gone p true) s = announce (.restarted p) (u { up with record := none })) ∧
      (e.freshWaiting = false → e.heardAgain = true →
        endOperation (.gone p true) s = { u up with lp := (s.lp.withEvent (.peerDown p d)).withEvent (.peerUp p false) }) ∧
      (e.freshWaiting = false → e.heardAgain = false → endOperation (.gone p true) s = u down))

/-! ### Presence -/

/-- QUIET_TIMER_EXPIRY, LISTEN_TIMER_EXPIRY, LAST_HEARD_EXPIRY and LEAVING_PRESENCE_DUE (R90, R91, R84, R92, R139, R78). That LEAVING_PRESENCE_DUE is a command of its own, which tests the conditions of R139 when it is given, is DEDUCED (log 19); that it does nothing where they do not hold is the model's choice (log 1). -/
def Obligations.PresenceTimersExpire : Prop :=
  ∀ s : State,
    (∀ us, s.stc.quiet = .running us → exec .quietTimerExpiry s = .next (reselect { s with
      stc := { s.stc with quiet := .stopped, due := match s.stc.due with | none => some .plain | some m => some m } })) ∧
    (∀ us, s.stc.listen = .running us → exec .listenTimerExpiry s = .next (reselect { s with
      stc := { s.stc with listen := .stopped, due := some .fresh } })) ∧
    (∀ p us, (s.pt.peers.at p).presence = .present → (s.pt.peers.at p).departure = none → (s.pt.peers.at p).timer = .running us →
      exec (.lastHeardExpiry p) s = .next (reselect (announce (.lost p) { s with
        pt := { s.pt with peers := s.pt.peers.put p { s.pt.peers.at p with timer := .stopped, departure := some .silent } } }))) ∧
    (let ended := s.stc.state = .leaving ∧ s.stc.due ≠ some .leaving ∧ s.stc.noGroupOpen = true ∧ (∀ e, s.re.table.at e = none) ∧
        s.re.queue = [] ∧ s.te.hand = none ∧ s.te.input = none ∧ s.te.queue = []
     (ended → ∃ slot, Withdrawn (.presence .plain) s.lc.slot slot ∧ exec .leavingPresenceDue s = .next (reselect { s with
       te := { s.te with closed := true }
       lc := { s.lc with slot := slot }
       stc := { s.stc with quiet := .stopped, due := some .leaving } })) ∧
     (¬ ended → exec .leavingPresenceDue s = .next s))

/-! ### The committed image -/

/-- The committed image (R7, R9): the old value in the holding group's one log entry, or the stored value of a word that is not held; changed by no command but a WR apply or a local word write to an unheld word, a commit, clearing, and PIN_RESET, after which no word is held and the stored values are not observable until they are cleared (the model's choice, log 5). -/
def Obligations.CommittedImageChanges : Prop :=
  (∀ (s : State) (a : Nat), HoldLaws s.ge →
    (heldBy s a = none → committed s a = s.sgm.words.read a) ∧
    (∀ g, heldBy s a = some g → ∃ e ∈ s.ge.undo, e.group = g ∧ e.addr = a ∧ committed s a = e.old ∧ ∀ e' ∈ s.ge.undo, e'.addr = a → e' = e)) ∧
  (∀ (c : Instr) (s t : State) (a : Nat), HoldLaws s.ge → MemoryCanonical s → exec c s = .next t →
    c ≠ .clearingDone → c ≠ .groupCommit → (∀ addr rate, c ≠ .pinReset addr rate) →
    (c = .wrApply ∨ c = .localWordWrite → heldBy s a ≠ none) → committed t a = committed s a)

/-! ### Laws that every step keeps -/

/-- The laws hold at reset. -/
def Obligations.LawsHoldAtReset : Prop :=
  let s := State.reset
  ClearingLaws s ∧ OwnEntryUnused s ∧ MemoryCanonical s ∧ QueuesBounded s ∧ HoldLaws s.ge ∧ SlotLaws s ∧ TableLaws s ∧ LinkLaws s ∧
    HandMatches s ∧ ClaimsMatch s

/-- The laws of reset and clearing, and that the entry of the station's own address is not used (R13, R131, R148, R80). That the segment's words, the counter and the queue stay as they are while RESET# is low, and that a strobe is not kept, is the model's choice (logs 5, 10, 21 and 35). -/
def Obligations.ClearingLawsKept : Prop :=
  ∀ s t : State, ClearingLaws s → step s = .next t → ClearingLaws t ∧ (OwnEntryUnused s → OwnEntryUnused t)

/-- The memories keep their canonical form (R1, R20, R144); the form is the model's choice (log 5). -/
def Obligations.MemoryCanonicalKept : Prop :=
  ∀ s t : State, MemoryCanonical s → step s = .next t → MemoryCanonical t

/-- The queues keep their sizes (R64, R75, R93, R146, R147); a response purged while on the line counts until its transmission ends (DEDUCED, log 22). -/
def Obligations.QueuesBoundedKept : Prop :=
  ∀ s t : State, QueuesBounded s → step s = .next t → QueuesBounded t

/-- The laws of holds and log entries, and of the operation in progress (R17 to R22, R31); the mark that a rollback claim follows another of its list is the model's (log 32). -/
def Obligations.HoldLawsKept : Prop :=
  ∀ s t : State, HoldLaws s.ge → MemoryCanonical s → step s = .next t → HoldLaws t.ge

/-- The laws of the deferred slots (R43, R54, R59). -/
def Obligations.SlotLawsKept : Prop :=
  ∀ s t : State, SlotLaws s → ClearingLaws s → MemoryCanonical s → step s = .next t → SlotLaws t

/-- The laws of the outstanding table (R94, R96, R97, R99, R100, R109). -/
def Obligations.TableLawsKept : Prop :=
  ∀ s t : State, TableLaws s → step s = .next t → TableLaws t

/-- The laws of the line view and the transmit slot (R115, R117, R121, R125). -/
def Obligations.LinkLawsKept : Prop :=
  ∀ s t : State, LinkLaws s → ClearingLaws s → step s = .next t → LinkLaws t

/-- What the frame in hand waits for is what the blocks have, and each claimant has one claim waiting exactly while it has work that needs one. The manual gives each claimant at most one claim at a time (R12, R22, R45, R63) and leaves open how soon its next one arrives: that the SRU's next claim and the next rollback claim of a list stand within the step that ends or withdraws the one before, or that gives the SRU its captures, is the model's choice (logs 8, 32 and 33), and so is that the GE has a group frame from the moment the TE waits for it (log 36). -/
def Obligations.WaitingWorkMatches : Prop :=
  ∀ s t : State, HandMatches s → ClaimsMatch s → step s = .next t → HandMatches t ∧ ClaimsMatch t
end

