-- ==== Sys2Proof/Laws/State.lean ====
section
/-! SUPPORT. The frame of every operation on State: the fields it leaves as they were. With these a proof about a command never unfolds an update that does not touch the field in question. -/

namespace Sys2Proof.Machine

/-- What `storeWords` leaves as it was. -/
@[simp] theorem storeWords_frame (addr : Nat) (ws : List Word) (s : State) :
    (storeWords addr ws s).resetLow = s.resetLow ∧ (storeWords addr ws s).sgm.claims = s.sgm.claims ∧ (storeWords addr ws s).sgm.clearing = s.sgm.clearing ∧ (storeWords addr ws s).ge = s.ge ∧ (storeWords addr ws s).sru = s.sru ∧ (storeWords addr ws s).te = s.te ∧ (storeWords addr ws s).pt = s.pt ∧ (storeWords addr ws s).re = s.re ∧ (storeWords addr ws s).lc = s.lc ∧ (storeWords addr ws s).stc = s.stc ∧ (storeWords addr ws s).lp = s.lp ∧ (storeWords addr ws s).freeCount = s.freeCount ∧ (storeWords addr ws s).pending = s.pending := by
  simp only [storeWords]; (repeat' split) <;> simp

/-- What `presentClaim` leaves as it was. -/
@[simp] theorem presentClaim_frame (c : Claimant) (s : State) :
    (presentClaim c s).resetLow = s.resetLow ∧ (presentClaim c s).sgm.words = s.sgm.words ∧ (presentClaim c s).sgm.clearing = s.sgm.clearing ∧ (presentClaim c s).ge = s.ge ∧ (presentClaim c s).sru = s.sru ∧ (presentClaim c s).te = s.te ∧ (presentClaim c s).pt = s.pt ∧ (presentClaim c s).re = s.re ∧ (presentClaim c s).lc = s.lc ∧ (presentClaim c s).stc = s.stc ∧ (presentClaim c s).lp = s.lp ∧ (presentClaim c s).freeCount = s.freeCount ∧ (presentClaim c s).pending = s.pending := by
  simp only [presentClaim]; (repeat' split) <;> simp

/-- What `takeClaim` leaves as it was. -/
@[simp] theorem takeClaim_frame (c : Claimant) (s : State) :
    (takeClaim c s).resetLow = s.resetLow ∧ (takeClaim c s).sgm.words = s.sgm.words ∧ (takeClaim c s).sgm.clearing = s.sgm.clearing ∧ (takeClaim c s).ge = s.ge ∧ (takeClaim c s).sru = s.sru ∧ (takeClaim c s).te = s.te ∧ (takeClaim c s).pt = s.pt ∧ (takeClaim c s).re = s.re ∧ (takeClaim c s).lc = s.lc ∧ (takeClaim c s).stc = s.stc ∧ (takeClaim c s).lp = s.lp ∧ (takeClaim c s).freeCount = s.freeCount ∧ (takeClaim c s).pending = s.pending := by
  simp only [takeClaim]; (repeat' split) <;> simp

/-- What `postEvent` leaves as it was. -/
@[simp] theorem postEvent_frame (e : Event) (s : State) :
    (postEvent e s).resetLow = s.resetLow ∧ (postEvent e s).sgm = s.sgm ∧ (postEvent e s).ge = s.ge ∧ (postEvent e s).sru = s.sru ∧ (postEvent e s).te = s.te ∧ (postEvent e s).pt = s.pt ∧ (postEvent e s).re = s.re ∧ (postEvent e s).lc = s.lc ∧ (postEvent e s).stc = s.stc ∧ (postEvent e s).lp.cycle = s.lp.cycle ∧ (postEvent e s).lp.nextStrobe = s.lp.nextStrobe ∧ (postEvent e s).lp.latch = s.lp.latch ∧ (postEvent e s).lp.stagedLow = s.lp.stagedLow ∧ (postEvent e s).lp.buffers = s.lp.buffers ∧ (postEvent e s).lp.completions = s.lp.completions ∧ (postEvent e s).lp.snapshot = s.lp.snapshot ∧ (postEvent e s).lp.window = s.lp.window ∧ (postEvent e s).lp.postResult = s.lp.postResult ∧ (postEvent e s).freeCount = s.freeCount ∧ (postEvent e s).pending = s.pending := by
  simp only [postEvent]; (repeat' split) <;> simp

/-- What `setSruWork` leaves as it was. -/
@[simp] theorem setSruWork_frame (w : List SruWork) (s : State) :
    (setSruWork w s).resetLow = s.resetLow ∧ (setSruWork w s).sgm.words = s.sgm.words ∧ (setSruWork w s).sgm.clearing = s.sgm.clearing ∧ (setSruWork w s).ge = s.ge ∧ (setSruWork w s).sru.slots = s.sru.slots ∧ (setSruWork w s).sru.announced = s.sru.announced ∧ (setSruWork w s).sru.startOfLeaving = s.sru.startOfLeaving ∧ (setSruWork w s).te = s.te ∧ (setSruWork w s).pt = s.pt ∧ (setSruWork w s).re = s.re ∧ (setSruWork w s).lc = s.lc ∧ (setSruWork w s).stc = s.stc ∧ (setSruWork w s).lp = s.lp ∧ (setSruWork w s).freeCount = s.freeCount ∧ (setSruWork w s).pending = s.pending := by
  simp only [setSruWork]; (repeat' split) <;> simp

/-- What `freeSlot` leaves as it was. -/
@[simp] theorem freeSlot_frame (i : Fin 4) (s : State) :
    (freeSlot i s).resetLow = s.resetLow ∧ (freeSlot i s).sgm.words = s.sgm.words ∧ (freeSlot i s).sgm.clearing = s.sgm.clearing ∧ (freeSlot i s).ge = s.ge ∧ (freeSlot i s).sru.announced = s.sru.announced ∧ (freeSlot i s).sru.startOfLeaving = s.sru.startOfLeaving ∧ (freeSlot i s).te = s.te ∧ (freeSlot i s).pt = s.pt ∧ (freeSlot i s).re = s.re ∧ (freeSlot i s).lc = s.lc ∧ (freeSlot i s).stc = s.stc ∧ (freeSlot i s).lp = s.lp ∧ (freeSlot i s).freeCount = s.freeCount ∧ (freeSlot i s).pending = s.pending := by
  simp only [freeSlot]; (repeat' split) <;> simp

/-- What `freeSlotOf` leaves as it was. -/
@[simp] theorem freeSlotOf_frame (p : Station) (s : State) :
    (freeSlotOf p s).resetLow = s.resetLow ∧ (freeSlotOf p s).sgm.words = s.sgm.words ∧ (freeSlotOf p s).sgm.clearing = s.sgm.clearing ∧ (freeSlotOf p s).ge = s.ge ∧ (freeSlotOf p s).sru.announced = s.sru.announced ∧ (freeSlotOf p s).sru.startOfLeaving = s.sru.startOfLeaving ∧ (freeSlotOf p s).te = s.te ∧ (freeSlotOf p s).pt = s.pt ∧ (freeSlotOf p s).re = s.re ∧ (freeSlotOf p s).lc = s.lc ∧ (freeSlotOf p s).stc = s.stc ∧ (freeSlotOf p s).lp = s.lp ∧ (freeSlotOf p s).freeCount = s.freeCount ∧ (freeSlotOf p s).pending = s.pending := by
  simp only [freeSlotOf]; (repeat' split) <;> simp

/-- What `reportStores` leaves as it was. -/
@[simp] theorem reportStores_frame (addrs : List Nat) (s : State) :
    (reportStores addrs s).resetLow = s.resetLow ∧ (reportStores addrs s).sgm = s.sgm ∧ (reportStores addrs s).ge = s.ge ∧ (reportStores addrs s).sru.work = s.sru.work ∧ (reportStores addrs s).sru.announced = s.sru.announced ∧ (reportStores addrs s).sru.startOfLeaving = s.sru.startOfLeaving ∧ (reportStores addrs s).te = s.te ∧ (reportStores addrs s).pt = s.pt ∧ (reportStores addrs s).re = s.re ∧ (reportStores addrs s).lc = s.lc ∧ (reportStores addrs s).stc = s.stc ∧ (reportStores addrs s).lp = s.lp ∧ (reportStores addrs s).freeCount = s.freeCount ∧ (reportStores addrs s).pending = s.pending := by
  simp only [reportStores]; (repeat' split) <;> simp

/-- What `releaseNotice` leaves as it was. -/
@[simp] theorem releaseNotice_frame (s : State) :
    (releaseNotice s).resetLow = s.resetLow ∧ (releaseNotice s).sgm.words = s.sgm.words ∧ (releaseNotice s).sgm.clearing = s.sgm.clearing ∧ (releaseNotice s).ge = s.ge ∧ (releaseNotice s).sru.announced = s.sru.announced ∧ (releaseNotice s).sru.startOfLeaving = s.sru.startOfLeaving ∧ (releaseNotice s).te = s.te ∧ (releaseNotice s).pt = s.pt ∧ (releaseNotice s).re = s.re ∧ (releaseNotice s).lc = s.lc ∧ (releaseNotice s).stc = s.stc ∧ (releaseNotice s).lp = s.lp ∧ (releaseNotice s).freeCount = s.freeCount ∧ (releaseNotice s).pending = s.pending := by
  simp only [releaseNotice]; (repeat' split) <;> simp

/-- What `updatePeer` leaves as it was. -/
@[simp] theorem updatePeer_frame (p : Station) (f : Peer → Peer) (s : State) :
    (updatePeer p f s).resetLow = s.resetLow ∧ (updatePeer p f s).sgm = s.sgm ∧ (updatePeer p f s).ge = s.ge ∧ (updatePeer p f s).sru = s.sru ∧ (updatePeer p f s).te = s.te ∧ (updatePeer p f s).re = s.re ∧ (updatePeer p f s).lc = s.lc ∧ (updatePeer p f s).stc = s.stc ∧ (updatePeer p f s).lp = s.lp ∧ (updatePeer p f s).freeCount = s.freeCount ∧ (updatePeer p f s).pending = s.pending := by
  simp only [updatePeer]; (repeat' split) <;> simp

/-- What `queueResponse` leaves as it was. -/
@[simp] theorem queueResponse_frame (p : Station) (q : Byte) (r : Reply) (s : State) :
    (queueResponse p q r s).resetLow = s.resetLow ∧ (queueResponse p q r s).sgm = s.sgm ∧ (queueResponse p q r s).ge = s.ge ∧ (queueResponse p q r s).sru = s.sru ∧ (queueResponse p q r s).te.input = s.te.input ∧ (queueResponse p q r s).te.hand = s.te.hand ∧ (queueResponse p q r s).te.closed = s.te.closed ∧ (queueResponse p q r s).te.restarted = s.te.restarted ∧ (queueResponse p q r s).pt = s.pt ∧ (queueResponse p q r s).re = s.re ∧ (queueResponse p q r s).lc = s.lc ∧ (queueResponse p q r s).stc = s.stc ∧ (queueResponse p q r s).lp = s.lp ∧ (queueResponse p q r s).freeCount = s.freeCount ∧ (queueResponse p q r s).pending = s.pending := by
  simp only [queueResponse]; (repeat' split) <;> simp

/-- What `answer` leaves as it was. -/
@[simp] theorem answer_frame (p : Station) (q : Byte) (k : BitVec 4) (r : Reply) (s : State) :
    (answer p q k r s).resetLow = s.resetLow ∧ (answer p q k r s).sgm = s.sgm ∧ (answer p q k r s).ge = s.ge ∧ (answer p q k r s).sru = s.sru ∧ (answer p q k r s).te.input = s.te.input ∧ (answer p q k r s).te.hand = s.te.hand ∧ (answer p q k r s).te.closed = s.te.closed ∧ (answer p q k r s).te.restarted = s.te.restarted ∧ (answer p q k r s).re = s.re ∧ (answer p q k r s).lc = s.lc ∧ (answer p q k r s).stc = s.stc ∧ (answer p q k r s).lp = s.lp ∧ (answer p q k r s).freeCount = s.freeCount ∧ (answer p q k r s).pending = s.pending := by
  simp only [answer]; (repeat' split) <;> simp

/-- What `finishHand` leaves as it was. -/
@[simp] theorem finishHand_frame (r : Option Reply) (s : State) :
    (finishHand r s).resetLow = s.resetLow ∧ (finishHand r s).sgm = s.sgm ∧ (finishHand r s).ge = s.ge ∧ (finishHand r s).sru = s.sru ∧ (finishHand r s).te.input = s.te.input ∧ (finishHand r s).te.closed = s.te.closed ∧ (finishHand r s).te.restarted = s.te.restarted ∧ (finishHand r s).re = s.re ∧ (finishHand r s).lc = s.lc ∧ (finishHand r s).stc = s.stc ∧ (finishHand r s).lp = s.lp ∧ (finishHand r s).freeCount = s.freeCount ∧ (finishHand r s).pending = s.pending := by
  simp only [finishHand]; (repeat' split) <;> simp

/-- What `withdrawOffer` leaves as it was. -/
@[simp] theorem withdrawOffer_frame (o : Offer) (s : State) :
    (withdrawOffer o s).resetLow = s.resetLow ∧ (withdrawOffer o s).sgm = s.sgm ∧ (withdrawOffer o s).ge = s.ge ∧ (withdrawOffer o s).sru = s.sru ∧ (withdrawOffer o s).te = s.te ∧ (withdrawOffer o s).pt = s.pt ∧ (withdrawOffer o s).re = s.re ∧ (withdrawOffer o s).lc.view = s.lc.view ∧ (withdrawOffer o s).lc.last0 = s.lc.last0 ∧ (withdrawOffer o s).lc.last1 = s.lc.last1 ∧ (withdrawOffer o s).lc.receive = s.lc.receive ∧ (withdrawOffer o s).stc = s.stc ∧ (withdrawOffer o s).lp = s.lp ∧ (withdrawOffer o s).freeCount = s.freeCount ∧ (withdrawOffer o s).pending = s.pending := by
  simp only [withdrawOffer]; (repeat' split) <;> simp

/-- What `reselect` leaves as it was. -/
@[simp] theorem reselect_frame (s : State) :
    (reselect s).resetLow = s.resetLow ∧ (reselect s).sgm = s.sgm ∧ (reselect s).ge = s.ge ∧ (reselect s).sru = s.sru ∧ (reselect s).te = s.te ∧ (reselect s).pt = s.pt ∧ (reselect s).re = s.re ∧ (reselect s).lc.view = s.lc.view ∧ (reselect s).lc.last0 = s.lc.last0 ∧ (reselect s).lc.last1 = s.lc.last1 ∧ (reselect s).lc.receive = s.lc.receive ∧ (reselect s).stc = s.stc ∧ (reselect s).lp = s.lp ∧ (reselect s).freeCount = s.freeCount ∧ (reselect s).pending = s.pending := by
  simp only [reselect]; (repeat' split) <;> simp

/-- What `putEntry` leaves as it was. -/
@[simp] theorem putEntry_frame (e : Fin 8) (x : Option Entry) (s : State) :
    (putEntry e x s).resetLow = s.resetLow ∧ (putEntry e x s).sgm = s.sgm ∧ (putEntry e x s).ge = s.ge ∧ (putEntry e x s).sru = s.sru ∧ (putEntry e x s).te = s.te ∧ (putEntry e x s).pt = s.pt ∧ (putEntry e x s).re.queue = s.re.queue ∧ (putEntry e x s).re.ready = s.re.ready ∧ (putEntry e x s).re.completing = s.re.completing ∧ (putEntry e x s).re.stalled = s.re.stalled ∧ (putEntry e x s).re.announced = s.re.announced ∧ (putEntry e x s).re.startOfLeaving = s.re.startOfLeaving ∧ (putEntry e x s).lc = s.lc ∧ (putEntry e x s).stc = s.stc ∧ (putEntry e x s).lp = s.lp ∧ (putEntry e x s).freeCount = s.freeCount ∧ (putEntry e x s).pending = s.pending := by
  simp only [putEntry]; (repeat' split) <;> simp

/-- What `writeBuffer` leaves as it was. -/
@[simp] theorem writeBuffer_frame (d : Descriptor) (ws : List Word) (s : State) :
    (writeBuffer d ws s).resetLow = s.resetLow ∧ (writeBuffer d ws s).sgm = s.sgm ∧ (writeBuffer d ws s).ge = s.ge ∧ (writeBuffer d ws s).sru = s.sru ∧ (writeBuffer d ws s).te = s.te ∧ (writeBuffer d ws s).pt = s.pt ∧ (writeBuffer d ws s).re = s.re ∧ (writeBuffer d ws s).lc = s.lc ∧ (writeBuffer d ws s).stc = s.stc ∧ (writeBuffer d ws s).lp.cycle = s.lp.cycle ∧ (writeBuffer d ws s).lp.nextStrobe = s.lp.nextStrobe ∧ (writeBuffer d ws s).lp.latch = s.lp.latch ∧ (writeBuffer d ws s).lp.stagedLow = s.lp.stagedLow ∧ (writeBuffer d ws s).lp.completions = s.lp.completions ∧ (writeBuffer d ws s).lp.events = s.lp.events ∧ (writeBuffer d ws s).lp.eventsLost = s.lp.eventsLost ∧ (writeBuffer d ws s).lp.snapshot = s.lp.snapshot ∧ (writeBuffer d ws s).lp.window = s.lp.window ∧ (writeBuffer d ws s).lp.postResult = s.lp.postResult ∧ (writeBuffer d ws s).freeCount = s.freeCount ∧ (writeBuffer d ws s).pending = s.pending := by
  simp only [writeBuffer]; (repeat' split) <;> simp

/-- What `postCompletion` leaves as it was. -/
@[simp] theorem postCompletion_frame (c : Completion) (s : State) :
    (postCompletion c s).resetLow = s.resetLow ∧ (postCompletion c s).sgm = s.sgm ∧ (postCompletion c s).ge = s.ge ∧ (postCompletion c s).sru = s.sru ∧ (postCompletion c s).te = s.te ∧ (postCompletion c s).pt = s.pt ∧ (postCompletion c s).re = s.re ∧ (postCompletion c s).lc = s.lc ∧ (postCompletion c s).stc = s.stc ∧ (postCompletion c s).lp.cycle = s.lp.cycle ∧ (postCompletion c s).lp.nextStrobe = s.lp.nextStrobe ∧ (postCompletion c s).lp.latch = s.lp.latch ∧ (postCompletion c s).lp.stagedLow = s.lp.stagedLow ∧ (postCompletion c s).lp.buffers = s.lp.buffers ∧ (postCompletion c s).lp.events = s.lp.events ∧ (postCompletion c s).lp.eventsLost = s.lp.eventsLost ∧ (postCompletion c s).lp.snapshot = s.lp.snapshot ∧ (postCompletion c s).lp.window = s.lp.window ∧ (postCompletion c s).lp.postResult = s.lp.postResult ∧ (postCompletion c s).freeCount = s.freeCount ∧ (postCompletion c s).pending = s.pending := by
  simp only [postCompletion]; (repeat' split) <;> simp

/-- What `dequeue` leaves as it was. -/
@[simp] theorem dequeue_frame (q : Queued) (s : State) :
    (dequeue q s).resetLow = s.resetLow ∧ (dequeue q s).sgm = s.sgm ∧ (dequeue q s).ge = s.ge ∧ (dequeue q s).sru = s.sru ∧ (dequeue q s).te = s.te ∧ (dequeue q s).pt = s.pt ∧ (dequeue q s).re.table = s.re.table ∧ (dequeue q s).re.ready = s.re.ready ∧ (dequeue q s).re.completing = s.re.completing ∧ (dequeue q s).re.stalled = s.re.stalled ∧ (dequeue q s).re.announced = s.re.announced ∧ (dequeue q s).re.startOfLeaving = s.re.startOfLeaving ∧ (dequeue q s).lc = s.lc ∧ (dequeue q s).stc = s.stc ∧ (dequeue q s).lp = s.lp ∧ (dequeue q s).freeCount = s.freeCount ∧ (dequeue q s).pending = s.pending := by
  simp only [dequeue]; (repeat' split) <;> simp

/-- What `retire` leaves as it was. -/
@[simp] theorem retire_frame (q : Queued) (st : Status) (dt : Detail) (s : State) :
    (retire q st dt s).resetLow = s.resetLow ∧ (retire q st dt s).sgm = s.sgm ∧ (retire q st dt s).ge = s.ge ∧ (retire q st dt s).sru = s.sru ∧ (retire q st dt s).te = s.te ∧ (retire q st dt s).pt = s.pt ∧ (retire q st dt s).re.table = s.re.table ∧ (retire q st dt s).re.ready = s.re.ready ∧ (retire q st dt s).re.completing = s.re.completing ∧ (retire q st dt s).re.stalled = s.re.stalled ∧ (retire q st dt s).re.announced = s.re.announced ∧ (retire q st dt s).re.startOfLeaving = s.re.startOfLeaving ∧ (retire q st dt s).lc = s.lc ∧ (retire q st dt s).stc = s.stc ∧ (retire q st dt s).lp.cycle = s.lp.cycle ∧ (retire q st dt s).lp.nextStrobe = s.lp.nextStrobe ∧ (retire q st dt s).lp.latch = s.lp.latch ∧ (retire q st dt s).lp.stagedLow = s.lp.stagedLow ∧ (retire q st dt s).lp.buffers = s.lp.buffers ∧ (retire q st dt s).lp.events = s.lp.events ∧ (retire q st dt s).lp.eventsLost = s.lp.eventsLost ∧ (retire q st dt s).lp.snapshot = s.lp.snapshot ∧ (retire q st dt s).lp.window = s.lp.window ∧ (retire q st dt s).lp.postResult = s.lp.postResult ∧ (retire q st dt s).freeCount = s.freeCount ∧ (retire q st dt s).pending = s.pending := by
  simp only [retire]; (repeat' split) <;> simp

/-- What `makeReady` leaves as it was. -/
@[simp] theorem makeReady_frame (e : Fin 8) (s : State) :
    (makeReady e s).resetLow = s.resetLow ∧ (makeReady e s).sgm = s.sgm ∧ (makeReady e s).ge = s.ge ∧ (makeReady e s).sru = s.sru ∧ (makeReady e s).te = s.te ∧ (makeReady e s).pt = s.pt ∧ (makeReady e s).re.queue = s.re.queue ∧ (makeReady e s).re.table = s.re.table ∧ (makeReady e s).re.completing = s.re.completing ∧ (makeReady e s).re.stalled = s.re.stalled ∧ (makeReady e s).re.announced = s.re.announced ∧ (makeReady e s).re.startOfLeaving = s.re.startOfLeaving ∧ (makeReady e s).lc = s.lc ∧ (makeReady e s).stc = s.stc ∧ (makeReady e s).lp = s.lp ∧ (makeReady e s).freeCount = s.freeCount ∧ (makeReady e s).pending = s.pending := by
  simp only [makeReady]; (repeat' split) <;> simp

/-- What `admitEntry` leaves as it was. -/
@[simp] theorem admit_frame (e : Fin 8) (q : Queued) (s : State) :
    (admitEntry e q s).resetLow = s.resetLow ∧ (admitEntry e q s).sgm = s.sgm ∧ (admitEntry e q s).ge = s.ge ∧ (admitEntry e q s).sru = s.sru ∧ (admitEntry e q s).te = s.te ∧ (admitEntry e q s).re.completing = s.re.completing ∧ (admitEntry e q s).re.stalled = s.re.stalled ∧ (admitEntry e q s).re.announced = s.re.announced ∧ (admitEntry e q s).re.startOfLeaving = s.re.startOfLeaving ∧ (admitEntry e q s).lc = s.lc ∧ (admitEntry e q s).stc = s.stc ∧ (admitEntry e q s).lp = s.lp ∧ (admitEntry e q s).freeCount = s.freeCount ∧ (admitEntry e q s).pending = s.pending := by
  simp only [admitEntry]; (repeat' split) <;> simp

/-- What `stall` leaves as it was. -/
@[simp] theorem stall_frame (s : State) :
    (stall s).resetLow = s.resetLow ∧ (stall s).sgm = s.sgm ∧ (stall s).ge = s.ge ∧ (stall s).sru = s.sru ∧ (stall s).te = s.te ∧ (stall s).pt = s.pt ∧ (stall s).re.queue = s.re.queue ∧ (stall s).re.table = s.re.table ∧ (stall s).re.ready = s.re.ready ∧ (stall s).re.completing = s.re.completing ∧ (stall s).re.announced = s.re.announced ∧ (stall s).re.startOfLeaving = s.re.startOfLeaving ∧ (stall s).lc = s.lc ∧ (stall s).stc = s.stc ∧ (stall s).lp = s.lp ∧ (stall s).freeCount = s.freeCount ∧ (stall s).pending = s.pending := by
  simp only [stall]; (repeat' split) <;> simp

/-- What `attemptAdmission` leaves as it was. -/
@[simp] theorem attemptAdmission_frame (n : Nat) (s : State) :
    (attemptAdmission n s).resetLow = s.resetLow ∧ (attemptAdmission n s).sgm = s.sgm ∧ (attemptAdmission n s).ge = s.ge ∧ (attemptAdmission n s).sru = s.sru ∧ (attemptAdmission n s).te = s.te ∧ (attemptAdmission n s).re.completing = s.re.completing ∧ (attemptAdmission n s).re.announced = s.re.announced ∧ (attemptAdmission n s).re.startOfLeaving = s.re.startOfLeaving ∧ (attemptAdmission n s).lc = s.lc ∧ (attemptAdmission n s).stc = s.stc ∧ (attemptAdmission n s).lp.cycle = s.lp.cycle ∧ (attemptAdmission n s).lp.nextStrobe = s.lp.nextStrobe ∧ (attemptAdmission n s).lp.latch = s.lp.latch ∧ (attemptAdmission n s).lp.stagedLow = s.lp.stagedLow ∧ (attemptAdmission n s).lp.buffers = s.lp.buffers ∧ (attemptAdmission n s).lp.events = s.lp.events ∧ (attemptAdmission n s).lp.eventsLost = s.lp.eventsLost ∧ (attemptAdmission n s).lp.snapshot = s.lp.snapshot ∧ (attemptAdmission n s).lp.window = s.lp.window ∧ (attemptAdmission n s).lp.postResult = s.lp.postResult ∧ (attemptAdmission n s).freeCount = s.freeCount ∧ (attemptAdmission n s).pending = s.pending := by
  induction n generalizing s with
  | zero => simp [attemptAdmission]
  | succ n ih => (simp only [attemptAdmission]; (repeat' split) <;> simp [ih])

/-- What `admission` leaves as it was. -/
@[simp] theorem admission_frame (s : State) :
    (admission s).resetLow = s.resetLow ∧ (admission s).sgm = s.sgm ∧ (admission s).ge = s.ge ∧ (admission s).sru = s.sru ∧ (admission s).te = s.te ∧ (admission s).re.completing = s.re.completing ∧ (admission s).re.announced = s.re.announced ∧ (admission s).re.startOfLeaving = s.re.startOfLeaving ∧ (admission s).lc = s.lc ∧ (admission s).stc = s.stc ∧ (admission s).lp.cycle = s.lp.cycle ∧ (admission s).lp.nextStrobe = s.lp.nextStrobe ∧ (admission s).lp.latch = s.lp.latch ∧ (admission s).lp.stagedLow = s.lp.stagedLow ∧ (admission s).lp.buffers = s.lp.buffers ∧ (admission s).lp.events = s.lp.events ∧ (admission s).lp.eventsLost = s.lp.eventsLost ∧ (admission s).lp.snapshot = s.lp.snapshot ∧ (admission s).lp.window = s.lp.window ∧ (admission s).lp.postResult = s.lp.postResult ∧ (admission s).freeCount = s.freeCount ∧ (admission s).pending = s.pending := attemptAdmission_frame _ s

/-- What `retractEntry` leaves as it was. -/
@[simp] theorem retractEntry_frame (e : Fin 8) (s : State) :
    (retractEntry e s).resetLow = s.resetLow ∧ (retractEntry e s).sgm = s.sgm ∧ (retractEntry e s).ge = s.ge ∧ (retractEntry e s).sru = s.sru ∧ (retractEntry e s).te = s.te ∧ (retractEntry e s).pt = s.pt ∧ (retractEntry e s).re.queue = s.re.queue ∧ (retractEntry e s).re.table = s.re.table ∧ (retractEntry e s).re.completing = s.re.completing ∧ (retractEntry e s).re.stalled = s.re.stalled ∧ (retractEntry e s).re.announced = s.re.announced ∧ (retractEntry e s).re.startOfLeaving = s.re.startOfLeaving ∧ (retractEntry e s).lc.view = s.lc.view ∧ (retractEntry e s).lc.last0 = s.lc.last0 ∧ (retractEntry e s).lc.last1 = s.lc.last1 ∧ (retractEntry e s).lc.receive = s.lc.receive ∧ (retractEntry e s).stc = s.stc ∧ (retractEntry e s).lp = s.lp ∧ (retractEntry e s).freeCount = s.freeCount ∧ (retractEntry e s).pending = s.pending := by
  simp only [retractEntry]; (repeat' split) <;> simp

/-- What `finishEntry` leaves as it was. -/
@[simp] theorem finishEntry_frame (e : Fin 8) (st : Status) (dt : Detail) (n : Nat) (s : State) :
    (finishEntry e st dt n s).resetLow = s.resetLow ∧ (finishEntry e st dt n s).sgm = s.sgm ∧ (finishEntry e st dt n s).ge = s.ge ∧ (finishEntry e st dt n s).sru = s.sru ∧ (finishEntry e st dt n s).te = s.te ∧ (finishEntry e st dt n s).re.announced = s.re.announced ∧ (finishEntry e st dt n s).re.startOfLeaving = s.re.startOfLeaving ∧ (finishEntry e st dt n s).lc.view = s.lc.view ∧ (finishEntry e st dt n s).lc.last0 = s.lc.last0 ∧ (finishEntry e st dt n s).lc.last1 = s.lc.last1 ∧ (finishEntry e st dt n s).lc.receive = s.lc.receive ∧ (finishEntry e st dt n s).stc = s.stc ∧ (finishEntry e st dt n s).lp.cycle = s.lp.cycle ∧ (finishEntry e st dt n s).lp.nextStrobe = s.lp.nextStrobe ∧ (finishEntry e st dt n s).lp.latch = s.lp.latch ∧ (finishEntry e st dt n s).lp.stagedLow = s.lp.stagedLow ∧ (finishEntry e st dt n s).lp.buffers = s.lp.buffers ∧ (finishEntry e st dt n s).lp.events = s.lp.events ∧ (finishEntry e st dt n s).lp.eventsLost = s.lp.eventsLost ∧ (finishEntry e st dt n s).lp.snapshot = s.lp.snapshot ∧ (finishEntry e st dt n s).lp.window = s.lp.window ∧ (finishEntry e st dt n s).lp.postResult = s.lp.postResult ∧ (finishEntry e st dt n s).freeCount = s.freeCount ∧ (finishEntry e st dt n s).pending = s.pending := by
  simp only [finishEntry]; (repeat' split) <;> simp

/-- What `postWaiting` leaves as it was. -/
@[simp] theorem postWaiting_frame (n : Nat) (s : State) :
    (postWaiting n s).resetLow = s.resetLow ∧ (postWaiting n s).sgm = s.sgm ∧ (postWaiting n s).ge = s.ge ∧ (postWaiting n s).sru = s.sru ∧ (postWaiting n s).te = s.te ∧ (postWaiting n s).pt = s.pt ∧ (postWaiting n s).re.queue = s.re.queue ∧ (postWaiting n s).re.ready = s.re.ready ∧ (postWaiting n s).re.stalled = s.re.stalled ∧ (postWaiting n s).re.announced = s.re.announced ∧ (postWaiting n s).re.startOfLeaving = s.re.startOfLeaving ∧ (postWaiting n s).lc = s.lc ∧ (postWaiting n s).stc = s.stc ∧ (postWaiting n s).lp.cycle = s.lp.cycle ∧ (postWaiting n s).lp.nextStrobe = s.lp.nextStrobe ∧ (postWaiting n s).lp.latch = s.lp.latch ∧ (postWaiting n s).lp.stagedLow = s.lp.stagedLow ∧ (postWaiting n s).lp.buffers = s.lp.buffers ∧ (postWaiting n s).lp.events = s.lp.events ∧ (postWaiting n s).lp.eventsLost = s.lp.eventsLost ∧ (postWaiting n s).lp.snapshot = s.lp.snapshot ∧ (postWaiting n s).lp.window = s.lp.window ∧ (postWaiting n s).lp.postResult = s.lp.postResult ∧ (postWaiting n s).freeCount = s.freeCount ∧ (postWaiting n s).pending = s.pending := by
  induction n generalizing s with
  | zero => simp [postWaiting]
  | succ n ih => (simp only [postWaiting]; (repeat' split) <;> simp [ih])

/-- What `retireCancelled` leaves as it was. -/
@[simp] theorem retireCancelled_frame (n : Nat) (s : State) :
    (retireCancelled n s).resetLow = s.resetLow ∧ (retireCancelled n s).sgm = s.sgm ∧ (retireCancelled n s).ge = s.ge ∧ (retireCancelled n s).sru = s.sru ∧ (retireCancelled n s).te = s.te ∧ (retireCancelled n s).pt = s.pt ∧ (retireCancelled n s).re.table = s.re.table ∧ (retireCancelled n s).re.ready = s.re.ready ∧ (retireCancelled n s).re.completing = s.re.completing ∧ (retireCancelled n s).re.stalled = s.re.stalled ∧ (retireCancelled n s).re.announced = s.re.announced ∧ (retireCancelled n s).re.startOfLeaving = s.re.startOfLeaving ∧ (retireCancelled n s).lc = s.lc ∧ (retireCancelled n s).stc = s.stc ∧ (retireCancelled n s).lp.cycle = s.lp.cycle ∧ (retireCancelled n s).lp.nextStrobe = s.lp.nextStrobe ∧ (retireCancelled n s).lp.latch = s.lp.latch ∧ (retireCancelled n s).lp.stagedLow = s.lp.stagedLow ∧ (retireCancelled n s).lp.buffers = s.lp.buffers ∧ (retireCancelled n s).lp.events = s.lp.events ∧ (retireCancelled n s).lp.eventsLost = s.lp.eventsLost ∧ (retireCancelled n s).lp.snapshot = s.lp.snapshot ∧ (retireCancelled n s).lp.window = s.lp.window ∧ (retireCancelled n s).lp.postResult = s.lp.postResult ∧ (retireCancelled n s).freeCount = s.freeCount ∧ (retireCancelled n s).pending = s.pending := by
  induction n generalizing s with
  | zero => simp [retireCancelled]
  | succ n ih => (simp only [retireCancelled]; (repeat' split) <;> simp [ih])

/-- What `completionSpaceGained` leaves as it was. -/
@[simp] theorem completionSpaceGained_frame (s : State) :
    (completionSpaceGained s).resetLow = s.resetLow ∧ (completionSpaceGained s).sgm = s.sgm ∧ (completionSpaceGained s).ge = s.ge ∧ (completionSpaceGained s).sru = s.sru ∧ (completionSpaceGained s).te = s.te ∧ (completionSpaceGained s).re.announced = s.re.announced ∧ (completionSpaceGained s).re.startOfLeaving = s.re.startOfLeaving ∧ (completionSpaceGained s).lc = s.lc ∧ (completionSpaceGained s).stc = s.stc ∧ (completionSpaceGained s).lp.cycle = s.lp.cycle ∧ (completionSpaceGained s).lp.nextStrobe = s.lp.nextStrobe ∧ (completionSpaceGained s).lp.latch = s.lp.latch ∧ (completionSpaceGained s).lp.stagedLow = s.lp.stagedLow ∧ (completionSpaceGained s).lp.buffers = s.lp.buffers ∧ (completionSpaceGained s).lp.events = s.lp.events ∧ (completionSpaceGained s).lp.eventsLost = s.lp.eventsLost ∧ (completionSpaceGained s).lp.snapshot = s.lp.snapshot ∧ (completionSpaceGained s).lp.window = s.lp.window ∧ (completionSpaceGained s).lp.postResult = s.lp.postResult ∧ (completionSpaceGained s).freeCount = s.freeCount ∧ (completionSpaceGained s).pending = s.pending := by
  simp only [completionSpaceGained]; (repeat' split) <;> simp

/-- What `setPostResult` leaves as it was. -/
@[simp] theorem setPostResult_frame (r : PostResult) (s : State) :
    (setPostResult r s).resetLow = s.resetLow ∧ (setPostResult r s).sgm = s.sgm ∧ (setPostResult r s).ge = s.ge ∧ (setPostResult r s).sru = s.sru ∧ (setPostResult r s).te = s.te ∧ (setPostResult r s).pt = s.pt ∧ (setPostResult r s).re = s.re ∧ (setPostResult r s).lc = s.lc ∧ (setPostResult r s).stc = s.stc ∧ (setPostResult r s).lp.cycle = s.lp.cycle ∧ (setPostResult r s).lp.nextStrobe = s.lp.nextStrobe ∧ (setPostResult r s).lp.latch = s.lp.latch ∧ (setPostResult r s).lp.stagedLow = s.lp.stagedLow ∧ (setPostResult r s).lp.buffers = s.lp.buffers ∧ (setPostResult r s).lp.completions = s.lp.completions ∧ (setPostResult r s).lp.events = s.lp.events ∧ (setPostResult r s).lp.eventsLost = s.lp.eventsLost ∧ (setPostResult r s).lp.snapshot = s.lp.snapshot ∧ (setPostResult r s).lp.window = s.lp.window ∧ (setPostResult r s).freeCount = s.freeCount ∧ (setPostResult r s).pending = s.pending := by
  simp only [setPostResult]; (repeat' split) <;> simp

/-- What `enqueue` leaves as it was. -/
@[simp] theorem enqueue_frame (d : Descriptor) (s : State) :
    (enqueue d s).resetLow = s.resetLow ∧ (enqueue d s).sgm = s.sgm ∧ (enqueue d s).ge = s.ge ∧ (enqueue d s).sru = s.sru ∧ (enqueue d s).te = s.te ∧ (enqueue d s).pt = s.pt ∧ (enqueue d s).re.table = s.re.table ∧ (enqueue d s).re.ready = s.re.ready ∧ (enqueue d s).re.completing = s.re.completing ∧ (enqueue d s).re.stalled = s.re.stalled ∧ (enqueue d s).re.announced = s.re.announced ∧ (enqueue d s).re.startOfLeaving = s.re.startOfLeaving ∧ (enqueue d s).lc = s.lc ∧ (enqueue d s).stc = s.stc ∧ (enqueue d s).lp = s.lp ∧ (enqueue d s).freeCount = s.freeCount ∧ (enqueue d s).pending = s.pending := by
  simp only [enqueue]; (repeat' split) <;> simp

/-- What `postWindow` leaves as it was. -/
@[simp] theorem postWindow_frame (s : State) :
    (postWindow s).resetLow = s.resetLow ∧ (postWindow s).sgm = s.sgm ∧ (postWindow s).ge = s.ge ∧ (postWindow s).sru = s.sru ∧ (postWindow s).te = s.te ∧ (postWindow s).re.completing = s.re.completing ∧ (postWindow s).re.announced = s.re.announced ∧ (postWindow s).re.startOfLeaving = s.re.startOfLeaving ∧ (postWindow s).lc = s.lc ∧ (postWindow s).stc = s.stc ∧ (postWindow s).lp.cycle = s.lp.cycle ∧ (postWindow s).lp.nextStrobe = s.lp.nextStrobe ∧ (postWindow s).lp.latch = s.lp.latch ∧ (postWindow s).lp.stagedLow = s.lp.stagedLow ∧ (postWindow s).lp.buffers = s.lp.buffers ∧ (postWindow s).lp.events = s.lp.events ∧ (postWindow s).lp.eventsLost = s.lp.eventsLost ∧ (postWindow s).lp.snapshot = s.lp.snapshot ∧ (postWindow s).lp.window = s.lp.window ∧ (postWindow s).freeCount = s.freeCount ∧ (postWindow s).pending = s.pending := by
  simp only [postWindow]; (repeat' split) <;> simp

/-- What `updateEntry` leaves as it was. -/
@[simp] theorem updateEntry_frame (e : Fin 8) (f : Entry → Entry) (s : State) :
    (updateEntry e f s).resetLow = s.resetLow ∧ (updateEntry e f s).sgm = s.sgm ∧ (updateEntry e f s).ge = s.ge ∧ (updateEntry e f s).sru = s.sru ∧ (updateEntry e f s).te = s.te ∧ (updateEntry e f s).pt = s.pt ∧ (updateEntry e f s).re.queue = s.re.queue ∧ (updateEntry e f s).re.ready = s.re.ready ∧ (updateEntry e f s).re.completing = s.re.completing ∧ (updateEntry e f s).re.stalled = s.re.stalled ∧ (updateEntry e f s).re.announced = s.re.announced ∧ (updateEntry e f s).re.startOfLeaving = s.re.startOfLeaving ∧ (updateEntry e f s).lc = s.lc ∧ (updateEntry e f s).stc = s.stc ∧ (updateEntry e f s).lp = s.lp ∧ (updateEntry e f s).freeCount = s.freeCount ∧ (updateEntry e f s).pending = s.pending := by
  simp only [updateEntry]; (repeat' split) <;> simp

/-- What `leaveReady` leaves as it was. -/
@[simp] theorem leaveReady_frame (e : Fin 8) (s : State) :
    (leaveReady e s).resetLow = s.resetLow ∧ (leaveReady e s).sgm = s.sgm ∧ (leaveReady e s).ge = s.ge ∧ (leaveReady e s).sru = s.sru ∧ (leaveReady e s).te = s.te ∧ (leaveReady e s).pt = s.pt ∧ (leaveReady e s).re.queue = s.re.queue ∧ (leaveReady e s).re.table = s.re.table ∧ (leaveReady e s).re.completing = s.re.completing ∧ (leaveReady e s).re.stalled = s.re.stalled ∧ (leaveReady e s).re.announced = s.re.announced ∧ (leaveReady e s).re.startOfLeaving = s.re.startOfLeaving ∧ (leaveReady e s).lc = s.lc ∧ (leaveReady e s).stc = s.stc ∧ (leaveReady e s).lp = s.lp ∧ (leaveReady e s).freeCount = s.freeCount ∧ (leaveReady e s).pending = s.pending := by
  simp only [leaveReady]; (repeat' split) <;> simp

/-- What `attemptLost` leaves as it was. -/
@[simp] theorem attemptLost_frame (e : Fin 8) (x : Entry) (s : State) :
    (attemptLost e x s).resetLow = s.resetLow ∧ (attemptLost e x s).sgm = s.sgm ∧ (attemptLost e x s).ge = s.ge ∧ (attemptLost e x s).sru = s.sru ∧ (attemptLost e x s).te = s.te ∧ (attemptLost e x s).re.announced = s.re.announced ∧ (attemptLost e x s).re.startOfLeaving = s.re.startOfLeaving ∧ (attemptLost e x s).lc.view = s.lc.view ∧ (attemptLost e x s).lc.last0 = s.lc.last0 ∧ (attemptLost e x s).lc.last1 = s.lc.last1 ∧ (attemptLost e x s).lc.receive = s.lc.receive ∧ (attemptLost e x s).stc = s.stc ∧ (attemptLost e x s).lp.cycle = s.lp.cycle ∧ (attemptLost e x s).lp.nextStrobe = s.lp.nextStrobe ∧ (attemptLost e x s).lp.latch = s.lp.latch ∧ (attemptLost e x s).lp.stagedLow = s.lp.stagedLow ∧ (attemptLost e x s).lp.buffers = s.lp.buffers ∧ (attemptLost e x s).lp.events = s.lp.events ∧ (attemptLost e x s).lp.eventsLost = s.lp.eventsLost ∧ (attemptLost e x s).lp.snapshot = s.lp.snapshot ∧ (attemptLost e x s).lp.window = s.lp.window ∧ (attemptLost e x s).lp.postResult = s.lp.postResult ∧ (attemptLost e x s).freeCount = s.freeCount ∧ (attemptLost e x s).pending = s.pending := by
  simp only [attemptLost]; (repeat' split) <;> simp

/-- What `copyUnanswered` leaves as it was. -/
@[simp] theorem copyUnanswered_frame (e : Fin 8) (x : Entry) (s : State) :
    (copyUnanswered e x s).resetLow = s.resetLow ∧ (copyUnanswered e x s).sgm = s.sgm ∧ (copyUnanswered e x s).ge = s.ge ∧ (copyUnanswered e x s).sru = s.sru ∧ (copyUnanswered e x s).te = s.te ∧ (copyUnanswered e x s).re.announced = s.re.announced ∧ (copyUnanswered e x s).re.startOfLeaving = s.re.startOfLeaving ∧ (copyUnanswered e x s).lc.view = s.lc.view ∧ (copyUnanswered e x s).lc.last0 = s.lc.last0 ∧ (copyUnanswered e x s).lc.last1 = s.lc.last1 ∧ (copyUnanswered e x s).lc.receive = s.lc.receive ∧ (copyUnanswered e x s).stc = s.stc ∧ (copyUnanswered e x s).lp.cycle = s.lp.cycle ∧ (copyUnanswered e x s).lp.nextStrobe = s.lp.nextStrobe ∧ (copyUnanswered e x s).lp.latch = s.lp.latch ∧ (copyUnanswered e x s).lp.stagedLow = s.lp.stagedLow ∧ (copyUnanswered e x s).lp.buffers = s.lp.buffers ∧ (copyUnanswered e x s).lp.events = s.lp.events ∧ (copyUnanswered e x s).lp.eventsLost = s.lp.eventsLost ∧ (copyUnanswered e x s).lp.snapshot = s.lp.snapshot ∧ (copyUnanswered e x s).lp.window = s.lp.window ∧ (copyUnanswered e x s).lp.postResult = s.lp.postResult ∧ (copyUnanswered e x s).freeCount = s.freeCount ∧ (copyUnanswered e x s).pending = s.pending := by
  simp only [copyUnanswered]; (repeat' split) <;> simp

/-- What `copySent` leaves as it was. -/
@[simp] theorem copySent_frame (e : Fin 8) (s : State) :
    (copySent e s).resetLow = s.resetLow ∧ (copySent e s).sgm = s.sgm ∧ (copySent e s).ge = s.ge ∧ (copySent e s).sru = s.sru ∧ (copySent e s).te = s.te ∧ (copySent e s).pt = s.pt ∧ (copySent e s).re.queue = s.re.queue ∧ (copySent e s).re.completing = s.re.completing ∧ (copySent e s).re.stalled = s.re.stalled ∧ (copySent e s).re.announced = s.re.announced ∧ (copySent e s).re.startOfLeaving = s.re.startOfLeaving ∧ (copySent e s).lc = s.lc ∧ (copySent e s).stc = s.stc ∧ (copySent e s).lp = s.lp ∧ (copySent e s).freeCount = s.freeCount ∧ (copySent e s).pending = s.pending := by
  simp only [copySent]; (repeat' split) <;> simp

/-- What `copyFaulted` leaves as it was. -/
@[simp] theorem copyFaulted_frame (e : Fin 8) (s : State) :
    (copyFaulted e s).resetLow = s.resetLow ∧ (copyFaulted e s).sgm = s.sgm ∧ (copyFaulted e s).ge = s.ge ∧ (copyFaulted e s).sru = s.sru ∧ (copyFaulted e s).te = s.te ∧ (copyFaulted e s).re.announced = s.re.announced ∧ (copyFaulted e s).re.startOfLeaving = s.re.startOfLeaving ∧ (copyFaulted e s).lc.view = s.lc.view ∧ (copyFaulted e s).lc.last0 = s.lc.last0 ∧ (copyFaulted e s).lc.last1 = s.lc.last1 ∧ (copyFaulted e s).lc.receive = s.lc.receive ∧ (copyFaulted e s).stc = s.stc ∧ (copyFaulted e s).lp.cycle = s.lp.cycle ∧ (copyFaulted e s).lp.nextStrobe = s.lp.nextStrobe ∧ (copyFaulted e s).lp.latch = s.lp.latch ∧ (copyFaulted e s).lp.stagedLow = s.lp.stagedLow ∧ (copyFaulted e s).lp.buffers = s.lp.buffers ∧ (copyFaulted e s).lp.events = s.lp.events ∧ (copyFaulted e s).lp.eventsLost = s.lp.eventsLost ∧ (copyFaulted e s).lp.snapshot = s.lp.snapshot ∧ (copyFaulted e s).lp.window = s.lp.window ∧ (copyFaulted e s).lp.postResult = s.lp.postResult ∧ (copyFaulted e s).freeCount = s.freeCount ∧ (copyFaulted e s).pending = s.pending := by
  simp only [copyFaulted]; (repeat' split) <;> simp

/-- What `backOffOrCancel` leaves as it was. -/
@[simp] theorem backOffOrCancel_frame (e : Fin 8) (x : Entry) (s : State) :
    (backOffOrCancel e x s).resetLow = s.resetLow ∧ (backOffOrCancel e x s).sgm = s.sgm ∧ (backOffOrCancel e x s).ge = s.ge ∧ (backOffOrCancel e x s).sru = s.sru ∧ (backOffOrCancel e x s).te = s.te ∧ (backOffOrCancel e x s).re.announced = s.re.announced ∧ (backOffOrCancel e x s).re.startOfLeaving = s.re.startOfLeaving ∧ (backOffOrCancel e x s).lc.view = s.lc.view ∧ (backOffOrCancel e x s).lc.last0 = s.lc.last0 ∧ (backOffOrCancel e x s).lc.last1 = s.lc.last1 ∧ (backOffOrCancel e x s).lc.receive = s.lc.receive ∧ (backOffOrCancel e x s).stc = s.stc ∧ (backOffOrCancel e x s).lp.cycle = s.lp.cycle ∧ (backOffOrCancel e x s).lp.nextStrobe = s.lp.nextStrobe ∧ (backOffOrCancel e x s).lp.latch = s.lp.latch ∧ (backOffOrCancel e x s).lp.stagedLow = s.lp.stagedLow ∧ (backOffOrCancel e x s).lp.buffers = s.lp.buffers ∧ (backOffOrCancel e x s).lp.events = s.lp.events ∧ (backOffOrCancel e x s).lp.eventsLost = s.lp.eventsLost ∧ (backOffOrCancel e x s).lp.snapshot = s.lp.snapshot ∧ (backOffOrCancel e x s).lp.window = s.lp.window ∧ (backOffOrCancel e x s).lp.postResult = s.lp.postResult ∧ (backOffOrCancel e x s).freeCount = s.freeCount ∧ (backOffOrCancel e x s).pending = s.pending := by
  simp only [backOffOrCancel]; (repeat' split) <;> simp

/-- What `takeDefer` leaves as it was. -/
@[simp] theorem takeDefer_frame (e : Fin 8) (x : Entry) (s : State) :
    (takeDefer e x s).resetLow = s.resetLow ∧ (takeDefer e x s).sgm = s.sgm ∧ (takeDefer e x s).ge = s.ge ∧ (takeDefer e x s).sru = s.sru ∧ (takeDefer e x s).te = s.te ∧ (takeDefer e x s).re.announced = s.re.announced ∧ (takeDefer e x s).re.startOfLeaving = s.re.startOfLeaving ∧ (takeDefer e x s).lc.view = s.lc.view ∧ (takeDefer e x s).lc.last0 = s.lc.last0 ∧ (takeDefer e x s).lc.last1 = s.lc.last1 ∧ (takeDefer e x s).lc.receive = s.lc.receive ∧ (takeDefer e x s).stc = s.stc ∧ (takeDefer e x s).lp.cycle = s.lp.cycle ∧ (takeDefer e x s).lp.nextStrobe = s.lp.nextStrobe ∧ (takeDefer e x s).lp.latch = s.lp.latch ∧ (takeDefer e x s).lp.stagedLow = s.lp.stagedLow ∧ (takeDefer e x s).lp.buffers = s.lp.buffers ∧ (takeDefer e x s).lp.events = s.lp.events ∧ (takeDefer e x s).lp.eventsLost = s.lp.eventsLost ∧ (takeDefer e x s).lp.snapshot = s.lp.snapshot ∧ (takeDefer e x s).lp.window = s.lp.window ∧ (takeDefer e x s).lp.postResult = s.lp.postResult ∧ (takeDefer e x s).freeCount = s.freeCount ∧ (takeDefer e x s).pending = s.pending := by
  simp only [takeDefer]; (repeat' split) <;> simp

/-- What `takeBusy` leaves as it was. -/
@[simp] theorem takeBusy_frame (e : Fin 8) (x : Entry) (s : State) :
    (takeBusy e x s).resetLow = s.resetLow ∧ (takeBusy e x s).sgm = s.sgm ∧ (takeBusy e x s).ge = s.ge ∧ (takeBusy e x s).sru = s.sru ∧ (takeBusy e x s).te = s.te ∧ (takeBusy e x s).re.announced = s.re.announced ∧ (takeBusy e x s).re.startOfLeaving = s.re.startOfLeaving ∧ (takeBusy e x s).lc.view = s.lc.view ∧ (takeBusy e x s).lc.last0 = s.lc.last0 ∧ (takeBusy e x s).lc.last1 = s.lc.last1 ∧ (takeBusy e x s).lc.receive = s.lc.receive ∧ (takeBusy e x s).stc = s.stc ∧ (takeBusy e x s).lp.cycle = s.lp.cycle ∧ (takeBusy e x s).lp.nextStrobe = s.lp.nextStrobe ∧ (takeBusy e x s).lp.latch = s.lp.latch ∧ (takeBusy e x s).lp.stagedLow = s.lp.stagedLow ∧ (takeBusy e x s).lp.buffers = s.lp.buffers ∧ (takeBusy e x s).lp.events = s.lp.events ∧ (takeBusy e x s).lp.eventsLost = s.lp.eventsLost ∧ (takeBusy e x s).lp.snapshot = s.lp.snapshot ∧ (takeBusy e x s).lp.window = s.lp.window ∧ (takeBusy e x s).lp.postResult = s.lp.postResult ∧ (takeBusy e x s).freeCount = s.freeCount ∧ (takeBusy e x s).pending = s.pending := by
  simp only [takeBusy]; (repeat' split) <;> simp

/-- What `takeAnswer` leaves as it was. -/
@[simp] theorem takeAnswer_frame (e : Fin 8) (x : Entry) (a : Answer) (s : State) :
    (takeAnswer e x a s).resetLow = s.resetLow ∧ (takeAnswer e x a s).sgm = s.sgm ∧ (takeAnswer e x a s).ge = s.ge ∧ (takeAnswer e x a s).sru = s.sru ∧ (takeAnswer e x a s).te = s.te ∧ (takeAnswer e x a s).re.announced = s.re.announced ∧ (takeAnswer e x a s).re.startOfLeaving = s.re.startOfLeaving ∧ (takeAnswer e x a s).lc.view = s.lc.view ∧ (takeAnswer e x a s).lc.last0 = s.lc.last0 ∧ (takeAnswer e x a s).lc.last1 = s.lc.last1 ∧ (takeAnswer e x a s).lc.receive = s.lc.receive ∧ (takeAnswer e x a s).stc = s.stc ∧ (takeAnswer e x a s).lp.cycle = s.lp.cycle ∧ (takeAnswer e x a s).lp.nextStrobe = s.lp.nextStrobe ∧ (takeAnswer e x a s).lp.latch = s.lp.latch ∧ (takeAnswer e x a s).lp.stagedLow = s.lp.stagedLow ∧ (takeAnswer e x a s).lp.events = s.lp.events ∧ (takeAnswer e x a s).lp.eventsLost = s.lp.eventsLost ∧ (takeAnswer e x a s).lp.snapshot = s.lp.snapshot ∧ (takeAnswer e x a s).lp.window = s.lp.window ∧ (takeAnswer e x a s).lp.postResult = s.lp.postResult ∧ (takeAnswer e x a s).freeCount = s.freeCount ∧ (takeAnswer e x a s).pending = s.pending := by
  simp only [takeAnswer]; (repeat' split) <;> simp

/-- What `takeResponse` leaves as it was. -/
@[simp] theorem takeResponse_frame (p : Station) (r : ResponseFields) (s : State) :
    (takeResponse p r s).resetLow = s.resetLow ∧ (takeResponse p r s).sgm = s.sgm ∧ (takeResponse p r s).ge = s.ge ∧ (takeResponse p r s).sru = s.sru ∧ (takeResponse p r s).te = s.te ∧ (takeResponse p r s).re.announced = s.re.announced ∧ (takeResponse p r s).re.startOfLeaving = s.re.startOfLeaving ∧ (takeResponse p r s).lc.view = s.lc.view ∧ (takeResponse p r s).lc.last0 = s.lc.last0 ∧ (takeResponse p r s).lc.last1 = s.lc.last1 ∧ (takeResponse p r s).lc.receive = s.lc.receive ∧ (takeResponse p r s).stc = s.stc ∧ (takeResponse p r s).lp.cycle = s.lp.cycle ∧ (takeResponse p r s).lp.nextStrobe = s.lp.nextStrobe ∧ (takeResponse p r s).lp.latch = s.lp.latch ∧ (takeResponse p r s).lp.stagedLow = s.lp.stagedLow ∧ (takeResponse p r s).lp.events = s.lp.events ∧ (takeResponse p r s).lp.eventsLost = s.lp.eventsLost ∧ (takeResponse p r s).lp.snapshot = s.lp.snapshot ∧ (takeResponse p r s).lp.window = s.lp.window ∧ (takeResponse p r s).lp.postResult = s.lp.postResult ∧ (takeResponse p r s).freeCount = s.freeCount ∧ (takeResponse p r s).pending = s.pending := by
  simp only [takeResponse]; (repeat' split) <;> simp

/-- What `reTakeAnnouncement` leaves as it was. -/
@[simp] theorem reTakeAnnouncement_frame (s : State) :
    (reTakeAnnouncement s).resetLow = s.resetLow ∧ (reTakeAnnouncement s).sgm = s.sgm ∧ (reTakeAnnouncement s).ge = s.ge ∧ (reTakeAnnouncement s).sru = s.sru ∧ (reTakeAnnouncement s).te = s.te ∧ (reTakeAnnouncement s).re.startOfLeaving = s.re.startOfLeaving ∧ (reTakeAnnouncement s).lc.view = s.lc.view ∧ (reTakeAnnouncement s).lc.last0 = s.lc.last0 ∧ (reTakeAnnouncement s).lc.last1 = s.lc.last1 ∧ (reTakeAnnouncement s).lc.receive = s.lc.receive ∧ (reTakeAnnouncement s).stc = s.stc ∧ (reTakeAnnouncement s).lp.cycle = s.lp.cycle ∧ (reTakeAnnouncement s).lp.nextStrobe = s.lp.nextStrobe ∧ (reTakeAnnouncement s).lp.latch = s.lp.latch ∧ (reTakeAnnouncement s).lp.stagedLow = s.lp.stagedLow ∧ (reTakeAnnouncement s).lp.buffers = s.lp.buffers ∧ (reTakeAnnouncement s).lp.events = s.lp.events ∧ (reTakeAnnouncement s).lp.eventsLost = s.lp.eventsLost ∧ (reTakeAnnouncement s).lp.snapshot = s.lp.snapshot ∧ (reTakeAnnouncement s).lp.window = s.lp.window ∧ (reTakeAnnouncement s).lp.postResult = s.lp.postResult ∧ (reTakeAnnouncement s).freeCount = s.freeCount ∧ (reTakeAnnouncement s).pending = s.pending := by
  simp only [reTakeAnnouncement]; (repeat' split) <;> simp

/-- What `cancelEntries` leaves as it was. -/
@[simp] theorem cancelEntries_frame (l : List (Fin 8)) (s : State) :
    (cancelEntries l s).resetLow = s.resetLow ∧ (cancelEntries l s).sgm = s.sgm ∧ (cancelEntries l s).ge = s.ge ∧ (cancelEntries l s).sru = s.sru ∧ (cancelEntries l s).te = s.te ∧ (cancelEntries l s).re.announced = s.re.announced ∧ (cancelEntries l s).re.startOfLeaving = s.re.startOfLeaving ∧ (cancelEntries l s).lc.view = s.lc.view ∧ (cancelEntries l s).lc.last0 = s.lc.last0 ∧ (cancelEntries l s).lc.last1 = s.lc.last1 ∧ (cancelEntries l s).lc.receive = s.lc.receive ∧ (cancelEntries l s).stc = s.stc ∧ (cancelEntries l s).lp.cycle = s.lp.cycle ∧ (cancelEntries l s).lp.nextStrobe = s.lp.nextStrobe ∧ (cancelEntries l s).lp.latch = s.lp.latch ∧ (cancelEntries l s).lp.stagedLow = s.lp.stagedLow ∧ (cancelEntries l s).lp.buffers = s.lp.buffers ∧ (cancelEntries l s).lp.events = s.lp.events ∧ (cancelEntries l s).lp.eventsLost = s.lp.eventsLost ∧ (cancelEntries l s).lp.snapshot = s.lp.snapshot ∧ (cancelEntries l s).lp.window = s.lp.window ∧ (cancelEntries l s).lp.postResult = s.lp.postResult ∧ (cancelEntries l s).freeCount = s.freeCount ∧ (cancelEntries l s).pending = s.pending := by
  induction l generalizing s with
  | nil => simp [cancelEntries]
  | cons e l ih => (simp only [cancelEntries]; (repeat' split) <;> simp [ih])

/-- What `markCancelled` leaves as it was. -/
@[simp] theorem markCancelled_frame (s : State) :
    (markCancelled s).resetLow = s.resetLow ∧ (markCancelled s).sgm = s.sgm ∧ (markCancelled s).ge = s.ge ∧ (markCancelled s).sru = s.sru ∧ (markCancelled s).te = s.te ∧ (markCancelled s).pt = s.pt ∧ (markCancelled s).re.table = s.re.table ∧ (markCancelled s).re.ready = s.re.ready ∧ (markCancelled s).re.completing = s.re.completing ∧ (markCancelled s).re.stalled = s.re.stalled ∧ (markCancelled s).re.announced = s.re.announced ∧ (markCancelled s).re.startOfLeaving = s.re.startOfLeaving ∧ (markCancelled s).lc = s.lc ∧ (markCancelled s).stc = s.stc ∧ (markCancelled s).lp = s.lp ∧ (markCancelled s).freeCount = s.freeCount ∧ (markCancelled s).pending = s.pending := by
  simp only [markCancelled]; (repeat' split) <;> simp

/-- What `reTakeStartOfLeaving` leaves as it was. -/
@[simp] theorem reTakeStartOfLeaving_frame (s : State) :
    (reTakeStartOfLeaving s).resetLow = s.resetLow ∧ (reTakeStartOfLeaving s).sgm = s.sgm ∧ (reTakeStartOfLeaving s).ge = s.ge ∧ (reTakeStartOfLeaving s).sru = s.sru ∧ (reTakeStartOfLeaving s).te = s.te ∧ (reTakeStartOfLeaving s).re.announced = s.re.announced ∧ (reTakeStartOfLeaving s).lc.view = s.lc.view ∧ (reTakeStartOfLeaving s).lc.last0 = s.lc.last0 ∧ (reTakeStartOfLeaving s).lc.last1 = s.lc.last1 ∧ (reTakeStartOfLeaving s).lc.receive = s.lc.receive ∧ (reTakeStartOfLeaving s).stc = s.stc ∧ (reTakeStartOfLeaving s).lp.cycle = s.lp.cycle ∧ (reTakeStartOfLeaving s).lp.nextStrobe = s.lp.nextStrobe ∧ (reTakeStartOfLeaving s).lp.latch = s.lp.latch ∧ (reTakeStartOfLeaving s).lp.stagedLow = s.lp.stagedLow ∧ (reTakeStartOfLeaving s).lp.buffers = s.lp.buffers ∧ (reTakeStartOfLeaving s).lp.events = s.lp.events ∧ (reTakeStartOfLeaving s).lp.eventsLost = s.lp.eventsLost ∧ (reTakeStartOfLeaving s).lp.snapshot = s.lp.snapshot ∧ (reTakeStartOfLeaving s).lp.window = s.lp.window ∧ (reTakeStartOfLeaving s).lp.postResult = s.lp.postResult ∧ (reTakeStartOfLeaving s).freeCount = s.freeCount ∧ (reTakeStartOfLeaving s).pending = s.pending := by
  simp only [reTakeStartOfLeaving]; (repeat' split) <;> simp

/-- What `giveGe` leaves as it was. -/
@[simp] theorem giveGe_frame (w : GeWork) (s : State) :
    (giveGe w s).resetLow = s.resetLow ∧ (giveGe w s).sgm = s.sgm ∧ (giveGe w s).ge.table = s.ge.table ∧ (giveGe w s).ge.order = s.ge.order ∧ (giveGe w s).ge.following = s.ge.following ∧ (giveGe w s).ge.undo = s.ge.undo ∧ (giveGe w s).ge.holds = s.ge.holds ∧ (giveGe w s).ge.op = s.ge.op ∧ (giveGe w s).sru = s.sru ∧ (giveGe w s).te = s.te ∧ (giveGe w s).pt = s.pt ∧ (giveGe w s).re = s.re ∧ (giveGe w s).lc = s.lc ∧ (giveGe w s).stc = s.stc ∧ (giveGe w s).lp = s.lp ∧ (giveGe w s).freeCount = s.freeCount ∧ (giveGe w s).pending = s.pending := by
  simp only [giveGe]; (repeat' split) <;> simp

/-- What `sruTakeAnnouncement` leaves as it was. -/
@[simp] theorem sruTakeAnnouncement_frame (s : State) :
    (sruTakeAnnouncement s).resetLow = s.resetLow ∧ (sruTakeAnnouncement s).sgm.words = s.sgm.words ∧ (sruTakeAnnouncement s).sgm.clearing = s.sgm.clearing ∧ (sruTakeAnnouncement s).ge = s.ge ∧ (sruTakeAnnouncement s).sru.startOfLeaving = s.sru.startOfLeaving ∧ (sruTakeAnnouncement s).te = s.te ∧ (sruTakeAnnouncement s).pt = s.pt ∧ (sruTakeAnnouncement s).re = s.re ∧ (sruTakeAnnouncement s).lc = s.lc ∧ (sruTakeAnnouncement s).stc = s.stc ∧ (sruTakeAnnouncement s).lp = s.lp ∧ (sruTakeAnnouncement s).freeCount = s.freeCount ∧ (sruTakeAnnouncement s).pending = s.pending := by
  simp only [sruTakeAnnouncement]; (repeat' split) <;> simp

/-- What `restartPurge` leaves as it was. -/
@[simp] theorem restartPurge_frame (s : State) :
    (restartPurge s).resetLow = s.resetLow ∧ (restartPurge s).sgm = s.sgm ∧ (restartPurge s).ge = s.ge ∧ (restartPurge s).sru = s.sru ∧ (restartPurge s).te.input = s.te.input ∧ (restartPurge s).te.hand = s.te.hand ∧ (restartPurge s).te.closed = s.te.closed ∧ (restartPurge s).pt = s.pt ∧ (restartPurge s).re = s.re ∧ (restartPurge s).lc.view = s.lc.view ∧ (restartPurge s).lc.last0 = s.lc.last0 ∧ (restartPurge s).lc.last1 = s.lc.last1 ∧ (restartPurge s).lc.receive = s.lc.receive ∧ (restartPurge s).stc = s.stc ∧ (restartPurge s).lp = s.lp ∧ (restartPurge s).freeCount = s.freeCount ∧ (restartPurge s).pending = s.pending := by
  simp only [restartPurge]; (repeat' split) <;> simp

/-- What `announce` leaves as it was. -/
@[simp] theorem announce_frame (a : Announcement) (s : State) :
    (announce a s).resetLow = s.resetLow ∧ (announce a s).sgm.words = s.sgm.words ∧ (announce a s).sgm.clearing = s.sgm.clearing ∧ (announce a s).ge.table = s.ge.table ∧ (announce a s).ge.order = s.ge.order ∧ (announce a s).ge.following = s.ge.following ∧ (announce a s).ge.undo = s.ge.undo ∧ (announce a s).ge.holds = s.ge.holds ∧ (announce a s).ge.op = s.ge.op ∧ (announce a s).sru.startOfLeaving = s.sru.startOfLeaving ∧ (announce a s).te.input = s.te.input ∧ (announce a s).te.hand = s.te.hand ∧ (announce a s).te.closed = s.te.closed ∧ (announce a s).re.startOfLeaving = s.re.startOfLeaving ∧ (announce a s).lc.view = s.lc.view ∧ (announce a s).lc.last0 = s.lc.last0 ∧ (announce a s).lc.last1 = s.lc.last1 ∧ (announce a s).lc.receive = s.lc.receive ∧ (announce a s).stc = s.stc ∧ (announce a s).lp.cycle = s.lp.cycle ∧ (announce a s).lp.nextStrobe = s.lp.nextStrobe ∧ (announce a s).lp.latch = s.lp.latch ∧ (announce a s).lp.stagedLow = s.lp.stagedLow ∧ (announce a s).lp.buffers = s.lp.buffers ∧ (announce a s).lp.events = s.lp.events ∧ (announce a s).lp.eventsLost = s.lp.eventsLost ∧ (announce a s).lp.snapshot = s.lp.snapshot ∧ (announce a s).lp.window = s.lp.window ∧ (announce a s).lp.postResult = s.lp.postResult ∧ (announce a s).freeCount = s.freeCount ∧ (announce a s).pending = s.pending := by
  simp only [announce]; (repeat' split) <;> simp

/-- What `hearPlain` leaves as it was. -/
@[simp] theorem hearPlain_frame (p : Station) (s : State) :
    (hearPlain p s).resetLow = s.resetLow ∧ (hearPlain p s).sgm = s.sgm ∧ (hearPlain p s).ge = s.ge ∧ (hearPlain p s).sru = s.sru ∧ (hearPlain p s).te = s.te ∧ (hearPlain p s).re = s.re ∧ (hearPlain p s).lc = s.lc ∧ (hearPlain p s).stc = s.stc ∧ (hearPlain p s).lp.cycle = s.lp.cycle ∧ (hearPlain p s).lp.nextStrobe = s.lp.nextStrobe ∧ (hearPlain p s).lp.latch = s.lp.latch ∧ (hearPlain p s).lp.stagedLow = s.lp.stagedLow ∧ (hearPlain p s).lp.buffers = s.lp.buffers ∧ (hearPlain p s).lp.completions = s.lp.completions ∧ (hearPlain p s).lp.snapshot = s.lp.snapshot ∧ (hearPlain p s).lp.window = s.lp.window ∧ (hearPlain p s).lp.postResult = s.lp.postResult ∧ (hearPlain p s).freeCount = s.freeCount ∧ (hearPlain p s).pending = s.pending := by
  simp only [hearPlain]; (repeat' split) <;> simp

/-- What `hearLeaving` leaves as it was. -/
@[simp] theorem hearLeaving_frame (p : Station) (s : State) :
    (hearLeaving p s).resetLow = s.resetLow ∧ (hearLeaving p s).sgm.words = s.sgm.words ∧ (hearLeaving p s).sgm.clearing = s.sgm.clearing ∧ (hearLeaving p s).ge.table = s.ge.table ∧ (hearLeaving p s).ge.order = s.ge.order ∧ (hearLeaving p s).ge.following = s.ge.following ∧ (hearLeaving p s).ge.undo = s.ge.undo ∧ (hearLeaving p s).ge.holds = s.ge.holds ∧ (hearLeaving p s).ge.op = s.ge.op ∧ (hearLeaving p s).sru.startOfLeaving = s.sru.startOfLeaving ∧ (hearLeaving p s).te.input = s.te.input ∧ (hearLeaving p s).te.hand = s.te.hand ∧ (hearLeaving p s).te.closed = s.te.closed ∧ (hearLeaving p s).re.startOfLeaving = s.re.startOfLeaving ∧ (hearLeaving p s).lc.view = s.lc.view ∧ (hearLeaving p s).lc.last0 = s.lc.last0 ∧ (hearLeaving p s).lc.last1 = s.lc.last1 ∧ (hearLeaving p s).lc.receive = s.lc.receive ∧ (hearLeaving p s).stc = s.stc ∧ (hearLeaving p s).lp.cycle = s.lp.cycle ∧ (hearLeaving p s).lp.nextStrobe = s.lp.nextStrobe ∧ (hearLeaving p s).lp.latch = s.lp.latch ∧ (hearLeaving p s).lp.stagedLow = s.lp.stagedLow ∧ (hearLeaving p s).lp.buffers = s.lp.buffers ∧ (hearLeaving p s).lp.events = s.lp.events ∧ (hearLeaving p s).lp.eventsLost = s.lp.eventsLost ∧ (hearLeaving p s).lp.snapshot = s.lp.snapshot ∧ (hearLeaving p s).lp.window = s.lp.window ∧ (hearLeaving p s).lp.postResult = s.lp.postResult ∧ (hearLeaving p s).freeCount = s.freeCount ∧ (hearLeaving p s).pending = s.pending := by
  simp only [hearLeaving]; (repeat' split) <;> simp

/-- What `hearFresh` leaves as it was. -/
@[simp] theorem hearFresh_frame (p : Station) (s : State) :
    (hearFresh p s).resetLow = s.resetLow ∧ (hearFresh p s).sgm.words = s.sgm.words ∧ (hearFresh p s).sgm.clearing = s.sgm.clearing ∧ (hearFresh p s).ge.table = s.ge.table ∧ (hearFresh p s).ge.order = s.ge.order ∧ (hearFresh p s).ge.following = s.ge.following ∧ (hearFresh p s).ge.undo = s.ge.undo ∧ (hearFresh p s).ge.holds = s.ge.holds ∧ (hearFresh p s).ge.op = s.ge.op ∧ (hearFresh p s).sru.startOfLeaving = s.sru.startOfLeaving ∧ (hearFresh p s).te.input = s.te.input ∧ (hearFresh p s).te.hand = s.te.hand ∧ (hearFresh p s).te.closed = s.te.closed ∧ (hearFresh p s).re.startOfLeaving = s.re.startOfLeaving ∧ (hearFresh p s).lc.view = s.lc.view ∧ (hearFresh p s).lc.last0 = s.lc.last0 ∧ (hearFresh p s).lc.last1 = s.lc.last1 ∧ (hearFresh p s).lc.receive = s.lc.receive ∧ (hearFresh p s).stc = s.stc ∧ (hearFresh p s).lp.cycle = s.lp.cycle ∧ (hearFresh p s).lp.nextStrobe = s.lp.nextStrobe ∧ (hearFresh p s).lp.latch = s.lp.latch ∧ (hearFresh p s).lp.stagedLow = s.lp.stagedLow ∧ (hearFresh p s).lp.buffers = s.lp.buffers ∧ (hearFresh p s).lp.events = s.lp.events ∧ (hearFresh p s).lp.eventsLost = s.lp.eventsLost ∧ (hearFresh p s).lp.snapshot = s.lp.snapshot ∧ (hearFresh p s).lp.window = s.lp.window ∧ (hearFresh p s).lp.postResult = s.lp.postResult ∧ (hearFresh p s).freeCount = s.freeCount ∧ (hearFresh p s).pending = s.pending := by
  simp only [hearFresh]; (repeat' split) <;> simp

/-- What `hear` leaves as it was. -/
@[simp] theorem hear_frame (f : Frame) (s : State) :
    (hear f s).resetLow = s.resetLow ∧ (hear f s).sgm.words = s.sgm.words ∧ (hear f s).sgm.clearing = s.sgm.clearing ∧ (hear f s).ge.table = s.ge.table ∧ (hear f s).ge.order = s.ge.order ∧ (hear f s).ge.following = s.ge.following ∧ (hear f s).ge.undo = s.ge.undo ∧ (hear f s).ge.holds = s.ge.holds ∧ (hear f s).ge.op = s.ge.op ∧ (hear f s).sru.startOfLeaving = s.sru.startOfLeaving ∧ (hear f s).te.input = s.te.input ∧ (hear f s).te.hand = s.te.hand ∧ (hear f s).te.closed = s.te.closed ∧ (hear f s).re.startOfLeaving = s.re.startOfLeaving ∧ (hear f s).lc.view = s.lc.view ∧ (hear f s).lc.last0 = s.lc.last0 ∧ (hear f s).lc.last1 = s.lc.last1 ∧ (hear f s).lc.receive = s.lc.receive ∧ (hear f s).stc = s.stc ∧ (hear f s).lp.cycle = s.lp.cycle ∧ (hear f s).lp.nextStrobe = s.lp.nextStrobe ∧ (hear f s).lp.latch = s.lp.latch ∧ (hear f s).lp.stagedLow = s.lp.stagedLow ∧ (hear f s).lp.buffers = s.lp.buffers ∧ (hear f s).lp.snapshot = s.lp.snapshot ∧ (hear f s).lp.window = s.lp.window ∧ (hear f s).lp.postResult = s.lp.postResult ∧ (hear f s).freeCount = s.freeCount ∧ (hear f s).pending = s.pending := by
  simp only [hear]; (repeat' split) <;> simp

/-- What `endOfLoss` leaves as it was. -/
@[simp] theorem endOfLoss_frame (p : Station) (s : State) :
    (endOfLoss p s).resetLow = s.resetLow ∧ (endOfLoss p s).sgm.words = s.sgm.words ∧ (endOfLoss p s).sgm.clearing = s.sgm.clearing ∧ (endOfLoss p s).ge.table = s.ge.table ∧ (endOfLoss p s).ge.order = s.ge.order ∧ (endOfLoss p s).ge.following = s.ge.following ∧ (endOfLoss p s).ge.undo = s.ge.undo ∧ (endOfLoss p s).ge.holds = s.ge.holds ∧ (endOfLoss p s).ge.op = s.ge.op ∧ (endOfLoss p s).sru.startOfLeaving = s.sru.startOfLeaving ∧ (endOfLoss p s).te.input = s.te.input ∧ (endOfLoss p s).te.hand = s.te.hand ∧ (endOfLoss p s).te.closed = s.te.closed ∧ (endOfLoss p s).re.startOfLeaving = s.re.startOfLeaving ∧ (endOfLoss p s).lc.view = s.lc.view ∧ (endOfLoss p s).lc.last0 = s.lc.last0 ∧ (endOfLoss p s).lc.last1 = s.lc.last1 ∧ (endOfLoss p s).lc.receive = s.lc.receive ∧ (endOfLoss p s).stc = s.stc ∧ (endOfLoss p s).lp.cycle = s.lp.cycle ∧ (endOfLoss p s).lp.nextStrobe = s.lp.nextStrobe ∧ (endOfLoss p s).lp.latch = s.lp.latch ∧ (endOfLoss p s).lp.stagedLow = s.lp.stagedLow ∧ (endOfLoss p s).lp.buffers = s.lp.buffers ∧ (endOfLoss p s).lp.snapshot = s.lp.snapshot ∧ (endOfLoss p s).lp.window = s.lp.window ∧ (endOfLoss p s).lp.postResult = s.lp.postResult ∧ (endOfLoss p s).freeCount = s.freeCount ∧ (endOfLoss p s).pending = s.pending := by
  simp only [endOfLoss]; (repeat' split) <;> simp

/-- What `endOfRestart` leaves as it was. -/
@[simp] theorem endOfRestart_frame (p : Station) (n : Nat) (s : State) :
    (endOfRestart p n s).resetLow = s.resetLow ∧ (endOfRestart p n s).sgm = s.sgm ∧ (endOfRestart p n s).ge = s.ge ∧ (endOfRestart p n s).sru = s.sru ∧ (endOfRestart p n s).te = s.te ∧ (endOfRestart p n s).pt = s.pt ∧ (endOfRestart p n s).re = s.re ∧ (endOfRestart p n s).lc = s.lc ∧ (endOfRestart p n s).stc = s.stc ∧ (endOfRestart p n s).lp.cycle = s.lp.cycle ∧ (endOfRestart p n s).lp.nextStrobe = s.lp.nextStrobe ∧ (endOfRestart p n s).lp.latch = s.lp.latch ∧ (endOfRestart p n s).lp.stagedLow = s.lp.stagedLow ∧ (endOfRestart p n s).lp.buffers = s.lp.buffers ∧ (endOfRestart p n s).lp.completions = s.lp.completions ∧ (endOfRestart p n s).lp.snapshot = s.lp.snapshot ∧ (endOfRestart p n s).lp.window = s.lp.window ∧ (endOfRestart p n s).lp.postResult = s.lp.postResult ∧ (endOfRestart p n s).freeCount = s.freeCount ∧ (endOfRestart p n s).pending = s.pending := by
  induction n generalizing s with
  | zero => simp [endOfRestart]
  | succ n ih => (simp only [endOfRestart]; (repeat' split) <;> simp [ih])

/-- What `updateGe` leaves as it was. -/
@[simp] theorem updateGe_frame (f : Ge → Ge) (s : State) :
    (updateGe f s).resetLow = s.resetLow ∧ (updateGe f s).sgm = s.sgm ∧ (updateGe f s).sru = s.sru ∧ (updateGe f s).te = s.te ∧ (updateGe f s).pt = s.pt ∧ (updateGe f s).re = s.re ∧ (updateGe f s).lc = s.lc ∧ (updateGe f s).stc = s.stc ∧ (updateGe f s).lp = s.lp ∧ (updateGe f s).freeCount = s.freeCount ∧ (updateGe f s).pending = s.pending := by
  simp only [updateGe]; (repeat' split) <;> simp

/-- What `setOp` leaves as it was. -/
@[simp] theorem setOp_frame (op : Option GeOp) (s : State) :
    (setOp op s).resetLow = s.resetLow ∧ (setOp op s).sgm = s.sgm ∧ (setOp op s).ge.table = s.ge.table ∧ (setOp op s).ge.order = s.ge.order ∧ (setOp op s).ge.following = s.ge.following ∧ (setOp op s).ge.undo = s.ge.undo ∧ (setOp op s).ge.holds = s.ge.holds ∧ (setOp op s).ge.work = s.ge.work ∧ (setOp op s).sru = s.sru ∧ (setOp op s).te = s.te ∧ (setOp op s).pt = s.pt ∧ (setOp op s).re = s.re ∧ (setOp op s).lc = s.lc ∧ (setOp op s).stc = s.stc ∧ (setOp op s).lp = s.lp ∧ (setOp op s).freeCount = s.freeCount ∧ (setOp op s).pending = s.pending := by
  simp only [setOp]; (repeat' split) <;> simp

/-- What `setFollowing` leaves as it was. -/
@[simp] theorem setFollowing_frame (b : Bool) (s : State) :
    (setFollowing b s).resetLow = s.resetLow ∧ (setFollowing b s).sgm = s.sgm ∧ (setFollowing b s).ge.table = s.ge.table ∧ (setFollowing b s).ge.order = s.ge.order ∧ (setFollowing b s).ge.undo = s.ge.undo ∧ (setFollowing b s).ge.holds = s.ge.holds ∧ (setFollowing b s).ge.work = s.ge.work ∧ (setFollowing b s).ge.op = s.ge.op ∧ (setFollowing b s).sru = s.sru ∧ (setFollowing b s).te = s.te ∧ (setFollowing b s).pt = s.pt ∧ (setFollowing b s).re = s.re ∧ (setFollowing b s).lc = s.lc ∧ (setFollowing b s).stc = s.stc ∧ (setFollowing b s).lp = s.lp ∧ (setFollowing b s).freeCount = s.freeCount ∧ (setFollowing b s).pending = s.pending := by
  simp only [setFollowing]; (repeat' split) <;> simp

/-- What `takeWork` leaves as it was. -/
@[simp] theorem takeWork_frame (s : State) :
    (takeWork s).resetLow = s.resetLow ∧ (takeWork s).sgm = s.sgm ∧ (takeWork s).ge.table = s.ge.table ∧ (takeWork s).ge.order = s.ge.order ∧ (takeWork s).ge.following = s.ge.following ∧ (takeWork s).ge.undo = s.ge.undo ∧ (takeWork s).ge.holds = s.ge.holds ∧ (takeWork s).ge.op = s.ge.op ∧ (takeWork s).sru = s.sru ∧ (takeWork s).te = s.te ∧ (takeWork s).pt = s.pt ∧ (takeWork s).re = s.re ∧ (takeWork s).lc = s.lc ∧ (takeWork s).stc = s.stc ∧ (takeWork s).lp = s.lp ∧ (takeWork s).freeCount = s.freeCount ∧ (takeWork s).pending = s.pending := by
  simp only [takeWork]; (repeat' split) <;> simp

/-- What `takeOther` leaves as it was. -/
@[simp] theorem takeOther_frame (s : State) :
    (takeOther s).resetLow = s.resetLow ∧ (takeOther s).sgm = s.sgm ∧ (takeOther s).ge.table = s.ge.table ∧ (takeOther s).ge.order = s.ge.order ∧ (takeOther s).ge.following = s.ge.following ∧ (takeOther s).ge.undo = s.ge.undo ∧ (takeOther s).ge.holds = s.ge.holds ∧ (takeOther s).ge.op = s.ge.op ∧ (takeOther s).sru = s.sru ∧ (takeOther s).te = s.te ∧ (takeOther s).pt = s.pt ∧ (takeOther s).re = s.re ∧ (takeOther s).lc = s.lc ∧ (takeOther s).stc = s.stc ∧ (takeOther s).lp = s.lp ∧ (takeOther s).freeCount = s.freeCount ∧ (takeOther s).pending = s.pending := by
  simp only [takeOther]; (repeat' split) <;> simp

/-- What `endOperation` leaves as it was. -/
@[simp] theorem endOperation_frame (fin : OpEnd) (s : State) :
    (endOperation fin s).resetLow = s.resetLow ∧ (endOperation fin s).sgm.words = s.sgm.words ∧ (endOperation fin s).sgm.clearing = s.sgm.clearing ∧ (endOperation fin s).ge.table = s.ge.table ∧ (endOperation fin s).ge.order = s.ge.order ∧ (endOperation fin s).ge.following = s.ge.following ∧ (endOperation fin s).ge.undo = s.ge.undo ∧ (endOperation fin s).ge.holds = s.ge.holds ∧ (endOperation fin s).ge.op = s.ge.op ∧ (endOperation fin s).sru.startOfLeaving = s.sru.startOfLeaving ∧ (endOperation fin s).te.input = s.te.input ∧ (endOperation fin s).te.closed = s.te.closed ∧ (endOperation fin s).re.startOfLeaving = s.re.startOfLeaving ∧ (endOperation fin s).lc.view = s.lc.view ∧ (endOperation fin s).lc.last0 = s.lc.last0 ∧ (endOperation fin s).lc.last1 = s.lc.last1 ∧ (endOperation fin s).lc.receive = s.lc.receive ∧ (endOperation fin s).stc.state = s.stc.state ∧ (endOperation fin s).stc.address = s.stc.address ∧ (endOperation fin s).stc.rate = s.stc.rate ∧ (endOperation fin s).stc.active = s.stc.active ∧ (endOperation fin s).stc.staged = s.stc.staged ∧ (endOperation fin s).stc.command = s.stc.command ∧ (endOperation fin s).stc.listen = s.stc.listen ∧ (endOperation fin s).stc.quiet = s.stc.quiet ∧ (endOperation fin s).stc.due = s.stc.due ∧ (endOperation fin s).lp.cycle = s.lp.cycle ∧ (endOperation fin s).lp.nextStrobe = s.lp.nextStrobe ∧ (endOperation fin s).lp.latch = s.lp.latch ∧ (endOperation fin s).lp.stagedLow = s.lp.stagedLow ∧ (endOperation fin s).lp.buffers = s.lp.buffers ∧ (endOperation fin s).lp.snapshot = s.lp.snapshot ∧ (endOperation fin s).lp.window = s.lp.window ∧ (endOperation fin s).lp.postResult = s.lp.postResult ∧ (endOperation fin s).freeCount = s.freeCount ∧ (endOperation fin s).pending = s.pending := by
  simp only [endOperation]; (repeat' split) <;> simp

/-- What `beginRollbacks` leaves as it was. -/
@[simp] theorem beginRollbacks_frame (c : AbortCause) (l : List (Fin 4)) (fin : OpEnd) (s : State) :
    (beginRollbacks c l fin s).resetLow = s.resetLow ∧ (beginRollbacks c l fin s).sgm.words = s.sgm.words ∧ (beginRollbacks c l fin s).sgm.clearing = s.sgm.clearing ∧ (beginRollbacks c l fin s).ge.table = s.ge.table ∧ (beginRollbacks c l fin s).ge.order = s.ge.order ∧ (beginRollbacks c l fin s).ge.following = s.ge.following ∧ (beginRollbacks c l fin s).ge.undo = s.ge.undo ∧ (beginRollbacks c l fin s).ge.holds = s.ge.holds ∧ (beginRollbacks c l fin s).sru.startOfLeaving = s.sru.startOfLeaving ∧ (beginRollbacks c l fin s).te.input = s.te.input ∧ (beginRollbacks c l fin s).te.closed = s.te.closed ∧ (beginRollbacks c l fin s).re.startOfLeaving = s.re.startOfLeaving ∧ (beginRollbacks c l fin s).lc.view = s.lc.view ∧ (beginRollbacks c l fin s).lc.last0 = s.lc.last0 ∧ (beginRollbacks c l fin s).lc.last1 = s.lc.last1 ∧ (beginRollbacks c l fin s).lc.receive = s.lc.receive ∧ (beginRollbacks c l fin s).stc.state = s.stc.state ∧ (beginRollbacks c l fin s).stc.address = s.stc.address ∧ (beginRollbacks c l fin s).stc.rate = s.stc.rate ∧ (beginRollbacks c l fin s).stc.active = s.stc.active ∧ (beginRollbacks c l fin s).stc.staged = s.stc.staged ∧ (beginRollbacks c l fin s).stc.command = s.stc.command ∧ (beginRollbacks c l fin s).stc.listen = s.stc.listen ∧ (beginRollbacks c l fin s).stc.quiet = s.stc.quiet ∧ (beginRollbacks c l fin s).stc.due = s.stc.due ∧ (beginRollbacks c l fin s).lp.cycle = s.lp.cycle ∧ (beginRollbacks c l fin s).lp.nextStrobe = s.lp.nextStrobe ∧ (beginRollbacks c l fin s).lp.latch = s.lp.latch ∧ (beginRollbacks c l fin s).lp.stagedLow = s.lp.stagedLow ∧ (beginRollbacks c l fin s).lp.buffers = s.lp.buffers ∧ (beginRollbacks c l fin s).lp.snapshot = s.lp.snapshot ∧ (beginRollbacks c l fin s).lp.window = s.lp.window ∧ (beginRollbacks c l fin s).lp.postResult = s.lp.postResult ∧ (beginRollbacks c l fin s).freeCount = s.freeCount ∧ (beginRollbacks c l fin s).pending = s.pending := by
  simp only [beginRollbacks]; (repeat' split) <;> simp

/-- What `rollbackGroup` leaves as it was. -/
@[simp] theorem rollbackGroup_frame (c : AbortCause) (g : Fin 4) (s : State) :
    (rollbackGroup c g s).resetLow = s.resetLow ∧ (rollbackGroup c g s).sgm.claims = s.sgm.claims ∧ (rollbackGroup c g s).sgm.clearing = s.sgm.clearing ∧ (rollbackGroup c g s).ge.op = s.ge.op ∧ (rollbackGroup c g s).ge.following = s.ge.following ∧ (rollbackGroup c g s).sru.work = s.sru.work ∧ (rollbackGroup c g s).sru.announced = s.sru.announced ∧ (rollbackGroup c g s).sru.startOfLeaving = s.sru.startOfLeaving ∧ (rollbackGroup c g s).te = s.te ∧ (rollbackGroup c g s).pt = s.pt ∧ (rollbackGroup c g s).re = s.re ∧ (rollbackGroup c g s).lc = s.lc ∧ (rollbackGroup c g s).stc = s.stc ∧ (rollbackGroup c g s).lp.cycle = s.lp.cycle ∧ (rollbackGroup c g s).lp.nextStrobe = s.lp.nextStrobe ∧ (rollbackGroup c g s).lp.latch = s.lp.latch ∧ (rollbackGroup c g s).lp.stagedLow = s.lp.stagedLow ∧ (rollbackGroup c g s).lp.buffers = s.lp.buffers ∧ (rollbackGroup c g s).lp.completions = s.lp.completions ∧ (rollbackGroup c g s).lp.snapshot = s.lp.snapshot ∧ (rollbackGroup c g s).lp.window = s.lp.window ∧ (rollbackGroup c g s).lp.postResult = s.lp.postResult ∧ (rollbackGroup c g s).freeCount = s.freeCount ∧ (rollbackGroup c g s).pending = s.pending := by
  simp only [rollbackGroup, Ge.ended, updateGe]; (repeat' split) <;> simp

/-- What `countFree` leaves as it was. -/
@[simp] theorem countFree_frame (s : State) :
    (countFree s).resetLow = s.resetLow ∧ (countFree s).sgm = s.sgm ∧ (countFree s).ge = s.ge ∧ (countFree s).sru = s.sru ∧ (countFree s).te = s.te ∧ (countFree s).pt = s.pt ∧ (countFree s).re = s.re ∧ (countFree s).lc = s.lc ∧ (countFree s).stc = s.stc ∧ (countFree s).lp = s.lp ∧ (countFree s).pending = s.pending := by
  simp only [countFree]; (repeat' split) <;> simp

/-- What `afterRollback` leaves as it was. -/
@[simp] theorem afterRollback_frame (c : AbortCause) (l : List (Fin 4)) (fin : OpEnd) (s : State) :
    (afterRollback c l fin s).resetLow = s.resetLow ∧ (afterRollback c l fin s).sgm.words = s.sgm.words ∧ (afterRollback c l fin s).sgm.clearing = s.sgm.clearing ∧ (afterRollback c l fin s).ge.table = s.ge.table ∧ (afterRollback c l fin s).ge.order = s.ge.order ∧ (afterRollback c l fin s).ge.undo = s.ge.undo ∧ (afterRollback c l fin s).ge.holds = s.ge.holds ∧ (afterRollback c l fin s).sru.startOfLeaving = s.sru.startOfLeaving ∧ (afterRollback c l fin s).te.input = s.te.input ∧ (afterRollback c l fin s).te.closed = s.te.closed ∧ (afterRollback c l fin s).re.startOfLeaving = s.re.startOfLeaving ∧ (afterRollback c l fin s).lc.view = s.lc.view ∧ (afterRollback c l fin s).lc.last0 = s.lc.last0 ∧ (afterRollback c l fin s).lc.last1 = s.lc.last1 ∧ (afterRollback c l fin s).lc.receive = s.lc.receive ∧ (afterRollback c l fin s).stc.state = s.stc.state ∧ (afterRollback c l fin s).stc.address = s.stc.address ∧ (afterRollback c l fin s).stc.rate = s.stc.rate ∧ (afterRollback c l fin s).stc.active = s.stc.active ∧ (afterRollback c l fin s).stc.staged = s.stc.staged ∧ (afterRollback c l fin s).stc.command = s.stc.command ∧ (afterRollback c l fin s).stc.listen = s.stc.listen ∧ (afterRollback c l fin s).stc.quiet = s.stc.quiet ∧ (afterRollback c l fin s).stc.due = s.stc.due ∧ (afterRollback c l fin s).lp.cycle = s.lp.cycle ∧ (afterRollback c l fin s).lp.nextStrobe = s.lp.nextStrobe ∧ (afterRollback c l fin s).lp.latch = s.lp.latch ∧ (afterRollback c l fin s).lp.stagedLow = s.lp.stagedLow ∧ (afterRollback c l fin s).lp.buffers = s.lp.buffers ∧ (afterRollback c l fin s).lp.snapshot = s.lp.snapshot ∧ (afterRollback c l fin s).lp.window = s.lp.window ∧ (afterRollback c l fin s).lp.postResult = s.lp.postResult ∧ (afterRollback c l fin s).pending = s.pending := by
  simp only [afterRollback]; (repeat' split) <;> simp

/-- What `updateSlot` leaves as it was. -/
@[simp] theorem updateSlot_frame (i : Fin 4) (f : Slot → Slot) (s : State) :
    (updateSlot i f s).resetLow = s.resetLow ∧ (updateSlot i f s).sgm = s.sgm ∧ (updateSlot i f s).ge = s.ge ∧ (updateSlot i f s).sru.work = s.sru.work ∧ (updateSlot i f s).sru.announced = s.sru.announced ∧ (updateSlot i f s).sru.startOfLeaving = s.sru.startOfLeaving ∧ (updateSlot i f s).te = s.te ∧ (updateSlot i f s).pt = s.pt ∧ (updateSlot i f s).re = s.re ∧ (updateSlot i f s).lc = s.lc ∧ (updateSlot i f s).stc = s.stc ∧ (updateSlot i f s).lp = s.lp ∧ (updateSlot i f s).freeCount = s.freeCount ∧ (updateSlot i f s).pending = s.pending := by
  simp only [updateSlot]; (repeat' split) <;> simp

/-- What `frameTakenReport` leaves as it was. -/
@[simp] theorem frameTakenReport_frame (f : Frame) (h : Header) (s : State) :
    (frameTakenReport f h s).resetLow = s.resetLow ∧ (frameTakenReport f h s).sgm.words = s.sgm.words ∧ (frameTakenReport f h s).sgm.clearing = s.sgm.clearing ∧ (frameTakenReport f h s).ge = s.ge ∧ (frameTakenReport f h s).sru.announced = s.sru.announced ∧ (frameTakenReport f h s).sru.startOfLeaving = s.sru.startOfLeaving ∧ (frameTakenReport f h s).te = s.te ∧ (frameTakenReport f h s).pt = s.pt ∧ (frameTakenReport f h s).re = s.re ∧ (frameTakenReport f h s).lc = s.lc ∧ (frameTakenReport f h s).stc = s.stc ∧ (frameTakenReport f h s).lp = s.lp ∧ (frameTakenReport f h s).freeCount = s.freeCount ∧ (frameTakenReport f h s).pending = s.pending := by
  simp only [frameTakenReport]; (repeat' split) <;> simp

/-- What `answerFromSlot` leaves as it was. -/
@[simp] theorem answerFromSlot_frame (i : Fin 4) (s : State) :
    (answerFromSlot i s).resetLow = s.resetLow ∧ (answerFromSlot i s).sgm.words = s.sgm.words ∧ (answerFromSlot i s).sgm.clearing = s.sgm.clearing ∧ (answerFromSlot i s).ge = s.ge ∧ (answerFromSlot i s).sru.announced = s.sru.announced ∧ (answerFromSlot i s).sru.startOfLeaving = s.sru.startOfLeaving ∧ (answerFromSlot i s).te.input = s.te.input ∧ (answerFromSlot i s).te.closed = s.te.closed ∧ (answerFromSlot i s).te.restarted = s.te.restarted ∧ (answerFromSlot i s).re = s.re ∧ (answerFromSlot i s).lc = s.lc ∧ (answerFromSlot i s).stc = s.stc ∧ (answerFromSlot i s).lp = s.lp ∧ (answerFromSlot i s).freeCount = s.freeCount ∧ (answerFromSlot i s).pending = s.pending := by
  simp only [answerFromSlot]; (repeat' split) <;> simp

/-- What `evaluateAsNew` leaves as it was. -/
@[simp] theorem evaluateAsNew_frame (p : Station) (s : State) :
    (evaluateAsNew p s).resetLow = s.resetLow ∧ (evaluateAsNew p s).sgm.words = s.sgm.words ∧ (evaluateAsNew p s).sgm.clearing = s.sgm.clearing ∧ (evaluateAsNew p s).ge = s.ge ∧ (evaluateAsNew p s).sru.announced = s.sru.announced ∧ (evaluateAsNew p s).sru.startOfLeaving = s.sru.startOfLeaving ∧ (evaluateAsNew p s).te = s.te ∧ (evaluateAsNew p s).pt = s.pt ∧ (evaluateAsNew p s).re = s.re ∧ (evaluateAsNew p s).lc = s.lc ∧ (evaluateAsNew p s).stc = s.stc ∧ (evaluateAsNew p s).lp = s.lp ∧ (evaluateAsNew p s).freeCount = s.freeCount ∧ (evaluateAsNew p s).pending = s.pending := by
  simp only [evaluateAsNew]; (repeat' split) <;> simp

/-- What `takeRds` leaves as it was. -/
@[simp] theorem takeRds_frame (p : Station) (r : Request) (s : State) :
    (takeRds p r s).resetLow = s.resetLow ∧ (takeRds p r s).sgm.words = s.sgm.words ∧ (takeRds p r s).sgm.clearing = s.sgm.clearing ∧ (takeRds p r s).ge = s.ge ∧ (takeRds p r s).sru.announced = s.sru.announced ∧ (takeRds p r s).sru.startOfLeaving = s.sru.startOfLeaving ∧ (takeRds p r s).te.input = s.te.input ∧ (takeRds p r s).te.closed = s.te.closed ∧ (takeRds p r s).te.restarted = s.te.restarted ∧ (takeRds p r s).re = s.re ∧ (takeRds p r s).lc = s.lc ∧ (takeRds p r s).stc = s.stc ∧ (takeRds p r s).lp = s.lp ∧ (takeRds p r s).freeCount = s.freeCount ∧ (takeRds p r s).pending = s.pending := by
  simp only [takeRds]; (repeat' split) <;> simp

/-- What `allocateSlot` leaves as it was. -/
@[simp] theorem allocateSlot_frame (i : Fin 4) (h : Hand) (s : State) :
    (allocateSlot i h s).resetLow = s.resetLow ∧ (allocateSlot i h s).sgm = s.sgm ∧ (allocateSlot i h s).ge = s.ge ∧ (allocateSlot i h s).sru.work = s.sru.work ∧ (allocateSlot i h s).sru.announced = s.sru.announced ∧ (allocateSlot i h s).sru.startOfLeaving = s.sru.startOfLeaving ∧ (allocateSlot i h s).te = s.te ∧ (allocateSlot i h s).pt = s.pt ∧ (allocateSlot i h s).re = s.re ∧ (allocateSlot i h s).lc = s.lc ∧ (allocateSlot i h s).stc = s.stc ∧ (allocateSlot i h s).lp = s.lp ∧ (allocateSlot i h s).freeCount = s.freeCount ∧ (allocateSlot i h s).pending = s.pending := by
  simp only [allocateSlot]; (repeat' split) <;> simp

/-- What `sruWorkDone` leaves as it was. -/
@[simp] theorem sruWorkDone_frame (s : State) :
    (sruWorkDone s).resetLow = s.resetLow ∧ (sruWorkDone s).sgm.words = s.sgm.words ∧ (sruWorkDone s).sgm.clearing = s.sgm.clearing ∧ (sruWorkDone s).ge = s.ge ∧ (sruWorkDone s).sru.slots = s.sru.slots ∧ (sruWorkDone s).sru.announced = s.sru.announced ∧ (sruWorkDone s).sru.startOfLeaving = s.sru.startOfLeaving ∧ (sruWorkDone s).te = s.te ∧ (sruWorkDone s).pt = s.pt ∧ (sruWorkDone s).re = s.re ∧ (sruWorkDone s).lc = s.lc ∧ (sruWorkDone s).stc = s.stc ∧ (sruWorkDone s).lp = s.lp ∧ (sruWorkDone s).freeCount = s.freeCount ∧ (sruWorkDone s).pending = s.pending := by
  simp only [sruWorkDone]; (repeat' split) <;> simp

/-- What `freeAllSlots` leaves as it was. -/
@[simp] theorem freeAllSlots_frame (s : State) :
    (freeAllSlots s).resetLow = s.resetLow ∧ (freeAllSlots s).sgm.words = s.sgm.words ∧ (freeAllSlots s).sgm.clearing = s.sgm.clearing ∧ (freeAllSlots s).ge = s.ge ∧ (freeAllSlots s).sru.announced = s.sru.announced ∧ (freeAllSlots s).sru.startOfLeaving = s.sru.startOfLeaving ∧ (freeAllSlots s).te = s.te ∧ (freeAllSlots s).pt = s.pt ∧ (freeAllSlots s).re = s.re ∧ (freeAllSlots s).lc = s.lc ∧ (freeAllSlots s).stc = s.stc ∧ (freeAllSlots s).lp = s.lp ∧ (freeAllSlots s).freeCount = s.freeCount ∧ (freeAllSlots s).pending = s.pending := by simp [freeAllSlots, all4]

/-- What `sruTakeStartOfLeaving` leaves as it was. -/
@[simp] theorem sruTakeStartOfLeaving_frame (s : State) :
    (sruTakeStartOfLeaving s).resetLow = s.resetLow ∧ (sruTakeStartOfLeaving s).sgm.words = s.sgm.words ∧ (sruTakeStartOfLeaving s).sgm.clearing = s.sgm.clearing ∧ (sruTakeStartOfLeaving s).ge = s.ge ∧ (sruTakeStartOfLeaving s).sru.announced = s.sru.announced ∧ (sruTakeStartOfLeaving s).te = s.te ∧ (sruTakeStartOfLeaving s).pt = s.pt ∧ (sruTakeStartOfLeaving s).re = s.re ∧ (sruTakeStartOfLeaving s).lc = s.lc ∧ (sruTakeStartOfLeaving s).stc = s.stc ∧ (sruTakeStartOfLeaving s).lp = s.lp ∧ (sruTakeStartOfLeaving s).freeCount = s.freeCount ∧ (sruTakeStartOfLeaving s).pending = s.pending := by
  simp only [sruTakeStartOfLeaving]; (repeat' split) <;> simp

/-- What `slotsBeforeNotice` leaves as it was. -/
@[simp] theorem slotsBeforeNotice_frame (c : AbortCause) (s : State) :
    (slotsBeforeNotice c s).resetLow = s.resetLow ∧ (slotsBeforeNotice c s).sgm.words = s.sgm.words ∧ (slotsBeforeNotice c s).sgm.clearing = s.sgm.clearing ∧ (slotsBeforeNotice c s).ge = s.ge ∧ (slotsBeforeNotice c s).sru.announced = s.sru.announced ∧ (slotsBeforeNotice c s).te = s.te ∧ (slotsBeforeNotice c s).pt = s.pt ∧ (slotsBeforeNotice c s).re = s.re ∧ (slotsBeforeNotice c s).lc = s.lc ∧ (slotsBeforeNotice c s).stc = s.stc ∧ (slotsBeforeNotice c s).lp = s.lp ∧ (slotsBeforeNotice c s).freeCount = s.freeCount ∧ (slotsBeforeNotice c s).pending = s.pending := by
  simp only [slotsBeforeNotice]; (repeat' split) <;> simp

/-- What `takeInHand` leaves as it was. -/
@[simp] theorem takeInHand_frame (p : Station) (r : Request) (st : HandStage) (s : State) :
    (takeInHand p r st s).resetLow = s.resetLow ∧ (takeInHand p r st s).sgm = s.sgm ∧ (takeInHand p r st s).ge = s.ge ∧ (takeInHand p r st s).sru = s.sru ∧ (takeInHand p r st s).te.input = s.te.input ∧ (takeInHand p r st s).te.closed = s.te.closed ∧ (takeInHand p r st s).te.queue = s.te.queue ∧ (takeInHand p r st s).te.restarted = s.te.restarted ∧ (takeInHand p r st s).pt = s.pt ∧ (takeInHand p r st s).re = s.re ∧ (takeInHand p r st s).lc = s.lc ∧ (takeInHand p r st s).stc = s.stc ∧ (takeInHand p r st s).lp = s.lp ∧ (takeInHand p r st s).freeCount = s.freeCount ∧ (takeInHand p r st s).pending = s.pending := by
  simp only [takeInHand]; (repeat' split) <;> simp

/-- What `dispatchRequest` leaves as it was. -/
@[simp] theorem dispatchRequest_frame (p : Station) (r : Request) (s : State) :
    (dispatchRequest p r s).resetLow = s.resetLow ∧ (dispatchRequest p r s).sgm.words = s.sgm.words ∧ (dispatchRequest p r s).sgm.clearing = s.sgm.clearing ∧ (dispatchRequest p r s).ge.table = s.ge.table ∧ (dispatchRequest p r s).ge.order = s.ge.order ∧ (dispatchRequest p r s).ge.following = s.ge.following ∧ (dispatchRequest p r s).ge.undo = s.ge.undo ∧ (dispatchRequest p r s).ge.holds = s.ge.holds ∧ (dispatchRequest p r s).ge.op = s.ge.op ∧ (dispatchRequest p r s).sru.announced = s.sru.announced ∧ (dispatchRequest p r s).sru.startOfLeaving = s.sru.startOfLeaving ∧ (dispatchRequest p r s).te.input = s.te.input ∧ (dispatchRequest p r s).te.closed = s.te.closed ∧ (dispatchRequest p r s).te.restarted = s.te.restarted ∧ (dispatchRequest p r s).re = s.re ∧ (dispatchRequest p r s).lc = s.lc ∧ (dispatchRequest p r s).stc = s.stc ∧ (dispatchRequest p r s).lp = s.lp ∧ (dispatchRequest p r s).freeCount = s.freeCount ∧ (dispatchRequest p r s).pending = s.pending := by
  simp only [dispatchRequest, afterTests]; (repeat' split) <;> simp

/-- What `evaluate` leaves as it was. -/
@[simp] theorem evaluate_frame (f : Frame) (h : Header) (s : State) :
    (evaluate f h s).resetLow = s.resetLow ∧ (evaluate f h s).sgm.words = s.sgm.words ∧ (evaluate f h s).sgm.clearing = s.sgm.clearing ∧ (evaluate f h s).ge.table = s.ge.table ∧ (evaluate f h s).ge.order = s.ge.order ∧ (evaluate f h s).ge.following = s.ge.following ∧ (evaluate f h s).ge.undo = s.ge.undo ∧ (evaluate f h s).ge.holds = s.ge.holds ∧ (evaluate f h s).ge.op = s.ge.op ∧ (evaluate f h s).sru.announced = s.sru.announced ∧ (evaluate f h s).sru.startOfLeaving = s.sru.startOfLeaving ∧ (evaluate f h s).te.input = s.te.input ∧ (evaluate f h s).te.closed = s.te.closed ∧ (evaluate f h s).te.restarted = s.te.restarted ∧ (evaluate f h s).re = s.re ∧ (evaluate f h s).lc = s.lc ∧ (evaluate f h s).stc = s.stc ∧ (evaluate f h s).lp = s.lp ∧ (evaluate f h s).freeCount = s.freeCount ∧ (evaluate f h s).pending = s.pending := by
  simp only [evaluate]; (repeat' split) <;> simp

/-- What `replayOrEvaluate` leaves as it was. -/
@[simp] theorem replayOrEvaluate_frame (f : Frame) (h : Header) (s : State) :
    (replayOrEvaluate f h s).resetLow = s.resetLow ∧ (replayOrEvaluate f h s).sgm.words = s.sgm.words ∧ (replayOrEvaluate f h s).sgm.clearing = s.sgm.clearing ∧ (replayOrEvaluate f h s).ge.table = s.ge.table ∧ (replayOrEvaluate f h s).ge.order = s.ge.order ∧ (replayOrEvaluate f h s).ge.following = s.ge.following ∧ (replayOrEvaluate f h s).ge.undo = s.ge.undo ∧ (replayOrEvaluate f h s).ge.holds = s.ge.holds ∧ (replayOrEvaluate f h s).ge.op = s.ge.op ∧ (replayOrEvaluate f h s).sru.announced = s.sru.announced ∧ (replayOrEvaluate f h s).sru.startOfLeaving = s.sru.startOfLeaving ∧ (replayOrEvaluate f h s).te.input = s.te.input ∧ (replayOrEvaluate f h s).te.closed = s.te.closed ∧ (replayOrEvaluate f h s).te.restarted = s.te.restarted ∧ (replayOrEvaluate f h s).re = s.re ∧ (replayOrEvaluate f h s).lc = s.lc ∧ (replayOrEvaluate f h s).stc = s.stc ∧ (replayOrEvaluate f h s).lp = s.lp ∧ (replayOrEvaluate f h s).freeCount = s.freeCount ∧ (replayOrEvaluate f h s).pending = s.pending := by
  simp only [replayOrEvaluate]; (repeat' split) <;> simp

/-- What `checkSequence` leaves as it was. -/
@[simp] theorem checkSequence_frame (f : Frame) (s : State) :
    (checkSequence f s).resetLow = s.resetLow ∧ (checkSequence f s).sgm.words = s.sgm.words ∧ (checkSequence f s).sgm.clearing = s.sgm.clearing ∧ (checkSequence f s).ge.table = s.ge.table ∧ (checkSequence f s).ge.order = s.ge.order ∧ (checkSequence f s).ge.following = s.ge.following ∧ (checkSequence f s).ge.undo = s.ge.undo ∧ (checkSequence f s).ge.holds = s.ge.holds ∧ (checkSequence f s).ge.op = s.ge.op ∧ (checkSequence f s).sru.announced = s.sru.announced ∧ (checkSequence f s).sru.startOfLeaving = s.sru.startOfLeaving ∧ (checkSequence f s).te.input = s.te.input ∧ (checkSequence f s).te.closed = s.te.closed ∧ (checkSequence f s).te.restarted = s.te.restarted ∧ (checkSequence f s).re = s.re ∧ (checkSequence f s).lc = s.lc ∧ (checkSequence f s).stc = s.stc ∧ (checkSequence f s).lp = s.lp ∧ (checkSequence f s).freeCount = s.freeCount ∧ (checkSequence f s).pending = s.pending := by
  simp only [checkSequence]; (repeat' split) <;> simp

/-- What `takeNextFrame` leaves as it was. -/
@[simp] theorem takeNextFrame_frame (s : State) :
    (takeNextFrame s).resetLow = s.resetLow ∧ (takeNextFrame s).sgm.words = s.sgm.words ∧ (takeNextFrame s).sgm.clearing = s.sgm.clearing ∧ (takeNextFrame s).ge.table = s.ge.table ∧ (takeNextFrame s).ge.order = s.ge.order ∧ (takeNextFrame s).ge.following = s.ge.following ∧ (takeNextFrame s).ge.undo = s.ge.undo ∧ (takeNextFrame s).ge.holds = s.ge.holds ∧ (takeNextFrame s).ge.op = s.ge.op ∧ (takeNextFrame s).sru.announced = s.sru.announced ∧ (takeNextFrame s).sru.startOfLeaving = s.sru.startOfLeaving ∧ (takeNextFrame s).te.closed = s.te.closed ∧ (takeNextFrame s).te.restarted = s.te.restarted ∧ (takeNextFrame s).re = s.re ∧ (takeNextFrame s).lc = s.lc ∧ (takeNextFrame s).stc = s.stc ∧ (takeNextFrame s).lp = s.lp ∧ (takeNextFrame s).freeCount = s.freeCount ∧ (takeNextFrame s).pending = s.pending := by
  simp only [takeNextFrame]; (repeat' split) <;> simp

/-- What `takeRestartOf` leaves as it was. -/
@[simp] theorem takeRestartOf_frame (p : Station) (s : State) :
    (takeRestartOf p s).resetLow = s.resetLow ∧ (takeRestartOf p s).sgm.words = s.sgm.words ∧ (takeRestartOf p s).sgm.clearing = s.sgm.clearing ∧ (takeRestartOf p s).ge = s.ge ∧ (takeRestartOf p s).sru.startOfLeaving = s.sru.startOfLeaving ∧ (takeRestartOf p s).te = s.te ∧ (takeRestartOf p s).pt = s.pt ∧ (takeRestartOf p s).re = s.re ∧ (takeRestartOf p s).lc = s.lc ∧ (takeRestartOf p s).stc = s.stc ∧ (takeRestartOf p s).lp = s.lp ∧ (takeRestartOf p s).freeCount = s.freeCount ∧ (takeRestartOf p s).pending = s.pending := by
  simp only [takeRestartOf]; (repeat' split) <;> simp

/-- What `passRequest` leaves as it was. -/
@[simp] theorem passRequest_frame (f : Frame) (s : State) :
    (passRequest f s).resetLow = s.resetLow ∧ (passRequest f s).sgm.words = s.sgm.words ∧ (passRequest f s).sgm.clearing = s.sgm.clearing ∧ (passRequest f s).ge.table = s.ge.table ∧ (passRequest f s).ge.order = s.ge.order ∧ (passRequest f s).ge.following = s.ge.following ∧ (passRequest f s).ge.undo = s.ge.undo ∧ (passRequest f s).ge.holds = s.ge.holds ∧ (passRequest f s).ge.op = s.ge.op ∧ (passRequest f s).sru.startOfLeaving = s.sru.startOfLeaving ∧ (passRequest f s).te.closed = s.te.closed ∧ (passRequest f s).te.restarted = s.te.restarted ∧ (passRequest f s).re = s.re ∧ (passRequest f s).lc = s.lc ∧ (passRequest f s).stc = s.stc ∧ (passRequest f s).lp = s.lp ∧ (passRequest f s).freeCount = s.freeCount ∧ (passRequest f s).pending = s.pending := by
  simp only [passRequest, enterInput]; (repeat' split) <;> simp

/-- What `updateStc` leaves as it was. -/
@[simp] theorem updateStc_frame (f : Stc → Stc) (s : State) :
    (updateStc f s).resetLow = s.resetLow ∧ (updateStc f s).sgm = s.sgm ∧ (updateStc f s).ge = s.ge ∧ (updateStc f s).sru = s.sru ∧ (updateStc f s).te = s.te ∧ (updateStc f s).pt = s.pt ∧ (updateStc f s).re = s.re ∧ (updateStc f s).lc = s.lc ∧ (updateStc f s).lp = s.lp ∧ (updateStc f s).freeCount = s.freeCount ∧ (updateStc f s).pending = s.pending := by
  simp only [updateStc]; (repeat' split) <;> simp

/-- What `enterState` leaves as it was. -/
@[simp] theorem enterState_frame (st : StationState) (s : State) :
    (enterState st s).resetLow = s.resetLow ∧ (enterState st s).sgm = s.sgm ∧ (enterState st s).ge = s.ge ∧ (enterState st s).sru = s.sru ∧ (enterState st s).te = s.te ∧ (enterState st s).pt = s.pt ∧ (enterState st s).re = s.re ∧ (enterState st s).lc = s.lc ∧ (enterState st s).stc.address = s.stc.address ∧ (enterState st s).stc.rate = s.stc.rate ∧ (enterState st s).stc.active = s.stc.active ∧ (enterState st s).stc.staged = s.stc.staged ∧ (enterState st s).stc.command = s.stc.command ∧ (enterState st s).stc.listen = s.stc.listen ∧ (enterState st s).stc.quiet = s.stc.quiet ∧ (enterState st s).stc.due = s.stc.due ∧ (enterState st s).stc.noGroupOpen = s.stc.noGroupOpen ∧ (enterState st s).lp.cycle = s.lp.cycle ∧ (enterState st s).lp.nextStrobe = s.lp.nextStrobe ∧ (enterState st s).lp.latch = s.lp.latch ∧ (enterState st s).lp.stagedLow = s.lp.stagedLow ∧ (enterState st s).lp.buffers = s.lp.buffers ∧ (enterState st s).lp.completions = s.lp.completions ∧ (enterState st s).lp.snapshot = s.lp.snapshot ∧ (enterState st s).lp.window = s.lp.window ∧ (enterState st s).lp.postResult = s.lp.postResult ∧ (enterState st s).freeCount = s.freeCount ∧ (enterState st s).pending = s.pending := by
  simp only [enterState, updateStc]; (repeat' split) <;> simp

/-- What `takeAllWaiting` leaves as it was. -/
@[simp] theorem takeAllWaiting_frame (s : State) :
    (takeAllWaiting s).resetLow = s.resetLow ∧ (takeAllWaiting s).sgm.words = s.sgm.words ∧ (takeAllWaiting s).sgm.clearing = s.sgm.clearing ∧ (takeAllWaiting s).ge = s.ge ∧ (takeAllWaiting s).te.input = s.te.input ∧ (takeAllWaiting s).te.hand = s.te.hand ∧ (takeAllWaiting s).te.closed = s.te.closed ∧ (takeAllWaiting s).lc.view = s.lc.view ∧ (takeAllWaiting s).lc.last0 = s.lc.last0 ∧ (takeAllWaiting s).lc.last1 = s.lc.last1 ∧ (takeAllWaiting s).lc.receive = s.lc.receive ∧ (takeAllWaiting s).stc = s.stc ∧ (takeAllWaiting s).lp.cycle = s.lp.cycle ∧ (takeAllWaiting s).lp.nextStrobe = s.lp.nextStrobe ∧ (takeAllWaiting s).lp.latch = s.lp.latch ∧ (takeAllWaiting s).lp.stagedLow = s.lp.stagedLow ∧ (takeAllWaiting s).lp.buffers = s.lp.buffers ∧ (takeAllWaiting s).lp.events = s.lp.events ∧ (takeAllWaiting s).lp.eventsLost = s.lp.eventsLost ∧ (takeAllWaiting s).lp.snapshot = s.lp.snapshot ∧ (takeAllWaiting s).lp.window = s.lp.window ∧ (takeAllWaiting s).lp.postResult = s.lp.postResult ∧ (takeAllWaiting s).freeCount = s.freeCount ∧ (takeAllWaiting s).pending = s.pending := by
  simp only [takeAllWaiting]; (repeat' split) <;> simp

/-- What `peersDown` leaves as it was. -/
@[simp] theorem peersDown_frame (b : Bool) (s : State) :
    (peersDown b s).resetLow = s.resetLow ∧ (peersDown b s).sgm = s.sgm ∧ (peersDown b s).ge = s.ge ∧ (peersDown b s).sru = s.sru ∧ (peersDown b s).te = s.te ∧ (peersDown b s).re = s.re ∧ (peersDown b s).lc = s.lc ∧ (peersDown b s).stc = s.stc ∧ (peersDown b s).lp = s.lp ∧ (peersDown b s).freeCount = s.freeCount ∧ (peersDown b s).pending = s.pending := by
  simp only [peersDown]; (repeat' split) <;> simp

/-- What `endLeaving` leaves as it was. -/
@[simp] theorem endLeaving_frame (s : State) :
    (endLeaving s).resetLow = s.resetLow ∧ (endLeaving s).sgm.words = s.sgm.words ∧ (endLeaving s).sgm.clearing = s.sgm.clearing ∧ (endLeaving s).ge.table = s.ge.table ∧ (endLeaving s).ge.order = s.ge.order ∧ (endLeaving s).ge.following = s.ge.following ∧ (endLeaving s).ge.undo = s.ge.undo ∧ (endLeaving s).ge.holds = s.ge.holds ∧ (endLeaving s).lc.view = s.lc.view ∧ (endLeaving s).lc.last0 = s.lc.last0 ∧ (endLeaving s).lc.last1 = s.lc.last1 ∧ (endLeaving s).lc.receive = s.lc.receive ∧ (endLeaving s).stc.address = s.stc.address ∧ (endLeaving s).stc.rate = s.stc.rate ∧ (endLeaving s).stc.active = s.stc.active ∧ (endLeaving s).stc.staged = s.stc.staged ∧ (endLeaving s).stc.command = s.stc.command ∧ (endLeaving s).stc.listen = s.stc.listen ∧ (endLeaving s).stc.noGroupOpen = s.stc.noGroupOpen ∧ (endLeaving s).lp.cycle = s.lp.cycle ∧ (endLeaving s).lp.nextStrobe = s.lp.nextStrobe ∧ (endLeaving s).lp.latch = s.lp.latch ∧ (endLeaving s).lp.stagedLow = s.lp.stagedLow ∧ (endLeaving s).lp.buffers = s.lp.buffers ∧ (endLeaving s).lp.snapshot = s.lp.snapshot ∧ (endLeaving s).lp.window = s.lp.window ∧ (endLeaving s).lp.postResult = s.lp.postResult ∧ (endLeaving s).freeCount = s.freeCount ∧ (endLeaving s).pending = s.pending := by
  simp only [endLeaving, staleReports, updateGe, updateStc]; (repeat' split) <;> simp

/-- What `leaveListening` leaves as it was. -/
@[simp] theorem leaveListening_frame (s : State) :
    (leaveListening s).resetLow = s.resetLow ∧ (leaveListening s).sgm.words = s.sgm.words ∧ (leaveListening s).sgm.clearing = s.sgm.clearing ∧ (leaveListening s).ge.table = s.ge.table ∧ (leaveListening s).ge.order = s.ge.order ∧ (leaveListening s).ge.following = s.ge.following ∧ (leaveListening s).ge.undo = s.ge.undo ∧ (leaveListening s).ge.holds = s.ge.holds ∧ (leaveListening s).te.input = s.te.input ∧ (leaveListening s).te.hand = s.te.hand ∧ (leaveListening s).te.closed = s.te.closed ∧ (leaveListening s).lc.view = s.lc.view ∧ (leaveListening s).lc.last0 = s.lc.last0 ∧ (leaveListening s).lc.last1 = s.lc.last1 ∧ (leaveListening s).lc.receive = s.lc.receive ∧ (leaveListening s).stc.address = s.stc.address ∧ (leaveListening s).stc.rate = s.stc.rate ∧ (leaveListening s).stc.active = s.stc.active ∧ (leaveListening s).stc.staged = s.stc.staged ∧ (leaveListening s).stc.command = s.stc.command ∧ (leaveListening s).stc.quiet = s.stc.quiet ∧ (leaveListening s).stc.noGroupOpen = s.stc.noGroupOpen ∧ (leaveListening s).lp.cycle = s.lp.cycle ∧ (leaveListening s).lp.nextStrobe = s.lp.nextStrobe ∧ (leaveListening s).lp.latch = s.lp.latch ∧ (leaveListening s).lp.stagedLow = s.lp.stagedLow ∧ (leaveListening s).lp.buffers = s.lp.buffers ∧ (leaveListening s).lp.snapshot = s.lp.snapshot ∧ (leaveListening s).lp.window = s.lp.window ∧ (leaveListening s).lp.postResult = s.lp.postResult ∧ (leaveListening s).freeCount = s.freeCount ∧ (leaveListening s).pending = s.pending := by
  simp only [leaveListening, staleReports, updateGe, updateStc]; (repeat' split) <;> simp

/-- What `setCommand` leaves as it was. -/
@[simp] theorem setCommand_frame (c : Command) (r : CommandResult) (s : State) :
    (setCommand c r s).resetLow = s.resetLow ∧ (setCommand c r s).sgm = s.sgm ∧ (setCommand c r s).ge = s.ge ∧ (setCommand c r s).sru = s.sru ∧ (setCommand c r s).te = s.te ∧ (setCommand c r s).pt = s.pt ∧ (setCommand c r s).re = s.re ∧ (setCommand c r s).lc = s.lc ∧ (setCommand c r s).stc.state = s.stc.state ∧ (setCommand c r s).stc.address = s.stc.address ∧ (setCommand c r s).stc.rate = s.stc.rate ∧ (setCommand c r s).stc.active = s.stc.active ∧ (setCommand c r s).stc.staged = s.stc.staged ∧ (setCommand c r s).stc.listen = s.stc.listen ∧ (setCommand c r s).stc.quiet = s.stc.quiet ∧ (setCommand c r s).stc.due = s.stc.due ∧ (setCommand c r s).stc.noGroupOpen = s.stc.noGroupOpen ∧ (setCommand c r s).lp = s.lp ∧ (setCommand c r s).freeCount = s.freeCount ∧ (setCommand c r s).pending = s.pending := by
  simp only [setCommand, updateStc]; (repeat' split) <;> simp

/-- What `configureInSetup` leaves as it was. -/
@[simp] theorem configureInSetup_frame (s : State) :
    (configureInSetup s).resetLow = s.resetLow ∧ (configureInSetup s).sgm = s.sgm ∧ (configureInSetup s).ge = s.ge ∧ (configureInSetup s).sru = s.sru ∧ (configureInSetup s).te = s.te ∧ (configureInSetup s).pt = s.pt ∧ (configureInSetup s).re = s.re ∧ (configureInSetup s).lc = s.lc ∧ (configureInSetup s).stc.state = s.stc.state ∧ (configureInSetup s).stc.address = s.stc.address ∧ (configureInSetup s).stc.rate = s.stc.rate ∧ (configureInSetup s).stc.staged = s.stc.staged ∧ (configureInSetup s).stc.listen = s.stc.listen ∧ (configureInSetup s).stc.quiet = s.stc.quiet ∧ (configureInSetup s).stc.due = s.stc.due ∧ (configureInSetup s).stc.noGroupOpen = s.stc.noGroupOpen ∧ (configureInSetup s).lp = s.lp ∧ (configureInSetup s).freeCount = s.freeCount ∧ (configureInSetup s).pending = s.pending := by
  simp only [configureInSetup, updateStc]; (repeat' split) <;> simp

/-- What `joinInSetup` leaves as it was. -/
@[simp] theorem joinInSetup_frame (s : State) :
    (joinInSetup s).resetLow = s.resetLow ∧ (joinInSetup s).sgm = s.sgm ∧ (joinInSetup s).ge = s.ge ∧ (joinInSetup s).sru = s.sru ∧ (joinInSetup s).te = s.te ∧ (joinInSetup s).re = s.re ∧ (joinInSetup s).lc.view = s.lc.view ∧ (joinInSetup s).lc.slot = s.lc.slot ∧ (joinInSetup s).lc.receive = s.lc.receive ∧ (joinInSetup s).stc.address = s.stc.address ∧ (joinInSetup s).stc.rate = s.stc.rate ∧ (joinInSetup s).stc.active = s.stc.active ∧ (joinInSetup s).stc.staged = s.stc.staged ∧ (joinInSetup s).stc.quiet = s.stc.quiet ∧ (joinInSetup s).stc.due = s.stc.due ∧ (joinInSetup s).stc.noGroupOpen = s.stc.noGroupOpen ∧ (joinInSetup s).lp.cycle = s.lp.cycle ∧ (joinInSetup s).lp.nextStrobe = s.lp.nextStrobe ∧ (joinInSetup s).lp.latch = s.lp.latch ∧ (joinInSetup s).lp.stagedLow = s.lp.stagedLow ∧ (joinInSetup s).lp.buffers = s.lp.buffers ∧ (joinInSetup s).lp.completions = s.lp.completions ∧ (joinInSetup s).lp.snapshot = s.lp.snapshot ∧ (joinInSetup s).lp.window = s.lp.window ∧ (joinInSetup s).lp.postResult = s.lp.postResult ∧ (joinInSetup s).freeCount = s.freeCount ∧ (joinInSetup s).pending = s.pending := by
  simp only [joinInSetup, updateStc]; (repeat' split) <;> simp

/-- What `leaveJoined` leaves as it was. -/
@[simp] theorem leaveJoined_frame (s : State) :
    (leaveJoined s).resetLow = s.resetLow ∧ (leaveJoined s).sgm = s.sgm ∧ (leaveJoined s).ge.table = s.ge.table ∧ (leaveJoined s).ge.order = s.ge.order ∧ (leaveJoined s).ge.following = s.ge.following ∧ (leaveJoined s).ge.undo = s.ge.undo ∧ (leaveJoined s).ge.holds = s.ge.holds ∧ (leaveJoined s).ge.op = s.ge.op ∧ (leaveJoined s).sru.slots = s.sru.slots ∧ (leaveJoined s).sru.work = s.sru.work ∧ (leaveJoined s).sru.announced = s.sru.announced ∧ (leaveJoined s).te = s.te ∧ (leaveJoined s).pt = s.pt ∧ (leaveJoined s).re.queue = s.re.queue ∧ (leaveJoined s).re.table = s.re.table ∧ (leaveJoined s).re.ready = s.re.ready ∧ (leaveJoined s).re.completing = s.re.completing ∧ (leaveJoined s).re.stalled = s.re.stalled ∧ (leaveJoined s).re.announced = s.re.announced ∧ (leaveJoined s).lc = s.lc ∧ (leaveJoined s).stc.address = s.stc.address ∧ (leaveJoined s).stc.rate = s.stc.rate ∧ (leaveJoined s).stc.active = s.stc.active ∧ (leaveJoined s).stc.staged = s.stc.staged ∧ (leaveJoined s).stc.command = s.stc.command ∧ (leaveJoined s).stc.listen = s.stc.listen ∧ (leaveJoined s).stc.quiet = s.stc.quiet ∧ (leaveJoined s).stc.due = s.stc.due ∧ (leaveJoined s).lp.cycle = s.lp.cycle ∧ (leaveJoined s).lp.nextStrobe = s.lp.nextStrobe ∧ (leaveJoined s).lp.latch = s.lp.latch ∧ (leaveJoined s).lp.stagedLow = s.lp.stagedLow ∧ (leaveJoined s).lp.buffers = s.lp.buffers ∧ (leaveJoined s).lp.completions = s.lp.completions ∧ (leaveJoined s).lp.snapshot = s.lp.snapshot ∧ (leaveJoined s).lp.window = s.lp.window ∧ (leaveJoined s).lp.postResult = s.lp.postResult ∧ (leaveJoined s).freeCount = s.freeCount ∧ (leaveJoined s).pending = s.pending := by
  simp only [leaveJoined, updateStc]; (repeat' split) <;> simp

/-- What `writeBufferHalf` leaves as it was. -/
@[simp] theorem writeBufferHalf_frame (b j : Fin 16) (hi : Bool) (v : Half) (s : State) :
    (writeBufferHalf b j hi v s).resetLow = s.resetLow ∧ (writeBufferHalf b j hi v s).sgm = s.sgm ∧ (writeBufferHalf b j hi v s).ge = s.ge ∧ (writeBufferHalf b j hi v s).sru = s.sru ∧ (writeBufferHalf b j hi v s).te = s.te ∧ (writeBufferHalf b j hi v s).pt = s.pt ∧ (writeBufferHalf b j hi v s).re = s.re ∧ (writeBufferHalf b j hi v s).lc = s.lc ∧ (writeBufferHalf b j hi v s).stc = s.stc ∧ (writeBufferHalf b j hi v s).lp.cycle = s.lp.cycle ∧ (writeBufferHalf b j hi v s).lp.nextStrobe = s.lp.nextStrobe ∧ (writeBufferHalf b j hi v s).lp.latch = s.lp.latch ∧ (writeBufferHalf b j hi v s).lp.stagedLow = s.lp.stagedLow ∧ (writeBufferHalf b j hi v s).lp.completions = s.lp.completions ∧ (writeBufferHalf b j hi v s).lp.events = s.lp.events ∧ (writeBufferHalf b j hi v s).lp.eventsLost = s.lp.eventsLost ∧ (writeBufferHalf b j hi v s).lp.snapshot = s.lp.snapshot ∧ (writeBufferHalf b j hi v s).lp.window = s.lp.window ∧ (writeBufferHalf b j hi v s).lp.postResult = s.lp.postResult ∧ (writeBufferHalf b j hi v s).freeCount = s.freeCount ∧ (writeBufferHalf b j hi v s).pending = s.pending := by
  simp only [writeBufferHalf]; (repeat' split) <;> simp

/-- What `writeConfig` leaves as it was. -/
@[simp] theorem writeConfig_frame (la : Nat) (v : Half) (s : State) :
    (writeConfig la v s).resetLow = s.resetLow ∧ (writeConfig la v s).sgm = s.sgm ∧ (writeConfig la v s).ge = s.ge ∧ (writeConfig la v s).sru = s.sru ∧ (writeConfig la v s).te = s.te ∧ (writeConfig la v s).pt = s.pt ∧ (writeConfig la v s).re = s.re ∧ (writeConfig la v s).lc = s.lc ∧ (writeConfig la v s).stc.state = s.stc.state ∧ (writeConfig la v s).stc.address = s.stc.address ∧ (writeConfig la v s).stc.rate = s.stc.rate ∧ (writeConfig la v s).stc.active = s.stc.active ∧ (writeConfig la v s).stc.command = s.stc.command ∧ (writeConfig la v s).stc.listen = s.stc.listen ∧ (writeConfig la v s).stc.quiet = s.stc.quiet ∧ (writeConfig la v s).stc.due = s.stc.due ∧ (writeConfig la v s).stc.noGroupOpen = s.stc.noGroupOpen ∧ (writeConfig la v s).lp = s.lp ∧ (writeConfig la v s).freeCount = s.freeCount ∧ (writeConfig la v s).pending = s.pending := by
  simp only [writeConfig, updateStc]; (repeat' split) <;> simp

/-- What `takeSnapshot` leaves as it was. -/
@[simp] theorem takeSnapshot_frame (s : State) :
    (takeSnapshot s).resetLow = s.resetLow ∧ (takeSnapshot s).sgm = s.sgm ∧ (takeSnapshot s).ge = s.ge ∧ (takeSnapshot s).sru = s.sru ∧ (takeSnapshot s).te = s.te ∧ (takeSnapshot s).pt = s.pt ∧ (takeSnapshot s).re = s.re ∧ (takeSnapshot s).lc = s.lc ∧ (takeSnapshot s).stc = s.stc ∧ (takeSnapshot s).lp.cycle = s.lp.cycle ∧ (takeSnapshot s).lp.nextStrobe = s.lp.nextStrobe ∧ (takeSnapshot s).lp.latch = s.lp.latch ∧ (takeSnapshot s).lp.stagedLow = s.lp.stagedLow ∧ (takeSnapshot s).lp.buffers = s.lp.buffers ∧ (takeSnapshot s).lp.completions = s.lp.completions ∧ (takeSnapshot s).lp.events = s.lp.events ∧ (takeSnapshot s).lp.eventsLost = s.lp.eventsLost ∧ (takeSnapshot s).lp.window = s.lp.window ∧ (takeSnapshot s).lp.postResult = s.lp.postResult ∧ (takeSnapshot s).freeCount = s.freeCount ∧ (takeSnapshot s).pending = s.pending := by
  simp only [takeSnapshot]; (repeat' split) <;> simp

/-- What `setCycle` leaves as it was. -/
@[simp] theorem setCycle_frame (c : Option Cycle) (s : State) :
    (setCycle c s).resetLow = s.resetLow ∧ (setCycle c s).sgm = s.sgm ∧ (setCycle c s).ge = s.ge ∧ (setCycle c s).sru = s.sru ∧ (setCycle c s).te = s.te ∧ (setCycle c s).pt = s.pt ∧ (setCycle c s).re = s.re ∧ (setCycle c s).lc = s.lc ∧ (setCycle c s).stc = s.stc ∧ (setCycle c s).lp.nextStrobe = s.lp.nextStrobe ∧ (setCycle c s).lp.latch = s.lp.latch ∧ (setCycle c s).lp.stagedLow = s.lp.stagedLow ∧ (setCycle c s).lp.buffers = s.lp.buffers ∧ (setCycle c s).lp.completions = s.lp.completions ∧ (setCycle c s).lp.events = s.lp.events ∧ (setCycle c s).lp.eventsLost = s.lp.eventsLost ∧ (setCycle c s).lp.snapshot = s.lp.snapshot ∧ (setCycle c s).lp.window = s.lp.window ∧ (setCycle c s).lp.postResult = s.lp.postResult ∧ (setCycle c s).freeCount = s.freeCount ∧ (setCycle c s).pending = s.pending := by
  simp only [setCycle]; (repeat' split) <;> simp

/-- What `snapshotFor` leaves as it was. -/
@[simp] theorem snapshotFor_frame (la : BitVec 14) (s : State) :
    (snapshotFor la s).resetLow = s.resetLow ∧ (snapshotFor la s).sgm = s.sgm ∧ (snapshotFor la s).ge = s.ge ∧ (snapshotFor la s).sru = s.sru ∧ (snapshotFor la s).te = s.te ∧ (snapshotFor la s).pt = s.pt ∧ (snapshotFor la s).re = s.re ∧ (snapshotFor la s).lc = s.lc ∧ (snapshotFor la s).stc = s.stc ∧ (snapshotFor la s).lp.cycle = s.lp.cycle ∧ (snapshotFor la s).lp.nextStrobe = s.lp.nextStrobe ∧ (snapshotFor la s).lp.latch = s.lp.latch ∧ (snapshotFor la s).lp.stagedLow = s.lp.stagedLow ∧ (snapshotFor la s).lp.buffers = s.lp.buffers ∧ (snapshotFor la s).lp.completions = s.lp.completions ∧ (snapshotFor la s).lp.events = s.lp.events ∧ (snapshotFor la s).lp.eventsLost = s.lp.eventsLost ∧ (snapshotFor la s).lp.window = s.lp.window ∧ (snapshotFor la s).lp.postResult = s.lp.postResult ∧ (snapshotFor la s).freeCount = s.freeCount ∧ (snapshotFor la s).pending = s.pending := by
  simp only [snapshotFor]; (repeat' split) <;> simp

/-- What `beginClaim` leaves as it was. -/
@[simp] theorem beginClaim_frame (b : BusCycle) (s : State) :
    (beginClaim b s).resetLow = s.resetLow ∧ (beginClaim b s).sgm.words = s.sgm.words ∧ (beginClaim b s).sgm.clearing = s.sgm.clearing ∧ (beginClaim b s).ge = s.ge ∧ (beginClaim b s).sru = s.sru ∧ (beginClaim b s).te = s.te ∧ (beginClaim b s).pt = s.pt ∧ (beginClaim b s).re = s.re ∧ (beginClaim b s).lc = s.lc ∧ (beginClaim b s).stc = s.stc ∧ (beginClaim b s).lp.nextStrobe = s.lp.nextStrobe ∧ (beginClaim b s).lp.latch = s.lp.latch ∧ (beginClaim b s).lp.stagedLow = s.lp.stagedLow ∧ (beginClaim b s).lp.buffers = s.lp.buffers ∧ (beginClaim b s).lp.completions = s.lp.completions ∧ (beginClaim b s).lp.events = s.lp.events ∧ (beginClaim b s).lp.eventsLost = s.lp.eventsLost ∧ (beginClaim b s).lp.snapshot = s.lp.snapshot ∧ (beginClaim b s).lp.window = s.lp.window ∧ (beginClaim b s).lp.postResult = s.lp.postResult ∧ (beginClaim b s).freeCount = s.freeCount ∧ (beginClaim b s).pending = s.pending := by
  simp only [beginClaim]; (repeat' split) <;> simp

/-- What `stageLow` leaves as it was. -/
@[simp] theorem stageLow_frame (a : BitVec 12) (v : Half) (s : State) :
    (stageLow a v s).resetLow = s.resetLow ∧ (stageLow a v s).sgm = s.sgm ∧ (stageLow a v s).ge = s.ge ∧ (stageLow a v s).sru = s.sru ∧ (stageLow a v s).te = s.te ∧ (stageLow a v s).pt = s.pt ∧ (stageLow a v s).re = s.re ∧ (stageLow a v s).lc = s.lc ∧ (stageLow a v s).stc = s.stc ∧ (stageLow a v s).lp.cycle = s.lp.cycle ∧ (stageLow a v s).lp.nextStrobe = s.lp.nextStrobe ∧ (stageLow a v s).lp.latch = s.lp.latch ∧ (stageLow a v s).lp.buffers = s.lp.buffers ∧ (stageLow a v s).lp.completions = s.lp.completions ∧ (stageLow a v s).lp.events = s.lp.events ∧ (stageLow a v s).lp.eventsLost = s.lp.eventsLost ∧ (stageLow a v s).lp.snapshot = s.lp.snapshot ∧ (stageLow a v s).lp.window = s.lp.window ∧ (stageLow a v s).lp.postResult = s.lp.postResult ∧ (stageLow a v s).freeCount = s.freeCount ∧ (stageLow a v s).pending = s.pending := by
  simp only [stageLow]; (repeat' split) <;> simp

/-- What `countRead` leaves as it was: everything but the counter of the free values. -/
@[simp] theorem countRead_frame (la : BitVec 14) (s : State) :
    (countRead la s).resetLow = s.resetLow ∧ (countRead la s).sgm = s.sgm ∧ (countRead la s).ge = s.ge ∧ (countRead la s).sru = s.sru ∧ (countRead la s).te = s.te ∧ (countRead la s).pt = s.pt ∧ (countRead la s).re = s.re ∧ (countRead la s).lc = s.lc ∧ (countRead la s).stc = s.stc ∧ (countRead la s).lp = s.lp ∧ (countRead la s).pending = s.pending := by
  simp only [countRead, countFree]; (repeat' split) <;> simp

/-- What `beginRead` leaves as it was. -/
@[simp] theorem beginRead_frame (la : BitVec 14) (s : State) :
    (beginRead la s).resetLow = s.resetLow ∧ (beginRead la s).sgm.words = s.sgm.words ∧ (beginRead la s).sgm.clearing = s.sgm.clearing ∧ (beginRead la s).ge = s.ge ∧ (beginRead la s).sru = s.sru ∧ (beginRead la s).te = s.te ∧ (beginRead la s).pt = s.pt ∧ (beginRead la s).re = s.re ∧ (beginRead la s).lc = s.lc ∧ (beginRead la s).stc = s.stc ∧ (beginRead la s).lp.nextStrobe = s.lp.nextStrobe ∧ (beginRead la s).lp.latch = s.lp.latch ∧ (beginRead la s).lp.stagedLow = s.lp.stagedLow ∧ (beginRead la s).lp.buffers = s.lp.buffers ∧ (beginRead la s).lp.completions = s.lp.completions ∧ (beginRead la s).lp.events = s.lp.events ∧ (beginRead la s).lp.eventsLost = s.lp.eventsLost ∧ (beginRead la s).lp.window = s.lp.window ∧ (beginRead la s).lp.postResult = s.lp.postResult ∧ (beginRead la s).pending = s.pending := by
  simp only [beginRead, beginNoClaim]; (repeat' split) <;> simp

/-- What `closeCycle` leaves as it was. -/
@[simp] theorem closeCycle_frame (b : BusCycle) (s : State) :
    (closeCycle b s).resetLow = s.resetLow ∧ (closeCycle b s).sgm = s.sgm ∧ (closeCycle b s).ge = s.ge ∧ (closeCycle b s).sru = s.sru ∧ (closeCycle b s).te = s.te ∧ (closeCycle b s).pt = s.pt ∧ (closeCycle b s).re = s.re ∧ (closeCycle b s).lc = s.lc ∧ (closeCycle b s).stc = s.stc ∧ (closeCycle b s).lp.nextStrobe = s.lp.nextStrobe ∧ (closeCycle b s).lp.stagedLow = s.lp.stagedLow ∧ (closeCycle b s).lp.buffers = s.lp.buffers ∧ (closeCycle b s).lp.completions = s.lp.completions ∧ (closeCycle b s).lp.events = s.lp.events ∧ (closeCycle b s).lp.eventsLost = s.lp.eventsLost ∧ (closeCycle b s).lp.snapshot = s.lp.snapshot ∧ (closeCycle b s).lp.window = s.lp.window ∧ (closeCycle b s).lp.postResult = s.lp.postResult ∧ (closeCycle b s).freeCount = s.freeCount ∧ (closeCycle b s).pending = s.pending := by
  simp only [closeCycle]; (repeat' split) <;> simp

/-- What `raiseStrobe` leaves as it was. -/
@[simp] theorem raiseStrobe_frame (s : State) :
    (raiseStrobe s).resetLow = s.resetLow ∧ (raiseStrobe s).sgm = s.sgm ∧ (raiseStrobe s).ge = s.ge ∧ (raiseStrobe s).sru = s.sru ∧ (raiseStrobe s).te = s.te ∧ (raiseStrobe s).pt = s.pt ∧ (raiseStrobe s).re = s.re ∧ (raiseStrobe s).lc = s.lc ∧ (raiseStrobe s).stc = s.stc ∧ (raiseStrobe s).lp.stagedLow = s.lp.stagedLow ∧ (raiseStrobe s).lp.buffers = s.lp.buffers ∧ (raiseStrobe s).lp.completions = s.lp.completions ∧ (raiseStrobe s).lp.events = s.lp.events ∧ (raiseStrobe s).lp.eventsLost = s.lp.eventsLost ∧ (raiseStrobe s).lp.snapshot = s.lp.snapshot ∧ (raiseStrobe s).lp.window = s.lp.window ∧ (raiseStrobe s).lp.postResult = s.lp.postResult ∧ (raiseStrobe s).freeCount = s.freeCount ∧ (raiseStrobe s).pending = s.pending := by
  simp only [raiseStrobe]; (repeat' split) <;> simp

/-- What `dropStaged` leaves as it was. -/
@[simp] theorem dropStaged_frame (s : State) :
    (dropStaged s).resetLow = s.resetLow ∧ (dropStaged s).sgm = s.sgm ∧ (dropStaged s).ge = s.ge ∧ (dropStaged s).sru = s.sru ∧ (dropStaged s).te = s.te ∧ (dropStaged s).pt = s.pt ∧ (dropStaged s).re = s.re ∧ (dropStaged s).lc = s.lc ∧ (dropStaged s).stc = s.stc ∧ (dropStaged s).lp.cycle = s.lp.cycle ∧ (dropStaged s).lp.nextStrobe = s.lp.nextStrobe ∧ (dropStaged s).lp.latch = s.lp.latch ∧ (dropStaged s).lp.buffers = s.lp.buffers ∧ (dropStaged s).lp.completions = s.lp.completions ∧ (dropStaged s).lp.events = s.lp.events ∧ (dropStaged s).lp.eventsLost = s.lp.eventsLost ∧ (dropStaged s).lp.snapshot = s.lp.snapshot ∧ (dropStaged s).lp.window = s.lp.window ∧ (dropStaged s).lp.postResult = s.lp.postResult ∧ (dropStaged s).freeCount = s.freeCount ∧ (dropStaged s).pending = s.pending := by
  simp only [dropStaged]; (repeat' split) <;> simp

/-- What `consumeCompletion` leaves as it was. -/
@[simp] theorem consumeCompletion_frame (s : State) :
    (consumeCompletion s).resetLow = s.resetLow ∧ (consumeCompletion s).sgm = s.sgm ∧ (consumeCompletion s).ge = s.ge ∧ (consumeCompletion s).sru = s.sru ∧ (consumeCompletion s).te = s.te ∧ (consumeCompletion s).re.announced = s.re.announced ∧ (consumeCompletion s).re.startOfLeaving = s.re.startOfLeaving ∧ (consumeCompletion s).lc = s.lc ∧ (consumeCompletion s).stc = s.stc ∧ (consumeCompletion s).lp.cycle = s.lp.cycle ∧ (consumeCompletion s).lp.nextStrobe = s.lp.nextStrobe ∧ (consumeCompletion s).lp.latch = s.lp.latch ∧ (consumeCompletion s).lp.stagedLow = s.lp.stagedLow ∧ (consumeCompletion s).lp.buffers = s.lp.buffers ∧ (consumeCompletion s).lp.events = s.lp.events ∧ (consumeCompletion s).lp.eventsLost = s.lp.eventsLost ∧ (consumeCompletion s).lp.snapshot = s.lp.snapshot ∧ (consumeCompletion s).lp.window = s.lp.window ∧ (consumeCompletion s).lp.postResult = s.lp.postResult ∧ (consumeCompletion s).freeCount = s.freeCount ∧ (consumeCompletion s).pending = s.pending := by
  simp only [consumeCompletion]; (repeat' split) <;> simp

/-- What `consumeEvent` leaves as it was. -/
@[simp] theorem consumeEvent_frame (s : State) :
    (consumeEvent s).resetLow = s.resetLow ∧ (consumeEvent s).sgm = s.sgm ∧ (consumeEvent s).ge = s.ge ∧ (consumeEvent s).sru = s.sru ∧ (consumeEvent s).te = s.te ∧ (consumeEvent s).pt = s.pt ∧ (consumeEvent s).re = s.re ∧ (consumeEvent s).lc = s.lc ∧ (consumeEvent s).stc = s.stc ∧ (consumeEvent s).lp.cycle = s.lp.cycle ∧ (consumeEvent s).lp.nextStrobe = s.lp.nextStrobe ∧ (consumeEvent s).lp.latch = s.lp.latch ∧ (consumeEvent s).lp.stagedLow = s.lp.stagedLow ∧ (consumeEvent s).lp.buffers = s.lp.buffers ∧ (consumeEvent s).lp.completions = s.lp.completions ∧ (consumeEvent s).lp.snapshot = s.lp.snapshot ∧ (consumeEvent s).lp.window = s.lp.window ∧ (consumeEvent s).lp.postResult = s.lp.postResult ∧ (consumeEvent s).freeCount = s.freeCount ∧ (consumeEvent s).pending = s.pending := by
  simp only [consumeEvent]; (repeat' split) <;> simp

/-- What `updateLc` leaves as it was. -/
@[simp] theorem updateLc_frame (f : Lc → Lc) (s : State) :
    (updateLc f s).resetLow = s.resetLow ∧ (updateLc f s).sgm = s.sgm ∧ (updateLc f s).ge = s.ge ∧ (updateLc f s).sru = s.sru ∧ (updateLc f s).te = s.te ∧ (updateLc f s).pt = s.pt ∧ (updateLc f s).re = s.re ∧ (updateLc f s).stc = s.stc ∧ (updateLc f s).lp = s.lp ∧ (updateLc f s).freeCount = s.freeCount ∧ (updateLc f s).pending = s.pending := by
  simp only [updateLc]; (repeat' split) <;> simp

/-- What `responseSent` leaves as it was. -/
@[simp] theorem responseSent_frame (s : State) :
    (responseSent s).resetLow = s.resetLow ∧ (responseSent s).sgm = s.sgm ∧ (responseSent s).ge = s.ge ∧ (responseSent s).sru = s.sru ∧ (responseSent s).te.input = s.te.input ∧ (responseSent s).te.hand = s.te.hand ∧ (responseSent s).te.closed = s.te.closed ∧ (responseSent s).te.restarted = s.te.restarted ∧ (responseSent s).pt = s.pt ∧ (responseSent s).re = s.re ∧ (responseSent s).lc = s.lc ∧ (responseSent s).stc = s.stc ∧ (responseSent s).lp = s.lp ∧ (responseSent s).freeCount = s.freeCount ∧ (responseSent s).pending = s.pending := by
  simp only [responseSent]; (repeat' split) <;> simp

/-- What `responseFaulted` leaves as it was. -/
@[simp] theorem responseFaulted_frame (s : State) :
    (responseFaulted s).resetLow = s.resetLow ∧ (responseFaulted s).sgm = s.sgm ∧ (responseFaulted s).ge = s.ge ∧ (responseFaulted s).sru = s.sru ∧ (responseFaulted s).te.input = s.te.input ∧ (responseFaulted s).te.hand = s.te.hand ∧ (responseFaulted s).te.closed = s.te.closed ∧ (responseFaulted s).te.restarted = s.te.restarted ∧ (responseFaulted s).pt = s.pt ∧ (responseFaulted s).re = s.re ∧ (responseFaulted s).lc = s.lc ∧ (responseFaulted s).stc = s.stc ∧ (responseFaulted s).lp = s.lp ∧ (responseFaulted s).freeCount = s.freeCount ∧ (responseFaulted s).pending = s.pending := by
  simp only [responseFaulted]; (repeat' split) <;> simp

/-- What `freshSent` leaves as it was. -/
@[simp] theorem freshSent_frame (s : State) :
    (freshSent s).resetLow = s.resetLow ∧ (freshSent s).sgm = s.sgm ∧ (freshSent s).ge = s.ge ∧ (freshSent s).sru = s.sru ∧ (freshSent s).te = s.te ∧ (freshSent s).pt = s.pt ∧ (freshSent s).re = s.re ∧ (freshSent s).lc = s.lc ∧ (freshSent s).stc.address = s.stc.address ∧ (freshSent s).stc.rate = s.stc.rate ∧ (freshSent s).stc.active = s.stc.active ∧ (freshSent s).stc.staged = s.stc.staged ∧ (freshSent s).stc.command = s.stc.command ∧ (freshSent s).stc.listen = s.stc.listen ∧ (freshSent s).stc.noGroupOpen = s.stc.noGroupOpen ∧ (freshSent s).lp.cycle = s.lp.cycle ∧ (freshSent s).lp.nextStrobe = s.lp.nextStrobe ∧ (freshSent s).lp.latch = s.lp.latch ∧ (freshSent s).lp.stagedLow = s.lp.stagedLow ∧ (freshSent s).lp.buffers = s.lp.buffers ∧ (freshSent s).lp.completions = s.lp.completions ∧ (freshSent s).lp.snapshot = s.lp.snapshot ∧ (freshSent s).lp.window = s.lp.window ∧ (freshSent s).lp.postResult = s.lp.postResult ∧ (freshSent s).freeCount = s.freeCount ∧ (freshSent s).pending = s.pending := by
  simp only [freshSent, updateStc]; (repeat' split) <;> simp

/-- What `frameSent` leaves as it was. -/
@[simp] theorem frameSent_frame (before : State) (s : State) :
    (frameSent before s).resetLow = s.resetLow ∧ (frameSent before s).sgm = s.sgm ∧ (frameSent before s).ge = s.ge ∧ (frameSent before s).sru = s.sru ∧ (frameSent before s).te = s.te ∧ (frameSent before s).pt = s.pt ∧ (frameSent before s).re = s.re ∧ (frameSent before s).lc = s.lc ∧ (frameSent before s).stc.state = s.stc.state ∧ (frameSent before s).stc.address = s.stc.address ∧ (frameSent before s).stc.rate = s.stc.rate ∧ (frameSent before s).stc.active = s.stc.active ∧ (frameSent before s).stc.staged = s.stc.staged ∧ (frameSent before s).stc.command = s.stc.command ∧ (frameSent before s).stc.listen = s.stc.listen ∧ (frameSent before s).stc.noGroupOpen = s.stc.noGroupOpen ∧ (frameSent before s).lp = s.lp ∧ (frameSent before s).freeCount = s.freeCount ∧ (frameSent before s).pending = s.pending := by
  simp only [frameSent, updateStc]; (repeat' split) <;> simp

/-- What `endReception` leaves as it was. -/
@[simp] theorem endReception_frame (s : State) :
    (endReception s).resetLow = s.resetLow ∧ (endReception s).sgm = s.sgm ∧ (endReception s).ge = s.ge ∧ (endReception s).sru = s.sru ∧ (endReception s).te = s.te ∧ (endReception s).pt = s.pt ∧ (endReception s).re = s.re ∧ (endReception s).lc.last0 = s.lc.last0 ∧ (endReception s).lc.last1 = s.lc.last1 ∧ (endReception s).stc = s.stc ∧ (endReception s).lp = s.lp ∧ (endReception s).freeCount = s.freeCount ∧ (endReception s).pending = s.pending := by
  simp only [endReception, updateLc]; (repeat' split) <;> simp

/-- What `lineBecomesIdle` leaves as it was. -/
@[simp] theorem lineBecomesIdle_frame (s : State) :
    (lineBecomesIdle s).resetLow = s.resetLow ∧ (lineBecomesIdle s).sgm = s.sgm ∧ (lineBecomesIdle s).ge = s.ge ∧ (lineBecomesIdle s).sru = s.sru ∧ (lineBecomesIdle s).te = s.te ∧ (lineBecomesIdle s).pt = s.pt ∧ (lineBecomesIdle s).re = s.re ∧ (lineBecomesIdle s).lc.last0 = s.lc.last0 ∧ (lineBecomesIdle s).lc.last1 = s.lc.last1 ∧ (lineBecomesIdle s).lc.slot = s.lc.slot ∧ (lineBecomesIdle s).lc.receive = s.lc.receive ∧ (lineBecomesIdle s).stc = s.stc ∧ (lineBecomesIdle s).lp = s.lp ∧ (lineBecomesIdle s).freeCount = s.freeCount ∧ (lineBecomesIdle s).pending = s.pending := by
  simp only [lineBecomesIdle, updateLc]; (repeat' split) <;> simp

/-- What `commandConfigure` leaves as it was. -/
@[simp] theorem commandConfigure_frame (s : State) :
    (commandConfigure s).resetLow = s.resetLow ∧ (commandConfigure s).sgm = s.sgm ∧ (commandConfigure s).ge = s.ge ∧ (commandConfigure s).sru = s.sru ∧ (commandConfigure s).te = s.te ∧ (commandConfigure s).pt = s.pt ∧ (commandConfigure s).re = s.re ∧ (commandConfigure s).lc = s.lc ∧ (commandConfigure s).stc.state = s.stc.state ∧ (commandConfigure s).stc.address = s.stc.address ∧ (commandConfigure s).stc.rate = s.stc.rate ∧ (commandConfigure s).stc.staged = s.stc.staged ∧ (commandConfigure s).stc.listen = s.stc.listen ∧ (commandConfigure s).stc.quiet = s.stc.quiet ∧ (commandConfigure s).stc.due = s.stc.due ∧ (commandConfigure s).stc.noGroupOpen = s.stc.noGroupOpen ∧ (commandConfigure s).lp = s.lp ∧ (commandConfigure s).freeCount = s.freeCount ∧ (commandConfigure s).pending = s.pending := by
  simp only [commandConfigure]; (repeat' split) <;> simp

/-- What `commandJoin` leaves as it was. -/
@[simp] theorem commandJoin_frame (s : State) :
    (commandJoin s).resetLow = s.resetLow ∧ (commandJoin s).sgm = s.sgm ∧ (commandJoin s).ge = s.ge ∧ (commandJoin s).sru = s.sru ∧ (commandJoin s).te = s.te ∧ (commandJoin s).re = s.re ∧ (commandJoin s).lc.view = s.lc.view ∧ (commandJoin s).lc.slot = s.lc.slot ∧ (commandJoin s).lc.receive = s.lc.receive ∧ (commandJoin s).stc.address = s.stc.address ∧ (commandJoin s).stc.rate = s.stc.rate ∧ (commandJoin s).stc.active = s.stc.active ∧ (commandJoin s).stc.staged = s.stc.staged ∧ (commandJoin s).stc.quiet = s.stc.quiet ∧ (commandJoin s).stc.due = s.stc.due ∧ (commandJoin s).stc.noGroupOpen = s.stc.noGroupOpen ∧ (commandJoin s).lp.cycle = s.lp.cycle ∧ (commandJoin s).lp.nextStrobe = s.lp.nextStrobe ∧ (commandJoin s).lp.latch = s.lp.latch ∧ (commandJoin s).lp.stagedLow = s.lp.stagedLow ∧ (commandJoin s).lp.buffers = s.lp.buffers ∧ (commandJoin s).lp.completions = s.lp.completions ∧ (commandJoin s).lp.snapshot = s.lp.snapshot ∧ (commandJoin s).lp.window = s.lp.window ∧ (commandJoin s).lp.postResult = s.lp.postResult ∧ (commandJoin s).freeCount = s.freeCount ∧ (commandJoin s).pending = s.pending := by
  simp only [commandJoin]; (repeat' split) <;> simp

/-- What `commandLeave` leaves as it was. -/
@[simp] theorem commandLeave_frame (s : State) :
    (commandLeave s).resetLow = s.resetLow ∧ (commandLeave s).sgm.words = s.sgm.words ∧ (commandLeave s).sgm.clearing = s.sgm.clearing ∧ (commandLeave s).ge.table = s.ge.table ∧ (commandLeave s).ge.order = s.ge.order ∧ (commandLeave s).ge.following = s.ge.following ∧ (commandLeave s).ge.undo = s.ge.undo ∧ (commandLeave s).ge.holds = s.ge.holds ∧ (commandLeave s).te.input = s.te.input ∧ (commandLeave s).te.hand = s.te.hand ∧ (commandLeave s).te.closed = s.te.closed ∧ (commandLeave s).lc.view = s.lc.view ∧ (commandLeave s).lc.last0 = s.lc.last0 ∧ (commandLeave s).lc.last1 = s.lc.last1 ∧ (commandLeave s).lc.receive = s.lc.receive ∧ (commandLeave s).stc.address = s.stc.address ∧ (commandLeave s).stc.rate = s.stc.rate ∧ (commandLeave s).stc.active = s.stc.active ∧ (commandLeave s).stc.staged = s.stc.staged ∧ (commandLeave s).stc.quiet = s.stc.quiet ∧ (commandLeave s).lp.cycle = s.lp.cycle ∧ (commandLeave s).lp.nextStrobe = s.lp.nextStrobe ∧ (commandLeave s).lp.latch = s.lp.latch ∧ (commandLeave s).lp.stagedLow = s.lp.stagedLow ∧ (commandLeave s).lp.buffers = s.lp.buffers ∧ (commandLeave s).lp.snapshot = s.lp.snapshot ∧ (commandLeave s).lp.window = s.lp.window ∧ (commandLeave s).lp.postResult = s.lp.postResult ∧ (commandLeave s).freeCount = s.freeCount ∧ (commandLeave s).pending = s.pending := by
  simp only [commandLeave]; (repeat' split) <;> simp

/-- What `commandRevoke` leaves as it was. -/
@[simp] theorem commandRevoke_frame (s : State) :
    (commandRevoke s).resetLow = s.resetLow ∧ (commandRevoke s).sgm = s.sgm ∧ (commandRevoke s).ge.table = s.ge.table ∧ (commandRevoke s).ge.order = s.ge.order ∧ (commandRevoke s).ge.following = s.ge.following ∧ (commandRevoke s).ge.undo = s.ge.undo ∧ (commandRevoke s).ge.holds = s.ge.holds ∧ (commandRevoke s).ge.op = s.ge.op ∧ (commandRevoke s).sru = s.sru ∧ (commandRevoke s).te = s.te ∧ (commandRevoke s).pt = s.pt ∧ (commandRevoke s).re = s.re ∧ (commandRevoke s).lc = s.lc ∧ (commandRevoke s).stc.state = s.stc.state ∧ (commandRevoke s).stc.address = s.stc.address ∧ (commandRevoke s).stc.rate = s.stc.rate ∧ (commandRevoke s).stc.active = s.stc.active ∧ (commandRevoke s).stc.staged = s.stc.staged ∧ (commandRevoke s).stc.listen = s.stc.listen ∧ (commandRevoke s).stc.quiet = s.stc.quiet ∧ (commandRevoke s).stc.due = s.stc.due ∧ (commandRevoke s).stc.noGroupOpen = s.stc.noGroupOpen ∧ (commandRevoke s).lp = s.lp ∧ (commandRevoke s).freeCount = s.freeCount ∧ (commandRevoke s).pending = s.pending := by
  simp only [commandRevoke]; (repeat' split) <;> simp

/-- What `takeCommand` leaves as it was. -/
@[simp] theorem takeCommand_frame (c : Command) (s : State) :
    (takeCommand c s).resetLow = s.resetLow ∧ (takeCommand c s).sgm.words = s.sgm.words ∧ (takeCommand c s).sgm.clearing = s.sgm.clearing ∧ (takeCommand c s).ge.table = s.ge.table ∧ (takeCommand c s).ge.order = s.ge.order ∧ (takeCommand c s).ge.following = s.ge.following ∧ (takeCommand c s).ge.undo = s.ge.undo ∧ (takeCommand c s).ge.holds = s.ge.holds ∧ (takeCommand c s).te.input = s.te.input ∧ (takeCommand c s).te.hand = s.te.hand ∧ (takeCommand c s).te.closed = s.te.closed ∧ (takeCommand c s).lc.view = s.lc.view ∧ (takeCommand c s).lc.receive = s.lc.receive ∧ (takeCommand c s).stc.address = s.stc.address ∧ (takeCommand c s).stc.rate = s.stc.rate ∧ (takeCommand c s).stc.staged = s.stc.staged ∧ (takeCommand c s).stc.quiet = s.stc.quiet ∧ (takeCommand c s).lp.cycle = s.lp.cycle ∧ (takeCommand c s).lp.nextStrobe = s.lp.nextStrobe ∧ (takeCommand c s).lp.latch = s.lp.latch ∧ (takeCommand c s).lp.stagedLow = s.lp.stagedLow ∧ (takeCommand c s).lp.buffers = s.lp.buffers ∧ (takeCommand c s).lp.snapshot = s.lp.snapshot ∧ (takeCommand c s).lp.window = s.lp.window ∧ (takeCommand c s).lp.postResult = s.lp.postResult ∧ (takeCommand c s).freeCount = s.freeCount ∧ (takeCommand c s).pending = s.pending := by
  simp only [takeCommand]; (repeat' split) <;> simp

/-- What `writeCommand` leaves as it was. -/
@[simp] theorem writeCommand_frame (v : Half) (s : State) :
    (writeCommand v s).resetLow = s.resetLow ∧ (writeCommand v s).sgm.words = s.sgm.words ∧ (writeCommand v s).sgm.clearing = s.sgm.clearing ∧ (writeCommand v s).ge.table = s.ge.table ∧ (writeCommand v s).ge.order = s.ge.order ∧ (writeCommand v s).ge.following = s.ge.following ∧ (writeCommand v s).ge.undo = s.ge.undo ∧ (writeCommand v s).ge.holds = s.ge.holds ∧ (writeCommand v s).te.input = s.te.input ∧ (writeCommand v s).te.hand = s.te.hand ∧ (writeCommand v s).te.closed = s.te.closed ∧ (writeCommand v s).lc.view = s.lc.view ∧ (writeCommand v s).lc.receive = s.lc.receive ∧ (writeCommand v s).stc.address = s.stc.address ∧ (writeCommand v s).stc.rate = s.stc.rate ∧ (writeCommand v s).stc.staged = s.stc.staged ∧ (writeCommand v s).stc.quiet = s.stc.quiet ∧ (writeCommand v s).lp.cycle = s.lp.cycle ∧ (writeCommand v s).lp.nextStrobe = s.lp.nextStrobe ∧ (writeCommand v s).lp.latch = s.lp.latch ∧ (writeCommand v s).lp.stagedLow = s.lp.stagedLow ∧ (writeCommand v s).lp.buffers = s.lp.buffers ∧ (writeCommand v s).lp.snapshot = s.lp.snapshot ∧ (writeCommand v s).lp.window = s.lp.window ∧ (writeCommand v s).lp.postResult = s.lp.postResult ∧ (writeCommand v s).freeCount = s.freeCount ∧ (writeCommand v s).pending = s.pending := by
  simp only [writeCommand]; (repeat' split) <;> simp

/-- What `writeWindow` leaves as it was. -/
@[simp] theorem writeWindow_frame (k : Nat) (v : Half) (s : State) :
    (writeWindow k v s).resetLow = s.resetLow ∧ (writeWindow k v s).sgm.words = s.sgm.words ∧ (writeWindow k v s).sgm.clearing = s.sgm.clearing ∧ (writeWindow k v s).ge.table = s.ge.table ∧ (writeWindow k v s).ge.order = s.ge.order ∧ (writeWindow k v s).ge.following = s.ge.following ∧ (writeWindow k v s).ge.undo = s.ge.undo ∧ (writeWindow k v s).ge.holds = s.ge.holds ∧ (writeWindow k v s).te.input = s.te.input ∧ (writeWindow k v s).te.hand = s.te.hand ∧ (writeWindow k v s).te.closed = s.te.closed ∧ (writeWindow k v s).lc.view = s.lc.view ∧ (writeWindow k v s).lc.receive = s.lc.receive ∧ (writeWindow k v s).stc.address = s.stc.address ∧ (writeWindow k v s).stc.rate = s.stc.rate ∧ (writeWindow k v s).stc.staged = s.stc.staged ∧ (writeWindow k v s).stc.quiet = s.stc.quiet ∧ (writeWindow k v s).lp.cycle = s.lp.cycle ∧ (writeWindow k v s).lp.nextStrobe = s.lp.nextStrobe ∧ (writeWindow k v s).lp.latch = s.lp.latch ∧ (writeWindow k v s).lp.stagedLow = s.lp.stagedLow ∧ (writeWindow k v s).lp.buffers = s.lp.buffers ∧ (writeWindow k v s).lp.snapshot = s.lp.snapshot ∧ (writeWindow k v s).freeCount = s.freeCount ∧ (writeWindow k v s).pending = s.pending := by
  simp only [writeWindow]; (repeat' split) <;> simp

/-- What `writeLocation` leaves as it was. -/
@[simp] theorem writeLocation_frame (la : Nat) (v : Half) (s : State) :
    (writeLocation la v s).resetLow = s.resetLow ∧ (writeLocation la v s).sgm.words = s.sgm.words ∧ (writeLocation la v s).sgm.clearing = s.sgm.clearing ∧ (writeLocation la v s).ge.table = s.ge.table ∧ (writeLocation la v s).ge.order = s.ge.order ∧ (writeLocation la v s).ge.following = s.ge.following ∧ (writeLocation la v s).ge.undo = s.ge.undo ∧ (writeLocation la v s).ge.holds = s.ge.holds ∧ (writeLocation la v s).te.input = s.te.input ∧ (writeLocation la v s).te.hand = s.te.hand ∧ (writeLocation la v s).te.closed = s.te.closed ∧ (writeLocation la v s).lc.view = s.lc.view ∧ (writeLocation la v s).lc.receive = s.lc.receive ∧ (writeLocation la v s).stc.address = s.stc.address ∧ (writeLocation la v s).stc.rate = s.stc.rate ∧ (writeLocation la v s).stc.quiet = s.stc.quiet ∧ (writeLocation la v s).lp.cycle = s.lp.cycle ∧ (writeLocation la v s).lp.nextStrobe = s.lp.nextStrobe ∧ (writeLocation la v s).lp.latch = s.lp.latch ∧ (writeLocation la v s).lp.stagedLow = s.lp.stagedLow ∧ (writeLocation la v s).lp.snapshot = s.lp.snapshot ∧ (writeLocation la v s).freeCount = s.freeCount ∧ (writeLocation la v s).pending = s.pending := by
  simp only [writeLocation]; (repeat' split) <;> simp

/-- What `beginWrite` leaves as it was. -/
@[simp] theorem beginWrite_frame (la : BitVec 14) (v : Half) (s : State) :
    (beginWrite la v s).resetLow = s.resetLow ∧ (beginWrite la v s).sgm.words = s.sgm.words ∧ (beginWrite la v s).sgm.clearing = s.sgm.clearing ∧ (beginWrite la v s).ge.table = s.ge.table ∧ (beginWrite la v s).ge.order = s.ge.order ∧ (beginWrite la v s).ge.following = s.ge.following ∧ (beginWrite la v s).ge.undo = s.ge.undo ∧ (beginWrite la v s).ge.holds = s.ge.holds ∧ (beginWrite la v s).te.input = s.te.input ∧ (beginWrite la v s).te.hand = s.te.hand ∧ (beginWrite la v s).te.closed = s.te.closed ∧ (beginWrite la v s).lc.view = s.lc.view ∧ (beginWrite la v s).lc.receive = s.lc.receive ∧ (beginWrite la v s).stc.address = s.stc.address ∧ (beginWrite la v s).stc.rate = s.stc.rate ∧ (beginWrite la v s).stc.quiet = s.stc.quiet ∧ (beginWrite la v s).lp.nextStrobe = s.lp.nextStrobe ∧ (beginWrite la v s).lp.latch = s.lp.latch ∧ (beginWrite la v s).lp.snapshot = s.lp.snapshot ∧ (beginWrite la v s).freeCount = s.freeCount ∧ (beginWrite la v s).pending = s.pending := by
  simp only [beginWrite, beginNoClaim]; (repeat' split) <;> simp

/-- What `beginCycle` leaves as it was. -/
@[simp] theorem beginCycle_frame (b : BusCycle) (s : State) :
    (beginCycle b s).resetLow = s.resetLow ∧ (beginCycle b s).sgm.words = s.sgm.words ∧ (beginCycle b s).sgm.clearing = s.sgm.clearing ∧ (beginCycle b s).ge.table = s.ge.table ∧ (beginCycle b s).ge.order = s.ge.order ∧ (beginCycle b s).ge.following = s.ge.following ∧ (beginCycle b s).ge.undo = s.ge.undo ∧ (beginCycle b s).ge.holds = s.ge.holds ∧ (beginCycle b s).te.input = s.te.input ∧ (beginCycle b s).te.hand = s.te.hand ∧ (beginCycle b s).te.closed = s.te.closed ∧ (beginCycle b s).lc.view = s.lc.view ∧ (beginCycle b s).lc.receive = s.lc.receive ∧ (beginCycle b s).stc.address = s.stc.address ∧ (beginCycle b s).stc.rate = s.stc.rate ∧ (beginCycle b s).stc.quiet = s.stc.quiet ∧ (beginCycle b s).lp.nextStrobe = s.lp.nextStrobe ∧ (beginCycle b s).lp.latch = s.lp.latch ∧ (beginCycle b s).pending = s.pending := by
  simp only [beginCycle]; (repeat' split) <;> simp

/-- What `presentStrobe` leaves as it was. -/
@[simp] theorem presentStrobe_frame (b : BusCycle) (s : State) :
    (presentStrobe b s).resetLow = s.resetLow ∧ (presentStrobe b s).sgm.words = s.sgm.words ∧ (presentStrobe b s).sgm.clearing = s.sgm.clearing ∧ (presentStrobe b s).ge.table = s.ge.table ∧ (presentStrobe b s).ge.order = s.ge.order ∧ (presentStrobe b s).ge.following = s.ge.following ∧ (presentStrobe b s).ge.undo = s.ge.undo ∧ (presentStrobe b s).ge.holds = s.ge.holds ∧ (presentStrobe b s).te.input = s.te.input ∧ (presentStrobe b s).te.hand = s.te.hand ∧ (presentStrobe b s).te.closed = s.te.closed ∧ (presentStrobe b s).lc.view = s.lc.view ∧ (presentStrobe b s).lc.receive = s.lc.receive ∧ (presentStrobe b s).stc.address = s.stc.address ∧ (presentStrobe b s).stc.rate = s.stc.rate ∧ (presentStrobe b s).stc.quiet = s.stc.quiet ∧ (presentStrobe b s).pending = s.pending := by
  simp only [presentStrobe]; (repeat' split) <;> simp

/-- What `busCycle` leaves as it was. -/
@[simp] theorem busCycle_frame (b : BusCycle) (s : State) :
    (busCycle b s).resetLow = s.resetLow ∧ (busCycle b s).sgm.words = s.sgm.words ∧ (busCycle b s).sgm.clearing = s.sgm.clearing ∧ (busCycle b s).ge.table = s.ge.table ∧ (busCycle b s).ge.order = s.ge.order ∧ (busCycle b s).ge.following = s.ge.following ∧ (busCycle b s).ge.undo = s.ge.undo ∧ (busCycle b s).ge.holds = s.ge.holds ∧ (busCycle b s).te.input = s.te.input ∧ (busCycle b s).te.hand = s.te.hand ∧ (busCycle b s).te.closed = s.te.closed ∧ (busCycle b s).lc.view = s.lc.view ∧ (busCycle b s).lc.receive = s.lc.receive ∧ (busCycle b s).stc.address = s.stc.address ∧ (busCycle b s).stc.rate = s.stc.rate ∧ (busCycle b s).stc.quiet = s.stc.quiet ∧ (busCycle b s).pending = s.pending := by
  simp only [busCycle]; (repeat' split) <;> simp

/-- What `beginWaiting` leaves as it was. -/
@[simp] theorem beginWaiting_frame (s : State) :
    (beginWaiting s).resetLow = s.resetLow ∧ (beginWaiting s).sgm.words = s.sgm.words ∧ (beginWaiting s).sgm.clearing = s.sgm.clearing ∧ (beginWaiting s).ge.table = s.ge.table ∧ (beginWaiting s).ge.order = s.ge.order ∧ (beginWaiting s).ge.following = s.ge.following ∧ (beginWaiting s).ge.undo = s.ge.undo ∧ (beginWaiting s).ge.holds = s.ge.holds ∧ (beginWaiting s).te.input = s.te.input ∧ (beginWaiting s).te.hand = s.te.hand ∧ (beginWaiting s).te.closed = s.te.closed ∧ (beginWaiting s).lc.view = s.lc.view ∧ (beginWaiting s).lc.receive = s.lc.receive ∧ (beginWaiting s).stc.address = s.stc.address ∧ (beginWaiting s).stc.rate = s.stc.rate ∧ (beginWaiting s).stc.quiet = s.stc.quiet ∧ (beginWaiting s).pending = s.pending := by
  simp only [beginWaiting]; (repeat' split) <;> simp

/-- What `workDone` leaves as it was. -/
@[simp] theorem workDone_frame (c : Cycle) (r : Half) (s : State) :
    (workDone c r s).resetLow = s.resetLow ∧ (workDone c r s).sgm.words = s.sgm.words ∧ (workDone c r s).sgm.clearing = s.sgm.clearing ∧ (workDone c r s).ge.table = s.ge.table ∧ (workDone c r s).ge.order = s.ge.order ∧ (workDone c r s).ge.following = s.ge.following ∧ (workDone c r s).ge.undo = s.ge.undo ∧ (workDone c r s).ge.holds = s.ge.holds ∧ (workDone c r s).te.input = s.te.input ∧ (workDone c r s).te.hand = s.te.hand ∧ (workDone c r s).te.closed = s.te.closed ∧ (workDone c r s).lc.view = s.lc.view ∧ (workDone c r s).lc.receive = s.lc.receive ∧ (workDone c r s).stc.address = s.stc.address ∧ (workDone c r s).stc.rate = s.stc.rate ∧ (workDone c r s).stc.quiet = s.stc.quiet ∧ (workDone c r s).pending = s.pending := by
  simp only [workDone]; (repeat' split) <;> simp

/-- What `localWordRead` leaves as it was. -/
@[simp] theorem localWordRead_frame (c : Cycle) (la : BitVec 14) (s : State) :
    (localWordRead c la s).resetLow = s.resetLow ∧ (localWordRead c la s).sgm.words = s.sgm.words ∧ (localWordRead c la s).sgm.clearing = s.sgm.clearing ∧ (localWordRead c la s).ge.table = s.ge.table ∧ (localWordRead c la s).ge.order = s.ge.order ∧ (localWordRead c la s).ge.following = s.ge.following ∧ (localWordRead c la s).ge.undo = s.ge.undo ∧ (localWordRead c la s).ge.holds = s.ge.holds ∧ (localWordRead c la s).te.input = s.te.input ∧ (localWordRead c la s).te.hand = s.te.hand ∧ (localWordRead c la s).te.closed = s.te.closed ∧ (localWordRead c la s).lc.view = s.lc.view ∧ (localWordRead c la s).lc.receive = s.lc.receive ∧ (localWordRead c la s).stc.address = s.stc.address ∧ (localWordRead c la s).stc.rate = s.stc.rate ∧ (localWordRead c la s).stc.quiet = s.stc.quiet ∧ (localWordRead c la s).pending = s.pending := by
  simp only [localWordRead]; (repeat' split) <;> simp

/-- What `localWordWrite` leaves as it was. -/
@[simp] theorem localWordWrite_frame (c : Cycle) (la : BitVec 14) (v : Half) (s : State) :
    (localWordWrite c la v s).resetLow = s.resetLow ∧ (localWordWrite c la v s).sgm.clearing = s.sgm.clearing ∧ (localWordWrite c la v s).ge.table = s.ge.table ∧ (localWordWrite c la v s).ge.order = s.ge.order ∧ (localWordWrite c la v s).ge.following = s.ge.following ∧ (localWordWrite c la v s).ge.undo = s.ge.undo ∧ (localWordWrite c la v s).ge.holds = s.ge.holds ∧ (localWordWrite c la v s).te.input = s.te.input ∧ (localWordWrite c la v s).te.hand = s.te.hand ∧ (localWordWrite c la v s).te.closed = s.te.closed ∧ (localWordWrite c la v s).lc.view = s.lc.view ∧ (localWordWrite c la v s).lc.receive = s.lc.receive ∧ (localWordWrite c la v s).stc.address = s.stc.address ∧ (localWordWrite c la v s).stc.rate = s.stc.rate ∧ (localWordWrite c la v s).stc.quiet = s.stc.quiet ∧ (localWordWrite c la v s).pending = s.pending := by
  simp only [localWordWrite]; (repeat' split) <;> simp

/-- What `resumeAfterClearing` leaves as it was. -/
@[simp] theorem resumeAfterClearing_frame (s : State) :
    (resumeAfterClearing s).resetLow = s.resetLow ∧ (resumeAfterClearing s).sgm.words = s.sgm.words ∧ (resumeAfterClearing s).sgm.clearing = s.sgm.clearing ∧ (resumeAfterClearing s).ge.table = s.ge.table ∧ (resumeAfterClearing s).ge.order = s.ge.order ∧ (resumeAfterClearing s).ge.following = s.ge.following ∧ (resumeAfterClearing s).ge.undo = s.ge.undo ∧ (resumeAfterClearing s).ge.holds = s.ge.holds ∧ (resumeAfterClearing s).te.input = s.te.input ∧ (resumeAfterClearing s).te.hand = s.te.hand ∧ (resumeAfterClearing s).te.closed = s.te.closed ∧ (resumeAfterClearing s).lc.view = s.lc.view ∧ (resumeAfterClearing s).lc.receive = s.lc.receive ∧ (resumeAfterClearing s).stc.address = s.stc.address ∧ (resumeAfterClearing s).stc.rate = s.stc.rate ∧ (resumeAfterClearing s).stc.quiet = s.stc.quiet ∧ (resumeAfterClearing s).pending = s.pending := by
  simp only [resumeAfterClearing]; (repeat' split) <;> simp

/-- What `setStraps` leaves as it was. -/
@[simp] theorem setStraps_frame (a : Station) (r : BitVec 2) (s : State) :
    (setStraps a r s).resetLow = s.resetLow ∧ (setStraps a r s).sgm = s.sgm ∧ (setStraps a r s).ge = s.ge ∧ (setStraps a r s).sru = s.sru ∧ (setStraps a r s).te = s.te ∧ (setStraps a r s).pt = s.pt ∧ (setStraps a r s).re = s.re ∧ (setStraps a r s).lc = s.lc ∧ (setStraps a r s).stc.state = s.stc.state ∧ (setStraps a r s).stc.active = s.stc.active ∧ (setStraps a r s).stc.staged = s.stc.staged ∧ (setStraps a r s).stc.command = s.stc.command ∧ (setStraps a r s).stc.listen = s.stc.listen ∧ (setStraps a r s).stc.quiet = s.stc.quiet ∧ (setStraps a r s).stc.due = s.stc.due ∧ (setStraps a r s).stc.noGroupOpen = s.stc.noGroupOpen ∧ (setStraps a r s).lp = s.lp ∧ (setStraps a r s).freeCount = s.freeCount ∧ (setStraps a r s).pending = s.pending := by
  simp only [setStraps, updateStc]; (repeat' split) <;> simp

/-- What `beginClearing` leaves as it was. -/
@[simp] theorem beginClearing_frame (s : State) :
    (beginClearing s).sgm.words = s.sgm.words ∧ (beginClearing s).sgm.claims = s.sgm.claims ∧ (beginClearing s).ge = s.ge ∧ (beginClearing s).sru = s.sru ∧ (beginClearing s).te = s.te ∧ (beginClearing s).pt = s.pt ∧ (beginClearing s).re = s.re ∧ (beginClearing s).lc.last0 = s.lc.last0 ∧ (beginClearing s).lc.last1 = s.lc.last1 ∧ (beginClearing s).lc.slot = s.lc.slot ∧ (beginClearing s).lc.receive = s.lc.receive ∧ (beginClearing s).stc = s.stc ∧ (beginClearing s).lp = s.lp ∧ (beginClearing s).freeCount = s.freeCount ∧ (beginClearing s).pending = s.pending := by
  simp only [beginClearing]; (repeat' split) <;> simp

/-- What `clearSegment` leaves as it was. -/
@[simp] theorem clearSegment_frame (s : State) :
    (clearSegment s).resetLow = s.resetLow ∧ (clearSegment s).sgm.claims = s.sgm.claims ∧ (clearSegment s).ge = s.ge ∧ (clearSegment s).sru = s.sru ∧ (clearSegment s).te = s.te ∧ (clearSegment s).pt = s.pt ∧ (clearSegment s).re = s.re ∧ (clearSegment s).lc = s.lc ∧ (clearSegment s).stc = s.stc ∧ (clearSegment s).lp = s.lp ∧ (clearSegment s).freeCount = s.freeCount ∧ (clearSegment s).pending = s.pending := by
  simp only [clearSegment]; (repeat' split) <;> simp

/-- What `presenceSent` leaves as it was. -/
@[simp] theorem presenceSent_frame (m : Mark) (s : State) :
    (presenceSent m s).resetLow = s.resetLow ∧ (presenceSent m s).sgm.words = s.sgm.words ∧ (presenceSent m s).sgm.clearing = s.sgm.clearing ∧ (presenceSent m s).ge.table = s.ge.table ∧ (presenceSent m s).ge.order = s.ge.order ∧ (presenceSent m s).ge.following = s.ge.following ∧ (presenceSent m s).ge.undo = s.ge.undo ∧ (presenceSent m s).ge.holds = s.ge.holds ∧ (presenceSent m s).lc.view = s.lc.view ∧ (presenceSent m s).lc.last0 = s.lc.last0 ∧ (presenceSent m s).lc.last1 = s.lc.last1 ∧ (presenceSent m s).lc.receive = s.lc.receive ∧ (presenceSent m s).stc.address = s.stc.address ∧ (presenceSent m s).stc.rate = s.stc.rate ∧ (presenceSent m s).stc.active = s.stc.active ∧ (presenceSent m s).stc.staged = s.stc.staged ∧ (presenceSent m s).stc.command = s.stc.command ∧ (presenceSent m s).stc.listen = s.stc.listen ∧ (presenceSent m s).stc.noGroupOpen = s.stc.noGroupOpen ∧ (presenceSent m s).lp.cycle = s.lp.cycle ∧ (presenceSent m s).lp.nextStrobe = s.lp.nextStrobe ∧ (presenceSent m s).lp.latch = s.lp.latch ∧ (presenceSent m s).lp.stagedLow = s.lp.stagedLow ∧ (presenceSent m s).lp.buffers = s.lp.buffers ∧ (presenceSent m s).lp.snapshot = s.lp.snapshot ∧ (presenceSent m s).lp.window = s.lp.window ∧ (presenceSent m s).lp.postResult = s.lp.postResult ∧ (presenceSent m s).freeCount = s.freeCount ∧ (presenceSent m s).pending = s.pending := by
  simp only [presenceSent, updateStc]; (repeat' split) <;> simp

/-- What `reportSent` leaves as it was. -/
@[simp] theorem reportSent_frame (o : Offer) (s : State) :
    (reportSent o s).resetLow = s.resetLow ∧ (reportSent o s).sgm.words = s.sgm.words ∧ (reportSent o s).sgm.clearing = s.sgm.clearing ∧ (reportSent o s).ge.table = s.ge.table ∧ (reportSent o s).ge.order = s.ge.order ∧ (reportSent o s).ge.following = s.ge.following ∧ (reportSent o s).ge.undo = s.ge.undo ∧ (reportSent o s).ge.holds = s.ge.holds ∧ (reportSent o s).lc.view = s.lc.view ∧ (reportSent o s).lc.last0 = s.lc.last0 ∧ (reportSent o s).lc.last1 = s.lc.last1 ∧ (reportSent o s).lc.receive = s.lc.receive ∧ (reportSent o s).stc.address = s.stc.address ∧ (reportSent o s).stc.rate = s.stc.rate ∧ (reportSent o s).stc.active = s.stc.active ∧ (reportSent o s).stc.staged = s.stc.staged ∧ (reportSent o s).stc.command = s.stc.command ∧ (reportSent o s).stc.listen = s.stc.listen ∧ (reportSent o s).stc.noGroupOpen = s.stc.noGroupOpen ∧ (reportSent o s).lp.cycle = s.lp.cycle ∧ (reportSent o s).lp.nextStrobe = s.lp.nextStrobe ∧ (reportSent o s).lp.latch = s.lp.latch ∧ (reportSent o s).lp.stagedLow = s.lp.stagedLow ∧ (reportSent o s).lp.buffers = s.lp.buffers ∧ (reportSent o s).lp.snapshot = s.lp.snapshot ∧ (reportSent o s).lp.window = s.lp.window ∧ (reportSent o s).lp.postResult = s.lp.postResult ∧ (reportSent o s).freeCount = s.freeCount ∧ (reportSent o s).pending = s.pending := by
  simp only [reportSent]; (repeat' split) <;> simp

/-- What `reportFault` leaves as it was. -/
@[simp] theorem reportFault_frame (o : Offer) (s : State) :
    (reportFault o s).resetLow = s.resetLow ∧ (reportFault o s).sgm = s.sgm ∧ (reportFault o s).ge = s.ge ∧ (reportFault o s).sru = s.sru ∧ (reportFault o s).te.input = s.te.input ∧ (reportFault o s).te.hand = s.te.hand ∧ (reportFault o s).te.closed = s.te.closed ∧ (reportFault o s).te.restarted = s.te.restarted ∧ (reportFault o s).re.announced = s.re.announced ∧ (reportFault o s).re.startOfLeaving = s.re.startOfLeaving ∧ (reportFault o s).lc.view = s.lc.view ∧ (reportFault o s).lc.last0 = s.lc.last0 ∧ (reportFault o s).lc.last1 = s.lc.last1 ∧ (reportFault o s).lc.receive = s.lc.receive ∧ (reportFault o s).stc = s.stc ∧ (reportFault o s).lp.cycle = s.lp.cycle ∧ (reportFault o s).lp.nextStrobe = s.lp.nextStrobe ∧ (reportFault o s).lp.latch = s.lp.latch ∧ (reportFault o s).lp.stagedLow = s.lp.stagedLow ∧ (reportFault o s).lp.buffers = s.lp.buffers ∧ (reportFault o s).lp.events = s.lp.events ∧ (reportFault o s).lp.eventsLost = s.lp.eventsLost ∧ (reportFault o s).lp.snapshot = s.lp.snapshot ∧ (reportFault o s).lp.window = s.lp.window ∧ (reportFault o s).lp.postResult = s.lp.postResult ∧ (reportFault o s).freeCount = s.freeCount ∧ (reportFault o s).pending = s.pending := by
  simp only [reportFault]; (repeat' split) <;> simp

/-- What `passToTarget` leaves as it was. -/
@[simp] theorem passToTarget_frame (f : Frame) (s : State) :
    (passToTarget f s).resetLow = s.resetLow ∧ (passToTarget f s).sgm.words = s.sgm.words ∧ (passToTarget f s).sgm.clearing = s.sgm.clearing ∧ (passToTarget f s).ge.table = s.ge.table ∧ (passToTarget f s).ge.order = s.ge.order ∧ (passToTarget f s).ge.following = s.ge.following ∧ (passToTarget f s).ge.undo = s.ge.undo ∧ (passToTarget f s).ge.holds = s.ge.holds ∧ (passToTarget f s).ge.op = s.ge.op ∧ (passToTarget f s).sru.startOfLeaving = s.sru.startOfLeaving ∧ (passToTarget f s).te.closed = s.te.closed ∧ (passToTarget f s).te.restarted = s.te.restarted ∧ (passToTarget f s).re = s.re ∧ (passToTarget f s).lc = s.lc ∧ (passToTarget f s).stc = s.stc ∧ (passToTarget f s).lp = s.lp ∧ (passToTarget f s).freeCount = s.freeCount ∧ (passToTarget f s).pending = s.pending := by
  simp only [passToTarget]; (repeat' split) <;> simp

/-- What `passToRequester` leaves as it was. -/
@[simp] theorem passToRequester_frame (f : Frame) (s : State) :
    (passToRequester f s).resetLow = s.resetLow ∧ (passToRequester f s).sgm = s.sgm ∧ (passToRequester f s).ge = s.ge ∧ (passToRequester f s).sru = s.sru ∧ (passToRequester f s).te = s.te ∧ (passToRequester f s).re.announced = s.re.announced ∧ (passToRequester f s).re.startOfLeaving = s.re.startOfLeaving ∧ (passToRequester f s).lc.view = s.lc.view ∧ (passToRequester f s).lc.last0 = s.lc.last0 ∧ (passToRequester f s).lc.last1 = s.lc.last1 ∧ (passToRequester f s).lc.receive = s.lc.receive ∧ (passToRequester f s).stc = s.stc ∧ (passToRequester f s).lp.cycle = s.lp.cycle ∧ (passToRequester f s).lp.nextStrobe = s.lp.nextStrobe ∧ (passToRequester f s).lp.latch = s.lp.latch ∧ (passToRequester f s).lp.stagedLow = s.lp.stagedLow ∧ (passToRequester f s).lp.events = s.lp.events ∧ (passToRequester f s).lp.eventsLost = s.lp.eventsLost ∧ (passToRequester f s).lp.snapshot = s.lp.snapshot ∧ (passToRequester f s).lp.window = s.lp.window ∧ (passToRequester f s).lp.postResult = s.lp.postResult ∧ (passToRequester f s).freeCount = s.freeCount ∧ (passToRequester f s).pending = s.pending := by
  simp only [passToRequester]; (repeat' split) <;> simp

/-- What `takeResponseFrame` leaves as it was. -/
@[simp] theorem takeResponseFrame_frame (f : Frame) (s : State) :
    (takeResponseFrame f s).resetLow = s.resetLow ∧ (takeResponseFrame f s).sgm.words = s.sgm.words ∧ (takeResponseFrame f s).sgm.clearing = s.sgm.clearing ∧ (takeResponseFrame f s).ge.table = s.ge.table ∧ (takeResponseFrame f s).ge.order = s.ge.order ∧ (takeResponseFrame f s).ge.following = s.ge.following ∧ (takeResponseFrame f s).ge.undo = s.ge.undo ∧ (takeResponseFrame f s).ge.holds = s.ge.holds ∧ (takeResponseFrame f s).ge.op = s.ge.op ∧ (takeResponseFrame f s).sru.startOfLeaving = s.sru.startOfLeaving ∧ (takeResponseFrame f s).te.input = s.te.input ∧ (takeResponseFrame f s).te.hand = s.te.hand ∧ (takeResponseFrame f s).te.closed = s.te.closed ∧ (takeResponseFrame f s).re.startOfLeaving = s.re.startOfLeaving ∧ (takeResponseFrame f s).lc.view = s.lc.view ∧ (takeResponseFrame f s).lc.last0 = s.lc.last0 ∧ (takeResponseFrame f s).lc.last1 = s.lc.last1 ∧ (takeResponseFrame f s).lc.receive = s.lc.receive ∧ (takeResponseFrame f s).stc = s.stc ∧ (takeResponseFrame f s).lp.cycle = s.lp.cycle ∧ (takeResponseFrame f s).lp.nextStrobe = s.lp.nextStrobe ∧ (takeResponseFrame f s).lp.latch = s.lp.latch ∧ (takeResponseFrame f s).lp.stagedLow = s.lp.stagedLow ∧ (takeResponseFrame f s).lp.snapshot = s.lp.snapshot ∧ (takeResponseFrame f s).lp.window = s.lp.window ∧ (takeResponseFrame f s).lp.postResult = s.lp.postResult ∧ (takeResponseFrame f s).pending = s.pending := by
  simp only [takeResponseFrame]; (repeat' split) <;> simp

/-- What `takeGoodFrame` leaves as it was. -/
@[simp] theorem takeGoodFrame_frame (f : Frame) (s : State) :
    (takeGoodFrame f s).resetLow = s.resetLow ∧ (takeGoodFrame f s).sgm.words = s.sgm.words ∧ (takeGoodFrame f s).sgm.clearing = s.sgm.clearing ∧ (takeGoodFrame f s).ge.table = s.ge.table ∧ (takeGoodFrame f s).ge.order = s.ge.order ∧ (takeGoodFrame f s).ge.following = s.ge.following ∧ (takeGoodFrame f s).ge.undo = s.ge.undo ∧ (takeGoodFrame f s).ge.holds = s.ge.holds ∧ (takeGoodFrame f s).ge.op = s.ge.op ∧ (takeGoodFrame f s).sru.startOfLeaving = s.sru.startOfLeaving ∧ (takeGoodFrame f s).te.closed = s.te.closed ∧ (takeGoodFrame f s).re.startOfLeaving = s.re.startOfLeaving ∧ (takeGoodFrame f s).stc = s.stc ∧ (takeGoodFrame f s).lp.cycle = s.lp.cycle ∧ (takeGoodFrame f s).lp.nextStrobe = s.lp.nextStrobe ∧ (takeGoodFrame f s).lp.latch = s.lp.latch ∧ (takeGoodFrame f s).lp.stagedLow = s.lp.stagedLow ∧ (takeGoodFrame f s).lp.snapshot = s.lp.snapshot ∧ (takeGoodFrame f s).lp.window = s.lp.window ∧ (takeGoodFrame f s).lp.postResult = s.lp.postResult ∧ (takeGoodFrame f s).pending = s.pending := by
  simp only [takeGoodFrame, updateLc, endReception]; (repeat' split) <;> simp

end Sys2Proof.Machine
end

