-- ==== Sys2Proof/Laws/Store.lean ====
section
/-! SUPPORT. What the containers do: a read after a write, and the canonical form kept by every operation. -/

namespace Sys2Proof.Machine

/-! ### Sparse lists -/

@[simp] theorem Sparse.get_nil {α : Type} (k : Nat) : Sparse.get ([] : Sparse α) k = none := rfl

@[simp] theorem Sparse.get_put_self {α : Type} (m : Sparse α) (k : Nat) (v : α) : Sparse.get (Sparse.put m k v) k = some v := by
  induction m with
  | nil => simp [Sparse.put, Sparse.get]
  | cons e r ih =>
    obtain ⟨k', v'⟩ := e
    simp only [Sparse.put]
    split
    · simp [Sparse.get]
    · split
      · simp [Sparse.get]
      · next h => simp [Sparse.get, h, ih]

theorem Sparse.get_put_of_ne {α : Type} (m : Sparse α) {k j : Nat} (v : α) (h : j ≠ k) :
    Sparse.get (Sparse.put m k v) j = Sparse.get m j := by
  induction m with
  | nil => simp [Sparse.put, Sparse.get, h]
  | cons e r ih =>
    obtain ⟨k', v'⟩ := e
    simp only [Sparse.put]
    split
    · simp [Sparse.get, h]
    · split
      · next hk => subst hk; simp [Sparse.get, h]
      · simp only [Sparse.get]; split
        · rfl
        · exact ih

theorem Sparse.get_put {α : Type} (m : Sparse α) (k j : Nat) (v : α) :
    Sparse.get (Sparse.put m k v) j = if j = k then some v else Sparse.get m j := by
  split
  · next h => subst h; exact Sparse.get_put_self m j v
  · next h => exact Sparse.get_put_of_ne m v h

theorem Sparse.get_filter_of_not {α : Type} (m : Sparse α) (p : Nat × α → Bool) (k : Nat) (h : ∀ e ∈ m, e.1 = k → p e = false) :
    Sparse.get (m.filter p) k = none := by
  induction m with
  | nil => rfl
  | cons e r ih =>
    obtain ⟨k', v'⟩ := e
    have hr : Sparse.get (r.filter p) k = none := ih (fun e he => h e (List.mem_cons_of_mem _ he))
    simp only [List.filter_cons]
    split
    · next hp =>
      have : k ≠ k' := fun hk => by simp [h (k', v') List.mem_cons_self hk.symm] at hp
      simp [Sparse.get, this, hr]
    · exact hr

theorem Sparse.get_erase_self {α : Type} (m : Sparse α) (k : Nat) : Sparse.get (Sparse.erase m k) k = none :=
  Sparse.get_filter_of_not m _ k (fun _ _ h => by simp [h])

theorem Sparse.get_erase_of_ne {α : Type} (m : Sparse α) {k j : Nat} (h : j ≠ k) :
    Sparse.get (Sparse.erase m k) j = Sparse.get m j := by
  unfold Sparse.erase
  induction m with
  | nil => rfl
  | cons e r ih =>
    obtain ⟨k', v'⟩ := e
    simp only [List.filter_cons]
    split
    · simp only [Sparse.get]; split
      · rfl
      · exact ih
    · next hp =>
      simp only [ne_eq, decide_not, Bool.not_eq_eq_eq_not, Bool.not_true, decide_eq_false_iff_not, not_not] at hp
      have : j ≠ k' := fun hj => h (by simp_all)
      simp only [Sparse.get, this, if_false]; exact ih

theorem Sparse.get_erase {α : Type} (m : Sparse α) (k j : Nat) :
    Sparse.get (Sparse.erase m k) j = if j = k then none else Sparse.get m j := by
  split
  · next h => subst h; exact Sparse.get_erase_self m j
  · next h => exact Sparse.get_erase_of_ne m h

theorem Sparse.get_some_mem {α : Type} {m : Sparse α} {k : Nat} {v : α} (h : Sparse.get m k = some v) : (k, v) ∈ m := by
  induction m with
  | nil => simp at h
  | cons e r ih =>
    obtain ⟨k', v'⟩ := e
    simp only [Sparse.get] at h
    split at h
    · next hk => simp_all
    · exact List.mem_cons_of_mem _ (ih h)

theorem Sparse.get_of_mem {α : Type} {m : Sparse α} (hm : m.Pairwise (fun e e' => e.1 < e'.1)) {k : Nat} {v : α} (h : (k, v) ∈ m) :
    Sparse.get m k = some v := by
  induction m with
  | nil => simp at h
  | cons e r ih =>
    obtain ⟨k', v'⟩ := e
    rw [List.pairwise_cons] at hm
    simp only [Sparse.get]
    rcases List.mem_cons.mp h with heq | hmem
    · cases heq; simp
    · have := hm.1 _ hmem
      simp only at this
      rw [if_neg (by omega)]; exact ih hm.2 hmem

/-- A key that is listed nowhere reads none. -/
theorem Sparse.get_eq_none {α : Type} {m : Sparse α} {k : Nat} (h : ∀ e ∈ m, e.1 ≠ k) : Sparse.get m k = none := by
  cases hg : Sparse.get m k with
  | none => rfl
  | some v => exact absurd rfl (h _ (Sparse.get_some_mem hg))

theorem Sparse.mem_put {α : Type} {m : Sparse α} {k : Nat} {v : α} {e : Nat × α} (h : e ∈ Sparse.put m k v) : e = (k, v) ∨ e ∈ m := by
  induction m with
  | nil => simp [Sparse.put] at h; exact Or.inl h
  | cons e' r ih =>
    obtain ⟨k', v'⟩ := e'
    simp only [Sparse.put] at h
    split at h
    · simpa using h
    · split at h
      · rcases List.mem_cons.mp h with h | h
        · exact Or.inl h
        · exact Or.inr (List.mem_cons_of_mem _ h)
      · rcases List.mem_cons.mp h with h | h
        · exact Or.inr (h ▸ List.mem_cons_self)
        · rcases ih h with h | h
          · exact Or.inl h
          · exact Or.inr (List.mem_cons_of_mem _ h)

theorem Sparse.sorted_put {α : Type} {m : Sparse α} (k : Nat) (v : α) (h : m.Pairwise (fun e e' => e.1 < e'.1)) :
    (Sparse.put m k v).Pairwise (fun e e' => e.1 < e'.1) := by
  induction m with
  | nil => simp [Sparse.put]
  | cons e r ih =>
    obtain ⟨k', v'⟩ := e
    rw [List.pairwise_cons] at h
    simp only [Sparse.put]
    split
    · next hk =>
      refine List.pairwise_cons.mpr ⟨?_, List.pairwise_cons.mpr h⟩
      intro e he
      rcases List.mem_cons.mp he with he | he
      · subst he; exact hk
      · have := h.1 e he; simp only at this ⊢; omega
    · split
      · next hk => subst hk; exact List.pairwise_cons.mpr ⟨fun e he => h.1 e he, h.2⟩
      · next h1 h2 =>
        refine List.pairwise_cons.mpr ⟨?_, ih h.2⟩
        intro e he
        rcases Sparse.mem_put he with he | he
        · subst he; simp only; omega
        · exact h.1 e he

theorem Sparse.wf_put {α : Type} {n : Nat} {m : Sparse α} {k : Nat} (v : α) (h : Sparse.wf n m) (hk : k < n) : Sparse.wf n (Sparse.put m k v) :=
  ⟨Sparse.sorted_put k v h.1, fun e he => by
    rcases Sparse.mem_put he with rfl | he
    · exact hk
    · exact h.2 e he⟩

theorem Sparse.wf_filter {α : Type} {n : Nat} {m : Sparse α} (p : Nat × α → Bool) (h : Sparse.wf n m) : Sparse.wf n (m.filter p) :=
  ⟨h.1.filter p, fun e he => h.2 e (List.mem_filter.mp he).1⟩

theorem Sparse.wf_erase {α : Type} {n : Nat} {m : Sparse α} (k : Nat) (h : Sparse.wf n m) : Sparse.wf n (Sparse.erase m k) := Sparse.wf_filter _ h

/-! ### Memories -/

@[simp] theorem Mem.read_nil (a : Nat) : Mem.read [] a = 0 := rfl

/-- Read after write: the word written at its address, every other word as before. -/
theorem Mem.read_write (m : Mem) (a b : Nat) (w : Word) : Mem.read (Mem.write m a w) b = if b = a then w else Mem.read m b := by
  unfold Mem.read Mem.write
  split
  · next h => rw [Sparse.get_erase]; split <;> simp [h]
  · next h => rw [Sparse.get_put]; split <;> simp

theorem Mem.wf_write {n : Nat} {m : Mem} {a : Nat} (w : Word) (h : Mem.wf n m) (ha : a < n) : Mem.wf n (Mem.write m a w) := by
  unfold Mem.write
  split
  · exact ⟨Sparse.wf_erase a h.1, fun e he => h.2 e (List.mem_filter.mp he).1⟩
  · next hw =>
    refine ⟨Sparse.wf_put w h.1 ha, fun e he => ?_⟩
    rcases Sparse.mem_put he with rfl | he
    · exact hw
    · exact h.2 e he

theorem Mem.wf_writeAll {n : Nat} {m : Mem} {a : Nat} (ws : List Word) (h : Mem.wf n m) (ha : a + ws.length ≤ n) : Mem.wf n (Mem.writeAll m a ws) := by
  induction ws generalizing m a with
  | nil => exact h
  | cons w ws ih =>
    simp only [List.length_cons] at ha
    exact ih (Mem.wf_write w h (by omega)) (by omega)

/-- Read after a run of writes: the words written in their range, every other word as before. -/
theorem Mem.read_writeAll (m : Mem) (a b : Nat) (ws : List Word) :
    Mem.read (Mem.writeAll m a ws) b = if a ≤ b then (ws[b - a]?).getD (Mem.read m b) else Mem.read m b := by
  induction ws generalizing m a with
  | nil => simp [Mem.writeAll]
  | cons w ws ih =>
    simp only [Mem.writeAll, ih, Mem.read_write]
    by_cases hab : b = a
    · subst hab; simp
    · by_cases h1 : a + 1 ≤ b
      · have h2 : a ≤ b := by omega
        obtain ⟨k, hk⟩ : ∃ k, b - a = k + 1 := ⟨b - a - 1, by omega⟩
        have hk' : b - (a + 1) = k := by omega
        simp [h1, h2, hab, hk, hk']
      · have h2 : ¬ a ≤ b := by omega
        simp [h1, h2, hab]

/-! ### Tables -/

@[simp] theorem Table.at_put_self {n : Nat} {α : Type} (t : Table n α) (i : Fin n) (x : α) : (t.put i x).at i = x := by
  simp [Table.at, Table.put]

theorem Table.at_put_of_ne {n : Nat} {α : Type} (t : Table n α) {i j : Fin n} (x : α) (h : j ≠ i) : (t.put i x).at j = t.at j := by
  have : i.val ≠ j.val := fun hv => h (Fin.ext hv.symm)
  simp [Table.at, Table.put, this]

theorem Table.at_put {n : Nat} {α : Type} (t : Table n α) (i j : Fin n) (x : α) : (t.put i x).at j = if j = i then x else t.at j := by
  split
  · next h => subst h; simp
  · next h => exact Table.at_put_of_ne t x h

@[simp] theorem Table.at_each {n : Nat} {α β : Type} (f : α → β) (t : Table n α) (i : Fin n) : (t.each f).at i = f (t.at i) := by
  simp [Table.at, Table.each, Vector.getElem_mk]

@[simp] theorem Table.at_const {n : Nat} {α : Type} (x : α) (i : Fin n) : (Table.const n x).at i = x := by
  simp [Table.at, Table.const]

/-- Two tables with the same entries are the same. -/
theorem Table.ext_at {n : Nat} {α : Type} {t u : Table n α} (h : ∀ i, t.at i = u.at i) : t = u := by
  apply Vector.ext
  intro i hi
  have := h ⟨i, hi⟩
  simpa [Table.at] using this

@[simp] theorem mem_all4 (i : Fin 4) : i ∈ all4 := by revert i; decide

@[simp] theorem mem_all8 (i : Fin 8) : i ∈ all8 := by revert i; decide

/-- The last entry put at an index stays. -/
theorem Table.put_put {n α} (t : Table n α) (i a b) : (t.put i a).put i b = t.put i b := by simp [Table.put]

/-- The first element that passes a test. -/
theorem find_append_cons {α} {p : α → Bool} {l r : List α} {q : α} (hl : ∀ x ∈ l, p x = false) (hq : p q = true) : (l ++ q :: r).find? p = some q := by
  induction l with
  | nil => simp [hq]
  | cons a l ih => rw [List.cons_append, List.find?_cons, hl a (by simp)]; exact ih (fun x hx => hl x (by simp [hx]))

/-- The first of its kind is erased. -/
theorem erase_append_cons {α} [BEq α] [LawfulBEq α] {l r : List α} {q : α} (hl : q ∉ l) : (l ++ q :: r).erase q = l ++ r := by
  rw [List.erase_append_right _ hl]; simp

/-- The lowest index of four that passes a test. -/
theorem find_all4 (p : Fin 4 → Bool) (e : Fin 4) (h1 : p e = true) (h2 : ∀ f, f < e → p f = false) : all4.find? p = some e := by
  unfold all4; fin_cases e <;> simp_all [List.find?]

/-- The lowest index of eight that passes a test. -/
theorem find_all8 (p : Fin 8 → Bool) (e : Fin 8) (h1 : p e = true) (h2 : ∀ f, f < e → p f = false) : all8.find? p = some e := by
  have : ∀ l r : List (Fin 8), l ++ e :: r = all8 → (∀ f ∈ l, f < e) → all8.find? p = some e := by
    intro l r h hl; rw [← h]; exact find_append_cons (fun x hx => h2 x (hl x hx)) h1
  refine this (all8.take e.val) (all8.drop (e.val + 1)) ?_ ?_
  · fin_cases e <;> rfl
  · fin_cases e <;> simp [all8]

end Sys2Proof.Machine
end

