-- ==== Sys2Proof/Laws/Segment.lean ====
section
/-! SUPPORT. Ranges, the committed image, answers, reports, deferred slots and the release notice: what the shared operations of the segment do, said once. -/

namespace Sys2Proof.Machine

/-- The addresses of a range. -/
theorem mem_rangeOf (addr count a : Nat) : a ∈ rangeOf addr count ↔ addr ≤ a ∧ a < addr + count := by
  simp [rangeOf]

/-- A range is held when one of its words is (R6). -/
theorem rangeHeld_eq_true (s : State) (addr count : Nat) : rangeHeld s addr count = true ↔ ∃ a g, addr ≤ a ∧ a < addr + count ∧ heldBy s a = some g := by
  simp only [rangeHeld, List.any_eq_true, mem_rangeOf]
  constructor
  · rintro ⟨a, h1, h2⟩; obtain ⟨g, hg⟩ := Option.isSome_iff_exists.mp h2; exact ⟨a, g, h1.1, h1.2, hg⟩
  · rintro ⟨a, g, h1, h2, h3⟩; exact ⟨a, ⟨h1, h2⟩, by simp [h3]⟩

/-- A range is not held when none of its words is. -/
theorem rangeHeld_eq_false (s : State) (addr count : Nat) : rangeHeld s addr count = false ↔ ∀ a, addr ≤ a → a < addr + count → heldBy s a = none := by
  rw [← Bool.not_eq_true, rangeHeld_eq_true]
  constructor
  · intro h a h1 h2
    cases hh : heldBy s a with
    | none => rfl
    | some g => exact absurd ⟨a, g, h1, h2, hh⟩ h
  · rintro h ⟨a, g, h1, h2, h3⟩; rw [h a h1 h2] at h3; cases h3

/-- A test of the pages of a range is one of the page of each of its words (R2). -/
theorem pagesOf_all (addr count : Nat) (h1 : 1 ≤ count) (h2 : count ≤ 16) (P : Fin 64 → Bool) : (pagesOf addr count).all P = true ↔ ∀ a, addr ≤ a → a < addr + count → P (Fin.ofNat 64 (a / 64)) = true := by
  simp only [pagesOf, List.all_cons, List.all_nil, Bool.and_true, Bool.and_eq_true]
  constructor
  · rintro ⟨h3, h4⟩ a h5 h6
    rcases (by omega : a / 64 = addr / 64 ∨ a / 64 = (addr + count - 1) / 64) with h | h <;> rw [h] <;> assumption
  · intro h; exact ⟨h addr (by omega) (by omega), h (addr + count - 1) (by omega) (by omega)⟩

/-- The read permission test, word by word (R4). -/
theorem readPermitted_iff (s : State) (addr count : Nat) (h1 : 1 ≤ count) (h2 : count ≤ 16) : readPermitted s addr count = true ↔ readOpenRange s addr count := by
  unfold readPermitted readOpenRange; rw [pagesOf_all _ _ h1 h2]; simp

/-- The write permission test, word by word (R5). -/
theorem writePermitted_iff (s : State) (p) (addr count : Nat) (h1 : 1 ≤ count) (h2 : count ≤ 16) : writePermitted s p addr count = true ↔ writableRange s p addr count := by
  unfold writePermitted writableRange; rw [pagesOf_all _ _ h1 h2]

/-- The committed image of a word that is not held (R7). -/
theorem committed_of_free {s : State} {a} (h : heldBy s a = none) : committed s a = s.sgm.words.read a := by simp [committed, h, storedWord]

/-- The one log entry of a held word (R7, R21). -/
theorem entry_of_held {s : State} (hl : HoldLaws s.ge) {a g} (h : heldBy s a = some g) :
    ∃ e ∈ s.ge.undo, e.group = g ∧ e.addr = a ∧ oldValue s.ge.undo g a = some e.old ∧ ∀ e' ∈ s.ge.undo, e'.addr = a → e' = e := by
  obtain ⟨e, he, h1, h2⟩ := (hl.held a g).mp h
  have hu : ∀ e' ∈ s.ge.undo, e'.addr = a → e' = e := by
    intro e' he' h3
    have := List.inj_on_of_nodup_map hl.oneEntry he' he (h3.trans h1.symm)
    exact this
  refine ⟨e, he, h2, h1, ?_, hu⟩
  unfold oldValue logOf
  cases hf : (s.ge.undo.filter (fun e => e.group = g)).find? (fun e => e.addr = a) with
  | none =>
    rw [List.find?_eq_none] at hf
    exact absurd (by simpa using h1) (hf e (List.mem_filter.mpr ⟨he, by simpa using h2⟩))
  | some e' =>
    have m := List.mem_of_find?_eq_some hf
    have p := List.find?_some hf
    rw [hu e' (List.mem_filter.mp m).1 (by simpa using p)]; rfl

/-- The committed image of a held word is the old value of its one log entry (R7). -/
theorem committed_of_held {s : State} (hl : HoldLaws s.ge) {a g} (h : heldBy s a = some g) : ∃ e ∈ s.ge.undo, e.group = g ∧ e.addr = a ∧ committed s a = e.old ∧ ∀ e' ∈ s.ge.undo, e'.addr = a → e' = e := by
  obtain ⟨e, he, h1, h2, h3, h4⟩ := entry_of_held hl h
  exact ⟨e, he, h1, h2, by simp [committed, h, h3], h4⟩

/-- The committed image of a held word depends on the hold map and the log alone. -/
theorem committed_of_held_unchanged {s t : State} (hl : HoldLaws s.ge) (h2 : t.ge.holds = s.ge.holds) (h3 : t.ge.undo = s.ge.undo) {a} (h : heldBy s a ≠ none) : committed t a = committed s a := by
  obtain ⟨g, hg⟩ := Option.ne_none_iff_exists'.mp h
  obtain ⟨e, _, _, _, h4, _⟩ := entry_of_held hl hg
  have hg' : heldBy t a = some g := by unfold heldBy at *; rw [h2]; exact hg
  unfold committed; rw [hg, hg', h3]; simp [h4]

/-- Nothing the committed image depends on differs. -/
def SameImage (s t : State) : Prop := t.sgm.words = s.sgm.words ∧ t.ge.holds = s.ge.holds ∧ t.ge.undo = s.ge.undo

/-- The committed image of states that differ in nothing it depends on. -/
theorem SameImage.committed {s t : State} (h : SameImage s t) (a) : committed t a = committed s a := by
  obtain ⟨h1, h2, h3⟩ := h
  unfold Machine.committed heldBy storedWord; rw [h1, h2, h3]

/-- A word after consecutive stores. -/
theorem Mem.read_writeAll_getD (ws : List Word) (m : Mem) (a k : Nat) : (m.writeAll a ws).read k = if a ≤ k ∧ k < a + ws.length then ws.getD (k - a) 0 else m.read k := by
  rw [Mem.read_writeAll]
  by_cases h1 : a ≤ k
  · by_cases h2 : k < a + ws.length
    · rw [if_pos h1, if_pos ⟨h1, h2⟩]
      have : k - a < ws.length := by omega
      simp [List.getElem?_eq_getElem this]
    · rw [if_pos h1, if_neg (by omega)]
      have : ws.length ≤ k - a := by omega
      simp [List.getElem?_eq_none this]
  · rw [if_neg h1, if_neg (by omega)]

/-- An event reaches the event queue (R147). -/
theorem postEvent_eq_withEvent (e : Event) (s : State) : postEvent e s = { s with lp := s.lp.withEvent e } := by
  unfold postEvent Lp.withEvent Config.eventEntries; split <;> rfl

/-- An answer writes the reply record and stands last in the response queue (R72, R75). -/
theorem answer_eq (p q k c s) : answer p q k c s = { s with te := { s.te with queue := s.te.queue ++ [⟨p, q, c, 0, false⟩] }, pt := s.pt.recorded p q k c } := by
  simp only [answer, queueResponse, updatePeer, Pt.recorded]

/-- The frame in hand is answered. -/
theorem finishHand_some {s : State} {h : Hand} (hh : s.te.hand = some h) (r : Reply) : finishHand (some r) s = s.answered h r := by
  simp only [finishHand, hh, answer, queueResponse, updatePeer, State.answered, Te.answered, Pt.recorded]

/-- The frame in hand is dropped. -/
theorem finishHand_none {s : State} {h : Hand} (hh : s.te.hand = some h) : finishHand none s = { s with te := { s.te with hand := none } } := by
  simp only [finishHand, hh]

/-- Everything a change of the SRU's work does (R45, R53). -/
theorem setSruWork_spec (w : List SruWork) (s : State) : ∃ cs, ClaimFollows s.sru.work w s.sgm.claims cs ∧ setSruWork w s = { s with sru := { s.sru with work := w }, sgm := { s.sgm with claims := cs } } := by
  by_cases h : s.sru.work.head? = w.head?
  · refine ⟨s.sgm.claims, ⟨fun _ => rfl, fun h' => absurd h h'⟩, ?_⟩
    simp [setSruWork, h]
  · refine ⟨s.sgm.claims.erase .sru ++ (if w = [] then [] else [.sru]), ⟨fun h' => absurd h' h, fun _ => rfl⟩, ?_⟩
    simp only [setSruWork, if_neg h]; split <;> simp

/-- Everything a report of stored addresses does (R54). -/
theorem reportStores_taken (addrs : List Nat) (s : State) : ReportTaken addrs s (reportStores addrs s) := by
  refine ⟨fun i sl h => ?_, fun i h => ?_, rfl, rfl, rfl⟩
  · obtain ⟨p, q, a, n, stt, t⟩ := sl
    cases stt with
    | waiting b => simp [readyHit, reportStores, h, slotAfterStore]
    | ready ws =>
      simp only [readyHit, reportStores, Table.at_each, h, slotAfterStore]
      constructor
      · rintro ⟨-, b, hb, h1, h2⟩
        rw [if_pos]; simp only [List.any_eq_true]; exact ⟨b, hb, by simp [h1, h2]⟩
      · intro hn
        rw [if_neg]; simp only [List.any_eq_true]; rintro ⟨b, hb, h12⟩
        simp at h12; exact hn ⟨⟨ws, rfl⟩, b, hb, h12.1, h12.2⟩
  · simp [reportStores, h, slotAfterStore]

/-- Everything a release notice does (R51). -/
theorem releaseNotice_spec (u : State) : ∃ v, v = releaseNotice u ∧ NoticeTaken u v ∧ ClaimFollows u.sru.work v.sru.work u.sgm.claims v.sgm.claims ∧
    v = { u with sru := v.sru, sgm := { u.sgm with claims := v.sgm.claims } } := by
  obtain ⟨cs, h1, h2⟩ := setSruWork_spec (u.sru.work ++ (all4.filter (fun i => capturable u (u.sru.slots.at i))).map .capture)
    { u with sru := { u.sru with slots := u.sru.slots.each (fun sl => if capturable u sl then sl.map markPending else sl) } }
  have hr : releaseNotice u = { u with
      sru := { u.sru with slots := u.sru.slots.each (fun sl => if capturable u sl then sl.map markPending else sl), work := u.sru.work ++ (all4.filter (fun i => capturable u (u.sru.slots.at i))).map .capture }
      sgm := { u.sgm with claims := cs } } := h2
  have hm : ∀ i, capturable u (u.sru.slots.at i) = marked u i := by
    intro i; unfold capturable marked
    cases u.sru.slots.at i with
    | none => rfl
    | some x => obtain ⟨p, q, a, n, st, t⟩ := x; cases st with | ready ws => rfl | waiting b => cases b <;> rfl
  refine ⟨_, rfl, ?_, ?_, ?_⟩
  · rw [hr]
    refine ⟨fun i hi => ?_, fun i hi => ?_, ?_, rfl, rfl⟩
    · rw [← hm] at hi
      cases hx : u.sru.slots.at i with
      | none => rw [hx] at hi; cases hi
      | some x => refine ⟨x, rfl, ?_⟩; simp only [Table.at_each, hx] at hi ⊢; rw [if_pos hi]; rfl
    · rw [← hm] at hi; simp only [Table.at_each, hi]; simp
    · have : (fun i => capturable u (u.sru.slots.at i)) = marked u := funext hm
      simp only [this]; rfl
  · rw [hr]; exact h1
  · rw [hr]

/-- A peer without a slot. -/
theorem slotOf_eq_none {s : State} {p : Station} (h : ∀ i x, s.sru.slots.at i = some x → x.requester ≠ p) : slotOf s p = none := by
  unfold slotOf; rw [List.find?_eq_none]; intro i _
  cases hx : s.sru.slots.at i with
  | none => simp
  | some x => simpa using h i x hx

/-- The slot a peer holds. -/
theorem slotOf_eq_some {s : State} {p : Station} {i x} (h : s.sru.slots.at i = some x) (hp : x.requester = p) (hu : ∀ j y, s.sru.slots.at j = some y → y.requester = p → j = i) : slotOf s p = some i := by
  apply find_all4
  · simp [h, hp]
  · intro j hj
    cases hy : s.sru.slots.at j with
    | none => simp
    | some y => simp; intro hq; exact absurd (hu j y hy hq) (by omega)

/-- A slot found is the peer's. -/
theorem slotOf_holds {s p i} (h : slotOf s p = some i) : ∃ x, s.sru.slots.at i = some x ∧ x.requester = p := by
  have := List.find?_some h
  cases hx : s.sru.slots.at i with
  | none => rw [hx] at this; simp at this
  | some x => rw [hx] at this; simp at this; exact ⟨x, rfl, this⟩

/-- The frame-taken report changes no more than the SRU and its claim. -/
theorem frameTakenReport_te (f h s) : (frameTakenReport f h s).te = s.te ∧ (frameTakenReport f h s).pt = s.pt ∧ (frameTakenReport f h s).stc = s.stc := by
  unfold frameTakenReport; cases slotOf s f.sender with
  | none => simp
  | some i => dsimp only; split <;> simp

/-- Which claims may arrive later than their places show (logs 8, 32 and 33). -/
theorem mayArriveLater_iff (s : State) (d : Claimant) : mayArriveLater s d = true ↔ (d = .sru ∧ ∃ w ws, s.sru.work = w :: ws ∧ w ≠ .evaluate false) ∨ (d = .ge ∧ s.ge.following = true) := by
  cases d with
  | sru =>
    unfold mayArriveLater
    cases s.sru.work with
    | nil => simp
    | cons w ws => cases w <;> simp
  | _ => simp [mayArriveLater]

/-- The claims before the first one of a claimant. -/
theorem mem_takeWhile_ne {c d : Claimant} {r : List Claimant} : ∀ l, d ∈ (l ++ c :: r).takeWhile (· ≠ c) → d ∈ l
  | [], h => by simp at h
  | a :: l, h => by
    rw [List.cons_append, List.takeWhile_cons] at h
    split at h
    · exact (List.mem_cons.mp h).elim (fun e => e ▸ List.mem_cons_self) (fun h => List.mem_cons_of_mem _ (mem_takeWhile_ne l h))
    · cases h

/-- Which claims the arbiter can grant (R12). -/
theorem granted_iff (c : Claimant) (s : State) : granted c s = true ↔ Granted c s := by
  unfold granted Granted
  simp only [Bool.and_eq_true, Bool.not_eq_true', List.contains_iff_mem, List.all_eq_true, mayArriveLater_iff, and_assoc]
  refine and_congr_right fun _ => ⟨fun ⟨hm, hl⟩ => ?_, fun ⟨l, r, e, hl⟩ => ⟨by rw [e]; simp, fun d hd => hl d (mem_takeWhile_ne l (e ▸ hd))⟩⟩
  refine ⟨s.sgm.claims.takeWhile (· ≠ c), (s.sgm.claims.dropWhile (· ≠ c)).tail, ?_, hl⟩
  have hd : s.sgm.claims.dropWhile (· ≠ c) ≠ [] := fun h => by simpa using (List.dropWhile_eq_nil_iff.mp h) c hm
  have hh := List.head_dropWhile_not (· ≠ c) hd
  conv_lhs => rw [← List.takeWhile_append_dropWhile (p := (· ≠ c)) (l := s.sgm.claims), ← List.cons_head_tail hd]
  rw [show (s.sgm.claims.dropWhile (· ≠ c)).head hd = c by simpa using hh]

/-- A frame's report frees the slot of its sender unless the frame is a re-issue of the settled read in it (R56). -/
theorem frameTakenReport_of_slot {f h s i x} (hs : slotOf s f.sender = some i) (hx : s.sru.slots.at i = some x) :
    frameTakenReport f h s = if reissues f h x then s else freeSlot i s := by
  unfold frameTakenReport; rw [hs]; simp [hx]

/-- Two changes of the SRU's work that only take work away move its claim as one (R53). -/
theorem ClaimFollows.filter_filter {ws : List SruWork} {p q : SruWork → Bool} {cs cs' cs'' : List Claimant} (hc : cs.count .sru ≤ 1)
    (h1 : ClaimFollows ws (ws.filter p) cs cs') (h2 : ClaimFollows (ws.filter p) ((ws.filter p).filter q) cs' cs'') :
    ClaimFollows ws ((ws.filter p).filter q) cs cs'' := by
  have hm : Claimant.sru ∉ cs.erase .sru := by
    rw [← List.count_eq_zero, List.count_erase_self]; omega
  have hh : ws.head? = ((ws.filter p).filter q).head? → ws.head? = (ws.filter p).head? := by
    intro h
    cases ws with
    | nil => rfl
    | cons w ws =>
      have hw : w ∈ ((w :: ws).filter p).filter q := List.mem_of_mem_head? (by rw [← h]; rfl)
      rw [List.filter_cons_of_pos (by simp only [List.mem_filter] at hw; exact hw.1.2)]; rfl
  by_cases e1 : ws.head? = (ws.filter p).head?
  · rw [h1.1 e1] at h2; exact ⟨fun h => h2.1 (e1 ▸ h), fun h => h2.2 (e1 ▸ h)⟩
  · by_cases e2 : (ws.filter p).head? = ((ws.filter p).filter q).head?
    · refine ⟨fun h => absurd (hh h) e1, fun _ => ?_⟩
      rw [h2.1 e2, h1.2 e1]
      have : ws.filter p = [] ↔ (ws.filter p).filter q = [] := by
        rw [← List.head?_eq_none_iff, ← List.head?_eq_none_iff, e2]
      simp only [this]
    · refine ⟨fun h => absurd (hh h) e1, fun _ => ?_⟩
      rw [h2.2 e2, h1.2 e1, List.erase_append_right _ hm]
      split <;> simp

/-- Everything the freeing of a slot does (R53). -/
theorem freeSlot_spec (i : Fin 4) (s : State) : ∃ cs, ClaimFollows s.sru.work (s.sru.work.filter (fun w => w ≠ .capture i)) s.sgm.claims cs ∧
    freeSlot i s = { s with
      sru := { s.sru with slots := s.sru.slots.put i none, work := s.sru.work.filter (fun w => w ≠ .capture i) }
      sgm := { s.sgm with claims := cs } } :=
  setSruWork_spec _ { s with sru := { s.sru with slots := s.sru.slots.put i none } }

/-- The SRU has at most one claim waiting before and after a change of its work (R12). -/
theorem ClaimFollows.count_le {ws ws' cs cs'} (h : ClaimFollows ws ws' cs cs') (hc : cs.count Claimant.sru ≤ 1) : cs'.count .sru ≤ 1 := by
  by_cases e : ws.head? = ws'.head?
  · rw [h.1 e]; exact hc
  · rw [h.2 e, List.count_append, List.count_erase_self]; split <;> simp <;> omega

/-- The other claims keep their order when the SRU's work changes (R12). -/
theorem ClaimFollows.others {ws ws' cs cs'} (h : ClaimFollows ws ws' cs cs') : cs'.filter (fun c => c ≠ .sru) = cs.filter (fun c => c ≠ .sru) := by
  by_cases e : ws.head? = ws'.head?
  · rw [h.1 e]
  · rw [h.2 e, List.filter_append]
    have : ∀ l : List Claimant, (l.erase .sru).filter (fun c => c ≠ .sru) = l.filter (fun c => c ≠ .sru) := by
      intro l; induction l with
      | nil => rfl
      | cons c l ih => cases c <;> simp_all
    rw [this]; split <;> simp

/-- Everything the freeing of all slots does (R59). -/
theorem freeAllSlots_spec (s : State) : ∃ sl cs, (∀ i, sl.at i = none) ∧
    cs.filter (fun c => c ≠ .sru) = s.sgm.claims.filter (fun c => c ≠ .sru) ∧
    (s.sgm.claims.count .sru ≤ 1 → ClaimFollows s.sru.work (s.sru.work.filter (·.isEvaluate)) s.sgm.claims cs) ∧
    freeAllSlots s = { s with sru := { s.sru with slots := sl, work := s.sru.work.filter (·.isEvaluate) }, sgm := { s.sgm with claims := cs } } := by
  obtain ⟨c0, f0, e0⟩ := freeSlot_spec 0 s
  obtain ⟨c1, f1, e1⟩ := freeSlot_spec 1 (freeSlot 0 s)
  obtain ⟨c2, f2, e2⟩ := freeSlot_spec 2 (freeSlot 1 (freeSlot 0 s))
  obtain ⟨c3, f3, e3⟩ := freeSlot_spec 3 (freeSlot 2 (freeSlot 1 (freeSlot 0 s)))
  rw [e2, e1, e0] at e3 f3
  rw [e1, e0] at e2 f2
  rw [e0] at e1 f1
  dsimp only at e1 e2 e3 f1 f2 f3
  have hw : ∀ ws : List SruWork, (((ws.filter (fun w => w ≠ .capture 0)).filter (fun w => w ≠ .capture 1)).filter (fun w => w ≠ .capture 2)).filter (fun w => w ≠ .capture 3) =
      ws.filter (·.isEvaluate) := by
    intro ws
    simp only [List.filter_filter]
    apply List.filter_congr
    intro w _
    cases w with
    | evaluate _ => rfl
    | capture i => fin_cases i <;> rfl
  refine ⟨(((s.sru.slots.put 0 none).put 1 none).put 2 none).put 3 none, c3, ?_, ?_, ?_, ?_⟩
  · intro i; simp only [Table.at_put]; fin_cases i <;> rfl
  · rw [f3.others, f2.others, f1.others, f0.others]
  · intro hc
    have h1 := ClaimFollows.filter_filter hc f0 f1
    rw [List.filter_filter] at h1 f2
    have h2 := ClaimFollows.filter_filter hc h1 f2
    rw [List.filter_filter] at h2
    rw [← hw, List.filter_filter (l := s.sru.work), List.filter_filter (l := s.sru.work)]
    rw [List.filter_filter (l := s.sru.work), List.filter_filter (l := s.sru.work)] at f3
    exact ClaimFollows.filter_filter hc h2 f3
  · show freeSlot 3 (freeSlot 2 (freeSlot 1 (freeSlot 0 s))) = _
    rw [e0, e1, e2, e3, hw]

/-- Everything the SRU does when it takes the start of LEAVING (R59). -/
theorem sruTakeStartOfLeaving_spec {s : State} (h : s.sru.startOfLeaving = true) : ∃ sl cs, (∀ i, sl.at i = none) ∧
    cs.filter (fun c => c ≠ .sru) = s.sgm.claims.filter (fun c => c ≠ .sru) ∧
    (s.sgm.claims.count .sru ≤ 1 → ClaimFollows s.sru.work (s.sru.work.filter (·.isEvaluate)) s.sgm.claims cs) ∧
    sruTakeStartOfLeaving s = { s with
      sru := { s.sru with slots := sl, work := s.sru.work.filter (·.isEvaluate), startOfLeaving := false }
      sgm := { s.sgm with claims := cs } } := by
  unfold sruTakeStartOfLeaving
  rw [if_pos h]
  exact freeAllSlots_spec { s with sru := { s.sru with startOfLeaving := false } }

/-- Freeing a slot does not depend on the GE. -/
theorem freeSlot_ge (i s g) : freeSlot i { s with ge := g } = { freeSlot i s with ge := g } := by
  simp only [freeSlot, setSruWork]; split <;> rfl

/-- Neither does taking an announcement. -/
theorem sruTakeAnnouncement_ge (s : State) (g) : sruTakeAnnouncement { s with ge := g } = { sruTakeAnnouncement s with ge := g } := by
  unfold sruTakeAnnouncement
  dsimp only
  cases s.sru.announced with
  | none => rfl
  | some a =>
    dsimp only
    unfold freeSlotOf
    rw [show slotOf { s with ge := g, sru := { s.sru with announced := none } } a.peer = slotOf { s with sru := { s.sru with announced := none } } a.peer from rfl]
    cases slotOf { s with sru := { s.sru with announced := none } } a.peer with
    | none => rfl
    | some i => exact freeSlot_ge i { s with sru := { s.sru with announced := none } } g

end Sys2Proof.Machine
end

