-- ==== Sys2Proof/Laws/Link.lean ====
section
/-! SUPPORT. Selection, withdrawal, rank and key, the ends of frames, and the bits of a frame on the line. -/

namespace Sys2Proof.Machine

/-- The LC chooses again on an IDLE line alone (R121). -/
theorem reselect_of_not_idle {s : State} (h : s.lc.view ≠ .idle) : reselect s = s := by simp [reselect, h]

/-- Choosing again changes nothing where the slot holds what the LC chooses. -/
theorem reselect_of_linkLaws {s : State} (h : LinkLaws s) : reselect s = s := by
  unfold reselect
  split
  · next hv => have := h.chosen hv; rw [← this]
  · rfl

/-- Selection does not depend on the Local Port. -/
theorem reselect_lp (s : State) (lp : Lp) : reselect { s with lp := lp } = { reselect s with lp := lp } := by
  unfold reselect; split <;> rfl

/-- Everything the withdrawal of an offer does (R122). -/
theorem TxSlot.without_withdrawn (o : Offer) (sl : TxSlot) : Withdrawn o sl (sl.without o) := by
  cases sl with
  | empty => exact ⟨by simp, by simp, fun _ _ _ => rfl⟩
  | chosen o' => by_cases h : o' = o <;> simp [Withdrawn, TxSlot.without, h]
  | contending o' k => by_cases h : o' = o <;> simp [Withdrawn, TxSlot.without, h]
  | onLine o' f b orphan => by_cases h : o' = o <;> cases orphan <;> simp [Withdrawn, TxSlot.without, h]

/-- The rank as a number (R119). -/
theorem rankOf_toNat (i w : Station) : (rankOf i w).toNat = (i.val + 16 - w.val - 1) % 16 := by
  revert i w; decide

/-- The key as a number (R116). -/
theorem keyOf_toNat (c : FrameClass) (r : BitVec 4) (p : Station) : (keyOf c r p).toNat = 256 * (match c with | .response => 0 | .request => 1) + 16 * r.toNat + p.val := by
  have hp := p.isLt; have hr := r.isLt
  have h1 : (addressField p).toNat = p.val := by simp [addressField]
  simp only [keyOf]
  rw [BitVec.toNat_append, BitVec.toNat_append, h1]
  have e1 : ((BitVec.ofBool (classBit c)).toNat <<< 4 ||| r.toNat) = (BitVec.ofBool (classBit c)).toNat * 16 + r.toNat := by
    rw [Nat.shiftLeft_eq, Nat.mul_comm]; rw [← Nat.two_pow_add_eq_or_of_lt (i := 4) (by simpa using hr)]
  rw [e1]
  rw [Nat.shiftLeft_eq, Nat.mul_comm, ← Nat.two_pow_add_eq_or_of_lt (i := 4) (by simpa using hp)]
  cases c <;> simp [classBit] <;> omega

/-- The last winner is no part of the line view. -/
theorem won_view (c p lc) : (Lc.won c p lc).view = lc.view := by cases c <;> rfl

/-- The end of a reception (R115, R125). -/
theorem endReception_eq (s : State) : endReception s = { s with lc := s.lc.ended } := by
  simp only [endReception, updateLc, Lc.ended, TxSlot.withdrawn] <;> (cases s.lc.slot <;> rfl)

/-- A frame taken as a good one, whichever command carries it. -/
theorem exec_of_taken {c f s} (h : taken c f) (hr : receiving s = true) : exec c s = nextWithSelection (takeGoodFrame f s) := by
  cases c with
  | goodFrame g => obtain ⟨rfl, h⟩ := h; simp [exec, execGoodFrame, hr, h]
  | frameDiscarded bits =>
    have h : receive bits = .ok f := h
    simp [exec, execFrameDiscarded, hr, h]
  | _ => exact absurd h id

/-- A frame that is no fresh or leaving PRESENCE. -/
theorem hear_eq_hearPlain {f s} (h : (ptUsesFrames s && decide (f.sender ≠ s.stc.address)) = true) (h1 : presenceOf f ≠ some .fresh) (h2 : presenceOf f ≠ some .leaving) : hear f s = hearPlain f.sender s := by
  rw [hear, if_pos h]; split
  · next h' => exact absurd h' h2
  · next h' => exact absurd h' h1
  · rfl

/-- Data words as bytes. -/
theorem bytesOfWords_eq_flatMap (ws : List Word) : bytesOfWords ws = ws.flatMap bytesOfWord := by
  induction ws with
  | nil => rfl
  | cons w ws ih => simp [bytesOfWords, ih]

/-- The frame of a request of a kind 1 to 7 (Table 10-3). -/
theorem requestFrame_eq_sentAs (own rank d seq retry data) (hk1 : 1 ≤ d.kind.toNat) (hk : d.kind.toNat ≤ 7) :
    requestFrame own rank d seq retry data = ⟨.request, rank, own, d.kind.extractLsb' 0 4, [d.target.extractLsb' 0 8, seq, if retry then 1 else 0] ++ d.sentAs data⟩ := by
  have hz : ∃ n, n < 8 ∧ 1 ≤ n ∧ d.kind = BitVec.ofNat 16 n := ⟨d.kind.toNat, by omega, hk1, by simp⟩
  obtain ⟨n, hn, hn1, hkn⟩ := hz
  unfold requestFrame Descriptor.sentAs
  simp only [bytesOfWords_eq_flatMap, flagsByte, hkn]
  interval_cases n <;> simp [kindRd, kindRds, kindWr, kindGwrite]

/-- Stuffed bits are read as they were sent, the stuff bits before them removed (R116, R125). -/
theorem readBits_stuff (n : Nat) : ∀ (bs : List Bool) (r : Reader) (last : Bool) (run : Nat) (w rest : List Bool), w.length = n → run < 7 →
    unstuff r = .ok ⟨last, run, stuff last run (w ++ bs) ++ rest⟩ →
    ∃ r' last' run', run' < 7 ∧ readBits n r = .ok (w, r') ∧ unstuff r' = .ok ⟨last', run', stuff last' run' bs ++ rest⟩ := by
  induction n with
  | zero =>
    intro bs r last run w rest hw hr hu
    obtain rfl := List.length_eq_zero_iff.mp hw
    exact ⟨r, last, run, hr, rfl, hu⟩
  | succ n ih =>
    intro bs r last run w rest hw hr hu
    cases w with
    | nil => simp at hw
    | cons b w =>
      have hw' : w.length = n := by simpa using hw
      rw [List.cons_append, stuff] at hu
      by_cases h7 : (if b = last then run + 1 else 1) = 7
      · rw [if_pos h7] at hu
        obtain ⟨r', l', n', h1, h2, h3⟩ := ih bs ⟨b, 7, (!b) :: stuff (!b) 1 (w ++ bs) ++ rest⟩ (!b) 1 w rest hw' (by omega) (by simp [unstuff])
        refine ⟨r', l', n', h1, ?_, h3⟩
        simp only [readBits, hu, List.cons_append, h7]
        rw [List.cons_append] at h2; rw [h2]
      · rw [if_neg h7] at hu
        have h8 : (if b = last then run + 1 else 1) < 7 := by split <;> [skip; omega]; split at h7 <;> omega
        obtain ⟨r', l', n', h1, h2, h3⟩ := ih bs ⟨b, if b = last then run + 1 else 1, stuff b (if b = last then run + 1 else 1) (w ++ bs) ++ rest⟩ b _ w rest hw' h8 (by simp [unstuff, h7])
        refine ⟨r', l', n', h1, ?_, h3⟩
        simp only [readBits, hu, List.cons_append, h2]

/-- A stuff bit is removed alike whatever bits follow. -/
theorem unstuff_append (r : Reader) (more : List Bool) (h : unstuff r ≠ .error .cutOff) :
    unstuff { r with rest := r.rest ++ more } = (unstuff r).map (fun r => { r with rest := r.rest ++ more }) := by
  obtain ⟨last, run, rest⟩ := r
  unfold unstuff at h ⊢
  by_cases h7 : run = 7
  · cases rest with
    | nil => exact absurd (by simp [h7]) h
    | cons x bs => by_cases hx : x = last <;> simp [h7, hx, Except.map]
  · simp [h7, Except.map]

/-- Bits are read alike whatever bits follow, unless they end too soon (R125). -/
theorem readBits_append (n : Nat) : ∀ (r : Reader) (more : List Bool), readBits n r ≠ .error .cutOff →
    readBits n { r with rest := r.rest ++ more } = (readBits n r).map (fun x => (x.1, { x.2 with rest := x.2.rest ++ more })) := by
  induction n with
  | zero => intro r more _; rfl
  | succ n ih =>
    intro r more h
    unfold readBits at h ⊢
    rw [unstuff_append r more (fun e => h (by rw [e]))]
    cases hu : unstuff r with
    | error e => rfl
    | ok r1 =>
      rw [hu] at h
      dsimp only [Except.map] at h ⊢
      cases hr : r1.rest with
      | nil => rw [hr] at h; exact absurd rfl h
      | cons b bs =>
        rw [hr] at h
        dsimp only [List.cons_append] at h ⊢
        have hc : readBits n ⟨b, if b = r1.last then r1.run + 1 else 1, bs⟩ ≠ .error .cutOff := fun e => h (by rw [e])
        rw [ih _ more hc]
        cases readBits n ⟨b, if b = r1.last then r1.run + 1 else 1, bs⟩ <;> rfl

/-- The stuff bit within a key, from its bits (R116). -/
theorem keyStuffBit_iff (k : BitVec 9) (b : Bool) : keyStuffBit k = some b ↔ KeyHasStuffBit k b := by
  have h : ∀ k : BitVec 9, ∀ b, keyStuffBit k = some b ↔ ((∀ i, i < 7 → (msbFirst k)[0 + i]? = some (!b)) ∨ ∀ i, i < 7 → (msbFirst k)[1 + i]? = some (!b)) := by
    decide +kernel
  rw [h, KeyHasStuffBit]
  refine ⟨fun h => h.elim (fun h => ⟨0, by omega, h⟩) (fun h => ⟨1, by omega, h⟩), fun ⟨n, hn, h⟩ => ?_⟩
  obtain rfl | rfl : n = 0 ∨ n = 1 := by omega
  · exact Or.inl h
  · exact Or.inr h

/-- It is the one that stuffing inserts before the ninth bit (R116). -/
theorem keyStuffBit_stuff (k : BitVec 9) : (stuff false 0 ((msbFirst k).take 8)).length = 8 + (keyStuffBit k).toList.length := by
  revert k; decide +kernel

/-- When a station contends on (R118). -/
theorem keyReadAsSent_iff (k : BitVec 9) (r : KeyRead) : keyReadAsSent k r = true ↔ KeyReadBack k r := by
  simp only [keyReadAsSent, KeyReadBack, Bool.and_eq_true, decide_eq_true_eq, ← keyStuffBit_iff]
  refine and_congr_right fun _ => ?_
  cases keyStuffBit k with
  | none => simp
  | some x => simp only [Option.all_some, beq_iff_eq, Option.some.injEq]; exact ⟨fun h b e => h.symm.trans e, fun h => (h x rfl).symm⟩

/-- The bits of a field. -/
theorem msbFirst_length {n} (w : BitVec n) : (msbFirst w).length = n := by simp [msbFirst]

/-- The number bits spell, begun at a. -/
theorem foldl_bits (bs : List Bool) : ∀ a, bs.foldl (fun a b => 2 * a + b.toNat) a = a * 2 ^ bs.length + ofMsbFirst bs := by
  induction bs with
  | nil => intro a; simp [ofMsbFirst]
  | cons b bs ih =>
    intro a
    simp only [ofMsbFirst, List.foldl_cons, List.length_cons]
    rw [ih, ih (2 * 0 + b.toNat)]; ring

/-- The number two strings of bits spell. -/
theorem ofMsbFirst_append (a b : List Bool) : ofMsbFirst (a ++ b) = ofMsbFirst a * 2 ^ b.length + ofMsbFirst b := by
  unfold ofMsbFirst; rw [List.foldl_append, foldl_bits]; rfl

/-- A field is read back from its bits. -/
theorem ofMsbFirst_msbFirst {n} (w : BitVec n) : ofMsbFirst (msbFirst w) = w.toNat := by
  have : ∀ k ≤ n, ofMsbFirst ((List.range k).map (fun i => w.getLsbD (n - 1 - i))) = w.toNat / 2 ^ (n - k) := by
    intro k
    induction k with
    | zero => intro _; simp [ofMsbFirst]; exact (Nat.div_eq_of_lt w.isLt).symm
    | succ k ih =>
      intro hk
      rw [List.range_succ, List.map_append, ofMsbFirst_append, ih (by omega)]
      simp only [List.map_cons, List.map_nil, List.length_singleton, pow_one]
      have h1 : n - k = (n - (k + 1)) + 1 := by omega
      have h2 : n - 1 - k = n - (k + 1) := by omega
      rw [h1, h2, pow_succ, ← Nat.div_div_eq_div_mul]
      have h3 : ofMsbFirst [w.getLsbD (n - (k + 1))] = (w.toNat / 2 ^ (n - (k + 1))) % 2 := by
        simp only [ofMsbFirst, List.foldl_cons, List.foldl_nil, BitVec.getLsbD, Nat.testBit_eq_decide_div_mod_eq]
        rcases Nat.mod_two_eq_zero_or_one (w.toNat / 2 ^ (n - (k + 1))) with h | h <;> simp [h]
      rw [h3]; omega
  have := this n le_rfl
  simpa [msbFirst] using this

/-- Bytes are read back from their bits. -/
theorem bytesOfBits_flatMap (l : List Byte) : bytesOfBits l.length (l.flatMap msbFirst) = l := by
  induction l with
  | nil => rfl
  | cons b l ih =>
    simp only [List.length_cons, List.flatMap_cons, bytesOfBits]
    rw [List.take_left' (msbFirst_length b), List.drop_left' (msbFirst_length b), ih, ofMsbFirst_msbFirst]; simp

/-- Eight bits to a byte. -/
theorem flatMap_msbFirst_length (l : List Byte) : (l.flatMap msbFirst).length = 8 * l.length := by
  induction l with
  | nil => rfl
  | cons b l ih => simp only [List.flatMap_cons, List.length_append, msbFirst_length, ih, List.length_cons]; ring

/-- The bits of a key: class, rank, address field. -/
theorem msbFirst_keyOf (c : FrameClass) (r : BitVec 4) (p : Station) : msbFirst (keyOf c r p) = classBit c :: (msbFirst r ++ msbFirst (addressField p)) := by
  cases c <;> revert r p <;> decide +kernel

/-- A word of its four bytes. -/
theorem word_of_bytes (w : Word) : (w.extractLsb' 24 8 ++ w.extractLsb' 16 8 ++ w.extractLsb' 8 8 ++ w.extractLsb' 0 8 : BitVec 32) = w := by
  apply BitVec.eq_of_getLsbD_eq
  intro i hi
  interval_cases i <;> simp only [BitVec.getLsbD_append, BitVec.getLsbD_extractLsb'] <;> simp

/-- Data words are read back from their bytes. -/
theorem wordsOfBytes_bytesOfWords (ws : List Word) : wordsOfBytes (bytesOfWords ws) = some ws := by
  induction ws with
  | nil => rfl
  | cons w ws ih =>
    simp only [bytesOfWords, bytesOfWord, List.cons_append, List.nil_append, wordsOfBytes, ih, Option.map_some, word_of_bytes]

/-- Four bytes to a word. -/
theorem bytesOfWords_length (ws : List Word) : (bytesOfWords ws).length = 4 * ws.length := by
  induction ws with
  | nil => rfl
  | cons w ws ih => simp [bytesOfWords, bytesOfWord, ih]; ring

/-- A count of at most 16 in a byte. -/
theorem count_byte (h : Half) (hh : h.toNat ≤ 16) : (h.extractLsb' 0 8 : Byte).toNat = h.toNat := by
  simp; omega

/-- An address is read back from its two bytes. -/
theorem twoBytes_of_half (h : Half) : twoBytes (h.extractLsb' 8 8) (h.extractLsb' 0 8) = h.toNat := by
  have := h.isLt
  simp [twoBytes, Nat.shiftRight_eq_div_pow]; omega

/-- The retry mark is read back. -/
theorem retryOf_flagsByte (b : Bool) : retryOf (flagsByte b) = b := by cases b <;> decide

/-- The tag is read back. -/
theorem tagOf_tagByte (t : Half) : tagOf ((t.extractLsb' 0 4).setWidth 8) = t.extractLsb' 0 4 := by
  unfold tagOf
  apply BitVec.eq_of_getLsbD_eq
  intro i hi
  interval_cases i <;> simp

/-- Bytes that are data words. -/
theorem wordsOfBytes_ne_none (ds : List Byte) : (∃ n, ds.length = 4 * n) ↔ wordsOfBytes ds ≠ none := by
  match ds with
  | [] => simp [wordsOfBytes]
  | [a] => simp [wordsOfBytes]; omega
  | [a, b] => simp [wordsOfBytes]; omega
  | [a, b, c] => simp [wordsOfBytes]; omega
  | a :: b :: c :: d :: r =>
    have := wordsOfBytes_ne_none r
    simp only [wordsOfBytes, List.length_cons]
    rw [show (Option.map (fun ws => (a ++ b ++ c ++ d) :: ws) (wordsOfBytes r) ≠ none) ↔ wordsOfBytes r ≠ none by simp, ← this]
    constructor
    · rintro ⟨n, hn⟩; exact ⟨n - 1, by omega⟩
    · rintro ⟨n, hn⟩; exact ⟨n + 1, by omega⟩

/-- The bytes of data words. -/
theorem wordsOfBytes_length {ds : List Byte} {ws} (h : wordsOfBytes ds = some ws) : ds.length = 4 * ws.length := by
  match ds, ws with
  | [], ws => simp [wordsOfBytes] at h; simp [← h]
  | [a], _ => simp [wordsOfBytes] at h
  | [a, b], _ => simp [wordsOfBytes] at h
  | [a, b, c], _ => simp [wordsOfBytes] at h
  | a :: b :: c :: d :: r, ws =>
    simp only [wordsOfBytes, Option.map_eq_some_iff] at h
    obtain ⟨ws', h1, h2⟩ := h
    have := wordsOfBytes_length h1
    subst h2; simp; omega

/-- The frames of an RD or RDS (R67). -/
theorem readFields_spec (k q fl r) : (readFields k q fl r ≠ none ↔ r.length = 3 ∧ 1 ≤ (r.getD 2 0).toNat ∧ (r.getD 2 0).toNat ≤ 16) ∧ ∀ x, readFields k q fl r = some x → x.kind = k ∧ x.seq = q ∧ x.retry = fl.getLsbD 0 := by
  match r with
  | [] => simp [readFields]
  | [a] => simp [readFields]
  | [a, b] => simp [readFields]
  | [a, b, c] => 
    simp only [readFields, countValid]; simp [retryOf]
  | a :: b :: c :: d :: r => simp [readFields]

/-- The frames of a GOPEN, GCLOSE or GABORT (R67). -/
theorem tagFields_spec (k q fl r) : (tagFields k q fl r ≠ none ↔ r.length = 1) ∧ ∀ x, tagFields k q fl r = some x → x.kind = k ∧ x.seq = q ∧ x.retry = fl.getLsbD 0 := by
  match r with
  | [] => simp [tagFields]
  | [a] => simp [tagFields, retryOf]
  | a :: b :: r => simp [tagFields]

/-- The frames of a WR, and of a GWRITE after its tag (R67). -/
theorem writeFields_spec (k q fl t r) : (writeFields k q fl t r ≠ none ↔ r.length = 3 + 4 * (r.getD 2 0).toNat ∧ 1 ≤ (r.getD 2 0).toNat ∧ (r.getD 2 0).toNat ≤ 16) ∧ ∀ x, writeFields k q fl t r = some x → x.kind = k ∧ x.seq = q ∧ x.retry = fl.getLsbD 0 := by
  match r with
  | [] => simp [writeFields]
  | [a] => simp [writeFields]
  | [a, b] => simp [writeFields]
  | a :: b :: c :: ds =>
    simp only [writeFields]
    cases hw : wordsOfBytes ds with
    | none =>
      have := wordsOfBytes_ne_none ds
      refine ⟨⟨by simp, fun h => ?_⟩, by simp⟩
      exact absurd hw (this.mp ⟨c.toNat, by simp at h; omega⟩)
    | some ws =>
      have hl := wordsOfBytes_length hw
      by_cases hc : (countValid c.toNat && decide (ws.length = c.toNat)) = true
      · dsimp only; rw [if_pos hc]
        simp [countValid] at hc
        refine ⟨⟨fun _ => ?_, fun _ => by simp⟩, fun x h => ?_⟩
        · simp; omega
        · simp at h; subst h; simp [retryOf]
      · dsimp only; rw [if_neg hc]
        refine ⟨⟨by simp, fun h => ?_⟩, by simp⟩
        simp [countValid] at hc h; omega

/-- The frames that are not MALFORMED (R67). -/
theorem requestOf_spec (f : Frame) (target q flags : Byte) (r : List Byte) (hb : f.body = target :: q :: flags :: r) :
    (requestOf f ≠ none ↔
      ((f.kind = 1 ∨ f.kind = 2) ∧ r.length = 3 ∧ 1 ≤ (r.getD 2 0).toNat ∧ (r.getD 2 0).toNat ≤ 16) ∨ (f.kind = 3 ∧ r.length = 3 + 4 * (r.getD 2 0).toNat ∧ 1 ≤ (r.getD 2 0).toNat ∧ (r.getD 2 0).toNat ≤ 16) ∨
      (f.kind = 5 ∧ r.length = 4 + 4 * (r.getD 3 0).toNat ∧ 1 ≤ (r.getD 3 0).toNat ∧ (r.getD 3 0).toNat ≤ 16) ∨ ((f.kind = 4 ∨ f.kind = 6 ∨ f.kind = 7) ∧ r.length = 1)) ∧
    (∀ x, requestOf f = some x → x.kind.code = f.kind ∧ x.seq = q ∧ x.retry = flags.getLsbD 0) := by
  have code : ∀ (k : ReqKind) (o : Option Request), f.kind = k.code → (∀ x, o = some x → x.kind = k ∧ x.seq = q ∧ x.retry = flags.getLsbD 0) →
      ∀ x, o = some x → x.kind.code = f.kind ∧ x.seq = q ∧ x.retry = flags.getLsbD 0 := by
    intro k o hk h x hx; obtain ⟨h1, h2, h3⟩ := h x hx; exact ⟨by rw [h1, hk], h2, h3⟩
  have hk := f.kind.isLt
  rcases (by omega : f.kind.toNat = 1 ∨ f.kind.toNat = 2 ∨ f.kind.toNat = 3 ∨ f.kind.toNat = 4 ∨ f.kind.toNat = 5 ∨ f.kind.toNat = 6 ∨ f.kind.toNat = 7 ∨ (f.kind.toNat = 0 ∨ 8 ≤ f.kind.toNat)) with h | h | h | h | h | h | h | h
  · have e : f.kind = 1 := BitVec.eq_of_toNat_eq h
    have er : requestOf f = readFields .rd q flags r := by simp [requestOf, hb, e, kindRd]
    rw [er]; exact ⟨by rw [(readFields_spec .rd q flags r).1]; simp [e], code .rd _ (by rw [e]; rfl) (readFields_spec .rd q flags r).2⟩
  · have e : f.kind = 2 := BitVec.eq_of_toNat_eq h
    have er : requestOf f = readFields .rds q flags r := by simp [requestOf, hb, e, kindRd, kindRds]
    rw [er]; exact ⟨by rw [(readFields_spec .rds q flags r).1]; simp [e], code .rds _ (by rw [e]; rfl) (readFields_spec .rds q flags r).2⟩
  · have e : f.kind = 3 := BitVec.eq_of_toNat_eq h
    have er : requestOf f = writeFields .wr q flags 0 r := by simp [requestOf, hb, e, kindRd, kindRds, kindWr]
    rw [er]; exact ⟨by rw [(writeFields_spec .wr q flags 0 r).1]; simp [e], code .wr _ (by rw [e]; rfl) (writeFields_spec .wr q flags 0 r).2⟩
  · have e : f.kind = 4 := BitVec.eq_of_toNat_eq h
    have er : requestOf f = tagFields .gopen q flags r := by simp [requestOf, hb, e, kindRd, kindRds, kindWr, kindGopen]
    rw [er]; exact ⟨by rw [(tagFields_spec .gopen q flags r).1]; simp [e], code .gopen _ (by rw [e]; rfl) (tagFields_spec .gopen q flags r).2⟩
  · have e : f.kind = 5 := BitVec.eq_of_toNat_eq h
    have er : requestOf f = gwriteFields q flags r := by simp [requestOf, hb, e, kindRd, kindRds, kindWr, kindGopen, kindGwrite]
    rw [er]
    cases r with
    | nil => simp [gwriteFields, e]
    | cons t r =>
      refine ⟨?_, code .gwrite _ (by rw [e]; rfl) (writeFields_spec .gwrite q flags (tagOf t) r).2⟩
      simp only [gwriteFields]
      rw [(writeFields_spec .gwrite q flags (tagOf t) r).1]; simp [e]; intros; omega
  · have e : f.kind = 6 := BitVec.eq_of_toNat_eq h
    have er : requestOf f = tagFields .gclose q flags r := by simp [requestOf, hb, e, kindRd, kindRds, kindWr, kindGopen, kindGwrite, kindGclose]
    rw [er]; exact ⟨by rw [(tagFields_spec .gclose q flags r).1]; simp [e], code .gclose _ (by rw [e]; rfl) (tagFields_spec .gclose q flags r).2⟩
  · have e : f.kind = 7 := BitVec.eq_of_toNat_eq h
    have er : requestOf f = tagFields .gabort q flags r := by simp [requestOf, hb, e, kindRd, kindRds, kindWr, kindGopen, kindGwrite, kindGclose, kindGabort]
    rw [er]; exact ⟨by rw [(tagFields_spec .gabort q flags r).1]; simp [e], code .gabort _ (by rw [e]; rfl) (tagFields_spec .gabort q flags r).2⟩
  · have hne : ∀ k : BitVec 4, 1 ≤ k.toNat → k.toNat ≤ 7 → f.kind ≠ k := by rintro k h1 h2 rfl; omega
    have n1 : f.kind ≠ 1#4 := hne _ (by decide) (by decide)
    have n2 : f.kind ≠ 2#4 := hne _ (by decide) (by decide)
    have n3 : f.kind ≠ 3#4 := hne _ (by decide) (by decide)
    have n4 : f.kind ≠ 4#4 := hne _ (by decide) (by decide)
    have n5 : f.kind ≠ 5#4 := hne _ (by decide) (by decide)
    have n6 : f.kind ≠ 6#4 := hne _ (by decide) (by decide)
    have n7 : f.kind ≠ 7#4 := hne _ (by decide) (by decide)
    have er : requestOf f = none := by
      simp only [requestOf, hb]
      simp [kindRd, kindRds, kindWr, kindGopen, kindGwrite, kindGclose, kindGabort, n1, n2, n3, n4, n5, n6, n7]
    rw [er]
    simp [n1, n2, n3, n4, n5, n6, n7]

end Sys2Proof.Machine
end

