-- ==== Sys2Proof/Laws/Groups.lean ====
section
/-! SUPPORT. The group table, the hold map and the undo log; GE work; rollbacks. -/

namespace Sys2Proof.Machine

/-- An OPEN group is found by its owner and tag (R17). -/
theorem findGroup_eq_some {s : State} (hl : HoldLaws s.ge) {p : Station} {tag : BitVec 4} {g} (h : ∃ x, s.ge.table.at g = some x ∧ x.owner = p ∧ x.tag = tag) : findGroup s.ge p tag = some g := by
  obtain ⟨x, h1, h2, h3⟩ := h
  apply find_all4
  · simp [h1, h2, h3]
  · intro j hj
    cases hy : s.ge.table.at j with
    | none => simp
    | some y => simp; intro h4 h5; have := hl.pair j g y x hy h1 (h4.trans h2.symm) (h5.trans h3.symm); omega

/-- No OPEN group of an owner and tag. -/
theorem findGroup_eq_none {s : State} {p : Station} {tag : BitVec 4} (h : ∀ g, ¬ ∃ x, s.ge.table.at g = some x ∧ x.owner = p ∧ x.tag = tag) : findGroup s.ge p tag = none := by
  unfold findGroup; rw [List.find?_eq_none]; intro g _
  cases hy : s.ge.table.at g with
  | none => simp
  | some y => simp; intro h4 h5; exact h g ⟨y, hy, h4, h5⟩

/-- The words a GWRITE newly holds (R25). -/
theorem newlyHeld_eq (s : State) (g : Fin 4) (addr count) : newlyHeld s.ge g addr count = (List.range' addr count).filter (fun a => heldBy s a ≠ some g) := rfl

/-- A word of the range held by another group (R25). -/
theorem conflicts_eq_true (s : State) (g : Fin 4) (addr count) : conflicts s.ge g addr count = true ↔ ∃ a g', (addr ≤ a ∧ a < addr + count) ∧ heldBy s a = some g' ∧ g' ≠ g := by
  simp only [conflicts, List.any_eq_true, mem_rangeOf, Bool.and_eq_true, decide_eq_true_eq]
  constructor
  · rintro ⟨a, h1, h2, h3⟩; obtain ⟨g', hg⟩ := Option.isSome_iff_exists.mp h2
    exact ⟨a, g', h1, hg, by rintro rfl; exact h3 hg⟩
  · rintro ⟨a, g', h1, h2, h3⟩; unfold heldBy at h2; exact ⟨a, h1, by rw [h2]; rfl, by rw [h2]; simpa using h3⟩

/-- The hold map after words are marked held (R26). -/
theorem get_holdAll (g : Fin 4) (as : List Nat) : ∀ (m : Sparse (Fin 4)) (a : Nat), Sparse.get (holdAll g m as) a = if a ∈ as then some g else Sparse.get m a := by
  induction as with
  | nil => intro m a; simp [holdAll]
  | cons b as ih =>
    intro m a
    have : holdAll g m (b :: as) = holdAll g (Sparse.put m b g) as := rfl
    rw [this, ih, Sparse.get_put]
    by_cases h : a ∈ as
    · simp [h]
    · simp only [h, if_false, List.mem_cons, or_false]

/-- The hold map after a group's holds are released (R27). -/
theorem get_release {m : Sparse (Fin 4)} (hm : m.Pairwise (fun e e' => e.1 < e'.1)) (g : Fin 4) (a : Nat) :
    Sparse.get (m.filter (fun e => e.2 ≠ g)) a = if Sparse.get m a = some g then none else Sparse.get m a := by
  cases h : Sparse.get m a with
  | none =>
    simp only [if_neg (show ¬ (none : Option (Fin 4)) = some g by simp)]
    apply Sparse.get_eq_none
    intro e he h1; subst h1
    have := Sparse.get_of_mem hm (show (e.1, e.2) ∈ m from (List.mem_filter.mp he).1)
    rw [h] at this; cases this
  | some g' =>
    by_cases hg : g' = g
    · subst hg; simp only [if_true]
      apply Sparse.get_eq_none
      intro e he h1; subst h1
      have h2 := List.mem_filter.mp he
      have := Sparse.get_of_mem hm (show (e.1, e.2) ∈ m from h2.1)
      rw [h] at this; cases this; simp at h2
    · rw [if_neg (by simpa using hg)]
      exact Sparse.get_of_mem (hm.filter _) (List.mem_filter.mpr ⟨Sparse.get_some_mem h, by simpa using hg⟩)

/-- A rollback leaves the words outside the log (R28). -/
theorem restoreLog_of_not_mem (log : List UndoEntry) : ∀ (m : Mem) (a : Nat), (∀ e ∈ log, e.addr ≠ a) → (restoreLog log m).read a = m.read a := by
  unfold restoreLog
  intro m a h
  have h' : ∀ e ∈ log.reverse, e.addr ≠ a := by simpa using h
  revert m h'; generalize log.reverse = l; intro m hl
  induction l generalizing m with
  | nil => rfl
  | cons e l ih =>
    rw [List.foldl_cons, ih, Mem.read_write, if_neg (Ne.symm (hl e (by simp)))]
    exact fun e' he' => hl e' (by simp [he'])

/-- A rollback gives a word of the log its old value (R28). -/
theorem restoreLog_of_mem (log : List UndoEntry) (m : Mem) (e : UndoEntry) (he : e ∈ log) (hu : ∀ e' ∈ log, e'.addr = e.addr → e' = e) : (restoreLog log m).read e.addr = e.old := by
  unfold restoreLog
  have he' : e ∈ log.reverse := by simpa using he
  have hu' : ∀ e' ∈ log.reverse, e'.addr = e.addr → e' = e := by simpa using hu
  revert m he' hu'; generalize log.reverse = l; intro m he hu
  induction l generalizing m with
  | nil => cases he
  | cons x l ih =>
    rw [List.foldl_cons]
    by_cases h : e ∈ l
    · exact ih _ h (fun e' he' => hu e' (by simp [he']))
    · have hx : x = e := by simp [h] at he; exact he.symm
      subst hx
      have := restoreLog_of_not_mem l.reverse (m.write x.addr x.old) x.addr (by
        intro e' he' h2; have : e' ∈ l := by simpa using he'
        exact h (hu e' (by simp [this]) h2 ▸ this))
      unfold restoreLog at this; simp only [List.reverse_reverse] at this
      rw [this, Mem.read_write, if_pos rfl]

/-- Everything but the holds when a group ends (R27, R28). -/
theorem ended_endedBut (g : Fin 4) (ge : Ge) : EndedBut g ge (ge.ended g) := rfl

/-- The start of a list of rollbacks (R31). -/
theorem beginRollbacks_eq_begun (cause list fin u) : beginRollbacks cause list fin u = Begun cause list fin u := by
  unfold beginRollbacks Begun; cases list with
  | nil => rfl
  | cons g gs => rfl

/-- A list of work without a group frame (R22). -/
theorem noFrame_eq_true (l : List GeWork) : noFrame l = true ↔ GeWork.frame ∉ l := by
  simp [noFrame]; exact ⟨fun h hm => h _ hm rfl, fun h w hw e => h (e ▸ hw)⟩

/-- A REVOKE that joins one already waiting (R22). -/
theorem revokeJoins_eq_true (ws : List GeWork) : revokeJoins ws = true ↔ ∃ l r, ws = l ++ GeWork.revoke :: r ∧ GeWork.frame ∉ r := by
  induction ws with
  | nil => simp [revokeJoins]
  | cons w ws ih =>
    simp only [revokeJoins, Bool.or_eq_true, Bool.and_eq_true, decide_eq_true_eq, noFrame_eq_true, ih]
    constructor
    · rintro (⟨rfl, h⟩ | ⟨l, r, rfl, h⟩)
      · exact ⟨[], ws, rfl, h⟩
      · exact ⟨w :: l, r, rfl, h⟩
    · rintro ⟨l, r, h1, h2⟩
      cases l with
      | nil => simp at h1; left; exact ⟨h1.1, h1.2 ▸ h2⟩
      | cons a l => simp at h1; right; exact ⟨l, r, h1.2, h2⟩

/-- The laws of holds depend on the table, the order, the log, the holds, the group of a GWRITE and the mark of a rollback alone. -/
theorem HoldLaws.of_same {ge ge' : Ge} (h : HoldLaws ge) (h1 : ge'.table = ge.table) (h2 : ge'.order = ge.order) (h3 : ge'.undo = ge.undo) (h4 : ge'.holds = ge.holds)
    (h5 : ∀ g, ge'.op = some (.gwrite g) → ge.op = some (.gwrite g))
    (h6 : ge'.following = true → ∃ cause list fin, ge'.op = some (.rollback cause list fin)) : HoldLaws ge' := by
  refine ⟨?_, ?_, ?_, ?_, ?_, ?_, ?_, ?_, h6⟩
  · rw [h4, h3]; exact h.held
  · rw [h3]; exact h.oneEntry
  · rw [h1, h3]; exact h.count
  · rw [h1, h3]; exact h.freeLog
  · rw [h3]; exact h.pool
  · rw [h1, h2]; exact h.order
  · rw [h1]; exact h.pair
  · intro g hg; rw [h1]; exact h.target g (h5 g hg)

/-- Opening a group keeps them (R23). -/
theorem HoldLaws.opened {ge : Ge} (h : HoldLaws ge) {g p tag t} (hg : ge.table.at g = none) (hn : ∀ g x, ge.table.at g = some x → x.owner = p → x.tag = tag → False) (hop : ge.op = none) : HoldLaws (ge.opened g p tag t) := by
  refine ⟨h.held, h.oneEntry, ?_, ?_, h.pool, ⟨?_, ?_⟩, ?_, ?_, h.following⟩
  · intro g' x hx; simp only [Ge.opened, Table.at_put] at hx ⊢
    split at hx
    · rename_i he; subst he; cases hx; simp [h.freeLog g' hg]
    · exact h.count g' x hx
  · intro g' hx; simp only [Ge.opened, Table.at_put] at hx ⊢
    split at hx
    · cases hx
    · exact h.freeLog g' hx
  · simp only [Ge.opened]
    have : g ∉ ge.order := by rw [h.order.2]; simp [hg]
    exact List.nodup_append.mpr ⟨h.order.1, by simp, by intro a ha b hb; simp at hb; subst hb; rintro rfl; exact this ha⟩
  · intro g'; simp only [Ge.opened, Table.at_put, List.mem_append, List.mem_singleton]
    split
    · rename_i he; simp [he]
    · rename_i he; simp [he, h.order.2]
  · intro a b x y hx hy ho ht
    simp only [Ge.opened, Table.at_put] at hx hy
    split at hx <;> split at hy
    · rename_i e1 e2; rw [e1, e2]
    · cases hx; exact (hn _ _ hy ho.symm ht.symm).elim
    · cases hy; exact (hn _ _ hx ho ht).elim
    · exact h.pair a b x y hx hy ho ht
  · intro g' hg'; simp only [Ge.opened, hop] at hg'; cases hg'

/-- Ending a group keeps them (R27, R28). -/
theorem HoldLaws.ended {ge : Ge} (h : HoldLaws ge) (hw : ge.holds.Pairwise (fun e e' => e.1 < e'.1)) (g : Fin 4) (hop : ∀ g', ge.op ≠ some (.gwrite g')) : HoldLaws (ge.ended g) := by
  refine ⟨?_, ?_, ?_, ?_, ?_, ⟨?_, ?_⟩, ?_, ?_, h.following⟩
  · intro a g'
    simp only [Ge.ended]
    rw [get_release hw]
    constructor
    · intro hh
      split at hh
      · cases hh
      · rename_i hne
        obtain ⟨e, he, h1, h2⟩ := (h.held a g').mp hh
        refine ⟨e, List.mem_filter.mpr ⟨he, ?_⟩, h1, h2⟩
        simp only [ne_eq, decide_eq_true_eq]; rintro hg; apply hne; rw [hh, ← h2, hg]
    · rintro ⟨e, he, h1, h2⟩
      have hm := List.mem_filter.mp he
      have := (h.held a g').mpr ⟨e, hm.1, h1, h2⟩
      rw [this, if_neg]
      simp only [ne_eq, decide_eq_true_eq, h2] at hm; simpa using hm.2
  · simp only [Ge.ended]; exact (h.oneEntry.sublist (List.filter_sublist.map _))
  · intro g' x hx; simp only [Ge.ended, Table.at_put] at hx ⊢
    split at hx
    · cases hx
    · rename_i hne
      rw [h.count g' x hx, List.filter_filter]; congr 1; apply List.filter_congr; intro e _
      by_cases he : e.group = g'
      · simp [he, hne]
      · simp [he]
  · intro g' hx; simp only [Ge.ended, Table.at_put] at hx ⊢
    rw [List.filter_filter, List.filter_eq_nil_iff]
    intro e he; simp only [Bool.and_eq_true, decide_eq_true_eq, ne_eq, not_and, not_not]
    intro h1
    split at hx
    · rename_i h2; rw [h1, h2]
    · exfalso
      have := h.freeLog g' hx
      rw [List.filter_eq_nil_iff] at this; exact this e he (by simpa using h1)
  · exact le_trans (List.length_filter_le _ _) h.pool
  · simp only [Ge.ended]; exact h.order.1.erase _
  · intro g'; simp only [Ge.ended, Table.at_put]
    rw [h.order.1.mem_erase_iff, h.order.2]
    split <;> simp_all
  · intro a b x y hx hy ho ht
    simp only [Ge.ended, Table.at_put] at hx hy
    split at hx <;> split at hy <;> first | (cases hx; done) | (cases hy; done) | exact h.pair a b x y hx hy ho ht
  · intro g' hg'; exact absurd hg' (hop g')

/-- Applying a GWRITE keeps them (R26). -/
theorem HoldLaws.written {s : State} (h : HoldLaws s.ge) {g x addr count t words} (hx : s.ge.table.at g = some x) (hc : conflicts s.ge g addr count = false)
    (hf : s.ge.undo.length + (newlyHeld s.ge g addr count).length ≤ 128) (hop : s.ge.op = some (.gwrite g)) : HoldLaws { Ge.written g addr count words t s.ge with op := none } := by
  let new := newlyHeld s.ge g addr count
  have hnew : ∀ a, a ∈ new → Sparse.get s.ge.holds a = none := by
    intro a ha
    have hm := List.mem_filter.mp ha
    cases hq : Sparse.get s.ge.holds a with
    | none => rfl
    | some g' =>
      have hne : g' ≠ g := by rintro rfl; simp [hq] at hm
      have : conflicts s.ge g addr count = true := (conflicts_eq_true s g addr count).mpr ⟨a, g', (mem_rangeOf _ _ _).mp hm.1, hq, hne⟩
      rw [this] at hc; cases hc
  have hno : ∀ a, a ∈ new → ∀ e ∈ s.ge.undo, e.addr ≠ a := by
    intro a ha e he h1
    have := (h.held a e.group).mpr ⟨e, he, h1, rfl⟩
    rw [hnew a ha] at this; cases this
  have hnd : new.Nodup := List.Nodup.filter _ List.nodup_range'
  have hfl : ∀ g', (new.map (fun a => (⟨g, a, words.read a⟩ : UndoEntry))).filter (fun e => e.group = g') = if g' = g then new.map (fun a => ⟨g, a, words.read a⟩) else [] := by
    intro g'; split
    · rename_i hg; rw [List.filter_eq_self]; intro e he; obtain ⟨b, _, rfl⟩ := List.mem_map.mp he; simp [hg]
    · rename_i hg; rw [List.filter_eq_nil_iff]; intro e he; obtain ⟨b, _, rfl⟩ := List.mem_map.mp he; simp; exact fun h => hg h.symm
  refine ⟨?_, ?_, ?_, ?_, ?_, ⟨h.order.1, ?_⟩, ?_, ?_, fun hl => ?_⟩
  · intro a g'
    simp only [Ge.written]
    rw [get_holdAll]
    show (if a ∈ new then some g else _) = _ ↔ ∃ e ∈ s.ge.undo ++ new.map _, _
    constructor
    · intro hh
      split at hh
      · rename_i ha; cases hh
        exact ⟨⟨g, a, words.read a⟩, by simp [ha], rfl, rfl⟩
      · obtain ⟨e, he, h1⟩ := (h.held a g').mp hh
        exact ⟨e, by simp [he], h1⟩
    · rintro ⟨e, he, h1, h2⟩
      rcases List.mem_append.mp he with he | he
      · rw [if_neg (fun ha => hno a ha e he h1)]
        exact (h.held a g').mpr ⟨e, he, h1, h2⟩
      · obtain ⟨b, hb, rfl⟩ := List.mem_map.mp he
        dsimp only at h1 h2; subst h1 h2; rw [if_pos hb]
  · simp only [Ge.written]
    show ((s.ge.undo ++ new.map _).map _).Nodup
    rw [List.map_append, List.map_map]
    refine List.nodup_append.mpr ⟨h.oneEntry, ?_, ?_⟩
    · have : (fun e : UndoEntry => e.addr) ∘ (fun a => (⟨g, a, words.read a⟩ : UndoEntry)) = id := rfl
      show (new.map ((fun e : UndoEntry => e.addr) ∘ (fun a => (⟨g, a, words.read a⟩ : UndoEntry)))).Nodup
      rw [this, List.map_id]; exact hnd
    · intro a ha b hb hab
      obtain ⟨e, he, h1⟩ := List.mem_map.mp ha
      obtain ⟨c, hc', h2⟩ := List.mem_map.mp hb
      have h3 : c = b := h2
      exact hno c hc' e he (by rw [h1, hab, h3])
  · intro g' y hy
    simp only [Ge.written, Table.at_put, hx, Option.map_some] at hy ⊢
    rw [List.filter_append, List.length_append]
    show _ = _ + ((new.map _).filter _).length
    rw [hfl]
    split at hy
    · rename_i hg; cases hy; subst hg
      simp only [if_true, List.length_map]; rw [← h.count g' x hx]
    · rename_i hg; rw [if_neg hg]; simp [h.count g' y hy]
  · intro g' hy
    simp only [Ge.written, Table.at_put, hx, Option.map_some] at hy ⊢
    split at hy
    · cases hy
    · rename_i hg
      rw [List.filter_append, h.freeLog g' hy]
      show [] ++ (new.map _).filter _ = []
      rw [hfl, if_neg hg]; rfl
  · simp only [Ge.written, List.length_append, List.length_map]; exact hf
  · intro g'; simp only [Ge.written, Table.at_put, hx, Option.map_some]
    rw [h.order.2]; split
    · rename_i hg; rw [hg, hx]; simp
    · rfl
  · intro a b u v hu hv ho ht
    simp only [Ge.written, Table.at_put, hx, Option.map_some] at hu hv
    split at hu <;> split at hv
    · rename_i e1 e2; rw [e1, e2]
    · rename_i e1 e2; cases hu; rw [e1]; exact h.pair g b x v hx hv ho ht
    · rename_i e1 e2; cases hv; rw [e2]; exact h.pair a g u x hu hx ho ht
    · exact h.pair a b u v hu hv ho ht
  · intro g' hg'; cases hg'
  · obtain ⟨_, _, _, h'⟩ := h.following hl
    rw [hop] at h'; cases h'

/-- What the GE can take next of the work that is no frame (R22, R38). -/
theorem frameLater_of_next {ws : List GeWork} {w : GeWork} {rest : List GeWork} (hw : w ≠ .frame) (h : OtherNext ws w rest) : frameLater ws = w :: rest := by
  rcases h with rfl | ⟨more, rfl, hm, rfl⟩
  · cases w <;> first | rfl | exact absurd rfl hw
  · rw [frameLater, if_pos (by rw [List.contains_iff_mem]; exact hm)]

/-- Nothing else can be taken: work in the GE's order is the next. -/
theorem next_of_frameLater {ws : List GeWork} {w : GeWork} {rest : List GeWork} (h : frameLater ws = w :: rest) : OtherNext ws w rest := by
  unfold frameLater at h
  split at h
  · next w' rest' =>
    split at h
    · next hc =>
      obtain ⟨rfl, rfl⟩ := List.cons.inj h
      exact Or.inr ⟨rest', rfl, List.contains_iff_mem.mp hc, rfl⟩
    · exact Or.inl h
  · exact Or.inl h

end Sys2Proof.Machine
end

