-- ==== Sys2Proof/Laws/Requester.lean ====
section
/-! SUPPORT. Loans, admission, matching, the ends of copies, and retirement. -/

namespace Sys2Proof.Machine

/-- The buffer a descriptor references (section 6.1). -/
theorem bufferOf_eq_some (d : Descriptor) (b : Fin 16) : bufferOf d = some b ↔ d.references b := by
  unfold bufferOf Descriptor.references
  split
  · next h =>
    split
    · next h2 => simp only [h, true_and, Option.some.injEq]; exact ⟨fun h => by rw [← h], fun h => Fin.ext h⟩
    · next h2 => simp only [reduceCtorEq, false_iff]; rintro ⟨-, h3⟩; have := b.isLt; omega
  · next h => simp only [reduceCtorEq, false_iff, h, false_and, not_false_eq_true]

/-- The loans (R94, R95). -/
theorem lent_eq_true (s : State) (b : Fin 16) : lent s b = true ↔ Lent s b := by
  simp only [lent, Lent, Bool.or_eq_true, List.any_eq_true, decide_eq_true_eq, bufferOf_eq_some, all8]
  apply or_congr Iff.rfl
  constructor
  · rintro ⟨e, -, h⟩
    cases hx : s.re.table.at e with
    | none => simp [hx] at h
    | some x => simp only [hx, Option.bind_some, bufferOf_eq_some] at h; exact ⟨e, x, hx, h⟩
  · rintro ⟨e, x, hx, h⟩
    exact ⟨e, mem_all8 e, by simp only [hx, Option.bind_some, bufferOf_eq_some]; exact h⟩

/-- A buffer that is not lent is referenced by nothing (R94). -/
theorem count_of_not_lent {s : State} {b : Fin 16} (h : lent s b = false) : s.re.queue.countP (fun q => bufferOf q.desc = some b) +
    ([0, 1, 2, 3, 4, 5, 6, 7] : List (Fin 8)).countP (fun e => (s.re.table.at e).bind (fun x => bufferOf x.desc) = some b) = 0 := by
  unfold lent at h
  rw [Bool.or_eq_false_iff, List.any_eq_false, List.any_eq_false] at h
  have h2 := List.countP_eq_zero.mpr h.2
  rw [List.countP_eq_zero.mpr h.1, Nat.zero_add]; exact h2

/-- A target with an entry that is not FREE (R96). -/
theorem targetTaken_eq_true (s : State) (t : Half) : targetTaken s t = true ↔ ∃ e x, s.re.table.at e = some x ∧ x.desc.target = t := by
  simp only [targetTaken, List.any_eq_true, decide_eq_true_eq]
  constructor
  · rintro ⟨e, -, h⟩
    cases hx : s.re.table.at e with
    | none => simp [hx] at h
    | some x => simp [hx] at h; exact ⟨e, x, hx, h⟩
  · rintro ⟨e, x, hx, h⟩; exact ⟨e, mem_all8 e, by simp [hx, h]⟩

/-- A target that is no station address. -/
theorem stationOfHalf_eq_none {t : Half} (h : t.toNat = 0 ∨ 16 < t.toNat) : stationOfHalf t = none := by
  unfold stationOfHalf; rw [dif_neg (by omega)]

/-- A target that is a station address. -/
theorem stationOfHalf_of_toNat {t : Half} {p : Station} (h : t.toNat = p.val + 1) : stationOfHalf t = some p := by
  have := p.isLt
  unfold stationOfHalf; rw [dif_pos (by omega)]; congr 1; apply Fin.ext; simp; omega

/-- The station a target names. -/
theorem stationOfHalf_eq_some {t : Half} {p : Station} : stationOfHalf t = some p ↔ t.toNat = p.val + 1 := by
  constructor
  · intro h
    unfold stationOfHalf at h
    split at h
    · next h' => cases h; simp; omega
    · cases h
  · exact stationOfHalf_of_toNat

/-- The kinds with a buffer. -/
theorem usesBuffer_iff (k : Half) : usesBuffer k = true ↔ (k = 1 ∨ k = 2 ∨ k = 3 ∨ k = 5) := by
  simp [usesBuffer, or_assoc]

/-- The count check of R97. -/
theorem count_check (d : Descriptor) : (usesBuffer d.kind && !countValid d.count.toNat) = true ↔ ¬ ((d.kind = 1 ∨ d.kind = 2 ∨ d.kind = 3 ∨ d.kind = 5) → 1 ≤ d.count.toNat ∧ d.count.toNat ≤ 16) := by
  rw [← usesBuffer_iff]; cases usesBuffer d.kind <;> simp [countValid] <;> omega

/-- The buffer check of R97. -/
theorem buffer_check (d : Descriptor) : (usesBuffer d.kind && decide (15 < d.buffer.toNat)) = true ↔ ¬ ((d.kind = 1 ∨ d.kind = 2 ∨ d.kind = 3 ∨ d.kind = 5) → d.buffer.toNat ≤ 15) := by
  rw [← usesBuffer_iff]; cases usesBuffer d.kind <;> simp

/-- Space in the completion queue (R146). -/
theorem completionSpace_iff (s : State) : completionSpace s = true ↔ s.lp.completions.length < 16 := by unfold completionSpace; exact decide_eq_true_iff

/-- The checks of R97 from the third on. -/
theorem checkDescriptor_of_station (s : State) (d : Descriptor) (p : Station) (hk : 1 ≤ d.kind.toNat ∧ d.kind.toNat ≤ 7) (hp : stationOfHalf d.target = some p) (ho : p ≠ s.stc.address) :
    checkDescriptor s d = if usesBuffer d.kind && !countValid d.count.toNat then some (.invalid, .check .count)
      else if usesBuffer d.kind && decide (15 < d.buffer.toNat) then some (.invalid, .check .buffer)
      else peerCheck (s.pt.peers.at p) := by
  unfold checkDescriptor; rw [if_neg (not_not_intro hk), hp]; dsimp only; rw [if_neg ho]

/-- Admission stops where a condition of R96 fails. -/
theorem attemptAdmission_stop (s : State) (h : ¬ (s.stc.state = .joined ∧ s.re.stalled = false) ∨ freeEntry s = none ∨ candidate s = none) (n : Nat) : attemptAdmission n s = s := by
  cases n with
  | zero => rfl
  | succ n =>
    simp only [attemptAdmission]
    split
    · next h' =>
      split
      · next e q h1 h2 => rcases h with h | h | h <;> simp_all
      · rfl
    · rfl

/-- One attempt at admission (R97), with what follows it. -/
theorem admission_step (s : State) (e : Fin 8) (q : Queued) (h1 : s.stc.state = .joined) (h2 : s.re.stalled = false) (he : freeEntry s = some e) (hq : candidate s = some q) :
    admission s = match checkDescriptor s q.desc with
      | some (st, dt) => if completionSpace s then admission (retire q st dt s) else stall s
      | none => admission (admitEntry e q s) := by
  have hmem : q ∈ s.re.queue := List.mem_of_find?_eq_some hq
  have hlen : ∃ n, s.re.queue.length = n + 1 := by
    cases h : s.re.queue with
    | nil => simp [h] at hmem
    | cons a l => exact ⟨l.length, rfl⟩
  obtain ⟨n, hn⟩ := hlen
  have her : (s.re.queue.erase q).length = n := by rw [List.length_erase_of_mem hmem, hn]; rfl
  unfold admission
  rw [hn]
  simp only [attemptAdmission, h1, h2, he, hq, and_self, if_true]
  cases hc : checkDescriptor s q.desc with
  | some v =>
    obtain ⟨st, dt⟩ := v
    dsimp only
    split
    · congr 1; rw [← her]; simp [retire, postCompletion, dequeue]
    · rfl
  | none =>
    dsimp only
    congr 1
    rw [← her]; unfold admitEntry
    split
    · next hst => simp [checkDescriptor, hst] at hc; split at hc <;> simp at hc
    · simp [makeReady, putEntry, dequeue]

/-- A copy without an answer past the deadline (R101, R102). -/
theorem copyUnanswered_deadline {e x s} (h : x.deadlinePassed = true) : copyUnanswered e x s = finishEntry e .deferralTimeout .none 0 s := by simp [copyUnanswered, h]

/-- The same in LEAVING. -/
theorem copyUnanswered_leaving {e x s} (h : x.deadlinePassed = false) (h2 : s.stc.state = .leaving) : copyUnanswered e x s = finishEntry e .cancelled .none 0 s := by simp [copyUnanswered, h, h2]

/-- Otherwise the attempt counts as lost. -/
theorem copyUnanswered_lost {e x s} (h : x.deadlinePassed = false) (h2 : s.stc.state ≠ .leaving) : copyUnanswered e x s = attemptLost e x s := by simp [copyUnanswered, h, h2]

/-- The attempt lost beyond the limit (R102). -/
theorem attemptLost_limit {e x s} (h : s.stc.active.lostLimit.toNat < x.lost + 1) : attemptLost e x s = finishEntry e .noResponse .none 0 (putEntry e (some { x with lost := x.lost + 1 }) s) := by simp [attemptLost, h]

/-- The attempt lost within the limit (R102). -/
theorem attemptLost_backoff {e x s} (h : ¬ s.stc.active.lostLimit.toNat < x.lost + 1) : attemptLost e x s = leaveReady e (putEntry e (some { x with lost := x.lost + 1, state := .backoff, window := .stopped, backoff := .running s.stc.active.retryInterval.toNat }) s) := by
  simp [attemptLost, h, putEntry, Table.put, Entry.backOff, retryInterval]

/-- The matching test of R104. -/
theorem entryMatches_iff (s : State) (p q e) : entryMatches s p q e = true ↔ ∃ x, Matches s p q x e := by
  unfold entryMatches Matches
  cases h : s.re.table.at e with
  | none => simp
  | some x =>
    simp only [Bool.and_eq_true, decide_eq_true_eq, stationOfHalf_eq_some, Option.some.injEq]
    have : matchable s e x = true ↔ (x.state = .awaitResponse ∨ x.state = .backoff ∨ (x.state = .readyToSend ∧ 1 ≤ x.attempts ∧ onLineOffer s ≠ some (.request e))) := by
      unfold matchable; cases x.state <;> simp
    rw [this]
    constructor
    · rintro ⟨⟨h1, h2⟩, h3⟩; exact ⟨x, rfl, h2, h3, h1⟩
    · rintro ⟨y, rfl, h2, h3, h1⟩; exact ⟨⟨h1, h2⟩, h3⟩

/-- Targets that name the same station. -/
theorem target_inj {d d' : Half} {p : Station} (h : d.toNat = p.val + 1) (h' : d'.toNat = p.val + 1) : d = d' := BitVec.eq_of_toNat_eq (h.trans h'.symm)

/-- The entry a response matches is found (R96, R104). -/
theorem matchingEntry_of_matches {s : State} (hl : TableLaws s) {p q e x} (h : Matches s p q x e) : matchingEntry s p q = some e := by
  unfold matchingEntry
  cases hf : all8.find? (entryMatches s p q) with
  | none =>
    rw [List.find?_eq_none] at hf
    exact absurd ((entryMatches_iff s p q e).mpr ⟨x, h⟩) (hf e (mem_all8 e))
  | some e' =>
    obtain ⟨y, hy⟩ := (entryMatches_iff s p q e').mp (List.find?_some hf)
    have := hl.target e' e y x hy.1 h.1 (target_inj hy.2.1 h.2.1)
    rw [this]

/-- The live entry toward a peer (R96, R110). -/
theorem liveEntryToward_eq_some {s : State} (hl : TableLaws s) (p : Station) (e x) (h1 : s.re.table.at e = some x) (h2 : x.state ≠ .completing) (h3 : x.desc.target.toNat = p.val + 1) : liveEntryToward s p = some e := by
  unfold liveEntryToward
  have he : (match s.re.table.at e with
    | none => false
    | some x => x.live && decide (stationOfHalf x.desc.target = some p)) = true := by
    rw [h1]; simp [Entry.live, h2, stationOfHalf_eq_some, h3]
  cases hf : all8.find? (fun e => match s.re.table.at e with
    | none => false
    | some x => x.live && decide (stationOfHalf x.desc.target = some p)) with
  | none => rw [List.find?_eq_none] at hf; exact absurd he (hf e (mem_all8 e))
  | some e' =>
    have := List.find?_some hf
    cases hy : s.re.table.at e' with
    | none => simp [hy] at this
    | some y =>
      simp only [hy, Bool.and_eq_true, decide_eq_true_eq, stationOfHalf_eq_some] at this
      rw [hl.target e' e y x hy h1 (target_inj this.2 h3)]

/-- No live entry toward a peer. -/
theorem liveEntryToward_eq_none {s : State} (p : Station) (h : ∀ e x, ¬ (s.re.table.at e = some x ∧ x.state ≠ .completing ∧ x.desc.target.toNat = p.val + 1)) : liveEntryToward s p = none := by
  unfold liveEntryToward
  rw [List.find?_eq_none]; intro e _
  cases hy : s.re.table.at e with
  | none => simp
  | some y =>
    simp only [Bool.and_eq_true, decide_eq_true_eq, stationOfHalf_eq_some, Entry.live]
    rintro ⟨h1, h2⟩; exact h e y ⟨hy, h1, h2⟩

/-- The start of LEAVING, entry by entry (R111). -/
theorem cancelEntries_eq_foldl (l : List (Fin 8)) (s : State) : cancelEntries l s = l.foldl (fun s e => match s.re.table.at e with
        | some x => if x.state = .backoff ∨ (x.state = .readyToSend ∧ onLineOffer s ≠ some (.request e)) then finishEntry e .cancelled .none 0 s else s
        | none => s) s := by
  induction l generalizing s with
  | nil => rfl
  | cons e l ih =>
    simp only [cancelEntries, List.foldl_cons]
    rw [ih]; congr 1
    unfold cancelledAtLeaving
    cases h : s.re.table.at e with
    | none => rfl
    | some x => 
      obtain ⟨d, q, st, at', lo, bu, de, dp, wi, ba, dl, re⟩ := x
      cases st <;> simp

/-- Everything the retirement of cancelled descriptors does when all are cancelled and no result waits (R111). -/
theorem retireCancelled_all (n : Nat) : ∀ (s : State), s.re.completing = [] → (∀ q ∈ s.re.queue, q.cancelled = true) → s.re.queue.length ≤ n →
    retireCancelled n s = { s with
        re := { s.re with queue := s.re.queue.drop (min (16 - s.lp.completions.length) s.re.queue.length) }
        lp := { s.lp with completions := s.lp.completions ++ (s.re.queue.take (min (16 - s.lp.completions.length) s.re.queue.length)).map (fun q =>
          ⟨q.desc.userTag, q.desc.kind, q.desc.target, .cancelled, .none, 0, q.desc.buffer, 0⟩) } } := by
  induction n with
  | zero =>
    intro s h1 h2 h3
    have : s.re.queue = [] := List.length_eq_zero_iff.mp (by omega)
    obtain ⟨a1, a2, a3, a4, a5, a6, ⟨q1, q2, q3, q4, q5, q6, q7⟩, a8, a9, a10, a11, a12⟩ := s
    simp_all [retireCancelled]
  | succ n ih =>
    intro s h1 h2 h3
    simp only [retireCancelled]
    by_cases hs : s.lp.completions.length < 16
    · rw [if_pos ⟨h1, (completionSpace_iff s).mpr hs⟩]
      cases hq : s.re.queue with
      | nil =>
        obtain ⟨a1, a2, a3, a4, a5, a6, ⟨q1, q2, q3, q4, q5, q6, q7⟩, a8, a9, a10, a11, a12⟩ := s
        simp_all
      | cons q r =>
        have hqc : q.cancelled = true := h2 q (by simp [hq])
        rw [List.find?_cons, hqc]
        dsimp only
        have hd : (retire q .cancelled .none s) = { s with
            re := { s.re with queue := r }
            lp := { s.lp with completions := s.lp.completions ++ [⟨q.desc.userTag, q.desc.kind, q.desc.target, .cancelled, .none, 0, q.desc.buffer, 0⟩] } } := by
          simp [retire, postCompletion, dequeue, completionFor, hq]
        rw [hd, ih _ (by exact h1) (fun q' hq' => h2 q' (by simp [hq]; right; exact hq')) (by simp [hq] at h3; exact h3)]
        have e1 : min (16 - s.lp.completions.length) (q :: r).length = min (16 - (s.lp.completions.length + 1)) r.length + 1 := by simp; omega
        simp only [e1, List.drop_succ_cons, List.take_succ_cons, List.map_cons, List.length_append, List.length_singleton, List.append_assoc, List.singleton_append]
    · rw [if_neg (by rw [completionSpace_iff]; tauto)]
      have : 16 - s.lp.completions.length = 0 := by omega
      simp [this]

/-- A waiting result keeps cancelled descriptors in the queue (R111). -/
theorem retireCancelled_blocked (n : Nat) (s : State) (h : s.re.completing ≠ []) : retireCancelled n s = s := by
  cases n with
  | zero => rfl
  | succ n => simp only [retireCancelled]; rw [if_neg (by tauto)]

/-- The purge of the response queue, by its head (R77). -/
theorem purgeQueue_cases (p : Station) (b : Bool) (q : List Response) : purgeQueue p b q = match q with
    | [] => []
    | r :: rs => if r.requester = p then (if b then { r with purged := true } :: rs.filter (fun x => x.requester ≠ p) else rs.filter (fun x => x.requester ≠ p)) else r :: rs.filter (fun x => x.requester ≠ p) := by
  cases q <;> rfl

end Sys2Proof.Machine
end

