-- ==== Sys2Proof/Laws/LocalPort.lean ====
section
/-! SUPPORT. Bus cycles: which command begins which, half-word addresses, and reads and writes of the local address map. -/

namespace Sys2Proof.Machine

/-- A command of the local controller begins its bus cycle. -/
theorem exec_of_busOf {c b} (h : busOf c = some b) : (∀ s, exec c s = .next (busCycle b s)) ∨ (∀ s, exec c s = .next (reselect (busCycle b s))) := by
  cases c
  case localReadLowHalf la => obtain rfl := Option.some.inj h; exact Or.inl fun _ => rfl
  case localReadHighHalf la => obtain rfl := Option.some.inj h; exact Or.inl fun _ => rfl
  case localWriteLowHalf a v => obtain rfl := Option.some.inj h; exact Or.inl fun _ => rfl
  case localWriteHighHalf a v => obtain rfl := Option.some.inj h; exact Or.inl fun _ => rfl
  case transferBufferWrite b j hi v => obtain rfl := Option.some.inj h; exact Or.inl fun _ => rfl
  case localRegisterWrite la v => obtain rfl := Option.some.inj h; exact Or.inr fun _ => rfl
  case post v => obtain rfl := Option.some.inj h; exact Or.inr fun _ => rfl
  case completionConsume v => obtain rfl := Option.some.inj h; exact Or.inr fun _ => rfl
  case eventConsume v => obtain rfl := Option.some.inj h; exact Or.inl fun _ => rfl
  case groupViewSnapshot => obtain rfl := Option.some.inj h; exact Or.inl fun _ => rfl
  case configure => obtain rfl := Option.some.inj h; exact Or.inl fun _ => rfl
  case join => obtain rfl := Option.some.inj h; exact Or.inr fun _ => rfl
  case leave => obtain rfl := Option.some.inj h; exact Or.inr fun _ => rfl
  case revoke => obtain rfl := Option.some.inj h; exact Or.inl fun _ => rfl
  all_goals nomatch h

/-- The same, in one state. -/
theorem exec_of_busOf_at {c b} (h : busOf c = some b) (s : State) : exec c s = .next (busCycle b s) ∨ exec c s = .next (reselect (busCycle b s)) := by
  rcases exec_of_busOf h with h | h
  · exact Or.inl (h s)
  · exact Or.inr (h s)

/-- A relation between a state and the next holds of every command if it holds of a bus cycle, is kept by choosing again, and holds of the commands that begin no bus cycle. -/
theorem exec_cases {c : Instr} {s t : State} (P : State → State → Prop)
    (hbus : ∀ b s, P s (busCycle b s)) (hre : ∀ s t, P s t → P s (reselect t))
    (h : exec c s = .next t) (hn : busOf c = none → P s t) : P s t := by
  cases hb : busOf c with
  | some b =>
    rcases exec_of_busOf_at hb s with h' | h' <;> rw [h'] at h <;> cases h
    · exact hbus b s
    · exact hre _ _ (hbus b s)
  | none => exact hn hb

/-- A half-word address as a number. -/
theorem toNat_ofNat14 (n : Nat) (h : n < 16384) : (BitVec.ofNat 14 n).toNat = n := by simp; omega

/-- The half-words of the segment. -/
theorem inSegment_half (a : BitVec 12) (k : Nat) (hk : k < 2) : inSegment (BitVec.ofNat 14 (2 * a.toNat + k)) = true := by
  have := a.isLt
  simp only [inSegment]; rw [toNat_ofNat14 _ (by omega)]; simp; omega

/-- The word of a half-word. -/
theorem wordOf_half (a : BitVec 12) (k : Nat) (hk : k < 2) : wordOf (BitVec.ofNat 14 (2 * a.toNat + k)) = a := by
  have := a.isLt
  apply BitVec.eq_of_toNat_eq
  simp only [wordOf, BitVec.extractLsb'_toNat]
  rw [toNat_ofNat14 _ (by omega), Nat.shiftRight_eq_div_pow]
  omega

/-- Which half a half-word is. -/
theorem isHigh_half (a : BitVec 12) (k : Nat) (hk : k < 2) : isHigh (BitVec.ofNat 14 (2 * a.toNat + k)) = decide (k = 1) := by
  have := a.isLt
  simp only [isHigh, BitVec.getLsbD, toNat_ofNat14 (2 * a.toNat + k) (by omega), Nat.testBit_zero]
  rcases (by omega : k = 0 ∨ k = 1) with rfl | rfl <;> simp <;> omega

/-- A cycle begins at once when none is in progress (R141). -/
theorem busCycle_of_portReady {s : State} (h : s.portReady) (b : BusCycle) : busCycle b s = beginCycle b s := by
  simp [busCycle, h.1, raiseStrobe, h.2, presentStrobe]

/-- Both read commands are read cycles. -/
theorem exec_readCommand (la : BitVec 14) (s : State) : exec (readCommand la) s = .next (busCycle (.read la) s) := by
  unfold readCommand
  split
  · next h =>
    show Host.Outcome.next (busCycle (.read _) s) = _
    congr 3
    apply BitVec.eq_of_toNat_eq
    have := la.isLt
    simp only [BitVec.extractLsb'_toNat, Nat.shiftRight_eq_div_pow, BitVec.toNat_ofNat]
    simp only [BitVec.getLsbD, Nat.testBit_zero, decide_eq_true_eq] at h
    omega
  · next h =>
    show Host.Outcome.next (busCycle (.read _) s) = _
    congr 3
    apply BitVec.eq_of_toNat_eq
    have := la.isLt
    simp only [BitVec.extractLsb'_toNat, Nat.shiftRight_eq_div_pow, BitVec.toNat_ofNat]
    simp only [BitVec.getLsbD, Nat.testBit_zero, decide_eq_true_eq] at h
    omega

/-- A read outside the segment. -/
theorem read_outside {s : State} (h : s.portReady) (la : BitVec 14) (hl : 0x2000 ≤ la.toNat) :
    exec (readCommand la) s =
      .next (State.cycleDone (.read la) (readLocation (snapshotFor la s) la.toNat) (countRead la (snapshotFor la s))) := by
  rw [exec_readCommand, busCycle_of_portReady h]
  have : inSegment la = false := by simp [inSegment]; omega
  simp [beginCycle, beginRead, this, setCycle, State.cycleDone]

/-- Which reads take a free value (R147, log 37). -/
theorem readsNoEvent_iff (s : State) (n : Nat) : readsNoEvent s n = true ↔ NoEventRead n s := by
  simp [readsNoEvent, NoEventRead, List.isEmpty_iff]

/-- A read uses a free value up when it takes one. -/
theorem countRead_eq (la : BitVec 14) (s : State) :
    (NoEventRead la.toNat s → countRead la s = { s with freeCount := s.freeCount + 1 }) ∧ (¬ NoEventRead la.toNat s → countRead la s = s) := by
  rw [← readsNoEvent_iff]
  exact ⟨fun h => by rw [countRead, if_pos h]; rfl, fun h => by rw [countRead, if_neg h]⟩

/-- The same, but for the location that takes a snapshot and the reads that take a free value. -/
theorem read_outside_plain {s : State} (h : s.portReady) (la : BitVec 14) (hl : 0x2000 ≤ la.toNat) (hne : la.toNat ≠ 0x2360)
    (hf : ¬ NoEventRead la.toNat s) : exec (readCommand la) s = .next (s.cycleDone (.read la) (readLocation s la.toNat)) := by
  rw [read_outside h la hl]; simp [snapshotFor, hne, (countRead_eq la s).2 hf]

/-- The windows and the status area with an event at the head of the event queue. -/
theorem readLocation_window_event (s : State) (n : Nat) (h1 : 0x2300 ≤ n) (h2 : n < 0x2340) {e es} (he : s.lp.events = e :: es) :
    readLocation s n = ((windowTable s).lookup n).getD 0 := by
  obtain ⟨k, hk, rfl⟩ : ∃ k, k < 64 ∧ n = 0x2300 + k := ⟨n - 0x2300, by omega, by omega⟩
  have hc : (flagHalf (!s.lp.completions.isEmpty)) = if s.lp.completions = [] then 0 else 1 := by cases s.lp.completions <;> rfl
  have h1' : ∀ k, k < 64 → ¬ (0x2300 + k < 0x2200) ∧ ¬ (0x2300 + k < 0x2300) := by intro k _; omega
  simp only [readLocation, (h1' k hk).1, (h1' k hk).2, if_false]
  interval_cases k <;> simp [readSubmission, readCompletion, readEvent, readStatus, descriptorField, windowTable, List.lookup, hc, he, completionField, eventField, addressHalf, addressOf, busyEntries, all8, flagHalf] <;> first | done | (cases s.lp.completions.head? <;> rfl) | (rcases s.stc.command with _ | ⟨_, _ | _ | _ | _⟩ <;> rfl)

/-- The same with an empty event queue, but for the fields of its head. -/
theorem readLocation_window_noEvent (s : State) (n : Nat) (h1 : 0x2300 ≤ n) (h2 : n < 0x2340) (he : s.lp.events = []) (hf : ¬ NoEventRead n s) :
    readLocation s n = ((windowTable s).lookup n).getD 0 := by
  obtain ⟨k, hk, rfl⟩ : ∃ k, k < 64 ∧ n = 0x2300 + k := ⟨n - 0x2300, by omega, by omega⟩
  have hc : (flagHalf (!s.lp.completions.isEmpty)) = if s.lp.completions = [] then 0 else 1 := by cases s.lp.completions <;> rfl
  have h1' : ∀ k, k < 64 → ¬ (0x2300 + k < 0x2200) ∧ ¬ (0x2300 + k < 0x2300) := by intro k _; omega
  simp only [readLocation, (h1' k hk).1, (h1' k hk).2, if_false]
  interval_cases k <;> first
    | exact absurd ⟨he, by decide, by decide⟩ hf
    | (simp [readSubmission, readCompletion, readEvent, readStatus, descriptorField, windowTable, List.lookup, hc, he, completionField, addressHalf, addressOf, busyEntries, all8, flagHalf] <;> first | done | (cases s.lp.completions.head? <;> rfl) | (rcases s.stc.command with _ | ⟨_, _ | _ | _ | _⟩ <;> rfl))

/-- The windows and the status area show what the table lists (Table 10-5). -/
theorem readLocation_window (s : State) (n : Nat) (h1 : 0x2300 ≤ n) (h2 : n < 0x2340) (hf : ¬ NoEventRead n s) :
    readLocation s n = ((windowTable s).lookup n).getD 0 := by
  cases he : s.lp.events with
  | nil => exact readLocation_window_noEvent s n h1 h2 he hf
  | cons e es => exact readLocation_window_event s n h1 h2 he

/-- The group view shows the snapshot (R151). -/
theorem readLocation_groupView (s : State) (p : Fin 4) (k : Fin 8) : readLocation s (0x2360 + 8 * p.val + k.val) = groupViewShows s.lp.snapshot p k := by
  have hp := p.isLt; have hk := k.isLt
  simp only [readLocation]
  repeat rw [if_neg (by omega)]
  rw [if_pos (by omega)]
  have h1 : 0x2360 + 8 * p.val + k.val - 0x2360 = 8 * p.val + k.val := by omega
  have h2 : (8 * p.val + k.val) / 8 = p.val := by omega
  have h3 : (8 * p.val + k.val) % 8 = k.val := by omega
  simp only [readGroupView, h1, h2, h3, groupViewShows]
  cases s.lp.snapshot[p.val]? with
  | none => rfl
  | some g => fin_cases k <;> rfl

/-- A write outside the segment. -/
theorem write_outside {s : State} (h : s.portReady) (la : BitVec 14) (v : Half) (hl : 0x2000 ≤ la.toNat) :
    busCycle (.write la v) s = (writeLocation la.toNat v s).cycleDone (.write la v) 0 := by
  rw [busCycle_of_portReady h]
  have : inSegment la = false := by simp [inSegment]; omega
  simp [beginCycle, beginWrite, this, setCycle, State.cycleDone]

/-- The locations of LOCAL_REGISTER_WRITE. -/
theorem plainLocation_bounds {la v} (h : Instr.wellFormed (.localRegisterWrite la v) = true) :
    0x2200 ≤ la.toNat ∧ la.toNat ≠ 0x2307 ∧ la.toNat ≠ 0x231A ∧ la.toNat ≠ 0x232A ∧ (la.toNat = 0x2333 → Command.ofCode v = none) := by
  simp only [Instr.wellFormed, plainLocation, Bool.and_eq_true, decide_eq_true_eq, Bool.not_eq_true', Bool.and_eq_false_iff, decide_eq_false_iff_not] at h
  obtain ⟨⟨⟨⟨h1, h2⟩, h3⟩, h4⟩, h5⟩ := h
  refine ⟨h1, fun h => h2 (BitVec.eq_of_toNat_eq h), fun h => h3 (BitVec.eq_of_toNat_eq h), fun h => h4 (BitVec.eq_of_toNat_eq h), fun h => ?_⟩
  rcases h5 with h5 | h5
  · exact absurd (BitVec.eq_of_toNat_eq h) h5
  · simpa using h5

/-- The locations from 0x2300 on. -/
theorem writeLocation_window (k : Nat) (v s) : writeLocation (0x2300 + k) v s = writeWindow k v s := by
  simp only [writeLocation, if_neg (show ¬ 0x2300 + k < 0x2200 by omega), if_neg (show ¬ 0x2300 + k < 0x2300 by omega), Nat.add_sub_cancel_left]

/-- A write to one of them. -/
theorem write_window {s : State} (hp : s.portReady) (la : BitVec 14) (v : Half) (k : Nat) (h : la.toNat = 0x2300 + k) :
    busCycle (.write la v) s = (writeWindow k v s).cycleDone (.write la v) 0 := by
  rw [write_outside hp _ v (by omega), h, writeLocation_window]

/-- A write to the command location. -/
theorem write_command {s : State} (hp : s.portReady) (v : Half) : busCycle (.write 0x2333 v) s = (writeCommand v s).cycleDone (.write 0x2333 v) 0 := by
  rw [write_window hp _ v 0x33 (by decide)]; rfl

/-- CONFIGURE with no cycle in progress. -/
theorem exec_configure {s : State} (hp : s.portReady) : exec .configure s = .next ((commandConfigure s).cycleDone (.write 0x2333 1) 0) := by
  show Host.Outcome.next (busCycle (.write 0x2333 1) s) = _
  rw [write_command hp]; rfl

/-- JOIN with no cycle in progress. -/
theorem exec_join {s : State} (hp : s.portReady) : exec .join s = .next (reselect ((commandJoin s).cycleDone (.write 0x2333 2) 0)) := by
  show Host.Outcome.next (reselect (busCycle (.write 0x2333 2) s)) = _
  rw [write_command hp]; rfl

/-- LEAVE with no cycle in progress. -/
theorem exec_leave {s : State} (hp : s.portReady) : exec .leave s = .next (reselect ((commandLeave s).cycleDone (.write 0x2333 3) 0)) := by
  show Host.Outcome.next (reselect (busCycle (.write 0x2333 3) s)) = _
  rw [write_command hp]; rfl

/-- REVOKE with no cycle in progress. -/
theorem exec_revoke {s : State} (hp : s.portReady) : exec .revoke s = .next ((commandRevoke s).cycleDone (.write 0x2333 4) 0) := by
  show Host.Outcome.next (busCycle (.write 0x2333 4) s) = _
  rw [write_command hp]; rfl

end Sys2Proof.Machine
end

