-- ==== Sys2Proof/Laws/Peers.lean ====
section
/-! SUPPORT. Announcements: what each block does with one, and what is left when the station enters SETUP. -/

namespace Sys2Proof.Machine

/-- Admission does not depend on the SRU. -/
theorem attemptAdmission_sru (n : Nat) : ∀ (s : State) (x : Sru), attemptAdmission n { s with sru := x } = { attemptAdmission n s with sru := x } := by
  induction n with
  | zero => intro s x; rfl
  | succ n ih =>
    intro s x
    unfold attemptAdmission
    dsimp only
    split
    · rw [show freeEntry { s with sru := x } = freeEntry s from rfl, show candidate { s with sru := x } = candidate s from rfl]
      cases freeEntry s with
      | none => rfl
      | some e =>
        cases candidate s with
        | none => rfl
        | some q =>
          dsimp only
          rw [show checkDescriptor { s with sru := x } q.desc = checkDescriptor s q.desc from rfl]
          cases checkDescriptor s q.desc with
          | some c =>
            obtain ⟨st, dt⟩ := c
            dsimp only
            rw [show completionSpace { s with sru := x } = completionSpace s from rfl]
            split
            · rw [show retire q st dt { s with sru := x } = { retire q st dt s with sru := x } from rfl, ih]
            · rfl
          | none =>
            dsimp only
            rw [show admitEntry e q { s with sru := x } = { admitEntry e q s with sru := x } from by unfold admitEntry; split <;> rfl, ih]
    · rfl

/-- Neither does the end of an entry. -/
theorem finishEntry_sru (e st dt w) (s : State) (x : Sru) : finishEntry e st dt w { s with sru := x } = { finishEntry e st dt w s with sru := x } := by
  unfold finishEntry
  dsimp only
  cases s.re.table.at e with
  | none => rfl
  | some y =>
    dsimp only
    rw [show completionSpace { s with sru := x } = completionSpace s from rfl]
    split
    · exact attemptAdmission_sru _ (putEntry e none (postCompletion (completionFor y.desc st dt w y.attempts) (retractEntry e s))) x
    · rfl

/-- Nor does the taking of an announcement by the RE (R110). -/
theorem reTakeAnnouncement_sru (s : State) (x : Sru) : reTakeAnnouncement { s with sru := x } = { reTakeAnnouncement s with sru := x } := by
  unfold reTakeAnnouncement
  dsimp only
  cases s.re.announced with
  | none => rfl
  | some a =>
    dsimp only
    rw [show liveEntryToward { s with sru := x, re := { s.re with announced := none } } a.peer = liveEntryToward { s with re := { s.re with announced := none } } a.peer from rfl]
    cases liveEntryToward { s with re := { s.re with announced := none } } a.peer with
    | none => rfl
    | some e => exact finishEntry_sru e _ _ 0 { s with re := { s.re with announced := none } } x

/-- The restart purge does not depend on the SRU and the RE (R77). -/
theorem restartPurge_told (s : State) (x : Sru) (y : Re) : restartPurge { s with sru := x, re := y } = { restartPurge s with sru := x, re := y } := by
  unfold restartPurge
  dsimp only
  cases s.te.restarted with
  | none => rfl
  | some p =>
    dsimp only
    rw [show purgeWithdraws p { s with sru := x, re := y } = purgeWithdraws p s from rfl, show headOnLine { s with sru := x, re := y } = headOnLine s from rfl]
    split <;> rfl

/-- Everything an announcement does (R88). -/
theorem announce_eq (a : Announcement) (s : State) :
    let work : GeWork := match a with
      | .lost p => .gone p true
      | .departed p => .gone p true
      | .restarted p => .restarted p 1
    let v := reTakeAnnouncement (sruTakeAnnouncement { s with ge := { s.ge with work := addWork work s.ge.work } })
    let told (w : State) : State := { w with sru := { w.sru with announced := some a }, re := { w.re with announced := some a } }
    announce a s = match a with
      | .restarted p => { told (restartPurge v) with te := { (restartPurge v).te with restarted := some p } }
      | _ => told v := by
  have h : ∀ u : State, (reTakeAnnouncement (sruTakeAnnouncement u)).sru = (sruTakeAnnouncement u).sru := fun u => by simp
  have r : ∀ u : State, (restartPurge u).sru = u.sru ∧ (restartPurge u).re = u.re := fun u => by simp
  cases a <;> simp only [announce, giveGe, reTakeAnnouncement_sru, restartPurge_told, h, r]

/-- The marks on the GE's reports (R81). -/
theorem staleReports_eq (ge : Ge) : staleReports ge = ge.unreported := by
  unfold staleReports Ge.unreported
  congr 1
  cases ge.op with
  | none => rfl
  | some o => cases o with
    | rollback c l e => cases e <;> rfl
    | _ => rfl

/-- An announcement that has been taken waits no longer (R88). -/
theorem announcement_taken (s : State) : (sruTakeAnnouncement s).sru.announced = none ∧ (reTakeAnnouncement s).re.announced = none ∧ (restartPurge s).te.restarted = none := by
  refine ⟨?_, ?_, ?_⟩
  · unfold sruTakeAnnouncement; cases h : s.sru.announced <;> simp [h]
  · unfold reTakeAnnouncement; cases h : s.re.announced with
    | none => simp [h]
    | some a => dsimp only; split <;> simp
  · unfold restartPurge; cases h : s.te.restarted with
    | none => simp [h]
    | some a => dsimp only; split <;> simp

/-- Nor does a start of LEAVING (R138). -/
theorem leaving_taken (s : State) : (sruTakeStartOfLeaving s).sru.startOfLeaving = false ∧ (reTakeStartOfLeaving s).re.startOfLeaving = false := by
  refine ⟨?_, ?_⟩
  · unfold sruTakeStartOfLeaving; cases h : s.sru.startOfLeaving <;> simp [h]
  · unfold reTakeStartOfLeaving; cases h : s.re.startOfLeaving <;> simp [h]

/-- On entering SETUP nothing waits for the SRU, the RE and the TE (log 15). -/
theorem takeAllWaiting_nothingWaits (s : State) : NothingWaits (takeAllWaiting s) := by
  unfold takeAllWaiting NothingWaits
  simp [announcement_taken, leaving_taken]

/-- A restart that the SRU has taken leaves its peer no slot (R58). -/
theorem sruTakeAnnouncement_noSlot {s : State} {a : Announcement} (h : SlotLaws s) (ha : s.sru.announced = some a) :
    ∀ i x, (sruTakeAnnouncement s).sru.slots.at i = some x → x.requester ≠ a.peer := by
  intro i x hx
  unfold sruTakeAnnouncement at hx
  rw [ha] at hx
  dsimp only at hx
  unfold freeSlotOf at hx
  split at hx
  · next j hj =>
    obtain ⟨cs, -, e⟩ := freeSlot_spec j { s with sru := { s.sru with announced := none } }
    rw [e] at hx
    simp only [Table.at_put] at hx
    split at hx
    · cases hx
    · next hij =>
      obtain ⟨y, hy, hp⟩ := slotOf_holds hj
      intro hq
      exact hij (h.one i j x y hx hy (hq.trans hp.symm))
  · next hn =>
    intro hq
    have := List.find?_eq_none.mp hn i (by fin_cases i <;> decide)
    simp_all

end Sys2Proof.Machine
end

