-- ==== Sys2Proof/Tests/Slice0.lean ====
section
/-! SUPPORT. The tests: ill-formed commands, at most two steps for each command, most of them from the worked sequences of the manual, and for every statement states and operands that meet its hypotheses. -/

set_option Elab.async false

namespace Sys2Proof.Tests

open Sys2Proof Sys2Proof.Machine

/-! ### Small states -/

/-- Station 5 in a station state, RESET# high, everything else as after reset. -/
def up (st : StationState) : State :=
  { State.reset with
    resetLow := false
    sgm := { State.reset.sgm with clearing := decide (st = .clearing) }
    stc := { State.reset.stc with state := st, address := 4 } }

/-- A command answers a next state of which the test holds. -/
def runs (c : Instr) (s : State) (test : State → Bool) : Bool :=
  match exec c s with
  | .next t => test t
  | _ => false

/-- The line is IDLE. -/
def onIdleLine (s : State) : State := { s with lc := { s.lc with view := .idle } }

/-- A frame of another station is being received. -/
def receivingFrame (s : State) : State := { s with lc := { s.lc with view := .frame, receive := some 0x1F1 } }

/-- This station's frame is on the line. -/
def sending (o : Offer) (s : State) : State :=
  { s with lc := { s.lc with view := .frame, receive := some 0x101, slot := .onLine o ⟨.request, 0, 4, 8, [5, 0]⟩ [] false } }

/-- A peer settled PRESENT. -/
def present : Peer := { Peer.reset with presence := .present, timer := .running 30000 }

/-- The same peer with departure pending silent. -/
def departing : Peer := { present with departure := some .silent, timer := .stopped }

/-- Give a peer an entry. -/
def withPeer (p : Station) (e : Peer) (s : State) : State := { s with pt := { s.pt with peers := s.pt.peers.put p e } }

/-- Words stored from an address. -/
def storing (a : Nat) (ws : List Word) (s : State) : State := { s with sgm := { s.sgm with words := s.sgm.words.writeAll a ws } }

/-- A request frame in hand. -/
def inHand (p : Station) (r : Request) (st : HandStage) (s : State) : State := { s with te := { s.te with hand := some ⟨p, r, st⟩ } }

/-- Claims waiting. -/
def claiming (cs : List Claimant) (s : State) : State := { s with sgm := { s.sgm with claims := cs } }

/-- An operation of the GE in progress. -/
def operating (op : GeOp) (s : State) : State := { s with ge := { s.ge with op := some op } }

/-- Work waiting for the GE. -/
def working (ws : List GeWork) (s : State) : State := { s with ge := { s.ge with work := ws } }

/-- A slot and the SRU's work. -/
def withSlot (i : Fin 4) (sl : Slot) (ws : List SruWork) (s : State) : State :=
  { s with sru := { s.sru with slots := s.sru.slots.put i (some sl), work := ws } }

/-- A bus cycle in progress. -/
def inCycle (b : BusCycle) (strobe : Bool) (w : CycleWork) (s : State) : State := { s with lp := { s.lp with cycle := some ⟨b, strobe, w⟩ } }

/-- Group (2, 6) of section 2.12 after step 4: words 100 to 104 hold 0x20 to 0x24, word 105 holds 0x15. -/
def group26 : State :=
  let s := storing 100 [0x20, 0x21, 0x22, 0x23, 0x24, 0x15] (withPeer 1 present (withPeer 8 present (up .joined)))
  { s with ge := { s.ge with
      table := s.ge.table.put 0 (some ⟨1, 6, 5, .running 20000⟩)
      order := [0]
      undo := [⟨0, 100, 0x10⟩, ⟨0, 101, 0x11⟩, ⟨0, 102, 0x12⟩, ⟨0, 103, 0x13⟩, ⟨0, 104, 0x14⟩]
      holds := [(100, 0), (101, 0), (102, 0), (103, 0), (104, 0)] } }

/-- The access map that lets every peer read and write. -/
def permitting (s : State) : State := { s with stc := { s.stc with active := { s.stc.active with pages := Table.const 64 ⟨1, 0xFFFF⟩ } } }

/-- A request of section 2.12. -/
def request (k : ReqKind) (seq : Byte) (retry : Bool) (tag : BitVec 4) (addr : Nat) (data : List Word) (count : Nat) : Request :=
  ⟨k, seq, retry, tag, addr, data, count⟩

/-- The RDS of section 6.8: target 5, words 102 to 105, buffer 3, user tag 0x0A21. -/
def descriptor : Descriptor := ⟨2, 5, 102, 4, 0, 3, 0x0A21⟩

/-- An outstanding entry of that descriptor. -/
def entry (st : EntryState) (attempts : Nat) : Entry :=
  { freshEntry descriptor 17 with
    state := st
    attempts := attempts
    window := if st = .awaitResponse then .running 1000 else .stopped
    backoff := if st = .backoff then .running 500 else .stopped
    result := if st = .completing then some ⟨.ok, .none, 4⟩ else none }

/-- Station 9, with one outstanding entry. -/
def requester (x : Entry) : State :=
  let s := withPeer 4 present (up .joined)
  { s with
    stc := { s.stc with address := 8 }
    re := { s.re with
      table := s.re.table.put 0 (some x)
      ready := if x.state = .readyToSend then [0] else []
      completing := if x.state = .completing then [0] else [] } }

/-- The completion queue holds n completions. -/
def withCompletions (n : Nat) (s : State) : State :=
  { s with lp := { s.lp with completions := List.replicate n ⟨1, 1, 2, .ok, .none, 1, 0, 1⟩ } }

/-- A frame of station 2 to station 5. -/
def frameFrom (p : Station) (k : BitVec 4) (body : List Byte) : Frame := ⟨.request, 0, p, k, body⟩

/-! ### Well-formedness -/

theorem test_wf_post_is_no_register : Instr.wellFormed (.localRegisterWrite 0x2307 0) = false := by decide
theorem test_wf_completion_consume_is_no_register : Instr.wellFormed (.localRegisterWrite 0x231A 0) = false := by decide
theorem test_wf_event_consume_is_no_register : Instr.wellFormed (.localRegisterWrite 0x232A 0) = false := by decide
theorem test_wf_command_code_is_no_register : Instr.wellFormed (.localRegisterWrite 0x2333 1) = false ∧ Instr.wellFormed (.localRegisterWrite 0x2333 4) = false := by decide
theorem test_wf_other_code_at_command_location : Instr.wellFormed (.localRegisterWrite 0x2333 0) = true ∧ Instr.wellFormed (.localRegisterWrite 0x2333 5) = true := by decide
theorem test_wf_segment_is_no_register : Instr.wellFormed (.localRegisterWrite 0x1FFF 0) = false := by decide
theorem test_wf_buffer_is_no_register : Instr.wellFormed (.localRegisterWrite 0x21FF 0) = false ∧ Instr.wellFormed (.localRegisterWrite 0x2200 0) = true := by decide
/-- A PRESENCE whose sender field is another station's (R126). -/
theorem test_wf_presence_of_another_sender : Instr.wellFormed (.goodFrame (frameFrom 1 8 [3, 0])) = false := by decide
/-- A request without a whole header (R126). -/
theorem test_wf_short_request : Instr.wellFormed (.goodFrame (frameFrom 1 1 [5, 40])) = false := by decide
/-- A REPLY_DATA whose count is not that of its words (R126). -/
theorem test_wf_reply_data_count : Instr.wellFormed (.goodFrame ⟨.response, 0, 1, 9, [5, 40, 2, 0, 0, 0, 1]⟩) = false := by decide
/-- The bits of a good frame are not those of a discarded one. -/
theorem test_wf_good_bits_not_discarded : Instr.wellFormed (.frameDiscarded (frameBits (frameFrom 1 8 [2, 0]))) = false := by decide +kernel
/-- Bits that reach none of the ends of R125 are those of no frame that has ended. -/
theorem test_wf_no_bits_discarded : Instr.wellFormed (.frameDiscarded []) = false ∧ Instr.wellFormed (.frameDiscarded (List.replicate 8 true)) = true := by decide

/-! ### The words of frames -/

/-- A PRESENCE of station 2 with last winner 16, bit by bit: class 1, rank 0001, address field 0001, kind 1000, length 2, sender 2, mark 0 (R116, Table 10-3). -/
theorem test_payload_of_presence : payloadBits (presenceFrame 1 (rankOf 1 15) .plain) =
    [true, false, false, false, true, false, false, false, true, true, false, false, false,
     false, false, false, false, false, false, true, false,
     false, false, false, false, false, false, true, false, false, false, false, false, false, false, false, false] := by decide
/-- Stuffing: after seven equal bits a bit of the other state (R116). -/
theorem test_stuffing : stuff false 0 [true, true, true, true, true, true, true, true] = [true, true, true, true, true, true, true, false, true] := by decide
/-- A run of eight equal bits is a stuffing violation (R116, R126). -/
theorem test_stuffing_violation : receive (List.replicate 40 true) = .error .stuffing := by decide
/-- A length beyond 71 bytes is discarded (R125): class, rank, address, kind, then length 72. -/
theorem test_over_length : receive ([true, false, false, true, false, false, true, false, false, true, false, false, true, false, true, false, false, true, false, false, false]) = .error .overLength := by decide
/-- It ends at the length field, before the stuff bit that its seven equal bits would have after them. -/
theorem test_over_length_at_field : receive [true, false, false, true, false, false, true, false, false, true, false, false, true, false, true, true, true, true, true, true, true] = .error .overLength := by decide
/-- The GWRITE of step 4 of section 2.12 is read as it was sent. -/
theorem test_gwrite_on_the_line : receive (frameBits (frameFrom 1 5 [5, 42, 0, 6, 0, 104, 1, 0, 0, 0, 0x24])) =
    .ok (frameFrom 1 5 [5, 42, 0, 6, 0, 104, 1, 0, 0, 0, 0x24]) := by decide +kernel
/-- The largest frame, a GWRITE with 16 data words, passes the length check (R125). -/
theorem test_longest_frame : formatOk (frameFrom 1 5 ([5, 41, 0, 6, 0, 100, 16] ++ List.replicate 64 0xFF)) = true ∧
    formatOk (frameFrom 1 5 ([5, 41, 0, 6, 0, 100, 16] ++ List.replicate 65 0xFF)) = false := by decide +kernel
/-- The check of the nine ASCII digits with this generator and preset is 0x29B1. -/
theorem test_check : crc ([0x31, 0x32, 0x33, 0x34, 0x35, 0x36, 0x37, 0x38, 0x39].flatMap (fun b : Byte => msbFirst b)) = 0x29B1 := by decide +kernel
/-- The ranks and keys of the first contention of Table 7-2: stations 3, 7 and 12 with last winner 7. -/
theorem test_table_7_2 : keyOf .request (rankOf 2 6) 2 = 0b110110010 ∧ keyOf .request (rankOf 6 6) 6 = 0b111110110 ∧ keyOf .request (rankOf 11 6) 11 = 0b101001011 := by decide
/-- The second and third contentions. -/
theorem test_table_7_2_later : keyOf .request (rankOf 2 11) 2 = 0b101100010 ∧ keyOf .request (rankOf 6 11) 6 = 0b110100110 ∧ keyOf .request (rankOf 6 2) 6 = 0b100110110 := by decide

/-! ### Reset and clearing -/

theorem test_pin_reset : runs (.pinReset 4 3) group26 (fun t => decide (t = { State.reset with
    sgm := { State.reset.sgm with words := group26.sgm.words }, stc := { State.reset.stc with address := 4, rate := 3 } })) = true := by decide +kernel
theorem test_reset_release : runs (.resetRelease 4 3) State.reset (fun t => decide (t.resetLow = false ∧ t.sgm.clearing = true ∧ t.stc.address = 4 ∧ t.stc.rate = 3)) = true := by decide
theorem test_clearing_done : runs .clearingDone (storing 7 [9] (up .clearing)) (fun t => decide (t.sgm.words = [] ∧ t.stc.state = .setup ∧
    t.sgm.clearing = false ∧ t.lp.events = [.stateChanged .setup])) = true := by decide
/-- A low-half write begun in CLEARING is staged when clearing ends (R14). -/
theorem test_clearing_done_resumes : runs .clearingDone (inCycle (.write 0x192 0x23) true .clearing (up .clearing)) (fun t =>
    decide (t.lp.stagedLow = some (201, 0x23)) && t.lrdy) = true := by decide

/-! ### Bus cycles (section 9.7, word 201 of station 5) -/

theorem test_read_low_half_claims : runs (.localReadLowHalf 201) (up .setup) (fun t => decide (t.sgm.claims = [.lp] ∧ t.lrdy = false)) = true := by decide
/-- The station state reads 3 in JOINED (Table 10-5). -/
theorem test_read_state : runs (.localReadLowHalf 0x1198) (up .joined) (fun t => decide (t.ld = some 3)) = true := by decide
theorem test_read_high_half_latched : runs (.localReadHighHalf 201) { up .joined with lp := { (up .joined).lp with latch := some (201, 1) } }
    (fun t => decide (t.ld = some 1 ∧ t.sgm.claims = [])) = true := by decide
theorem test_read_high_half_of_another_word : runs (.localReadHighHalf 202) { up .joined with lp := { (up .joined).lp with latch := some (201, 1) } }
    (fun t => decide (t.ld = none ∧ t.sgm.claims = [.lp])) = true := by decide
/-- Step 1 of Table 9-1. -/
theorem test_write_low_half : runs (.localWriteLowHalf 201 0x23) (up .joined) (fun t => decide (t.lp.stagedLow = some (201, 0x23) ∧ t.lrdy = true ∧ t.sgm.claims = [])) = true := by decide
theorem test_write_high_half : runs (.localWriteHighHalf 201 1) (up .joined) (fun t => decide (t.sgm.claims = [.lp] ∧ t.lp.cycle = some ⟨.write 0x193 1, true, .claim⟩)) = true := by decide
/-- Any other cycle empties the word latch (R142). -/
theorem test_cycle_end_empties_latch : runs .localCycleEnd { inCycle (.read 0x2330) true (.done 3) (up .joined) with
    lp := { (inCycle (.read 0x2330) true (.done 3) (up .joined)).lp with latch := some (201, 1) } } (fun t => decide (t.lp.cycle = none ∧ t.lp.latch = none)) = true := by decide
/-- A low-half read leaves it filled. -/
theorem test_cycle_end_keeps_latch : runs .localCycleEnd { inCycle (.read 0x192) true (.done 3) (up .joined) with
    lp := { (inCycle (.read 0x192) true (.done 3) (up .joined)).lp with latch := some (201, 1) } } (fun t => decide (t.lp.cycle = none ∧ t.lp.latch = some (201, 1))) = true := by decide
/-- A local read of a held word returns its committed image (R8, section 2.12). -/
theorem test_word_read_committed : runs .localWordRead (claiming [.lp] (inCycle (.read 0xC8) true .claim group26)) (fun t =>
    decide (t.ld = some 0x10 ∧ t.lp.latch = some (100, 0) ∧ t.sgm.claims = [])) = true := by decide +kernel
/-- A local read granted between two rollbacks of one list, though the next rollback claim stands before it (R31, log 32). -/
theorem test_word_read_between_rollbacks : runs .localWordRead (claiming [.ge, .lp] (inCycle (.read 0xC8) true .claim
      { group26 with ge := { group26.ge with op := some (.rollback .revoked [0] .nothing), following := true } })) (fun t =>
    decide (t.ld = some 0x10 ∧ t.sgm.claims = [.ge])) = true := by decide +kernel
/-- Reading a field of the head of an empty event queue uses a free value up; reading its head-present does not (R147, log 37). -/
theorem test_read_no_event : runs (readCommand 0x2323) (up .joined) (fun t => decide (t.freeCount = 1 ∧ t.lp.events = [])) = true ∧
    runs (readCommand 0x2320) (up .joined) (fun t => decide (t.freeCount = 0 ∧ t.ld = some 0)) = true := by decide +kernel
/-- Step 2 of Table 9-1. -/
theorem test_word_write : runs .localWordWrite (claiming [.lp] (inCycle (.write 0x193 1) true .claim
    { storing 201 [0x22] (up .joined) with lp := { (up .joined).lp with stagedLow := some (201, 0x23) } })) (fun t =>
    decide (t.sgm.words.read 201 = 0x10023 ∧ t.lp.stagedLow = none ∧ t.lp.events = [])) = true := by decide +kernel
/-- Step 5 of Table 9-1, on word 100 of section 2.12. -/
theorem test_word_write_refused : runs .localWordWrite (claiming [.lp] (inCycle (.write 0xC9 1) true .claim group26)) (fun t =>
    decide (t.sgm.words.read 100 = 0x20 ∧ t.lp.events = [.localWriteRefused 100]) && t.attention) = true := by decide +kernel
theorem test_buffer_write : runs (.transferBufferWrite 3 15 true 0xBEEF) (up .setup) (fun t => decide (t.lp.buffers = [(63, 0xBEEF0000)])) = true := by decide
theorem test_buffer_write_lent : runs (.transferBufferWrite 3 0 false 1) (requester (entry .awaitResponse 1)) (fun t => decide (t.lp.buffers = [])) = true := by decide +kernel
theorem test_register_write : runs (.localRegisterWrite 0x2306 0x0A21) (up .setup) (fun t => decide (t.lp.window.userTag = 0x0A21)) = true := by decide
/-- The write set of page 63 is staged (Table 10-6). -/
theorem test_register_write_page : runs (.localRegisterWrite 0x22FF 0x8000) (up .joined) (fun t =>
    decide ((t.stc.staged.pages.at 63).writeSet = 0x8000 ∧ t.stc.active = (up .joined).stc.active)) = true := by decide +kernel
/-- The POST of section 6.8: ACCEPTED and admitted with seq 17. -/
theorem test_post : runs (.post 0) { withPeer 4 { present with nextSeq := 17 } (up .joined) with
      stc := { (up .joined).stc with address := 8 }, lp := { (up .joined).lp with window := descriptor } } (fun t =>
    decide (t.lp.postResult = some .accepted ∧ t.re.queue = [] ∧ t.re.table.at 0 = some (freshEntry descriptor 17) ∧ t.re.ready = [0] ∧
      (t.pt.peers.at 4).nextSeq = 18) && lent t 3) = true := by decide +kernel
theorem test_post_in_setup : runs (.post 0) (up .setup) (fun t => decide (t.lp.postResult = some .notJoined ∧ t.re.queue = [])) = true := by decide
/-- At 3.0 of Table 8-5: the result of entry 0 takes the place the consumed completion leaves. -/
theorem test_completion_consume : runs (.completionConsume 0) (withCompletions 16 (requester (entry .completing 5))) (fun t =>
    decide (t.lp.completions.length = 16 ∧ t.lp.completions.getLast? = some ⟨0x0A21, 2, 5, .ok, .none, 4, 3, 5⟩ ∧ t.re.table.at 0 = none ∧
      t.re.completing = [])) = true := by decide +kernel
theorem test_event_consume : runs (.eventConsume 0) { up .setup with lp := { (up .setup).lp with events := [.stateChanged .setup], eventsLost := true } }
    (fun t => decide (t.lp.events = [] ∧ t.lp.eventsLost = false)) = true := by decide
theorem test_group_view_snapshot : runs .groupViewSnapshot group26 (fun t => decide (t.lp.snapshot = [⟨1, 6, 5⟩] ∧ t.ld = some 1)) = true := by decide +kernel

/-! ### The four commands -/

theorem test_configure : runs .configure { up .setup with stc := { (up .setup).stc with staged := { ConfigRecord.default with lostLimit := 7 } } }
    (fun t => decide (t.stc.active.lostLimit = 7 ∧ t.stc.command = some (.configure, .accepted))) = true := by decide +kernel
/-- A response window of 300 microseconds is no multiple of 250 (Table 8-2). -/
theorem test_configure_refused : runs .configure { up .setup with stc := { (up .setup).stc with staged := { ConfigRecord.default with responseWindow := 300 } } }
    (fun t => decide (t.stc.active = ConfigRecord.default ∧ t.stc.command = some (.configure, .refusedConfig 1 0))) = true := by decide +kernel
/-- The JOIN of section 8.8: listen timer 20 ms. -/
theorem test_join : runs .join (up .setup) (fun t => decide (t.stc.state = .listening ∧ t.stc.listen = .running 20000 ∧ t.lp.events = [.stateChanged .listening])) = true := by decide +kernel
theorem test_leave : runs .leave (up .joined) (fun t => decide (t.stc.state = .leaving ∧ t.ge.work = [.startOfLeaving] ∧ t.sru.startOfLeaving = true ∧
    t.re.startOfLeaving = true)) = true := by decide
theorem test_leave_listening : runs .leave (withPeer 1 present (up .listening)) (fun t => decide (t.stc.state = .setup ∧ (t.pt.peers.at 1).presence = .absent)) = true := by decide +kernel
theorem test_revoke : runs .revoke (working [.frame] (up .joined)) (fun t => decide (t.ge.work = [.frame, .revoke])) = true := by decide
theorem test_revoke_joins : runs .revoke (working [.revoke] (up .joined)) (fun t => decide (t.ge.work = [.revoke])) = true := by decide

/-! ### The link -/

/-- The fresh PRESENCE of section 8.8 contends with its key. -/
theorem test_start_delimiter : runs (.startDelimiter ⟨0b101000100, false⟩) (onIdleLine { up .listening with stc := { (up .listening).stc with due := some .fresh } }) (fun t =>
    decide (t.lc.view = .frame ∧ t.lc.slot = .contending (.presence .fresh) 0b101000100)) = true := by decide
/-- Another station sent a dominant rank bit, or the stuff bit of the key 1 0000 0000 was read dominant: the station withdraws and keeps its frame (R118). -/
theorem test_start_delimiter_withdraws : runs (.startDelimiter ⟨0b100000100, true⟩) (onIdleLine { up .listening with stc := { (up .listening).stc with due := some .fresh } }) (fun t =>
    decide (t.lc.view = .frame ∧ t.lc.slot = .chosen (.presence .fresh))) = true ∧
    runs (.startDelimiter ⟨0b100000000, false⟩) (onIdleLine { up .listening with stc := { (up .listening).stc with due := some .fresh, address := 0 } }) (fun t =>
    decide (t.lc.view = .frame ∧ t.lc.slot = .chosen (.presence .fresh))) = true := by decide
/-- Copy 2 of section 6.8 carries the retry mark. -/
theorem test_contention_won : runs .contentionWon { requester (entry .readyToSend 1) with lc := { (requester (entry .readyToSend 1)).lc with
      view := .frame, receive := some 0x188, slot := .contending (.request 0) 0x188 } } (fun t =>
    match t.lc.slot with
    | .onLine o f b orphan => decide (o = .request 0 ∧ f = ⟨.request, 8, 8, 2, [5, 17, 1, 0, 102, 4]⟩ ∧ b = frameBits f ∧ orphan = false)
    | _ => false) = true := by decide +kernel
/-- Copy 1 of section 6.8 is sent. -/
theorem test_transmit_sent : runs .transmitSent (sending (.request 0) (requester (entry .readyToSend 0))) (fun t =>
    decide (t.re.table.at 0 = some (entry .awaitResponse 1) ∧ t.re.ready = [] ∧ t.lc.last1 = 8 ∧ t.lc.view = .gap 0)) = true := by decide +kernel
/-- Step 2 of Table 4-4. -/
theorem test_transmit_fault : runs .transmitFault (sending .response { up .joined with te := { (up .joined).te with queue := [⟨1, 43, .done 5, 0, false⟩] } }) (fun t =>
    decide (t.te.queue = [⟨1, 43, .done 5, 1, false⟩] ∧ t.lc.slot = .empty)) = true := by decide
/-- The third fault removes the response (R76). -/
theorem test_transmit_fault_third : runs .transmitFault (sending .response { up .joined with te := { (up .joined).te with queue := [⟨1, 43, .done 5, 2, false⟩] } }) (fun t =>
    decide (t.te.queue = [])) = true := by decide
theorem test_line_idle : runs .lineIdle (requester (entry .readyToSend 0)) (fun t => decide (t.lc.view = .idle ∧ t.lc.slot = .chosen (.request 0))) = true := by decide +kernel
theorem test_dominant_bit_in_gap : runs .dominantBitInGap { up .joined with lc := { (up .joined).lc with view := .gap 11 } } (fun t => decide (t.lc.view = .gap 0)) = true := by decide
/-- The GWRITE of step 4 of section 2.12 is passed to the TE and hears its sender. -/
theorem test_good_frame : runs (.goodFrame (frameFrom 1 5 [5, 42, 0, 6, 0, 104, 1, 0, 0, 0, 0x24])) (receivingFrame (up .joined)) (fun t =>
    decide (t.te.input = some (frameFrom 1 5 [5, 42, 0, 6, 0, 104, 1, 0, 0, 0, 0x24]) ∧ t.lc.last1 = 1 ∧ (t.pt.peers.at 1).presence = .present ∧
      t.lp.events = [.peerUp 1 false])) = true := by decide +kernel
/-- Step 1 of Table 5-4: a fresh PRESENCE of a PRESENT peer is announced as a restart. -/
theorem test_good_frame_fresh : runs (.goodFrame (frameFrom 6 8 [7, 1])) (receivingFrame (withPeer 6 present (up .joined))) (fun t =>
    decide (t.ge.work = [.restarted 6 1] ∧ t.sru.announced = some (.restarted 6) ∧ t.re.announced = some (.restarted 6) ∧ t.te.restarted = some 6)) = true := by decide +kernel
/-- A request frame of a restarted peer finds no slot of before the restart, though SRU_TAKE_ANNOUNCEMENT has not come yet (R58, log 38). -/
theorem test_good_frame_after_restart : runs (.goodFrame (frameFrom 6 2 [5, 89, 1, 0, 140, 4])) (receivingFrame { withSlot 3 ⟨6, 89, 140, 4, .ready [1, 2, 3, 4], .running 4000⟩ []
      (withPeer 6 present (up .joined)) with sru := { slots := (up .joined).sru.slots.put 3 (some ⟨6, 89, 140, 4, .ready [1, 2, 3, 4], .running 4000⟩), work := [], announced := some (.restarted 6), startOfLeaving := false } }) (fun t =>
    decide (t.te.input = some (frameFrom 6 2 [5, 89, 1, 0, 140, 4]) ∧ t.sru.slots.at 3 = none ∧ t.sru.announced = none)) = true := by decide +kernel
/-- Bits that reach no end of a frame end none. -/
theorem test_frame_not_ended : runs (.frameDiscarded [true, false]) (receivingFrame (up .joined)) (fun t => decide (t = receivingFrame (up .joined))) = true := by decide +kernel
theorem test_frame_discarded : runs (.frameDiscarded (List.replicate 8 true)) (receivingFrame (up .joined)) (fun t =>
    decide (t.lc.view = .gap 0 ∧ t.lc.last1 = 15 ∧ t.lp.events = [])) = true := by decide

/-! ### The requester (section 6.8) -/

/-- At 0.3: REPLY_BUSY. -/
theorem test_reply_busy : takeResponse 4 ⟨9, 17, .busy⟩ (requester (entry .awaitResponse 1)) =
    putEntry 0 (some { entry .backoff 1 with busy := 1 }) (requester (entry .awaitResponse 1)) := by decide +kernel
/-- At 4.2: REPLY_DATA. -/
theorem test_reply_data : (takeResponse 4 ⟨9, 17, .data [0x22, 0x23, 0x24, 0x15]⟩ (requester (entry .awaitResponse 5))).lp.completions =
      [⟨0x0A21, 2, 5, .ok, .none, 4, 3, 5⟩] ∧
    (takeResponse 4 ⟨9, 17, .data [0x22, 0x23, 0x24, 0x15]⟩ (requester (entry .awaitResponse 5))).lp.buffers = [(48, 0x22), (49, 0x23), (50, 0x24), (51, 0x15)] := by
  decide +kernel
/-- At 3.4: the window expires. -/
theorem test_response_window_expiry : runs (.responseWindowExpiry 0) (requester (entry .awaitResponse 4)) (fun t =>
    decide (t.re.table.at 0 = some { entry .backoff 4 with lost := 1 })) = true := by decide +kernel
/-- At 0.8. -/
theorem test_backoff_expiry : runs (.backoffExpiry 0) (requester (entry .backoff 1)) (fun t =>
    decide (t.re.table.at 0 = some (entry .readyToSend 1) ∧ t.re.ready = [0])) = true := by decide +kernel
/-- The variant of section 6.8: at 21.0 in BACKOFF. -/
theorem test_deferral_deadline_expiry : runs (.deferralDeadlineExpiry 0) (requester { entry .backoff 3 with deferred := true, deadline := .running 20000 }) (fun t =>
    decide (t.lp.completions = [⟨0x0A21, 2, 5, .deferralTimeout, .none, 0, 3, 3⟩] ∧ t.re.table.at 0 = none)) = true := by decide +kernel
/-- The same with a copy in flight. -/
theorem test_deferral_deadline_in_flight : runs (.deferralDeadlineExpiry 0) (requester { entry .awaitResponse 3 with deferred := true, deadline := .running 20000 }) (fun t =>
    decide ((t.re.table.at 0).map (·.deadlinePassed) = some true ∧ t.lp.completions = [])) = true := by decide +kernel
/-- Step 4 of Table 5-4. -/
theorem test_re_take_announcement : runs .reTakeAnnouncement { requester (entry .awaitResponse 1) with
      re := { (requester (entry .awaitResponse 1)).re with announced := some (.restarted 4) } } (fun t =>
    decide (t.lp.completions = [⟨0x0A21, 2, 5, .peerRestarted, .none, 0, 3, 1⟩] ∧ t.re.announced = none)) = true := by decide +kernel
/-- At 0.0 of Table 8-5: an entry in BACKOFF and a queued descriptor end CANCELLED. -/
theorem test_re_take_start_of_leaving : runs .reTakeStartOfLeaving { requester (entry .backoff 1) with
      stc := { (requester (entry .backoff 1)).stc with state := .leaving }
      re := { (requester (entry .backoff 1)).re with startOfLeaving := true, queue := [⟨{ descriptor with kind := 4, userTag := 7 }, false⟩] } } (fun t =>
    decide (t.lp.completions = [⟨0x0A21, 2, 5, .cancelled, .none, 0, 3, 1⟩, ⟨7, 4, 5, .cancelled, .none, 0, 3, 0⟩] ∧ t.re.queue = [])) = true := by decide +kernel

/-! ### Serving requests (chapter 4) -/

/-- Step 1 of Table 4-3: handed to the GE. -/
theorem test_frame_in_hand : runs .frameInHand { group26 with te := { group26.te with input := some (frameFrom 1 6 [5, 43, 0, 6]) } } (fun t =>
    decide (t.ge.work = [.frame] ∧ t.te.input = none ∧ t.te.hand = some ⟨1, request .gclose 43 false 6 0 [] 0, .ge⟩)) = true := by decide +kernel
/-- Step 4 of Table 4-3: the re-send is replayed. -/
theorem test_frame_in_hand_replayed : runs .frameInHand { withPeer 1 { present with record := some ⟨43, 6, .done 5⟩ } (up .joined) with
      te := { (up .joined).te with input := some (frameFrom 1 6 [5, 43, 1, 6]) } } (fun t =>
    decide (t.te.queue = [⟨1, 43, .done 5, 0, false⟩] ∧ t.te.hand = none ∧ t.ge.work = [])) = true := by decide +kernel
/-- An RD of words 100 to 105 returns the committed image (section 2.12, step 2). -/
theorem test_rd_range_read : runs .rdRangeRead (claiming [.te] (inHand 8 (request .rd 9 false 0 100 [] 6) .rdClaim group26)) (fun t =>
    decide (t.te.queue = [⟨8, 9, .data [0x10, 0x11, 0x12, 0x13, 0x14, 0x15], 0, false⟩] ∧ (t.pt.peers.at 8).record = some ⟨9, 1, .data⟩)) = true := by decide +kernel
/-- A read claim granted before the capture claim that a release notice has placed before it (section 2.12 step 7, log 8). -/
theorem test_rd_range_read_before_capture : runs .rdRangeRead (claiming [.sru, .te] (inHand 1 (request .rd 9 false 0 102 [] 1) .rdClaim
      (withSlot 0 ⟨8, 17, 102, 4, .waiting true, .running 4000⟩ [.capture 0] (storing 102 [0x22] (up .joined))))) (fun t =>
    decide (t.te.queue = [⟨1, 9, .data [0x22], 0, false⟩] ∧ t.sgm.claims = [.sru] ∧ t.sru.work = [.capture 0])) = true := by decide +kernel
/-- A local read granted before an evaluation claim that had stood behind a capture (R45, log 33). -/
theorem test_word_read_before_evaluation : runs .localWordRead (claiming [.sru, .lp] (inCycle (.read 0xC8) true .claim
      { group26 with sru := { group26.sru with work := [.evaluate true] } })) (fun t =>
    decide (t.ld = some 0x10 ∧ t.sgm.claims = [.sru] ∧ t.sru.work = [.evaluate true])) = true := by decide +kernel
/-- An RDS handed over while a capture waits stands behind it, and is marked so (R45). -/
theorem test_evaluation_behind_capture :
    let s := withSlot 0 ⟨8, 17, 102, 4, .waiting true, .running 4000⟩ [.capture 0] (up .joined)
    ((evaluateAsNew 1 s).sru.work, (evaluateAsNew 8 s).sru.work) = ([.capture 0, .evaluate true], [.evaluate false]) := by decide +kernel
/-- Step 8 of Table 3-5: the store discards the READY slot that contains its word. -/
theorem test_wr_apply : runs .wrApply (claiming [.te] (inHand 9 (request .wr 51 false 0 101 [0x71] 1) .wrClaim
      (withSlot 0 ⟨2, 5, 100, 2, .ready [0x20, 0x21], .running 4000⟩ [] (storing 100 [0x20, 0x21] (up .joined))))) (fun t =>
    decide (t.sgm.words.read 101 = 0x71 ∧ t.sru.slots.at 0 = none ∧ t.te.queue = [⟨9, 51, .done 1, 0, false⟩])) = true := by decide +kernel
/-- Any held word refuses the whole WR (R69). -/
theorem test_wr_apply_conflict : runs .wrApply (claiming [.te] (inHand 1 (request .wr 44 false 0 104 [1, 2] 2) .wrClaim group26)) (fun t =>
    decide (t.sgm.words = group26.sgm.words ∧ t.te.queue = [⟨1, 44, .refuse .conflict, 0, false⟩])) = true := by decide +kernel
/-- Step 3 of Table 5-4. -/
theorem test_restart_purge : runs .restartPurge { up .joined with te := { (up .joined).te with
      restarted := some 6, queue := [⟨3, 31, .done 2, 0, false⟩, ⟨6, 89, .defer, 0, false⟩] } } (fun t =>
    decide (t.te.queue = [⟨3, 31, .done 2, 0, false⟩] ∧ t.te.restarted = none)) = true := by decide

/-! ### Settled reads (chapter 3, section 2.12) -/

/-- Step 3 of Table 2-4. -/
theorem test_rds_evaluation : runs .rdsEvaluation (claiming [.sru] (inHand 8 (request .rds 17 false 0 102 [] 4) .sru { group26 with sru := { group26.sru with work := [.evaluate false] } }))
    (fun t => decide (t.sru.slots.at 0 = some ⟨8, 17, 102, 4, .waiting false, .running 4000⟩ ∧ t.te.queue = [⟨8, 17, .defer, 0, false⟩] ∧ t.sgm.claims = [])) = true := by decide +kernel
/-- The owner of the group is refused SELF_HELD (R50). -/
theorem test_rds_evaluation_self_held : runs .rdsEvaluation (claiming [.sru] (inHand 1 (request .rds 44 false 0 104 [] 2) .sru { group26 with sru := { group26.sru with work := [.evaluate false] } }))
    (fun t => decide (t.te.queue = [⟨1, 44, .refuse .selfHeld, 0, false⟩])) = true := by decide +kernel
/-- Step 7 of Table 2-4. -/
theorem test_slot_capture : runs .slotCapture (claiming [.sru] (withSlot 0 ⟨8, 17, 102, 4, .waiting true, .running 4000⟩ [.capture 0]
      (storing 102 [0x22, 0x23, 0x24, 0x15] (up .joined)))) (fun t =>
    decide (t.sru.slots.at 0 = some ⟨8, 17, 102, 4, .ready [0x22, 0x23, 0x24, 0x15], .running 4000⟩ ∧ t.sru.work = [] ∧ t.sgm.claims = [])) = true := by decide +kernel
/-- Step 8 of Table 2-4. -/
theorem test_settled_read_taken : (takeRds 8 (request .rds 17 true 0 102 [] 4) (inHand 8 (request .rds 17 true 0 102 [] 4) .sru
      (withSlot 0 ⟨8, 17, 102, 4, .ready [0x22, 0x23, 0x24, 0x15], .running 4000⟩ [] (up .joined)))).te.queue =
    [⟨8, 17, .data [0x22, 0x23, 0x24, 0x15], 0, false⟩] := by decide +kernel
theorem test_discard_timer_expiry : runs (.discardTimerExpiry 3) (claiming [.sru] (withSlot 3 ⟨8, 17, 102, 4, .waiting true, .running 4000⟩ [.capture 3] (up .joined)))
    (fun t => decide (t.sru.slots.at 3 = none ∧ t.sru.work = [] ∧ t.sgm.claims = [])) = true := by decide
/-- Step 2 of Table 5-4. -/
theorem test_sru_take_announcement : runs .sruTakeAnnouncement { withSlot 0 ⟨6, 89, 140, 4, .waiting false, .running 4000⟩ [] (up .joined) with
      sru := { (withSlot 0 ⟨6, 89, 140, 4, .waiting false, .running 4000⟩ [] (up .joined)).sru with announced := some (.restarted 6) } } (fun t =>
    decide (t.sru.slots.at 0 = none ∧ t.sru.announced = none)) = true := by decide
theorem test_sru_take_start_of_leaving : runs .sruTakeStartOfLeaving { withSlot 2 ⟨6, 89, 140, 4, .waiting false, .running 4000⟩ [] (up .leaving) with
      sru := { (withSlot 2 ⟨6, 89, 140, 4, .waiting false, .running 4000⟩ [] (up .leaving)).sru with startOfLeaving := true } } (fun t =>
    decide (t.sru = State.reset.sru)) = true := by decide

/-! ### Write groups (chapter 2) -/

/-- Step 1 of Table 2-4. -/
theorem test_gopen : runs .gopen (working [.frame] (inHand 1 (request .gopen 40 false 6 0 [] 0) .ge (withPeer 1 present (up .joined)))) (fun t =>
    decide (t.ge.table.at 0 = some ⟨1, 6, 0, .running 20000⟩ ∧ t.ge.order = [0] ∧ t.te.queue = [⟨1, 40, .done 0, 0, false⟩])) = true := by decide +kernel
theorem test_gopen_exists : runs .gopen (working [.frame] (inHand 1 (request .gopen 44 false 6 0 [] 0) .ge group26)) (fun t =>
    decide (t.ge.order = [0] ∧ t.te.queue = [⟨1, 44, .refuse .groupExists, 0, false⟩])) = true := by decide +kernel
/-- Step 4 of Table 2-4, up to its claim. -/
theorem test_gwrite : runs .gwrite (working [.frame] (inHand 1 (request .gwrite 42 false 6 104 [0x24] 1) .ge (permitting group26))) (fun t =>
    decide (t.ge.op = some (.gwrite 0) ∧ t.sgm.claims = [.ge] ∧ t.te.queue = [])) = true := by decide +kernel
theorem test_gwrite_not_permitted : runs .gwrite (working [.frame] (inHand 1 (request .gwrite 42 false 6 104 [0x24] 1) .ge group26)) (fun t =>
    decide (t.ge.op = none ∧ t.te.queue = [⟨1, 42, .refuse .notPermitted, 0, false⟩])) = true := by decide +kernel
/-- A GWRITE of words 104 and 105: one of the two is newly held. -/
theorem test_gwrite_apply : runs .gwriteApply (claiming [.ge] (operating (.gwrite 0) (inHand 1 (request .gwrite 43 false 6 104 [0x34, 0x35] 2) .ge group26))) (fun t =>
    decide (t.sgm.words.read 104 = 0x34 ∧ t.sgm.words.read 105 = 0x35 ∧ t.ge.undo.length = 6 ∧ t.ge.undo.getLast? = some ⟨0, 105, 0x15⟩ ∧
      (t.ge.table.at 0).map (·.held) = some 6 ∧ committed t 104 = 0x14 ∧ committed t 105 = 0x15 ∧ t.te.queue = [⟨1, 43, .done 2, 0, false⟩])) = true := by decide +kernel
theorem test_gclose : runs .gclose (working [.frame] (inHand 1 (request .gclose 43 false 6 0 [] 0) .ge group26)) (fun t =>
    decide (t.ge.op = some (.commit 0) ∧ t.sgm.claims = [.ge])) = true := by decide +kernel
theorem test_gclose_no_group : runs .gclose (working [.frame] (inHand 1 (request .gclose 43 false 5 0 [] 0) .ge group26)) (fun t =>
    decide (t.te.queue = [⟨1, 43, .refuse .noGroup, 0, false⟩])) = true := by decide +kernel
/-- Step 6 of Table 2-4, with station 9's slot. -/
theorem test_group_commit : runs .groupCommit (claiming [.ge] (operating (.commit 0) (inHand 1 (request .gclose 43 false 6 0 [] 0) .ge
      (withSlot 0 ⟨8, 17, 102, 4, .waiting false, .running 4000⟩ [] group26)))) (fun t =>
    decide (t.ge.holds = [] ∧ t.ge.undo = [] ∧ t.ge.order = [] ∧ committed t 104 = 0x24 ∧ t.lp.events = [.groupCommitted 1 6 5] ∧
      t.te.queue = [⟨1, 43, .done 5, 0, false⟩] ∧ t.sru.work = [.capture 0] ∧ t.sgm.claims = [.sru])) = true := by decide +kernel
theorem test_gabort : runs .gabort (working [.frame] (inHand 1 (request .gabort 43 false 6 0 [] 0) .ge group26)) (fun t =>
    decide (t.ge.op = some (.rollback .requested [0] .reply) ∧ t.sgm.claims = [.ge])) = true := by decide +kernel
/-- The variant of section 2.12. -/
theorem test_group_rollback : runs .groupRollback (claiming [.ge] (operating (.rollback .requested [0] .reply) (inHand 1 (request .gabort 43 false 6 0 [] 0) .ge group26))) (fun t =>
    decide (t.sgm.words = [(100, 0x10), (101, 0x11), (102, 0x12), (103, 0x13), (104, 0x14), (105, 0x15)] ∧ t.ge.holds = [] ∧
      t.lp.events = [.groupAborted 1 6 .requested] ∧ t.te.queue = [⟨1, 43, .done 0, 0, false⟩])) = true := by decide +kernel
theorem test_idle_timer_expiry : runs (.idleTimerExpiry 0) group26 (fun t => decide (t.ge.work = [.expiry 0])) = true := by decide +kernel
theorem test_ge_take_expiry : runs .geTakeExpiry (working [.expiry 0] group26) (fun t => decide (t.ge.op = some (.rollback .expired [0] .nothing) ∧ t.ge.work = [])) = true := by decide +kernel
theorem test_ge_take_peer_lost : runs .geTakePeerLost (working [.gone 1 true] group26) (fun t => decide (t.ge.op = some (.rollback .peerLost [0] (.gone 1 true)))) = true := by decide +kernel
/-- A lost peer without a group: the end report at once (R86). -/
theorem test_ge_take_peer_lost_at_once : runs .geTakePeerLost (working [.gone 8 true] (withPeer 8 departing (up .joined))) (fun t =>
    decide (t.ge.op = none ∧ t.lp.events = [.peerDown 8 .silent] ∧ (t.pt.peers.at 8).presence = .absent)) = true := by decide +kernel
theorem test_ge_take_peer_restarted : runs .geTakePeerRestarted (working [.restarted 8 2] group26) (fun t => decide (t.lp.events = [.peerUp 8 true, .peerUp 8 true])) = true := by decide +kernel
theorem test_ge_take_revoke : runs .geTakeRevoke (working [.revoke] group26) (fun t => decide (t.ge.op = some (.rollback .revoked [0] .nothing))) = true := by decide +kernel
/-- A group frame accepted before LEAVE reaches the GE after the start of LEAVING (R38, log 36); without one, no work passes it. -/
theorem test_start_of_leaving_before_frame : runs .geTakeStartOfLeaving (working [.frame, .startOfLeaving] group26) (fun t =>
    decide (t.ge.op = some (.rollback .leaving [0] .noGroupOpen) ∧ t.ge.work = [.frame])) = true ∧
    runs .geTakeRevoke (working [.frame, .revoke] group26) (fun t => decide (t = working [.frame, .revoke] group26)) = true := by decide +kernel
theorem test_ge_take_start_of_leaving : runs .geTakeStartOfLeaving (working [.startOfLeaving] (up .leaving)) (fun t => decide (t.stc.noGroupOpen = true)) = true := by decide

/-! ### Presence (chapter 5) -/

theorem test_last_heard_expiry : runs (.lastHeardExpiry 6) (withPeer 6 present (up .joined)) (fun t =>
    decide ((t.pt.peers.at 6).departure = some .silent ∧ t.ge.work = [.gone 6 true] ∧ t.sru.announced = some (.lost 6))) = true := by decide +kernel
theorem test_quiet_timer_expiry : runs .quietTimerExpiry { up .joined with stc := { (up .joined).stc with quiet := .running 10000 } } (fun t =>
    decide (t.stc.due = some .plain ∧ t.stc.quiet = .stopped)) = true := by decide
theorem test_listen_timer_expiry : runs .listenTimerExpiry { up .listening with stc := { (up .listening).stc with listen := .running 20000 } } (fun t =>
    decide (t.stc.due = some .fresh ∧ t.stc.listen = .stopped)) = true := by decide
/-- At 3.0 of Table 8-5. -/
theorem test_leaving_presence_due : runs .leavingPresenceDue { up .leaving with stc := { (up .leaving).stc with noGroupOpen := true } } (fun t =>
    decide (t.stc.due = some .leaving ∧ t.te.closed = true)) = true := by decide
theorem test_leaving_presence_not_due : runs .leavingPresenceDue (up .leaving) (fun t => decide (t = up .leaving)) = true := by decide +kernel

/-! ### The queue of commands -/

theorem test_step_runs_front : step { up .setup with pending := [.join, .leave] } = exec .join { up .setup with pending := [.leave] } := rfl
theorem test_step_idles : step (up .setup) = .next (up .setup) := rfl

/-! ### States that meet the laws -/

/-- The undo log of two groups: the first holds words 0 to n - 1, the second word 200. -/
def groupLog (n : Nat) : List UndoEntry := (List.range n).map (fun a => ⟨0, a, 0⟩) ++ [⟨1, 200, 0⟩]

/-- Their hold map. -/
def groupHolds (n : Nat) : Sparse (Fin 4) := (List.range n).map (fun a => (a, 0)) ++ [(200, 1)]

/-- Station 5 with the groups (2, 6) and (3, 6). -/
def groups (n : Nat) : State :=
  let s := permitting (withPeer 1 present (withPeer 2 present (up .joined)))
  { s with ge := { s.ge with
      table := ((s.ge.table.put 0 (some ⟨1, 6, n, .running 20000⟩)).put 1 (some ⟨2, 6, 1, .running 20000⟩))
      order := [0, 1]
      undo := groupLog n
      holds := groupHolds n } }

/-- Station 5 with four groups open that hold nothing. -/
def fourGroups : State :=
  let s := withPeer 1 present (withPeer 2 present (up .joined))
  { s with ge := { s.ge with
      table := Vector.ofFn (fun i : Fin 4 => some ⟨1, BitVec.ofNat 4 i.val, 0, .running 20000⟩)
      order := [0, 1, 2, 3] } }

theorem holds_sorted {n : Nat} (h : n ≤ 127) : (groupHolds n).Pairwise (fun e e' => e.1 < e'.1) := by
  unfold groupHolds
  refine List.pairwise_append.mpr ⟨?_, by simp, ?_⟩
  · rw [List.pairwise_map]; exact List.pairwise_lt_range
  · intro a ha b hb
    simp at ha hb; obtain ⟨k, hk, rfl⟩ := ha; subst hb; simp; omega

theorem get_iff_mem {α : Type} {m : Sparse α} (h : m.Pairwise (fun e e' => e.1 < e'.1)) (a : Nat) (v : α) : Sparse.get m a = some v ↔ (a, v) ∈ m :=
  ⟨Sparse.get_some_mem, Sparse.get_of_mem h⟩

theorem groupLog_of (n : Nat) (g : Fin 4) : ((groupLog n).filter (fun e => e.group = g)).length = if g = 0 then n else if g = 1 then 1 else 0 := by
  unfold groupLog
  rw [List.filter_append, List.length_append]
  revert g
  refine fun g => ?_
  by_cases h0 : g = 0
  · subst h0; simp [List.filter_map, Function.comp_def]
  · by_cases h1 : g = 1
    · subst h1; simp [List.filter_map, Function.comp_def]
    · simp [List.filter_map, Function.comp_def, h0, h1, Ne.symm h0, Ne.symm h1]

theorem mem_groupLog {n : Nat} {e : UndoEntry} : e ∈ groupLog n ↔ (e.addr < n ∧ e.group = 0 ∧ e.old = 0) ∨ (e.addr = 200 ∧ e.group = 1 ∧ e.old = 0) := by
  obtain ⟨g, a, o⟩ := e
  simp only [groupLog, List.mem_append, List.mem_map, List.mem_range, List.mem_singleton, UndoEntry.mk.injEq]
  constructor
  · rintro (⟨k, hk, rfl, rfl, rfl⟩ | ⟨rfl, rfl, rfl⟩)
    · exact Or.inl ⟨hk, rfl, rfl⟩
    · exact Or.inr ⟨rfl, rfl, rfl⟩
  · rintro (⟨hk, rfl, rfl⟩ | ⟨rfl, rfl, rfl⟩)
    · exact Or.inl ⟨_, hk, rfl, rfl, rfl⟩
    · exact Or.inr ⟨rfl, rfl, rfl⟩

theorem mem_groupHolds {n : Nat} {a : Nat} {g : Fin 4} : (a, g) ∈ groupHolds n ↔ (a < n ∧ g = 0) ∨ (a = 200 ∧ g = 1) := by
  simp only [groupHolds, List.mem_append, List.mem_map, List.mem_range, List.mem_singleton, Prod.mk.injEq]
  constructor
  · rintro (⟨k, hk, rfl, rfl⟩ | h)
    · exact Or.inl ⟨hk, rfl⟩
    · exact Or.inr h
  · rintro (⟨hk, rfl⟩ | h)
    · exact Or.inl ⟨_, hk, rfl, rfl⟩
    · exact Or.inr h

theorem groups_at (n : Nat) (g : Fin 4) : (groups n).ge.table.at g =
    if g = 1 then some ⟨2, 6, 1, .running 20000⟩ else if g = 0 then some ⟨1, 6, n, .running 20000⟩ else none := by
  simp only [groups, permitting, withPeer, up, State.reset, Table.at_put, Table.at_const]

theorem holdLaws_groups {n : Nat} (h : n ≤ 127) : HoldLaws (groups n).ge := by
  refine ⟨fun a g => ?_, ?_, fun g x hx => ?_, fun g hg => ?_, ?_, ?_, fun g g' x x' h1 h2 h3 h4 => ?_, (fun g hg => by cases hg), nofun⟩
  · show Sparse.get (groupHolds n) a = some g ↔ ∃ e ∈ groupLog n, e.addr = a ∧ e.group = g
    rw [get_iff_mem (holds_sorted h), mem_groupHolds]
    constructor
    · rintro (⟨hk, rfl⟩ | ⟨rfl, rfl⟩)
      · exact ⟨⟨0, a, 0⟩, mem_groupLog.mpr (Or.inl ⟨hk, rfl, rfl⟩), rfl, rfl⟩
      · exact ⟨⟨1, 200, 0⟩, mem_groupLog.mpr (Or.inr ⟨rfl, rfl, rfl⟩), rfl, rfl⟩
    · rintro ⟨e, he, rfl, rfl⟩
      rcases mem_groupLog.mp he with ⟨h1, h2, -⟩ | ⟨h1, h2, -⟩
      · exact Or.inl ⟨h1, h2⟩
      · exact Or.inr ⟨h1, h2⟩
  · show ((groupLog n).map (fun e => e.addr)).Nodup
    unfold groupLog
    rw [List.map_append, List.map_map, List.nodup_append]
    refine ⟨by simpa [Function.comp_def] using List.nodup_range, by simp, ?_⟩
    intro a ha b hb
    simp at ha hb; omega
  · show x.held = ((groupLog n).filter (fun e => e.group = g)).length
    rw [groupLog_of]; rw [groups_at] at hx
    by_cases g1 : g = 1
    · rw [if_pos g1] at hx; cases hx; subst g1; simp
    · by_cases g0 : g = 0
      · rw [if_neg g1, if_pos g0] at hx; cases hx; subst g0; simp
      · rw [if_neg g1, if_neg g0] at hx; cases hx
  · show (groupLog n).filter (fun e => e.group = g) = []
    rw [← List.length_eq_zero_iff, groupLog_of]; rw [groups_at] at hg
    by_cases g1 : g = 1
    · rw [if_pos g1] at hg; cases hg
    · by_cases g0 : g = 0
      · rw [if_neg g1, if_pos g0] at hg; cases hg
      · rw [if_neg g0, if_neg g1]
  · show (groupLog n).length ≤ 128
    simp [groupLog]; omega
  · refine ⟨by show ([0, 1] : List (Fin 4)).Nodup; decide, fun g => ?_⟩
    rw [groups_at]; show g ∈ ([0, 1] : List (Fin 4)) ↔ _
    by_cases g1 : g = 1
    · simp [g1]
    · by_cases g0 : g = 0 <;> simp [g1, g0]
  · have all : ∀ k y, (groups n).ge.table.at k = some y → (k = 0 ∧ y.owner = 1) ∨ (k = 1 ∧ y.owner = 2) := by
      intro k y hy
      rw [groups_at] at hy
      by_cases g1 : k = 1
      · rw [if_pos g1] at hy; cases hy; exact Or.inr ⟨g1, rfl⟩
      · by_cases g0 : k = 0
        · rw [if_neg g1, if_pos g0] at hy; cases hy; exact Or.inl ⟨g0, rfl⟩
        · rw [if_neg g1, if_neg g0] at hy; cases hy
    rcases all g x h1 with ⟨rfl, e1⟩ | ⟨rfl, e1⟩ <;> rcases all g' x' h2 with ⟨rfl, e2⟩ | ⟨rfl, e2⟩ <;>
      first | rfl | (rw [e1, e2] at h3; exact absurd h3 (by decide))

/-- The laws do not depend on the work of the GE, nor on an operation whose group is OPEN. -/
theorem holdLaws_op {n : Nat} (h : n ≤ 127) (ws : List GeWork) (op : Option GeOp) (ho : op = some (.gwrite 0) ∨ ∀ g, op ≠ some (.gwrite g)) :
    HoldLaws { (groups n).ge with work := ws, op := op } := by
  have l := holdLaws_groups h
  refine ⟨l.held, l.oneEntry, l.count, l.freeLog, l.pool, l.order, l.pair, fun g hg => ?_, nofun⟩
  rcases ho with ho | ho
  · rw [ho] at hg; cases hg; show ((groups n).ge.table.at 0).isSome = true; rw [groups_at]; rfl
  · exact absurd hg (ho g)

theorem fourGroups_table (g : Fin 4) : fourGroups.ge.table.at g = some ⟨1, BitVec.ofNat 4 g.val, 0, .running 20000⟩ := by fin_cases g <;> rfl

theorem holdLaws_fourGroups (ws : List GeWork) : HoldLaws { fourGroups.ge with work := ws } := by
  refine ⟨fun a g => ?_, by show ([] : List Nat).Nodup; simp, fun g x hx => ?_, fun g hg => rfl, by show (0 : Nat) ≤ 128; omega, ?_, ?_, (fun g hg => by cases hg), nofun⟩
  · show Sparse.get [] a = some g ↔ ∃ e ∈ ([] : List UndoEntry), _
    simp
  · rw [show ({ fourGroups.ge with work := ws } : Ge).table.at g = _ from fourGroups_table g] at hx; cases hx; rfl
  · refine ⟨by show ([0, 1, 2, 3] : List (Fin 4)).Nodup; decide, fun g => ?_⟩
    rw [show ({ fourGroups.ge with work := ws } : Ge).table.at g = _ from fourGroups_table g]
    show g ∈ ([0, 1, 2, 3] : List (Fin 4)) ↔ _
    revert g; decide
  · intro g g' x x' h1 h2 _ h4
    rw [show ({ fourGroups.ge with work := ws } : Ge).table.at g = _ from fourGroups_table g] at h1
    rw [show ({ fourGroups.ge with work := ws } : Ge).table.at g' = _ from fourGroups_table g'] at h2
    cases h1; cases h2
    revert g g'; decide

theorem up_at (st : StationState) (g : Fin 4) : (up st).ge.table.at g = none := by simp [up, State.reset]

theorem holdLaws_up (st : StationState) : HoldLaws (up st).ge := by
  refine ⟨fun a g => ?_, by show ([] : List Nat).Nodup; simp, fun g x hx => ?_, fun g hg => rfl, by show (0 : Nat) ≤ 128; omega,
    ⟨by show ([] : List (Fin 4)).Nodup; simp, fun g => ?_⟩, fun g g' x x' hx => ?_, (fun g hg => by cases hg), nofun⟩
  · show Sparse.get [] a = some g ↔ ∃ e ∈ ([] : List UndoEntry), _
    simp
  · rw [up_at] at hx; cases hx
  · rw [up_at]; show g ∈ ([] : List (Fin 4)) ↔ _
    simp
  · rw [up_at] at hx; cases hx

theorem memoryCanonical_groups {n : Nat} (h : n ≤ 127) (op : Option GeOp) (ho : ∀ g, op ≠ some (.gwrite g)) (cs : List Claimant) (hand : Option Hand)
    (hh : ∀ x, hand = some x → x.stage = .ge ∧ x.req.data = [] ∧ x.req.count = 0) :
    MemoryCanonical { groups n with ge := { (groups n).ge with op := op }, sgm := { (groups n).sgm with claims := cs }, te := { (groups n).te with hand := hand } } := by
  refine ⟨⟨⟨List.Pairwise.nil, nofun⟩, nofun⟩, ⟨⟨List.Pairwise.nil, nofun⟩, nofun⟩, ⟨holds_sorted h, ?_⟩, ?_, fun x hx hs => ?_, fun g hg => absurd hg (ho g),
    fun x hx _ _ => by rw [(hh x hx).2.1, (hh x hx).2.2]; rfl, fun e x hx => ?_⟩
  · intro e he
    rcases mem_groupHolds.mp (show (e.1, e.2) ∈ groupHolds n from he) with h | h <;> omega
  · intro e he
    rcases mem_groupLog.mp (show e ∈ groupLog n from he) with h | h <;> omega
  · rw [(hh x hx).1] at hs; cases hs
  · exact absurd hx (by revert e; simp [groups, permitting, withPeer, up, State.reset])

theorem linkLaws_gap {s : State} (h : s.lc = State.reset.lc) : LinkLaws s := by
  refine ⟨?_, ?_, ?_⟩ <;> rw [h]
  · decide
  · intro o k f b r hs; rcases hs with hs | hs <;> cases hs
  · intro hv; cases hv

theorem own_up (st : StationState) : OwnEntryUnused (up st) :=
  ⟨⟨rfl, rfl, rfl, rfl⟩, nofun, nofun⟩

theorem clearing_up {st : StationState} (h : st ≠ .clearing) : ClearingLaws (up st) := by
  refine ⟨nofun, ?_, fun hc => absurd hc h⟩
  show decide (st = .clearing) = true ↔ st = .clearing ∧ false = false
  simp

/-- Station 9 with one outstanding entry keeps the laws of the table. -/
theorem tableLaws_requester (x : Entry) (h : x.state ≠ .completing) (hr : x.result = none) (hw : x.window.isRunning = true ↔ x.state = .awaitResponse)
    (hb : x.backoff.isRunning = true ↔ x.state = .backoff) : TableLaws (requester x) := by
  have at' : ∀ e, (requester x).re.table.at e = if e = 0 then some x else none := by
    intro e; simp [requester, withPeer, up, State.reset, Table.at_put]
  have one : ∀ e y, (requester x).re.table.at e = some y → e = 0 ∧ y = x := by
    intro e y hy; rw [at'] at hy; split at hy
    · next he => cases hy; exact ⟨he, rfl⟩
    · cases hy
  refine ⟨fun e f y z h1 h2 _ => (one e y h1).1.trans (one f z h2).1.symm, ⟨?_, fun e => ?_⟩, ⟨?_, fun e => ?_⟩, fun e y hy => ?_, fun e y hy => ?_, ?_, fun b => ?_, ?_⟩
  · show (if x.state = .readyToSend then [0] else [] : List (Fin 8)).Nodup; split <;> simp
  · rw [at']; show e ∈ (if x.state = .readyToSend then [0] else [] : List (Fin 8)) ↔ _
    by_cases he : e = 0 <;> by_cases hx : x.state = .readyToSend <;> simp [he, hx]
  · show (if x.state = .completing then [0] else [] : List (Fin 8)).Nodup; simp [h]
  · rw [at']; show e ∈ (if x.state = .completing then [0] else [] : List (Fin 8)) ↔ _
    by_cases he : e = 0 <;> simp [he, h]
  · rw [(one e y hy).2, hr]; simp [h]
  · rw [(one e y hy).2]; exact ⟨hw, hb⟩
  · intro hf; rcases hf with hf | hf
    · exact absurd (show (if x.state = .completing then [0] else [] : List (Fin 8)) = [] by simp [h]) hf
    · cases hf
  · show ([] : List Queued).countP _ + _ ≤ 1
    simp only [List.countP_cons, List.countP_nil, at']
    simp
    split <;> omega
  · intro e he; cases he

/-- One slot keeps the laws of the slots. -/
theorem slotLaws_one (i : Fin 4) (p : Station) (q : Byte) (a n : Nat) (b : Bool) (t : Timer) (ws : List SruWork) (st : StationState) (hst : st ≠ .leaving) :
    SlotLaws (withSlot i ⟨p, q, a, n, .waiting b, t⟩ ws (up st)) := by
  have at' : ∀ j, (withSlot i ⟨p, q, a, n, .waiting b, t⟩ ws (up st)).sru.slots.at j = if j = i then some ⟨p, q, a, n, .waiting b, t⟩ else none := by
    intro j; simp [withSlot, up, State.reset, Table.at_put]
  refine ⟨fun j k x y h1 h2 _ => ?_, nofun, fun j x w h1 h2 => ?_, fun h => absurd h hst⟩
  · rw [at'] at h1 h2; split at h1 <;> split at h2 <;> simp_all
  · rw [at'] at h1; split at h1
    · cases h1; cases h2
    · cases h1

/-! ### For every statement: states and operands that meet its hypotheses, clause by clause -/

theorem ready_up (st : StationState) : (up st).portReady := ⟨rfl, rfl⟩

/-- A state with commands in its queue. -/
def queued (cs : List Instr) (s : State) : State := { s with pending := cs }

/-- The word latch holds the high half of word 201. -/
def latching (s : State) : State := { s with lp := { s.lp with latch := some (201, 1) } }

theorem witness_StepRunsFrontCommand : (queued [.join] (up .setup)).pending = .join :: [] ∧ (up .setup).pending = [] := ⟨rfl, rfl⟩

theorem witness_EveryCommandAnswersNext : State.reset.resetLow = true ∧ (up .setup).resetLow = false := ⟨rfl, rfl⟩

theorem witness_ResetReleaseAndClearing : State.reset.resetLow = true ∧ (up .setup).resetLow = false ∧
    ((up .clearing).sgm.clearing = true ∧ (up .clearing).lp.cycle.map (·.work) ≠ some .clearing) ∧
    (∀ st, (inCycle (.write 0x192 1) st .clearing (up .clearing)).sgm.clearing = true ∧
      (inCycle (.write 0x192 1) st .clearing (up .clearing)).lp.cycle = some ⟨.write 0x192 1, st, .clearing⟩) ∧
    (∀ st, (inCycle (.read 0x193) st .clearing (latching (up .clearing))).sgm.clearing = true ∧
      (inCycle (.read 0x193) st .clearing (latching (up .clearing))).lp.cycle = some ⟨.read 0x193, st, .clearing⟩ ∧
      (inCycle (.read 0x193) st .clearing (latching (up .clearing))).lp.latch = some (wordOf 0x193, 1)) := by
  refine ⟨rfl, rfl, ⟨rfl, by decide⟩, fun st => ⟨rfl, rfl⟩, fun st => ⟨rfl, rfl, rfl⟩⟩

/-- A strobe that waits. -/
def strobing (b : BusCycle) (s : State) : State := { s with lp := { s.lp with nextStrobe := some b } }

theorem witness_CycleWorkDone : (up .setup).lp.nextStrobe = none ∧ (strobing (.read 0) (up .setup)).lp.nextStrobe = some (.read 0) := ⟨rfl, rfl⟩

theorem witness_StrobesDuringCycle : busOf (.post 0) = some (.write 0x2307 0) ∧
    (LinkLaws State.reset ∧ State.reset.resetLow = true) ∧
    (∀ w, LinkLaws (inCycle (.read 0x190) true w (up .setup)) ∧ (inCycle (.read 0x190) true w (up .setup)).resetLow = false ∧
      (inCycle (.read 0x190) true w (up .setup)).lp.cycle = some ⟨.read 0x190, true, w⟩) ∧
    (up .setup).lp.cycle = none ∧ (inCycle (.read 0x190) false .claim (up .setup)).lp.cycle = some ⟨.read 0x190, false, .claim⟩ := by
  refine ⟨rfl, ⟨linkLaws_gap rfl, rfl⟩, fun w => ⟨linkLaws_gap rfl, rfl, rfl⟩, rfl, rfl⟩

theorem witness_SegmentCyclesBegin : (up .setup).portReady ∧ (latching (up .setup)).portReady ∧ (latching (up .clearing)).portReady ∧
    (∀ h, (up .setup).lp.latch ≠ some (201, h)) ∧ (latching (up .setup)).lp.latch = some (201, 1) ∧ (up .setup).stc.state ≠ .clearing ∧
    (latching (up .clearing)).lp.latch = some (201, 1) ∧ (up .clearing).stc.state = .clearing :=
  ⟨⟨rfl, rfl⟩, ⟨rfl, rfl⟩, ⟨rfl, rfl⟩, nofun, rfl, by decide, rfl, rfl⟩

/-- A local word claim at the arbiter. -/
def lpClaim (b : BusCycle) (s : State) : State := claiming [.lp] (inCycle b true .claim s)

theorem witness_LocalWordClaims :
    ((lpClaim (.read 0x190) (up .setup)).lp.cycle = some ⟨.read 0x190, true, .claim⟩ ∧ Granted .lp (lpClaim (.read 0x190) (up .setup))) ∧
    ((lpClaim (.write 0xC9 1) group26).lp.cycle = some ⟨.write 0xC9 1, true, .claim⟩ ∧ Granted .lp (lpClaim (.write 0xC9 1) group26) ∧
      heldBy (lpClaim (.write 0xC9 1) group26) (wordOf 0xC9).toNat = some 0) ∧
    (Granted .lp (lpClaim (.write 0x1FFF 1) group26) ∧ heldBy (lpClaim (.write 0x1FFF 1) group26) (wordOf 0x1FFF).toNat = none) := by
  exact ⟨⟨rfl, rfl, [], _, rfl, nofun⟩, ⟨rfl, ⟨rfl, [], _, rfl, nofun⟩, by decide +kernel⟩, ⟨rfl, [], _, rfl, nofun⟩, by decide +kernel⟩

theorem witness_LocalAreaReads : (up .setup).portReady ∧
    (∀ la : BitVec 14, la ∈ [(0x2000 : BitVec 14), 0x2001, 0x21FE, 0x21FF, 0x2200, 0x2207, 0x2208, 0x227F, 0x2280, 0x2281, 0x22FE, 0x22FF, 0x2300, 0x233F, 0x2340, 0x2380, 0x3FFF] →
      0x2000 ≤ la.toNat ∧ ¬ (0x2360 ≤ la.toNat ∧ la.toNat < 0x2380)) ∧
    (0x21FF : BitVec 14).toNat = 0x2000 + 32 * (15 : Fin 16).val + 2 * (15 : Fin 16).val + 1 ∧
    (0x2207 : BitVec 14).toNat = 0x2200 + (7 : Fin 8).val ∧ (0x22FF : BitVec 14).toNat = 0x2281 + 2 * (63 : Fin 64).val ∧
    (NoEventRead 0x2323 (up .setup) ∧ NoEventRead 0x2326 (up .setup) ∧ ¬ NoEventRead 0x2322 (up .setup) ∧ ¬ NoEventRead 0x2327 (up .setup)) :=
  ⟨⟨rfl, rfl⟩, by simp, by decide, by decide, by decide, ⟨rfl, by decide, by decide⟩, ⟨rfl, by decide, by decide⟩, fun h => absurd h.2.1 (by decide), fun h => absurd h.2.2 (by decide)⟩

theorem witness_PeerViewShowsEntries : (up .joined).portReady ∧ OwnEntryUnused (up .joined) ∧ (4 : Station) = (up .joined).stc.address ∧
    ((up .joined).pt.peers.at 15).record = none ∧
    (withPeer 1 { present with record := some ⟨43, 6, .done 5⟩ } (up .joined)).portReady ∧
    OwnEntryUnused (withPeer 1 { present with record := some ⟨43, 6, .done 5⟩ } (up .joined)) ∧
    ((withPeer 1 { present with record := some ⟨43, 6, .done 5⟩ } (up .joined)).pt.peers.at 1).record = some ⟨43, 6, .done 5⟩ :=
  ⟨⟨rfl, rfl⟩, own_up _, rfl, rfl, ⟨rfl, rfl⟩, ⟨⟨rfl, rfl, rfl, rfl⟩, nofun, nofun⟩, rfl⟩

theorem witness_GroupViewIsSnapshot : (groups 3).portReady ∧ HoldLaws (groups 3).ge ∧ (groups 3).ge.order[1]? = some 1 ∧
    ¬ ((0 : Fin 4) = 0 ∧ (1 : Fin 8) = 0) ∧ ¬ ((3 : Fin 4) = 0 ∧ (7 : Fin 8) = 0) := ⟨⟨rfl, rfl⟩, holdLaws_groups (by omega), rfl, by decide, by decide⟩

theorem witness_TransferBufferWritten : (requester (entry .awaitResponse 1)).portReady ∧ Lent (requester (entry .awaitResponse 1)) 3 ∧ ¬ Lent (up .setup) 3 :=
  ⟨⟨rfl, rfl⟩, Or.inr ⟨0, _, rfl, by decide, rfl⟩, by
    rintro (⟨q, hq, -⟩ | ⟨e, x, hx, -⟩)
    · cases hq
    · revert hx; simp [up, State.reset]⟩

theorem witness_RegisterWritten : (up .setup).portReady ∧ ([0x2300, 0x2306, 0x2200, 0x2207, 0x2208, 0x227F, 0x2280, 0x2281, 0x22FF, 0x2308, 0x2333, 0x3FFF] : List (BitVec 14)).all
    (fun la => Instr.wellFormed (.localRegisterWrite la 5)) = true := ⟨⟨rfl, rfl⟩, by decide⟩

/-- The submission queue holds n descriptors for target 7 that use no buffer. -/
def queueing (n : Nat) (s : State) : State := { s with re := { s.re with queue := List.replicate n ⟨⟨4, 7, 0, 0, 0, 0, 0⟩, false⟩ } }

/-- The submission window holds the descriptor of section 6.8. -/
def windowed (s : State) : State := { s with lp := { s.lp with window := descriptor } }

theorem witness_PostDecides : (up .setup).portReady ∧ (up .setup).stc.state ≠ .joined ∧
    ((queueing 16 (up .joined)).portReady ∧ (queueing 16 (up .joined)).stc.state = .joined ∧ 16 ≤ (queueing 16 (up .joined)).re.queue.length) ∧
    ((windowed (requester (entry .awaitResponse 1))).portReady ∧ (windowed (requester (entry .awaitResponse 1))).re.queue.length < 16 ∧
      ∃ b, (windowed (requester (entry .awaitResponse 1))).lp.window.references b ∧ Lent (windowed (requester (entry .awaitResponse 1))) b) ∧
    ((queueing 15 (up .joined)).re.queue.length < 16 ∧ ¬ ∃ b, (queueing 15 (up .joined)).lp.window.references b ∧ Lent (queueing 15 (up .joined)) b) := by
  refine ⟨⟨rfl, rfl⟩, by decide, ⟨⟨rfl, rfl⟩, rfl, by decide⟩, ⟨⟨rfl, rfl⟩, by decide, 3, ⟨by decide, rfl⟩, Or.inr ⟨0, _, rfl, by decide, rfl⟩⟩, by decide, ?_⟩
  rintro ⟨b, hb, -⟩
  exact absurd hb.1 (by decide)

/-- JOINED, with one descriptor queued. -/
def submitting (d : Descriptor) (s : State) : State := { s with re := { s.re with queue := [⟨d, false⟩] } }

theorem witness_AdmissionTakesCandidates_stops : (up .setup).stc.state ≠ .joined ∧ ({ up .joined with re := { (up .joined).re with stalled := true } } : State).re.stalled = true ∧
    (∀ e, ({ up .joined with re := { (up .joined).re with table := Table.const 8 (some (entry .backoff 1)) } } : State).re.table.at e ≠ none) ∧
    (∀ q ∈ (submitting descriptor (requester (entry .backoff 1))).re.queue,
      ∃ e x, (submitting descriptor (requester (entry .backoff 1))).re.table.at e = some x ∧ x.desc.target = q.desc.target) := by
  refine ⟨by decide, rfl, fun e => by simp, fun q hq => ⟨0, _, rfl, ?_⟩⟩
  rw [List.mem_singleton.mp hq]; rfl

/-- An attempt at admission of a descriptor, with the completion queue full or not. -/
theorem witness_AdmissionTakesCandidates (d : Descriptor) (n : Nat) :
    let s := withCompletions n (submitting d (withPeer 4 present (up .joined)))
    s.stc.state = .joined ∧ s.re.stalled = false ∧ s.re.table.at 0 = none ∧ (∀ f : Fin 8, f < 0 → s.re.table.at f ≠ none) ∧
    s.re.queue = [] ++ ⟨d, false⟩ :: [] ∧ (∀ q' ∈ ([] : List Queued), ∃ f x, s.re.table.at f = some x ∧ x.desc.target = q'.desc.target) ∧
    (∀ f x, s.re.table.at f = some x → x.desc.target ≠ d.target) ∧ s.lp.completions.length = n := by
  refine ⟨rfl, rfl, rfl, fun f hf => absurd hf (by omega), rfl, nofun, fun f x hx => ?_, by simp [withCompletions]⟩
  simp [withCompletions, submitting, withPeer, up, State.reset] at hx

/-- Descriptors at the limits of each check of R97, and peers for the last. -/
theorem witness_AdmissionTakesCandidates_checks :
    (¬ (1 ≤ (0 : Half).toNat ∧ (0 : Half).toNat ≤ 7) ∧ ¬ (1 ≤ (8 : Half).toNat ∧ (8 : Half).toNat ≤ 7) ∧ 1 ≤ (7 : Half).toNat ∧ (7 : Half).toNat ≤ 7) ∧
    ((0 : Half).toNat = 0 ∧ 16 < (17 : Half).toNat ∧ (5 : Half).toNat = (up .joined).stc.address.val + 1) ∧
    ((16 : Half).toNat = (15 : Station).val + 1 ∧ (15 : Station) ≠ (up .joined).stc.address) ∧
    (¬ (1 ≤ (0 : Half).toNat ∧ (0 : Half).toNat ≤ 16) ∧ ¬ (1 ≤ (17 : Half).toNat ∧ (17 : Half).toNat ≤ 16) ∧ 1 ≤ (16 : Half).toNat ∧ (16 : Half).toNat ≤ 16) ∧
    (¬ (16 : Half).toNat ≤ 15 ∧ (15 : Half).toNat ≤ 15) ∧
    ((up .joined).pt.peers.at 1).presence = .absent ∧ (departing.presence = .present ∧ departing.departure = some .silent) ∧
    (present.presence = .present ∧ present.departure = none) := by decide

theorem witness_QueueHeadsConsumed : (withCompletions 1 (up .setup)).portReady ∧ (up .setup).lp.completions = [] ∧
    ((∃ c, (withCompletions 16 (up .joined)).lp.completions = c :: List.replicate 15 c) ∧ (withCompletions 16 (up .joined)).re.completing = [] ∧
      ∀ q ∈ (withCompletions 16 (up .joined)).re.queue, q.cancelled = false) ∧
    ((withCompletions 16 (requester (entry .completing 5))).portReady ∧ (withCompletions 16 (requester (entry .completing 5))).re.completing = 0 :: [] ∧
      (withCompletions 16 (requester (entry .completing 5))).re.table.at 0 = some (entry .completing 5) ∧ (entry .completing 5).result = some ⟨.ok, .none, 4⟩) ∧
    (∃ q, (withCompletions 16 { up .leaving with re := { (up .leaving).re with queue := [⟨descriptor, true⟩] } }).re.queue = [] ++ q :: [] ∧ q.cancelled = true) ∧
    (up .setup).lp.events = [] ∧ ({ up .setup with lp := { (up .setup).lp with events := [.stateChanged .setup] } } : State).lp.events = .stateChanged .setup :: [] :=
  ⟨⟨rfl, rfl⟩, rfl, ⟨⟨_, rfl⟩, rfl, nofun⟩, ⟨⟨rfl, rfl⟩, rfl, rfl, rfl⟩, ⟨_, rfl, rfl⟩, rfl, rfl⟩

theorem witness_CommandResults (st : StationState) : (up st).portReady ∧ (up st).stc.state = st ∧ LinkLaws (up st) := ⟨⟨rfl, rfl⟩, rfl, linkLaws_gap rfl⟩

theorem witness_CommandResults_codes : (0 : Half).toNat = 0 ∧ 4 < (5 : Half).toNat ∧
    exec .revoke (up .joined) = .next (busCycle (.write 0x2333 4) (up .joined)) ∧
    (busCycle (.write 0x2333 4) (up .joined)).stc.command ≠ (up .joined).stc.command := ⟨by decide, by decide, rfl, by decide⟩

/-- SETUP with a staged record. -/
def staging (c : ConfigRecord) : State := { up .setup with stc := { (up .setup).stc with staged := c } }

theorem witness_ConfigureAndJoin (c : ConfigRecord) : (staging c).portReady ∧ (staging c).stc.state = .setup ∧ (staging c).stc.staged = c := ⟨⟨rfl, rfl⟩, rfl, rfl⟩

/-- The ends of each range of Table 10-6, and the values just outside. -/
theorem witness_ConfigureAndJoin_ranges :
    (250 ∣ (250 : Half).toNat ∧ (8000 : Half).toNat ≤ 8000 ∧ 250 ∣ (8000 : Half).toNat) ∧ (¬ 250 ≤ (0 : Half).toNat ∧ ¬ 250 ∣ (251 : Half).toNat ∧ ¬ (8250 : Half).toNat ≤ 8000) ∧
    (7 : Half).toNat ≤ 7 ∧ ¬ (8 : Half).toNat ≤ 7 ∧ ¬ 1 ≤ (0 : Half).toNat ∧ (15 : Half).toNat ≤ 15 ∧ ¬ (16 : Half).toNat ≤ 15 ∧ (255 : Half).toNat ≤ 255 ∧ ¬ (256 : Half).toNat ≤ 255 ∧
    (32 : Half).toNat ≤ 32 ∧ ¬ (33 : Half).toNat ≤ 32 ∧ ¬ 2 ≤ (1 : Half).toNat ∧ (100 : Half).toNat ≤ 100 ∧ ¬ (101 : Half).toNat ≤ 100 ∧
    ¬ ((2 : Half) = 0 ∨ (2 : Half) = 1) := by decide

theorem witness_LeaveAndRevoke : (up .listening).portReady ∧ (up .listening).stc.state = .listening ∧ (up .joined).portReady ∧ (up .joined).stc.state = .joined ∧
    (up .leaving).portReady ∧ (up .leaving).stc.state = .leaving := ⟨⟨rfl, rfl⟩, rfl, ⟨rfl, rfl⟩, rfl, ⟨rfl, rfl⟩, rfl⟩

/-- A PRESENCE is due. -/
def dueMark (m : Mark) (s : State) : State := { s with stc := { s.stc with due := some m } }

/-- The response queue holds one answer. -/
def answering (s : State) : State := { s with te := { s.te with queue := [⟨1, 43, .done 5, 0, false⟩] } }

theorem witness_SelectionAndStartDelimiter :
    ((up .clearing).stc.state = .clearing ∧ (up .listening).stc.state = .listening ∧ (up .leaving).stc.state = .leaving) ∧
    (answering (up .joined)).te.queue ≠ [] ∧ ((dueMark .plain (up .joined)).te.queue = [] ∧ (dueMark .plain (up .joined)).stc.due = some .plain) ∧
    (let s := requester (entry .readyToSend 0)
     s.te.queue = [] ∧ s.stc.due = none ∧ s.re.ready = [] ++ 0 :: [] ∧ onLineOffer s ≠ some (.request 0)) ∧
    (let s := sending (.request 0) (requester (entry .readyToSend 0))
     s.re.ready = [0] ∧ onLineOffer s = some (.request 0)) ∧
    ((onIdleLine (up .joined)).lc.view = .idle ∧ selectOffer (onIdleLine (up .joined)) = none) ∧
    ((onIdleLine (answering (up .joined))).lc.view = .idle ∧ selectOffer (onIdleLine (answering (up .joined))) = some .response) ∧
    keyFor (onIdleLine (answering (up .joined))) .response = 0x044 ∧ (up .joined).lc.view ≠ .idle := by
  decide +kernel

/-- A key without a stuff bit, one whose stuff bit stands after the seventh or the eighth bit, and one with seven equal bits up to its ninth, whose stuff bit is not within it. -/
theorem witness_SelectionAndStartDelimiter_keys : (∀ b, KeyReadBack 0x044 ⟨0x044, b⟩) ∧ ¬ KeyReadBack 0x044 ⟨0x045, true⟩ ∧
    (KeyReadBack 0x003 ⟨0x003, true⟩ ∧ ¬ KeyReadBack 0x003 ⟨0x003, false⟩) ∧ (KeyReadBack 0x100 ⟨0x100, true⟩ ∧ ¬ KeyReadBack 0x100 ⟨0x100, false⟩) ∧
    (∀ b, KeyReadBack 0x17F ⟨0x17F, b⟩) := by
  simp only [← keyReadAsSent_iff]; decide

theorem witness_RankRotates : (onIdleLine (answering (up .joined))).lc.view = .idle ∧ selectOffer (onIdleLine (answering (up .joined))) = some .response ∧
    (rankOf 11 6).toNat < (rankOf 2 6).toNat ∧ (rankOf 6 6).toNat = 15 ∧ (rankOf 7 6).toNat = 0 := by decide

theorem witness_LastWinnerFollowsFrames : ClearingLaws (up .joined) ∧ ClearingLaws (receivingFrame (up .joined)) ∧
    taken (.goodFrame (frameFrom 1 8 [2, 0])) (frameFrom 1 8 [2, 0]) ∧ receiving (receivingFrame (up .joined)) = true ∧
    taken (.frameDiscarded (frameBits (frameFrom 1 8 [2, 0]))) (frameFrom 1 8 [2, 0]) ∧
    (sending (.presence .plain) (up .joined)).lc.slot = .onLine (.presence .plain) ⟨.request, 0, 4, 8, [5, 0]⟩ [] false ∧
    ((up .setup).stc.state ≠ .listening ∧ runs .join (up .setup) (fun t => decide (t.stc.state = .listening)) = true) := by
  refine ⟨clearing_up (by decide), ⟨nofun, ?_, nofun⟩, ⟨rfl, by decide⟩, by decide, ?_, rfl, by decide, by decide +kernel⟩
  · show false = true ↔ StationState.joined = .clearing ∧ false = false
    decide
  · show receive _ = .ok _
    decide +kernel

/-- Contention for an offer with key 0x188. -/
def contending (o : Offer) (s : State) : State := { s with lc := { s.lc with view := .frame, receive := some 0x188, slot := .contending o 0x188 } }

theorem witness_ContentionWonSendsFrame :
    ((contending .response (answering (up .joined))).lc.slot = .contending .response 0x188 ∧ (answering (up .joined)).te.queue = ⟨1, 43, .done 5, 0, false⟩ :: []) ∧
    (contending (.presence .leaving) (up .leaving)).lc.slot = .contending (.presence .leaving) 0x188 ∧
    ((contending (.request 0) (requester (entry .readyToSend 1))).re.table.at 0 = some (entry .readyToSend 1) ∧ 1 ≤ (entry .readyToSend 1).desc.kind.toNat ∧
      (entry .readyToSend 1).desc.kind.toNat ≤ 7 ∧ (entry .readyToSend 1).desc.kind ≠ 3 ∧ (entry .readyToSend 1).desc.kind ≠ 5) ∧
    (⟨3, 5, 102, 4, 0, 15, 0⟩ : Descriptor).references 15 ∧ (⟨5, 5, 102, 4, 0, 0, 0⟩ : Descriptor).references 0 ∧
    (∀ o k, (up .joined).lc.slot ≠ .contending o k) := by
  refine ⟨⟨rfl, rfl⟩, rfl, ⟨rfl, by decide, by decide, by decide, by decide⟩, ⟨by decide, rfl⟩, ⟨by decide, rfl⟩, nofun⟩

theorem witness_TransmitSentReports :
    (∀ o s, (sending o s).lc.slot = .onLine o ⟨.request, 0, 4, 8, [5, 0]⟩ [] false) ∧
    (∃ slot, ({ up .joined with lc := { (up .joined).lc with slot := .onLine .response ⟨.request, 0, 4, 8, [5, 0]⟩ [] true } } : State).lc.slot = slot ∧
      slot = .onLine .response ⟨.request, 0, 4, 8, [5, 0]⟩ [] true) ∧
    (sending (.presence .plain) (dueMark .plain (up .joined))).stc.state = .joined ∧ (up .joined).stc.due ≠ some .plain ∧ (up .joined).stc.state ≠ .listening ∧
    ((sending (.presence .fresh) (dueMark .fresh (up .listening))).stc.due = some .fresh ∧ (sending (.presence .fresh) (dueMark .fresh (up .listening))).stc.state = .listening) ∧
    (sending (.request 0) (requester (entry .readyToSend 0))).re.table.at 0 = some (entry .readyToSend 0) :=
  ⟨fun _ _ => rfl, ⟨_, rfl, rfl⟩, rfl, by decide, by decide, ⟨rfl, rfl⟩, rfl⟩

theorem witness_LeavingPresenceSentEntersSetup : (sending (.presence .leaving) (dueMark .leaving (up .leaving))).lc.slot = .onLine (.presence .leaving) ⟨.request, 0, 4, 8, [5, 0]⟩ [] false ∧
    (sending (.presence .leaving) (dueMark .leaving (up .leaving))).stc.due = some .leaving := ⟨rfl, rfl⟩

theorem witness_TransmitFaultReports : (sending .response (answering (up .joined))).te.queue = ⟨1, 43, .done 5, 0, false⟩ :: [] ∧
    (sending (.request 0) (requester (entry .readyToSend 0))).re.table.at 0 = some (entry .readyToSend 0) := ⟨rfl, rfl⟩

theorem witness_LineBecomesIdle : (up .setup).resetLow = false ∧ (up .setup).lc.view = .gap 0 ∧ ((receivingFrame (up .setup)).lc.view = .frame ∧
      (receivingFrame (up .setup)).lc.slot.sending = false) ∧
    State.reset.resetLow = true ∧ (onIdleLine (up .setup)).lc.view = .idle ∧ ((sending .response (up .joined)).lc.view = .frame ∧ (sending .response (up .joined)).lc.slot.sending = true) ∧
    (∀ n, (onIdleLine (up .setup)).lc.view ≠ .gap n) := ⟨rfl, rfl, ⟨rfl, rfl⟩, rfl, rfl, ⟨rfl, rfl⟩, nofun⟩

theorem witness_FrameEnds : receiving (receivingFrame (up .joined)) = true ∧
    (taken (.goodFrame (frameFrom 1 8 [2, 0])) (frameFrom 1 8 [2, 0]) ∧ (frameFrom 1 8 [2, 0]).cls = .request) ∧
    (taken (.goodFrame ⟨.response, 0, 4, 11, [5, 17]⟩) ⟨.response, 0, 4, 11, [5, 17]⟩ ∧ (4 : Station) = (receivingFrame (up .joined)).stc.address) ∧
    (taken (.goodFrame ⟨.response, 0, 8, 11, [5, 17]⟩) ⟨.response, 0, 8, 11, [5, 17]⟩ ∧ (8 : Station) ≠ (receivingFrame (up .joined)).stc.address) ∧
    formatOk (frameFrom 1 8 [3, 0]) = false ∧ receive (List.replicate 8 true) = .error .stuffing ∧ receive [] = .error .cutOff ∧ receiving (up .joined) = false :=
  ⟨by decide, ⟨⟨rfl, by decide⟩, rfl⟩, ⟨⟨rfl, by decide⟩, rfl⟩, ⟨⟨rfl, by decide⟩, by decide⟩, by decide, by decide, rfl, by decide⟩

theorem witness_PeerHeard :
    ¬ (((up .setup).stc.state = .listening ∨ (up .setup).stc.state = .joined ∨ (up .setup).stc.state = .leaving) ∧ (1 : Station) ≠ (up .setup).stc.address) ∧
    (((up .joined).stc.state = .joined) ∧ (1 : Station) ≠ (up .joined).stc.address) ∧
    (presenceOf (frameFrom 1 1 [5, 40, 0]) ≠ some .fresh ∧ presenceOf (frameFrom 1 1 [5, 40, 0]) ≠ some .leaving ∧ presenceOf (frameFrom 1 8 [2, 1]) = some .fresh ∧
      presenceOf (frameFrom 1 8 [2, 2]) = some .leaving) ∧
    ((up .joined).pt.peers.at 1).presence = .absent ∧ (((withPeer 1 present (up .joined)).pt.peers.at 1).presence = .present ∧ ((withPeer 1 present (up .joined)).pt.peers.at 1).departure = none) ∧
    (((withPeer 1 departing (up .joined)).pt.peers.at 1).presence = .present ∧ ((withPeer 1 departing (up .joined)).pt.peers.at 1).departure ≠ none) := by decide +kernel

/-- Older announcements wait for the SRU, the RE and the TE. -/
def announcing (b : Announcement) (s : State) : State :=
  { s with sru := { s.sru with announced := some b }, re := { s.re with announced := some b }, te := { s.te with restarted := some 6 } }

theorem witness_AnnouncementReachesBlocks : (up .joined).sru.announced = none ∧ (up .joined).re.announced = none ∧ (up .joined).te.restarted = none ∧
    (∀ p, Announcement.lost 6 ≠ .restarted p) ∧ (∃ p, Announcement.restarted 5 = .restarted p) ∧
    (announcing (.lost 6) (up .joined)).sru.announced = some (.lost 6) ∧ (announcing (.lost 6) (up .joined)).re.announced = some (.lost 6) ∧
    (announcing (.lost 6) (up .joined)).te.restarted ≠ none := ⟨rfl, rfl, rfl, nofun, ⟨5, rfl⟩, rfl, rfl, nofun⟩

theorem witness_RequestFrameReachesInputPlace :
    (let f := frameFrom 1 6 [5, 43, 0, 6]
     f.cls = .request ∧ f.kind ≠ 8 ∧ f.sender ≠ (up .joined).stc.address ∧ ∃ a b r, f.body = BitVec.ofNat 8 ((up .joined).stc.address.val + 1) :: a :: b :: r) ∧
    (up .joined).stc.state = .joined ∧ ((up .leaving).stc.state = .leaving ∧ (up .leaving).te.closed = false) ∧ (frameFrom 1 8 [2, 0]).kind = 8 ∧
    (up .joined).te.input = none ∧ ({ up .joined with te := { (up .joined).te with input := some (frameFrom 2 1 [5, 40, 0, 0, 1, 1]) } } : State).te.input ≠ none ∧
    (inHand 1 (request .rd 9 false 0 100 [] 6) .rdClaim (up .joined)).te.hand ≠ none ∧
    (let s := withSlot 3 ⟨1, 42, 140, 4, .waiting false, .running 4000⟩ [] (up .joined)
     let u : State := { s with sru := { s.sru with announced := some (.restarted 1) } }
     SlotLaws u ∧ u.sru.announced = some (.restarted (frameFrom 1 6 [5, 43, 0, 6]).sender)) :=
  ⟨⟨rfl, by decide, by decide, 43, 0, [6], rfl⟩, rfl, ⟨rfl, rfl⟩, rfl, rfl, nofun, nofun,
    (let h := slotLaws_one 3 1 42 140 4 false (.running 4000) [] .joined (by decide); ⟨h.one, h.evaluating, h.ready, h.leaving⟩), rfl⟩

theorem witness_FrameBitsRoundTrip : receive [] = .error .cutOff ∧ receive (List.replicate 8 true) ≠ .error .cutOff ∧ formatOk (frameFrom 1 6 [5, 43, 0, 6]) = true ∧ formatOk ⟨.response, 15, 8, 9, [5, 17, 1, 0, 0, 0, 0x22]⟩ = true := by decide

theorem witness_FrameFieldsRoundTrip : (1 ≤ (7 : Half).toNat ∧ (7 : Half).toNat ≤ 7) ∧ (1 ≤ (16 : Half).toNat ∧ (16 : Half).toNat ≤ 16) ∧
    (List.replicate 16 (0 : Word)).length = (16 : Half).toNat ∧ (∀ ws, Reply.data (List.replicate 16 0) = .data ws → ws.length ≤ 16) :=
  ⟨by decide, by decide, by decide, fun ws h => by cases h; decide⟩

theorem witness_EntryFinishes : (requester (entry .awaitResponse 1)).re.table.at 0 = some (entry .awaitResponse 1) ∧
    (withCompletions 15 (requester (entry .awaitResponse 1))).lp.completions.length < 16 ∧ 16 ≤ (withCompletions 16 (requester (entry .awaitResponse 1))).lp.completions.length :=
  ⟨rfl, by decide, by decide⟩

theorem witness_ResponseTaken (st : EntryState) (h : st = .awaitResponse ∨ st = .backoff ∨ st = .readyToSend) :
    TableLaws (requester (entry st 1)) ∧ responseOf ⟨.response, 0, 4, 11, [9, 17]⟩ = some ⟨9, 17, .defer⟩ ∧
    (9 : Byte) = BitVec.ofNat 8 ((requester (entry st 1)).stc.address.val + 1) ∧ Matches (requester (entry st 1)) 4 17 (entry st 1) 0 ∧
    (∀ e x, ¬ Matches (requester (entry st 1)) 4 18 x e) := by
  refine ⟨tableLaws_requester _ ?_ ?_ ?_ ?_, by decide, rfl, ⟨rfl, rfl, rfl, ?_⟩, fun e x hm => ?_⟩
  · rcases h with rfl | rfl | rfl <;> decide
  · rcases h with rfl | rfl | rfl <;> rfl
  · rcases h with rfl | rfl | rfl <;> decide
  · rcases h with rfl | rfl | rfl <;> decide
  · rcases h with rfl | rfl | rfl
    · exact Or.inl rfl
    · exact Or.inr (Or.inl rfl)
    · exact Or.inr (Or.inr ⟨rfl, by decide, nofun⟩)
  · have hx := hm.1; have hs := hm.2.2.1
    simp only [requester, withPeer, up, State.reset, Table.at_put, Table.at_const] at hx
    split at hx
    · cases hx; exact absurd hs (by show ¬ (17 : Byte) = 18; decide)
    · cases hx

/-- A response of another kind, of another requester, and the answers of R104. -/
theorem witness_ResponseTaken_answers :
    responseOf ⟨.response, 0, 4, 9, [9, 17, 4] ++ List.replicate 16 0⟩ = some ⟨9, 17, .data [0, 0, 0, 0]⟩ ∧ (entry .awaitResponse 1).desc.references 3 ∧
    responseOf ⟨.response, 0, 4, 10, [9, 17, 4]⟩ = some ⟨9, 17, .done 4⟩ ∧ responseOf ⟨.response, 0, 4, 12, [9, 17]⟩ = some ⟨9, 17, .busy⟩ ∧
    responseOf ⟨.response, 0, 4, 13, [9, 17, 200]⟩ = some ⟨9, 17, .refuse 200⟩ ∧ responseOf ⟨.response, 0, 4, 11, [8, 17]⟩ = some ⟨8, 17, .defer⟩ :=
  ⟨by decide, ⟨by decide, rfl⟩, by decide, by decide, by decide, by decide⟩

theorem witness_EntryTimersExpire : (∀ x, (requester x).re.table.at 0 = some x) ∧ ((entry .awaitResponse 1).state = .awaitResponse ∧ (entry .awaitResponse 1).window = .running 1000) ∧
    ((entry .backoff 1).state = .backoff ∧ (entry .backoff 1).backoff = .running 500) ∧ ({ entry .backoff 1 with deadline := .running 20000 } : Entry).deadline = .running 20000 ∧
    onLineOffer (requester (entry .readyToSend 1)) ≠ some (.request 0) ∧ onLineOffer (sending (.request 0) (requester (entry .readyToSend 1))) = some (.request 0) :=
  ⟨fun _ => rfl, ⟨rfl, rfl⟩, ⟨rfl, rfl⟩, rfl, by decide +kernel, by decide +kernel⟩

/-- An announcement waits for the RE. -/
def announcedRe (a : Announcement) (s : State) : State := { s with re := { s.re with announced := some a } }

theorem tableLaws_announced (a : Announcement) {s : State} (h : TableLaws s) : TableLaws (announcedRe a s) := ⟨h.target, h.ready, h.completing, h.result, h.timers, h.full, h.loans, h.slot⟩

theorem witness_AnnouncementsTaken (a : Announcement) : (up .joined).re.announced = none ∧ (announcedRe a (requester (entry .awaitResponse 1))).re.announced = some a ∧
    TableLaws (announcedRe a (requester (entry .awaitResponse 1))) ∧
    ((announcedRe a (requester (entry .awaitResponse 1))).re.table.at 0 = some (entry .awaitResponse 1) ∧ (entry .awaitResponse 1).state ≠ .completing ∧
      (entry .awaitResponse 1).desc.target.toNat = (4 : Station).val + 1) ∧
    (up .joined).re.startOfLeaving = false ∧ ({ up .leaving with re := { (up .leaving).re with startOfLeaving := true } } : State).re.startOfLeaving = true :=
  ⟨rfl, rfl, tableLaws_announced a (tableLaws_requester _ (by decide) rfl (by decide) (by decide)), ⟨rfl, by decide, by decide⟩, rfl, rfl⟩

/-- A restart waits for the TE, with one response to the restarted peer. -/
def purging (s : State) : State := { s with te := { s.te with restarted := some 6, queue := [⟨6, 89, .defer, 0, false⟩] } }

theorem witness_AnnouncementsTaken_purge : (up .joined).te.restarted = none ∧ (purging (up .joined)).te.restarted = some 6 ∧
    (purging (up .joined)).te.queue = ⟨6, 89, .defer, 0, false⟩ :: [] ∧ onLineOffer (purging (up .joined)) ≠ some .response ∧
    onLineOffer (sending .response (purging (up .joined))) = some .response ∧
    (∀ r rs, ({ up .joined with te := { (up .joined).te with restarted := some 6 } } : State).te.queue = r :: rs → r.requester ≠ 6) :=
  ⟨rfl, rfl, rfl, by decide, by decide, nofun⟩

/-- A frame in the input place. -/
def arriving (f : Frame) (s : State) : State := { s with te := { s.te with input := some f } }

theorem witness_FrameTakenIntoHand : (inHand 1 (request .rd 9 false 0 100 [] 6) .rdClaim (up .joined)).te.hand ≠ none ∧ (up .joined).te.input = none ∧
    ((arriving (frameFrom 1 6 [5, 43, 1, 6]) (up .joined)).te.hand = none ∧ (arriving (frameFrom 1 6 [5, 43, 1, 6]) (up .joined)).te.input = some (frameFrom 1 6 [5, 43, 1, 6])) ∧
    8 ≤ (List.replicate 8 (⟨1, 1, .busy, 0, false⟩ : Response)).length ∧ (List.replicate 7 (⟨1, 1, .busy, 0, false⟩ : Response)).length < 8 ∧
    (frameFrom 1 6 [5, 43, 1, 6]).body = 5 :: 43 :: 1 :: [6] ∧ ((1 : Byte).getLsbD 0 = true ∧ (frameFrom 1 6 [5, 43, 1, 6]).kind = 6 ∧
      ((withPeer 1 { present with record := some ⟨43, 6, .done 5⟩ } (up .joined)).pt.peers.at 1).record = some ⟨43, 6, .done 5⟩) ∧
    (⟨1, 43, .done 5, 0, false⟩ : Response) ∈ (answering (up .joined)).te.queue ∧ (0 : Byte).getLsbD 0 = false ∧ (up .leaving).stc.state = .leaving ∧
    requestOf (frameFrom 1 6 [5, 43, 0]) = none ∧ requestOf (frameFrom 1 6 [5, 43, 0, 6]) = some (request .gclose 43 false 6 0 [] 0) :=
  ⟨nofun, rfl, ⟨rfl, rfl⟩, by decide, by decide, rfl, ⟨by decide, rfl, rfl⟩, List.mem_singleton.mpr rfl, by decide, rfl, by decide, by decide⟩

theorem witness_RequestsDispatched : requestOf (frameFrom 1 3 [5, 50, 0, 0, 106, 1, 0, 0, 0, 0x66]) = some (request .wr 50 false 0 106 [0x66] 1) ∧
    (4096 < 4096 + 1 ∧ 4095 + 1 ≤ 4096 ∧ 1 ≤ 16 ∧ 16 ≤ 16) ∧ readOpenRange (up .joined) 4095 1 ∧
    ¬ writableRange (up .joined) 1 4095 1 ∧ writableRange (permitting (up .joined)) 1 4080 16 := by
  refine ⟨by decide, by omega, fun a _ _ => by simp [up, State.reset, ConfigRecord.default], fun h => ?_, fun a _ _ => by simp [permitting]⟩
  have := h 4095 (by omega) (by omega)
  simp [up, State.reset, ConfigRecord.default] at this

theorem witness_ReadAndWriteClaims :
    (let s := claiming [.te] (inHand 8 (request .rd 9 false 0 100 [] 6) .rdClaim group26)
     s.te.hand = some ⟨8, request .rd 9 false 0 100 [] 6, .rdClaim⟩ ∧ Granted .te s) ∧
    (let s := claiming [.te] (inHand 1 (request .wr 44 false 0 104 [1, 2] 2) .wrClaim group26)
     Granted .te s ∧ heldBy s 104 = some 0) ∧
    (let s := claiming [.te] (inHand 9 (request .wr 51 false 0 4095 [0x71] 1) .wrClaim group26)
     Granted .te s ∧ ∀ a, 4095 ≤ a → a < 4095 + 1 → heldBy s a = none) := by
  refine ⟨⟨rfl, rfl, [], _, rfl, nofun⟩, ⟨⟨rfl, [], _, rfl, nofun⟩, by decide +kernel⟩, ⟨rfl, [], _, rfl, nofun⟩, fun a h1 h2 => ?_⟩
  have : a = 4095 := by omega
  subst this; decide +kernel

/-- A capture claim at the head, with a claim behind it. -/
def behindCapture (c : Claimant) (s : State) : State := claiming [.sru, c] { s with sru := { s.sru with work := [.capture 0] } }

/-- A further rollback of a list stands at the head, with a claim behind it. -/
def behindRollback (c : Claimant) (s : State) : State :=
  claiming [.ge, c] { s with ge := { s.ge with op := some (.rollback .revoked [0] .nothing), following := true } }

/-- A claim behind a capture claim, behind the claim of an evaluation that stood behind other work, or behind a further rollback claim of a list, can be granted; one behind another claim of the SRU, behind the first rollback claim, or while the clearing claim is in progress, cannot. -/
theorem witness_ReadAndWriteClaims_grant (c : Claimant) (hs : c ≠ .sru) (hg : c ≠ .ge) : Granted c (behindCapture c group26) ∧ Granted .sru (behindCapture c group26) ∧
    Granted c (behindRollback c group26) ∧ Granted .ge (behindRollback c group26) ∧
    Granted c { behindCapture c group26 with sru := { group26.sru with work := [.evaluate true] } } ∧
    ¬ Granted c { behindCapture c group26 with sru := { group26.sru with work := [.evaluate false, .capture 0] } } ∧
    ¬ Granted c { behindRollback c group26 with ge := { (behindRollback c group26).ge with following := false } } ∧
    ¬ Granted c (claiming [c] (up .clearing)) ∧ ¬ Granted c group26 := by
  refine ⟨⟨rfl, [.sru], [], rfl, fun d h => Or.inl ⟨List.mem_singleton.mp h, _, [], rfl, nofun⟩⟩, ⟨rfl, [], _, rfl, nofun⟩,
    ⟨rfl, [.ge], [], rfl, fun d h => Or.inr ⟨List.mem_singleton.mp h, rfl⟩⟩, ⟨rfl, [], _, rfl, nofun⟩,
    ⟨rfl, [.sru], [], rfl, fun d h => Or.inl ⟨List.mem_singleton.mp h, _, [], rfl, nofun⟩⟩, ?_, ?_, ?_, ?_⟩
  · rintro ⟨-, l, r, h, hl⟩
    cases l with
    | nil => exact hs (List.cons.inj h).1.symm
    | cons d l =>
      rcases hl d List.mem_cons_self with ⟨-, w, ws, h', hw⟩ | ⟨hd, -⟩
      · exact hw (List.cons.inj h').1.symm
      · rw [hd] at h; cases (List.cons.inj h).1
  · rintro ⟨-, l, r, h, hl⟩
    cases l with
    | nil => exact hg (List.cons.inj h).1.symm
    | cons d l =>
      rcases hl d List.mem_cons_self with ⟨hd, -⟩ | ⟨-, h'⟩
      · rw [hd] at h; cases (List.cons.inj h).1
      · cases h'
  · rintro ⟨h, -⟩; cases h
  · rintro ⟨-, l, r, h, -⟩; cases l <;> cases h

/-- Station 5 with the slot of section 2.12 and its RDS in hand. -/
def reissued (state : SlotState) (seq : Byte) : State :=
  inHand 8 (request .rds seq true 0 102 [] 4) .sru (withSlot 0 ⟨8, 17, 102, 4, state, .running 4000⟩ [] (up .joined))

theorem witness_SettledReadTaken (state : SlotState) (seq : Byte) : (reissued state seq).te.hand = some ⟨8, request .rds seq true 0 102 [] 4, .sru⟩ ∧
    ((reissued state seq).sru.slots.at 0 = some ⟨8, 17, 102, 4, state, .running 4000⟩ ∧
      ∀ j y, (reissued state seq).sru.slots.at j = some y → y.requester = 8 → j = 0) ∧
    (∀ i x, (inHand 8 (request .rds seq true 0 102 [] 4) .sru (up .joined)).sru.slots.at i = some x → x.requester ≠ 8) := by
  refine ⟨rfl, ⟨rfl, fun j y hy _ => ?_⟩, fun i x hx => ?_⟩
  · simp only [reissued, inHand, withSlot, up, State.reset, Table.at_put, Table.at_const] at hy
    split at hy
    · assumption
    · cases hy
  · simp [inHand, up, State.reset] at hx

/-- The SRU's claim is granted. -/
def sruClaim (w : SruWork) (s : State) : State := claiming [.sru] { s with sru := { s.sru with work := [w] } }

theorem witness_SettledReadClaims :
    (∀ (s : State) w, (sruClaim w s).sru.work = w :: []) ∧ Granted .sru (sruClaim (.evaluate false) (inHand 8 (request .rds 17 false 0 102 [] 4) .sru group26)) ∧
    ((inHand 8 (request .rds 17 false 0 102 [] 4) .sru group26).te.hand = some ⟨8, request .rds 17 false 0 102 [] 4, .sru⟩ ∧
      (group26.pt.peers.at 8).presence = .present ∧ (group26.pt.peers.at 8).departure = none ∧ group26.stc.state ≠ .leaving ∧ (group26.pt.peers.at 2).presence = .absent) ∧
    (heldBy group26 104 = some 0 ∧ (group26.ge.table.at 0).map (·.owner) = some 1 ∧ (group26.ge.table.at 0).map (·.owner) ≠ some 8) ∧
    (∀ a, 105 ≤ a → a < 105 + 1 → heldBy group26 a = none) ∧ group26.sru.slots.at 0 = none ∧
    (∀ i, ({ group26 with sru := { group26.sru with slots := Table.const 4 (some ⟨2, 5, 100, 2, .waiting false, .running 4000⟩) } } : State).sru.slots.at i ≠ none) ∧
    (withSlot 0 ⟨8, 17, 102, 4, .waiting true, .running 4000⟩ [.capture 0] group26).sru.slots.at 0 = some ⟨8, 17, 102, 4, .waiting true, .running 4000⟩ := by
  refine ⟨fun _ _ => rfl, ⟨rfl, [], _, rfl, nofun⟩, ⟨rfl, by decide +kernel, by decide +kernel, by decide +kernel, by decide +kernel⟩, by decide +kernel, fun a h1 h2 => ?_, rfl, fun i => by simp, rfl⟩
  have : a = 105 := by omega
  subst this; decide +kernel

theorem witness_SlotsFreed : SlotLaws (withSlot 3 ⟨6, 89, 140, 4, .waiting false, .running 4000⟩ [] (up .joined)) ∧
    (withSlot 3 ⟨6, 89, 140, 4, .waiting false, .running 4000⟩ [] (up .joined)).sru.slots.at 3 = some ⟨6, 89, 140, 4, .waiting false, .running 4000⟩ ∧
    (up .joined).sru.announced = none ∧ (up .joined).sru.startOfLeaving = false ∧ (∀ i x, (up .joined).sru.slots.at i = some x → x.requester ≠ 6) ∧
    ({ up .joined with sru := { (up .joined).sru with announced := some (.lost 6), startOfLeaving := true } } : State).sru.announced = some (.lost 6) :=
  ⟨slotLaws_one 3 6 89 140 4 false _ [] .joined (by decide), rfl, rfl, rfl, fun i x hx => by simp [up, State.reset] at hx, rfl⟩

/-- An RDS of station 7 for four words from an address, or cut after its flags. -/
def rdsFrame (flags : Byte) (addr : Byte) : Frame := frameFrom 6 2 [5, 89, flags, 0, addr, 4]

/-- The re-issue of the read in that slot, and frames that are none: without the retry mark, of another range, too short, of another kind. -/
theorem witness_SlotsFreed_reports :
    let x : Slot := ⟨6, 89, 140, 4, .waiting false, .running 4000⟩
    (reissues (rdsFrame 1 140) ⟨5, 89, 1⟩ x = true ∧ (140 : Nat) = (0 : Byte).toNat * 256 + (140 : Byte).toNat) ∧
    reissues (rdsFrame 0 140) ⟨5, 89, 0⟩ x = false ∧ reissues (rdsFrame 1 141) ⟨5, 89, 1⟩ x = false ∧
    reissues (frameFrom 6 2 [5, 89, 1]) ⟨5, 89, 1⟩ x = false ∧ reissues (frameFrom 6 1 [5, 89, 1, 0, 140, 4]) ⟨5, 89, 1⟩ x = false := by decide

/-- The SRU has the start of LEAVING to take, with the capture of slot 3 queued. -/
theorem witness_SlotsFreed_leaving :
    let s := claiming [.sru] (withSlot 3 ⟨6, 89, 140, 4, .waiting true, .running 4000⟩ [.capture 3] { up .leaving with sru := { (up .leaving).sru with startOfLeaving := true } })
    s.sru.startOfLeaving = true ∧ ClaimsMatch s ∧ s.sru.slots.at 3 ≠ none := ⟨rfl, ⟨rfl, rfl, rfl, rfl⟩, nofun⟩

/-- A group frame that the GE takes next. -/
def framed (k : ReqKind) (tag : BitVec 4) (addr : Nat) (s : State) : State := working [.frame] (inHand 1 (request k 44 false tag addr [0] 1) .ge s)

theorem witness_GroupFramesTaken (k : ReqKind) (tag : BitVec 4) (addr : Nat) :
    (let s := framed k tag addr (groups 3)
     HoldLaws s.ge ∧ s.ge.op = none ∧ s.ge.work = .frame :: [] ∧ s.te.hand = some ⟨1, request k 44 false tag addr [0] 1, .ge⟩) ∧
    (∃ x, (groups 3).ge.table.at 0 = some x ∧ x.owner = 1 ∧ x.tag = 6) ∧ (∀ g, ¬ ∃ x, (groups 3).ge.table.at g = some x ∧ x.owner = 1 ∧ x.tag = 5) ∧
    ((groups 3).ge.table.at 2 = none ∧ ∀ j, j < 2 → (groups 3).ge.table.at j ≠ none) := by
  refine ⟨⟨holdLaws_op (by omega) _ none (Or.inr nofun), rfl, rfl, rfl⟩, ⟨_, rfl, rfl, rfl⟩, fun g => ?_, rfl, fun j hj => ?_⟩
  · rintro ⟨x, hx, -, ht⟩
    rw [groups_at] at hx
    split at hx
    · cases hx; exact absurd ht (by decide)
    · split at hx
      · cases hx; exact absurd ht (by decide)
      · cases hx
  · rw [groups_at]
    by_cases g1 : j = 1
    · rw [if_pos g1]; nofun
    · rw [if_neg g1, if_pos (by omega)]; nofun

theorem witness_GroupFramesTaken_full (k : ReqKind) (tag : BitVec 4) (addr : Nat) : HoldLaws (framed k tag addr fourGroups).ge ∧ (∀ g, fourGroups.ge.table.at g ≠ none) ∧
    (fourGroups.pt.peers.at 1).presence ≠ .absent ∧ ((up .leaving).stc.state = .leaving ∧ HoldLaws (up .leaving).ge) ∧ ((up .joined).pt.peers.at 1).presence = .absent ∧
    (4096 < 4096 + 1 ∧ 4095 + 1 ≤ 4096) ∧ writableRange (groups 3) 1 4095 1 ∧ ¬ writableRange fourGroups 1 4095 1 := by
  refine ⟨holdLaws_fourGroups _, fun g => by rw [fourGroups_table]; nofun, by decide +kernel, ⟨rfl, holdLaws_up _⟩, by decide, by omega, fun a _ _ => by simp [groups, permitting], fun h => ?_⟩
  have := h 4095 (by omega) (by omega)
  simp [fourGroups, withPeer, up, State.reset, ConfigRecord.default] at this

/-- A GWRITE of one word at its claim. -/
def applying (n addr : Nat) : State :=
  { groups n with ge := { (groups n).ge with op := some (.gwrite 0) }, sgm := { (groups n).sgm with claims := [.ge] }, te := { (groups n).te with hand := some ⟨1, request .gwrite 45 false 6 addr [7] 1, .ge⟩ } }

theorem heldBy_groups {n : Nat} (h : n ≤ 127) (a : Nat) (g : Fin 4) : heldBy (groups n) a = some g ↔ (a < n ∧ g = 0) ∨ (a = 200 ∧ g = 1) := by
  show Sparse.get (groupHolds n) a = some g ↔ _
  rw [get_iff_mem (holds_sorted h), mem_groupHolds]

/-- A word of another group; the pool one short; the pool filled to the last entry. -/
theorem witness_GwriteApplied :
    (∀ n addr, n ≤ 127 → HoldLaws (applying n addr).ge ∧ (applying n addr).ge.op = some (.gwrite 0) ∧
      (applying n addr).te.hand = some ⟨1, request .gwrite 45 false 6 addr [7] 1, .ge⟩ ∧ (applying n addr).ge.table.at 0 = some ⟨1, 6, n, .running 20000⟩ ∧ Granted .ge (applying n addr)) ∧
    heldBy (applying 3 200) 200 = some 1 ∧
    (128 < (applying 127 300).ge.undo.length + ((List.range' 300 1).filter (fun a => heldBy (applying 127 300) a ≠ some 0)).length ∧ heldBy (applying 127 300) 300 = none) ∧
    (applying 126 300).ge.undo.length + ((List.range' 300 1).filter (fun a => heldBy (applying 126 300) a ≠ some 0)).length = 128 := by
  have free : ∀ n, n ≤ 127 → heldBy (groups n) 300 = none := by
    intro n hn
    cases hg : heldBy (groups n) 300 with
    | none => rfl
    | some g => rcases (heldBy_groups hn 300 g).mp hg with h | h <;> omega
  have len : ∀ n, (applying n 300).ge.undo.length = n + 1 := fun n => by show (groupLog n).length = n + 1; simp [groupLog]
  refine ⟨fun n addr h => ⟨holdLaws_op h _ _ (Or.inl rfl), rfl, rfl, ?_, rfl, [], _, rfl, nofun⟩, (heldBy_groups (by omega) 200 1).mpr (Or.inr ⟨rfl, rfl⟩), ⟨?_, free 127 (by omega)⟩, ?_⟩
  · show (groups n).ge.table.at 0 = _; rw [groups_at]; simp
  · rw [len, show (List.range' 300 1) = [300] from rfl, List.filter_cons, show heldBy (applying 127 300) 300 = none from free 127 (by omega)]; simp
  · rw [len, show (List.range' 300 1) = [300] from rfl, List.filter_cons, show heldBy (applying 126 300) 300 = none from free 126 (by omega)]; simp

/-- The claim of an operation that ends group (2, 6). -/
def ending (op : GeOp) : State :=
  { groups 3 with ge := { (groups 3).ge with op := some op }, sgm := { (groups 3).sgm with claims := [.ge] }, te := { (groups 3).te with hand := some ⟨1, request .gclose 45 false 6 0 [] 0, .ge⟩ } }

theorem witness_GroupEnds (op : GeOp) (h : ∀ g, op ≠ .gwrite g) : HoldLaws (ending op).ge ∧ MemoryCanonical (ending op) ∧ (ending op).ge.op = some op ∧
    (ending op).te.hand = some ⟨1, request .gclose 45 false 6 0 [] 0, .ge⟩ ∧ (ending op).ge.table.at 0 = some ⟨1, 6, 3, .running 20000⟩ ∧ Granted .ge (ending op) ∧
    heldBy (ending op) 2 = some 0 ∧ heldBy (ending op) 200 = some 1 ∧ heldBy (ending op) 3 = none :=
  ⟨holdLaws_op (by omega) _ _ (Or.inr (fun g hg => h g (Option.some.inj hg))),
   memoryCanonical_groups (by omega) _ (fun g hg => h g (Option.some.inj hg)) _ _ (fun x hx => by cases hx; exact ⟨rfl, rfl, rfl⟩),
   rfl, rfl, rfl, ⟨rfl, [], _, rfl, nofun⟩, rfl, rfl, rfl⟩

theorem witness_GroupCommitted : HoldLaws (ending (.commit 0)).ge ∧ MemoryCanonical (ending (.commit 0)) ∧ (ending (.commit 0)).ge.op = some (.commit 0) ∧
    (ending (.commit 0)).ge.table.at 0 = some ⟨1, 6, 3, .running 20000⟩ ∧ Granted .ge (ending (.commit 0)) := by
  have h := witness_GroupEnds (.commit 0) (fun g hg => by cases hg)
  exact ⟨h.1, h.2.1, rfl, rfl, rfl, [], _, rfl, nofun⟩

theorem witness_GroupRolledBack (cause : AbortCause) (rest : List (Fin 4)) (fin : OpEnd) : HoldLaws (ending (.rollback cause (0 :: rest) fin)).ge ∧
    MemoryCanonical (ending (.rollback cause (0 :: rest) fin)) ∧ (ending (.rollback cause (0 :: rest) fin)).ge.op = some (.rollback cause (0 :: rest) fin) ∧
    (ending (.rollback cause (0 :: rest) fin)).ge.table.at 0 = some ⟨1, 6, 3, .running 20000⟩ ∧ Granted .ge (ending (.rollback cause (0 :: rest) fin)) := by
  have h := witness_GroupEnds (.rollback cause (0 :: rest) fin) (fun g hg => by cases hg)
  exact ⟨h.1, h.2.1, rfl, rfl, rfl, [], _, rfl, nofun⟩

/-- A rollback for LEAVING while the SRU has not yet taken the start of LEAVING: a slot waits on word 2 of the group. -/
def leavingSlot : State :=
  let s := withSlot 0 ⟨8, 17, 2, 1, .waiting false, .running 4000⟩ [] (ending (.rollback .leaving [0] .noGroupOpen))
  { s with sru := { s.sru with startOfLeaving := true }, stc := { s.stc with state := .leaving } }

/-- No slot is left, and no capture is presented (R59, log 31). -/
theorem test_group_rollback_leaving : runs .groupRollback leavingSlot (fun t =>
    decide (t.sru = State.reset.sru ∧ t.sgm.claims = [] ∧ t.stc.noGroupOpen = true)) = true := by decide +kernel

theorem witness_GroupRolledBack_leaving : leavingSlot.ge.op = some (.rollback .leaving [0] .noGroupOpen) ∧ leavingSlot.stc.state = .leaving ∧ Granted .ge leavingSlot ∧
    SlotLaws leavingSlot ∧ HoldLaws leavingSlot.ge ∧ MemoryCanonical leavingSlot ∧ leavingSlot.sru.slots.at 0 ≠ none := by
  have h := witness_GroupEnds (.rollback .leaving [0] .noGroupOpen) (fun g hg => by cases hg)
  have at' : ∀ j, leavingSlot.sru.slots.at j = if j = 0 then some ⟨8, 17, 2, 1, .waiting false, .running 4000⟩ else none := by
    intro j; simp [leavingSlot, withSlot, ending, groups, permitting, withPeer, up, State.reset, Table.at_put]
  refine ⟨rfl, rfl, ⟨rfl, [], _, rfl, nofun⟩, ⟨fun j k x y h1 h2 _ => ?_, fun x hx hs => ?_, fun j x w h1 h2 => ?_, fun _ hl => ?_⟩, h.1, ?_, nofun⟩
  · rw [at'] at h1 h2; split at h1 <;> split at h2 <;> simp_all
  · cases hx; cases hs
  · rw [at'] at h1; split at h1
    · cases h1; cases h2
    · cases h1
  · cases hl
  · exact ⟨h.2.1.words, h.2.1.buffers, h.2.1.holds, h.2.1.log, h.2.1.wr, h.2.1.gwrite, h.2.1.handed, h.2.1.entries⟩

theorem witness_GroupWorkTaken : group26.ge.table.at 0 = some ⟨1, 6, 5, .running 20000⟩ ∧ group26.ge.op = none ∧ (∀ w, OtherNext (working [w] group26).ge.work w []) ∧
    OtherNext (working [.frame, .expiry 0, .startOfLeaving] group26).ge.work (.expiry 0) [.frame, .startOfLeaving] ∧
    OtherNext (working [.frame, .startOfLeaving] group26).ge.work .startOfLeaving [.frame] ∧
    group26.ge.table.at 3 = none :=
  ⟨rfl, rfl, fun _ => Or.inl rfl, Or.inr ⟨[.startOfLeaving], rfl, by decide, rfl⟩, Or.inr ⟨[], rfl, by decide, rfl⟩, rfl⟩

theorem witness_EndReportsTaken : (inHand 1 (request .gabort 43 false 6 0 [] 0) .ge group26).te.hand = some ⟨1, request .gabort 43 false 6 0 [] 0, .ge⟩ ∧
    ((up .joined).pt.peers.at 1).departure = none ∧ (∀ e, ((withPeer 1 e (up .joined)).pt.peers.at 1) = e) ∧ departing.departure = some .silent ∧
    ({ departing with freshWaiting := true } : Peer).freshWaiting = true ∧ ({ departing with heardAgain := true } : Peer).heardAgain = true ∧ departing.heardAgain = false :=
  ⟨rfl, rfl, fun _ => rfl, rfl, rfl, rfl, rfl⟩

theorem witness_PresenceTimersExpire : ({ up .joined with stc := { (up .joined).stc with quiet := .running 10000, listen := .running 20000 } } : State).stc.quiet = .running 10000 ∧
    ({ up .joined with stc := { (up .joined).stc with quiet := .running 10000, listen := .running 20000 } } : State).stc.listen = .running 20000 ∧
    (((withPeer 6 present (up .joined)).pt.peers.at 6).presence = .present ∧ ((withPeer 6 present (up .joined)).pt.peers.at 6).departure = none ∧
      ((withPeer 6 present (up .joined)).pt.peers.at 6).timer = .running 30000) ∧
    (let s : State := { up .leaving with stc := { (up .leaving).stc with noGroupOpen := true } }
     s.stc.state = .leaving ∧ s.stc.due ≠ some .leaving ∧ s.stc.noGroupOpen = true ∧ (∀ e, s.re.table.at e = none) ∧ s.re.queue = [] ∧ s.te.hand = none ∧ s.te.input = none ∧ s.te.queue = []) ∧
    (up .leaving).stc.noGroupOpen ≠ true :=
  ⟨rfl, rfl, ⟨rfl, rfl, rfl⟩, ⟨rfl, nofun, rfl, fun e => by simp [up, State.reset], rfl, rfl, rfl, rfl⟩, nofun⟩

theorem witness_CommittedImageChanges : HoldLaws (ending (.rollback .revoked [0] .nothing)).ge ∧ MemoryCanonical (ending (.rollback .revoked [0] .nothing)) ∧
    heldBy (ending (.rollback .revoked [0] .nothing)) 2 = some 0 ∧ heldBy (ending (.rollback .revoked [0] .nothing)) 3 = none ∧
    (∃ t, exec .groupRollback (ending (.rollback .revoked [0] .nothing)) = .next t) :=
  by
  have h := witness_GroupEnds (.rollback .revoked [0] .nothing) (fun g hg => by cases hg)
  exact ⟨h.1, h.2.1, h.2.2.2.2.2.2.1, h.2.2.2.2.2.2.2.2, _, rfl⟩

/-- A step of a state that meets the laws of the last eight statements. -/
theorem witness_laws_kept : let s := queued [.leave] (up .joined)
    (∃ t, step s = .next t ∧ t ≠ s) ∧ ClearingLaws s ∧ OwnEntryUnused s ∧ MemoryCanonical s ∧ QueuesBounded s ∧ HoldLaws s.ge ∧ SlotLaws s ∧ TableLaws s ∧
    LinkLaws s ∧ HandMatches s ∧ ClaimsMatch s := by
  have none8 : ∀ e, (up .joined).re.table.at e = none := fun e => by simp [up, State.reset]
  have none4 : ∀ i, (up .joined).sru.slots.at i = none := fun i => by simp [up, State.reset]
  refine ⟨⟨_, rfl, fun h => absurd (congrArg (fun s => s.pending) h) nofun⟩, ⟨nofun, ?_, nofun⟩, ⟨⟨rfl, rfl, rfl, rfl⟩, nofun, nofun⟩,
    ⟨⟨⟨List.Pairwise.nil, nofun⟩, nofun⟩, ⟨⟨List.Pairwise.nil, nofun⟩, nofun⟩, ⟨List.Pairwise.nil, nofun⟩, nofun, nofun, nofun, nofun, fun e x hx => ?_⟩,
    ⟨by decide, by decide, by decide, by decide, nofun⟩, holdLaws_up .joined, ⟨fun i j x y hx => ?_, nofun, fun i x ws hx => ?_, fun h => absurd h (by decide)⟩,
    ⟨fun e f x y hx => ?_, ⟨List.nodup_nil, fun e => ?_⟩, ⟨List.nodup_nil, fun e => ?_⟩, fun e x hx => ?_, fun e x hx => ?_, ?_, fun b => ?_, nofun⟩, linkLaws_gap rfl,
    ⟨rfl, by decide, fun i => ?_, List.nodup_nil⟩, ⟨rfl, rfl, rfl, rfl⟩⟩
  · show false = true ↔ StationState.joined = .clearing ∧ false = false
    decide
  · exact absurd (hx.symm.trans (none8 e)) nofun
  · exact absurd (hx.symm.trans (none4 i)) nofun
  · exact absurd (hx.symm.trans (none4 i)) nofun
  · exact absurd (hx.symm.trans (none8 e)) nofun
  · show e ∈ ([] : List (Fin 8)) ↔ ((up .joined).re.table.at e).map _ = _
    rw [none8]; simp
  · show e ∈ ([] : List (Fin 8)) ↔ ((up .joined).re.table.at e).map _ = _
    rw [none8]; simp
  · exact absurd (hx.symm.trans (none8 e)) nofun
  · exact absurd (hx.symm.trans (none8 e)) nofun
  · rintro (h | h)
    · exact absurd rfl h
    · cases h
  · have none8' : ∀ e, (queued [.leave] (up .joined)).re.table.at e = none := none8
    show ([] : List Queued).countP _ + _ ≤ 1
    simp [none8']
  · show SruWork.capture i ∈ ([] : List SruWork) ↔ ((up .joined).sru.slots.at i).map _ = _
    rw [none4]; simp

end Sys2Proof.Tests
end

section
/-! PROOFS. Write groups and the undo log (O44, O45): the group frames when the GE takes them, and a GWRITE inside its claim. -/

namespace Sys2Proof.Machine

/-! ### A group frame that the GE takes next (R22) -/

/-- The group frame of hand h is the next that the GE takes, and `rest` waits behind it (R22). -/
structure GroupFrameNext (h : Hand) (rest : List GeWork) (s : State) : Prop where
  op : s.ge.op = none
  work : s.ge.work = .frame :: rest
  hand : s.te.hand = some h
  stage : h.stage = .ge

/-- The frame has left the GE's waiting work. -/
def State.frameLeft (rest : List GeWork) (s : State) : State := { s with ge := { s.ge with work := rest } }

/-- The frame has left the GE's waiting work, and operation op is in progress with its claim presented (R22). -/
def State.opBegun (rest : List GeWork) (op : GeOp) (s : State) : State :=
  { s with ge := { s.ge with work := rest, op := some op }, sgm := { s.sgm with claims := s.sgm.claims ++ [.ge] } }

section
variable {h : Hand} {rest : List GeWork} {s : State} (hn : GroupFrameNext h rest s)
include hn

theorem GroupFrameNext.frameTaken_eq {k : ReqKind} (hk : h.req.kind = k) : frameTaken k s = some h := by
  simp [frameTaken, hn.op, hn.work, hn.hand, hn.stage, hk]

theorem GroupFrameNext.takeWork_eq : takeWork s = s.frameLeft rest := by
  simp only [takeWork, hn.work, List.tail_cons, State.frameLeft]

/-- A frame that ends at once is answered (R72, R75). -/
theorem GroupFrameNext.answered (r : Reply) : finishHand (some r) (takeWork s) = (s.frameLeft rest).answered h r := by
  rw [hn.takeWork_eq]; exact finishHand_some (s := s.frameLeft rest) hn.hand r

/-- A frame of an absent sender is dropped (R23). -/
theorem GroupFrameNext.dropped : finishHand none (takeWork s) = { s.frameLeft rest with te := { s.te with hand := none } } := by
  rw [hn.takeWork_eq]; exact finishHand_none (s := s.frameLeft rest) hn.hand

theorem GroupFrameNext.begun (op : GeOp) : presentClaim .ge (setOp (some op) (takeWork s)) = s.opBegun rest op := by
  rw [hn.takeWork_eq]; rfl

/-! ### GOPEN (R23) -/

theorem exec_gopen_refused (hk : h.req.kind = .gopen) {r : Reply} (hd : decideGopen s h = (some r, none)) :
    exec .gopen s = .next (reselect ((s.frameLeft rest).answered h r)) := by
  rw [← hn.answered]; simp only [exec, execGopen, hn.frameTaken_eq hk, hd, nextWithSelection]

theorem exec_gopen_dropped (hk : h.req.kind = .gopen) (hd : decideGopen s h = (none, none)) :
    exec .gopen s = .next (reselect { s.frameLeft rest with te := { s.te with hand := none } }) := by
  rw [← hn.dropped]; simp only [exec, execGopen, hn.frameTaken_eq hk, hd, nextWithSelection]

theorem exec_gopen_opened (hk : h.req.kind = .gopen) {r : Reply} {g : Fin 4} (hd : decideGopen s h = (some r, some g)) :
    exec .gopen s = .next (reselect (State.answered h r
      (updateGe (Ge.opened g h.sender h.req.tag (idleLifetime s)) (s.frameLeft rest)))) := by
  rw [← finishHand_some (s := updateGe _ (s.frameLeft rest)) hn.hand, ← hn.takeWork_eq]
  simp only [exec, execGopen, hn.frameTaken_eq hk, hd, nextWithSelection]

/-! ### GWRITE, GCLOSE and GABORT (R24, R27, R32) -/

theorem exec_gwrite_refused (hk : h.req.kind = .gwrite) {r : Reason} (hd : decideGwrite s h = .error r) :
    exec .gwrite s = .next (reselect ((s.frameLeft rest).answered h (.refuse r))) := by
  rw [← hn.answered]; simp only [exec, execGwrite, hn.frameTaken_eq hk, hd, nextWithSelection]

theorem exec_gwrite_begun (hk : h.req.kind = .gwrite) {g : Fin 4} (hd : decideGwrite s h = .ok g) :
    exec .gwrite s = .next (s.opBegun rest (.gwrite g)) := by
  rw [← hn.begun]; simp only [exec, execGwrite, hn.frameTaken_eq hk, hd]

theorem exec_gclose_noGroup (hk : h.req.kind = .gclose) (hf : findGroup s.ge h.sender h.req.tag = none) :
    exec .gclose s = .next (reselect ((s.frameLeft rest).answered h (.refuse .noGroup))) := by
  rw [← hn.answered]; simp only [exec, execGclose, hn.frameTaken_eq hk, hf, nextWithSelection]

theorem exec_gclose_begun (hk : h.req.kind = .gclose) {g : Fin 4} (hf : findGroup s.ge h.sender h.req.tag = some g) :
    exec .gclose s = .next (s.opBegun rest (.commit g)) := by
  rw [← hn.begun]; simp only [exec, execGclose, hn.frameTaken_eq hk, hf]

theorem exec_gabort_noGroup (hk : h.req.kind = .gabort) (hf : findGroup s.ge h.sender h.req.tag = none) :
    exec .gabort s = .next (reselect ((s.frameLeft rest).answered h (.refuse .noGroup))) := by
  rw [← hn.answered]; simp only [exec, execGabort, hn.frameTaken_eq hk, hf, nextWithSelection]

theorem exec_gabort_begun (hk : h.req.kind = .gabort) {g : Fin 4} (hf : findGroup s.ge h.sender h.req.tag = some g) :
    exec .gabort s = .next (s.opBegun rest (.rollback .requested [g] .reply)) := by
  rw [← hn.begun]; simp only [exec, execGabort, hn.frameTaken_eq hk, hf, beginRollbacks]

end

/-! ### The tests of GOPEN and GWRITE, in the order of their rules (R23, R24) -/

section
variable {s : State} {h : Hand}

theorem freeGroup_eq_none {ge : Ge} (hf : ∀ g, ge.table.at g ≠ none) : freeGroup ge = none := by
  unfold freeGroup; rw [List.find?_eq_none]; intro g _; simpa using hf g

/-- The lowest-numbered FREE entry (R17). -/
theorem freeGroup_eq_some {ge : Ge} {g : Fin 4} (hg : ge.table.at g = none) (hlt : ∀ j, j < g → ge.table.at j ≠ none) : freeGroup ge = some g :=
  find_all4 _ g (by simp [hg]) (fun j hj => by simpa [← Option.ne_none_iff_isSome] using hlt j hj)

theorem decideGopen_of_leaving (hs : s.stc.state = .leaving) : decideGopen s h = (some (.refuse .notServing), none) := by
  simp only [decideGopen, hs, if_true]

theorem decideGopen_of_absent (hs : s.stc.state ≠ .leaving) (hp : (s.pt.peers.at h.sender).presence = .absent) : decideGopen s h = (none, none) := by
  simp only [decideGopen, hs, hp, if_true, if_false]

theorem decideGopen_of_open (hs : s.stc.state ≠ .leaving) (hp : (s.pt.peers.at h.sender).presence ≠ .absent) {g : Fin 4}
    (hf : findGroup s.ge h.sender h.req.tag = some g) : decideGopen s h = (some (.refuse .groupExists), none) := by
  simp [decideGopen, hs, hp, hf]

theorem decideGopen_of_full (hs : s.stc.state ≠ .leaving) (hp : (s.pt.peers.at h.sender).presence ≠ .absent)
    (hf : findGroup s.ge h.sender h.req.tag = none) (hfree : freeGroup s.ge = none) : decideGopen s h = (some (.refuse .groupTableFull), none) := by
  simp [decideGopen, hs, hp, hf, hfree]

theorem decideGopen_of_free (hs : s.stc.state ≠ .leaving) (hp : (s.pt.peers.at h.sender).presence ≠ .absent)
    (hf : findGroup s.ge h.sender h.req.tag = none) {g : Fin 4} (hfree : freeGroup s.ge = some g) : decideGopen s h = (some (.done 0), some g) := by
  simp [decideGopen, hs, hp, hf, hfree]

theorem rangeValid_eq_true (addr count : Nat) : rangeValid addr count = true ↔ addr + count ≤ 4096 := decide_eq_true_iff

theorem decideGwrite_of_noGroup (hf : findGroup s.ge h.sender h.req.tag = none) : decideGwrite s h = .error .noGroup := by
  simp only [decideGwrite, hf]

theorem decideGwrite_of_outside {g : Fin 4} (hf : findGroup s.ge h.sender h.req.tag = some g) (hr : 4096 < h.req.addr + h.req.count) :
    decideGwrite s h = .error .range := by
  have hv : rangeValid h.req.addr h.req.count = false := by rw [← Bool.not_eq_true, rangeValid_eq_true]; omega
  simp only [decideGwrite, hf, hv, if_true]

theorem decideGwrite_of_notWritable {g : Fin 4} (hf : findGroup s.ge h.sender h.req.tag = some g) (hr : h.req.addr + h.req.count ≤ 4096)
    (hw : writePermitted s h.sender h.req.addr h.req.count = false) : decideGwrite s h = .error .notPermitted := by
  simp [decideGwrite, hf, (rangeValid_eq_true _ _).mpr hr, hw]

theorem decideGwrite_of_writable {g : Fin 4} (hf : findGroup s.ge h.sender h.req.tag = some g) (hr : h.req.addr + h.req.count ≤ 4096)
    (hw : writePermitted s h.sender h.req.addr h.req.count = true) : decideGwrite s h = .ok g := by
  simp [decideGwrite, hf, (rangeValid_eq_true _ _).mpr hr, hw]

end

/-- Settles O44, frame by frame: the outcome of the frame's tests, and what the GE makes of it. -/
theorem groupFramesTaken : Obligations.GroupFramesTaken := by
  intro h rest s hl hop hwork hhand hstage
  have hn : GroupFrameNext h rest s := ⟨hop, hwork, hhand, hstage⟩
  refine ⟨fun hk => ⟨?leaving, ?absent, ?groupExists, ?full, ?opened⟩, fun hk h1 h16 => ⟨?noGroup, ?range, ?notPermitted, ?gwrite⟩,
    fun hk => ⟨?closeNone, ?close⟩, fun hk => ⟨?abortNone, ?abort⟩⟩
  case leaving => exact fun hs => exec_gopen_refused hn hk (decideGopen_of_leaving hs)
  case absent => exact fun hs hp => exec_gopen_dropped hn hk (decideGopen_of_absent hs hp)
  case groupExists => exact fun g hs hp hg => exec_gopen_refused hn hk (decideGopen_of_open hs hp (findGroup_eq_some hl hg))
  case full =>
    exact fun hs hp hg hfull => exec_gopen_refused hn hk (decideGopen_of_full hs hp (findGroup_eq_none hg) (freeGroup_eq_none hfull))
  case opened =>
    exact fun g hs hp hno hg hlt => exec_gopen_opened hn hk (decideGopen_of_free hs hp (findGroup_eq_none hno) (freeGroup_eq_some hg hlt))
  case noGroup => exact fun hno => exec_gwrite_refused hn hk (decideGwrite_of_noGroup (findGroup_eq_none hno))
  case range => exact fun g hg hr => exec_gwrite_refused hn hk (decideGwrite_of_outside (findGroup_eq_some hl hg) hr)
  case notPermitted =>
    intro g hg hr hw
    rw [← writePermitted_iff _ _ _ _ h1 h16, Bool.not_eq_true] at hw
    exact exec_gwrite_refused hn hk (decideGwrite_of_notWritable (findGroup_eq_some hl hg) hr hw)
  case gwrite =>
    intro g hg hr hw
    rw [← writePermitted_iff _ _ _ _ h1 h16] at hw
    exact exec_gwrite_begun hn hk (decideGwrite_of_writable (findGroup_eq_some hl hg) hr hw)
  case closeNone => exact fun hno => exec_gclose_noGroup hn hk (findGroup_eq_none hno)
  case close => exact fun g hg => exec_gclose_begun hn hk (findGroup_eq_some hl hg)
  case abortNone => exact fun hno => exec_gabort_noGroup hn hk (findGroup_eq_none hno)
  case abort => exact fun g hg => exec_gabort_begun hn hk (findGroup_eq_some hl hg)

/-! ### A GWRITE inside its claim (R25, R26) -/

theorem decideApply_of_conflict {ge : Ge} {g : Fin 4} {addr count : Nat} (hc : conflicts ge g addr count = true) :
    decideApply ge g addr count = some .conflict := by
  simp only [decideApply, hc, if_true]

/-- The log space test against the pool of 128 entries (R19, R25). -/
theorem freeLog_lt_iff {ge : Ge} (hpool : ge.undo.length ≤ 128) (n : Nat) : freeLog ge < n ↔ 128 < ge.undo.length + n := by
  unfold freeLog Config.undoEntries; omega

theorem decideApply_of_logFull {ge : Ge} {g : Fin 4} {addr count : Nat} (hpool : ge.undo.length ≤ 128) (hc : conflicts ge g addr count = false)
    (hf : 128 < ge.undo.length + (newlyHeld ge g addr count).length) : decideApply ge g addr count = some .logFull := by
  simp [decideApply, hc, (freeLog_lt_iff hpool _).mpr hf]

theorem decideApply_of_fits {ge : Ge} {g : Fin 4} {addr count : Nat} (hpool : ge.undo.length ≤ 128) (hc : conflicts ge g addr count = false)
    (hf : ge.undo.length + (newlyHeld ge g addr count).length ≤ 128) : decideApply ge g addr count = none := by
  have hlt : ¬ freeLog ge < (newlyHeld ge g addr count).length := by rw [freeLog_lt_iff hpool]; omega
  simp [decideApply, hc, hlt]

/-- The operation of a granted GE claim is over (R12, R22). -/
def State.claimEnded (s : State) : State := setOp none (takeClaim .ge s)

/-- The station when request r has been applied in group g, its answer apart (R26). -/
def State.gwriteApplied (g : Fin 4) (r : Request) (s : State) : State :=
  reportStores (rangeOf r.addr r.count)
    (storeWords r.addr r.data (updateGe (Ge.written g r.addr r.count s.sgm.words (idleLifetime s)) s.claimEnded))

section
variable {s : State} {h : Hand} {g : Fin 4}

theorem exec_gwriteApply_refused (hop : s.ge.op = some (.gwrite g)) (hh : s.te.hand = some h) (hg : Granted .ge s) {r : Reason}
    (hd : decideApply s.ge g h.req.addr h.req.count = some r) :
    exec .gwriteApply s = .next (reselect (s.claimEnded.answered h (.refuse r))) := by
  rw [← finishHand_some (s := s.claimEnded) hh]
  simp only [exec, execGwriteApply, hop, hh, (granted_iff _ _).mpr hg, if_true, hd, nextWithSelection, State.claimEnded]

theorem exec_gwriteApply_applied (hop : s.ge.op = some (.gwrite g)) (hh : s.te.hand = some h) (hg : Granted .ge s)
    (hd : decideApply s.ge g h.req.addr h.req.count = none) :
    exec .gwriteApply s = .next (reselect ((s.gwriteApplied g h.req).answered h (.done h.req.count))) := by
  rw [← finishHand_some (s := s.gwriteApplied g h.req) hh]
  simp only [exec, execGwriteApply, hop, hh, (granted_iff _ _).mpr hg, if_true, hd, nextWithSelection, State.gwriteApplied, State.claimEnded]

theorem gwriteApplied_words (g : Fin 4) (r : Request) (s : State) (a : Nat) :
    (s.gwriteApplied g r).sgm.words.read a = if r.addr ≤ a ∧ a < r.addr + r.data.length then r.data.getD (a - r.addr) 0 else s.sgm.words.read a :=
  Mem.read_writeAll_getD r.data s.sgm.words r.addr a

theorem mem_newlyHeld (s : State) (g : Fin 4) (addr count a : Nat) :
    a ∈ newlyHeld s.ge g addr count ↔ (addr ≤ a ∧ a < addr + count) ∧ heldBy s a ≠ some g := by
  rw [newlyHeld_eq]; simp

/-- After an applied GWRITE its group holds the whole range: the words newly held, and those it held before (R26). -/
theorem gwriteApplied_heldBy (g : Fin 4) (r : Request) (s : State) (a : Nat) :
    heldBy (s.gwriteApplied g r) a = if r.addr ≤ a ∧ a < r.addr + r.count then some g else heldBy s a := by
  have hold : heldBy (s.gwriteApplied g r) a = if a ∈ newlyHeld s.ge g r.addr r.count then some g else heldBy s a :=
    get_holdAll g (newlyHeld s.ge g r.addr r.count) s.ge.holds a
  rw [hold]
  simp only [mem_newlyHeld]
  by_cases hin : r.addr ≤ a ∧ a < r.addr + r.count
  · by_cases hheld : heldBy s a = some g <;> simp [hin, hheld]
  · simp [hin]

theorem gwriteApplied_reportTaken (g : Fin 4) (r : Request) (s : State) : ReportTaken (List.range' r.addr r.count) s (s.gwriteApplied g r) :=
  reportStores_taken (rangeOf r.addr r.count) (storeWords r.addr r.data (updateGe (Ge.written g r.addr r.count s.sgm.words (idleLifetime s)) s.claimEnded))

/-- The table entry, the log and the work of an applied GWRITE, and all it leaves unchanged (R26). -/
theorem gwriteApplied_frame {x : Group} (hx : s.ge.table.at g = some x) (r : Request) : s.gwriteApplied g r = { s.claimEnded with
    sgm := { s.claimEnded.sgm with words := (s.gwriteApplied g r).sgm.words }
    sru := (s.gwriteApplied g r).sru
    ge := { s.claimEnded.ge with
      table := s.ge.table.put g (some { x with held := x.held + (newlyHeld s.ge g r.addr r.count).length, idle := idleLifetime s })
      undo := s.ge.undo ++ (newlyHeld s.ge g r.addr r.count).map (fun a => ⟨g, a, s.sgm.words.read a⟩)
      holds := (s.gwriteApplied g r).ge.holds
      work := s.ge.work.filter (fun w => w ≠ .expiry g) } } := by
  have htable : (s.gwriteApplied g r).ge.table =
      s.ge.table.put g (some { x with held := x.held + (newlyHeld s.ge g r.addr r.count).length, idle := idleLifetime s }) := by
    show s.ge.table.put g ((s.ge.table.at g).map _) = _
    rw [hx]; rfl
  rw [← htable]; rfl

end

/-- Settles O45, by the three outcomes of the tests inside the claim: a conflict, a log without room, and the write applied whole. -/
theorem gwriteApplied : Obligations.GwriteApplied := by
  intro h g x s hl hop hh hx hg r inRange new u conflict
  have hconf : conflicts s.ge g r.addr r.count = true ↔ conflict := conflicts_eq_true s g r.addr r.count
  refine ⟨fun hc => ?refusedConflict, fun hc hf => ?refusedLogFull, fun hc hf => ?applied⟩
  case refusedConflict => exact exec_gwriteApply_refused hop hh hg (decideApply_of_conflict (hconf.mpr hc))
  case refusedLogFull =>
    rw [← hconf, Bool.not_eq_true] at hc
    exact exec_gwriteApply_refused hop hh hg (decideApply_of_logFull hl.pool hc hf)
  case applied =>
    rw [← hconf, Bool.not_eq_true] at hc
    exact ⟨s.gwriteApplied g r, exec_gwriteApply_applied hop hh hg (decideApply_of_fits hl.pool hc hf), gwriteApplied_words g r s,
      gwriteApplied_heldBy g r s, gwriteApplied_reportTaken g r s, gwriteApplied_frame hx r⟩

end Sys2Proof.Machine
end

section
/-! PROOFS. Issuing requests (O14): the tests of POST in the order of R94, and what POST makes of their outcome. -/

namespace Sys2Proof.Machine

/-! ### The tests of POST (R94) -/

/-- The buffer test of R94 in the words of the loans. -/
theorem bufferBusy_eq_true (s : State) (d : Descriptor) : bufferBusy s d = true ↔ ∃ b, d.references b ∧ Lent s b := by
  simp only [← bufferOf_eq_some, ← lent_eq_true, bufferBusy]
  cases bufferOf d <;> simp

section
variable {s : State} {d : Descriptor}

theorem decidePost_of_notJoined (hs : s.stc.state ≠ .joined) : decidePost s d = .notJoined := by
  simp only [decidePost, if_pos hs]

theorem decidePost_of_queueFull (hs : s.stc.state = .joined) (hq : 16 ≤ s.re.queue.length) : decidePost s d = .queueFull := by
  simp [decidePost, hs, Config.submissionEntries, hq]

/-- With the station JOINED and room in the queue, the loans decide (R94). -/
theorem decidePost_of_room (hs : s.stc.state = .joined) (hq : s.re.queue.length < 16) :
    decidePost s d = if bufferBusy s d then .bufferBusy else .accepted := by
  simp [decidePost, hs, Config.submissionEntries, Nat.not_le.mpr hq]

theorem decidePost_of_bufferBusy (hs : s.stc.state = .joined) (hq : s.re.queue.length < 16) (hb : ∃ b, d.references b ∧ Lent s b) :
    decidePost s d = .bufferBusy := by
  rw [decidePost_of_room hs hq, if_pos ((bufferBusy_eq_true s d).mpr hb)]

theorem decidePost_of_accepted (hs : s.stc.state = .joined) (hq : s.re.queue.length < 16) (hb : ¬ ∃ b, d.references b ∧ Lent s b) :
    decidePost s d = .accepted := by
  rw [decidePost_of_room hs hq, if_neg (mt (bufferBusy_eq_true s d).mp hb)]

end

/-! ### What POST makes of the outcome (R94, R96, R145) -/

/-- A descriptor that is not accepted leaves its post result and nothing else. -/
theorem postWindow_of_refused {s : State} {r : PostResult} (hd : decidePost s s.lp.window = r) (hr : r ≠ .accepted) :
    postWindow s = setPostResult r s := by
  unfold postWindow
  split
  · next ha => exact absurd (hd.symm.trans ha) hr
  · rw [hd]

theorem postWindow_of_accepted {s : State} (hd : decidePost s s.lp.window = .accepted) :
    postWindow s = admission (enqueue s.lp.window (setPostResult .accepted s)) := by
  simp only [postWindow, hd]

/-- POST with no cycle in progress. -/
theorem exec_post {s : State} (hp : s.portReady) (v : Half) :
    exec (.post v) s = .next (reselect ((postWindow s).cycleDone (.write 0x2307 v) 0)) := by
  show Host.Outcome.next (reselect (busCycle (.write 0x2307 v) s)) = _
  rw [write_window hp _ v 0x07 (by decide)]; rfl

theorem exec_post_refused {s : State} (hp : s.portReady) (v : Half) {r : PostResult} (hd : decidePost s s.lp.window = r) (hr : r ≠ .accepted) :
    exec (.post v) s = .next (reselect ((setPostResult r s).cycleDone (.write 0x2307 v) 0)) := by
  rw [exec_post hp, postWindow_of_refused hd hr]

theorem exec_post_accepted {s : State} (hp : s.portReady) (v : Half) (hd : decidePost s s.lp.window = .accepted) :
    exec (.post v) s = .next (reselect
      ((admission (enqueue s.lp.window (setPostResult .accepted s))).cycleDone (.write 0x2307 v) 0)) := by
  rw [exec_post hp, postWindow_of_accepted hd]

/-- Settles O14, by the four outcomes of the tests in their order; only the accepted descriptor enters the queue. -/
theorem postDecides : Obligations.PostDecides := by
  intro v s hp ends kept busy
  refine ⟨fun hs => ?notJoined, fun hs hq => ?queueFull, fun hs hq hb => ?bufferBusy, fun hs hq hb => ?accepted⟩
  case notJoined => exact exec_post_refused hp v (decidePost_of_notJoined hs) nofun
  case queueFull => exact exec_post_refused hp v (decidePost_of_queueFull hs hq) nofun
  case bufferBusy => exact exec_post_refused hp v (decidePost_of_bufferBusy hs hq hb) nofun
  case accepted => exact exec_post_accepted hp v (decidePost_of_accepted hs hq hb)

end Sys2Proof.Machine
end

section
/-! PROOFS. CONFIGURE and JOIN (O18): the order of the tests of the staged record, and LISTENING entered from SETUP. -/

namespace Sys2Proof.Machine

/-! ### The tests of a record (Table 10-6) -/

/-- The range a field is held to. -/
abbrev InRange (v : Half) (lo hi : Nat) : Prop := lo ≤ v.toNat ∧ v.toNat ≤ hi

/-- What Table 10-6 asks of field n of a record; a number that names none of these fields asks nothing. -/
def FieldPasses (c : ConfigRecord) : Nat → Prop
  | 1 => InRange c.responseWindow 250 8000 ∧ 250 ∣ c.responseWindow.toNat
  | 2 => InRange c.lostLimit 0 7
  | 3 => InRange c.busyLimit 1 15
  | 4 => InRange c.retryInterval 250 8000 ∧ 250 ∣ c.retryInterval.toNat
  | 5 => InRange c.deferralDeadline 1 255
  | 6 => InRange c.discardTime 1 32
  | 7 => InRange c.idleLifetime 1 255
  | 8 => InRange c.presenceInterval 2 100
  | _ => True

/-- What R154 asks of a page: a read-open code of 0 or 1. -/
def PagePasses (c : ConfigRecord) (p : Fin 64) : Prop := (c.pages.at p).readOpen = 0 ∨ (c.pages.at p).readOpen = 1

theorem outside_eq (v : Half) (lo hi : Nat) :
    (decide (v.toNat < lo) || decide (hi < v.toNat)) = decide (¬ InRange v lo hi) := by
  rw [← Bool.decide_or, decide_eq_decide]; omega

theorem outsideOrOffStep_eq (v : Half) (lo hi step : Nat) :
    (decide (¬ InRange v lo hi) || decide (v.toNat % step ≠ 0)) = decide (¬ (InRange v lo hi ∧ step ∣ v.toNat)) := by
  rw [← Bool.decide_or, decide_eq_decide, Nat.dvd_iff_mod_eq_zero]
  exact not_and_or.symm

section
variable {c : ConfigRecord}

theorem fieldPasses_of_notListed {n : Nat} (h : n ∉ List.range' 1 8) : FieldPasses c n := by
  unfold FieldPasses
  split
  case h_9 => trivial
  all_goals exact absurd (by decide) h

/-- The model's list of tests is Table 10-6, in its order. -/
theorem failingFields_eq [DecidablePred (FieldPasses c)] :
    failingFields c = (List.range' 1 8).map fun n => (n, decide (¬ FieldPasses c n)) := by
  simp only [failingFields, outside_eq, outsideOrOffStep_eq]
  simp [List.range', FieldPasses]

theorem badPage_eq_true (p : Fin 64) : badPage (c.pages.at p) = true ↔ ¬ PagePasses c p := by
  simp only [badPage, PagePasses, decide_eq_true_eq]
  bv_omega

/-! ### The first test that fails (R134, R154) -/

/-- The fields are tested before the pages. -/
theorem configFailure_eq [DecidablePred (FieldPasses c)] :
    configFailure c = (((List.range' 1 8).find? fun n => decide (¬ FieldPasses c n)).map fun n => (n, 0)).or
      ((c.pages.toList.findIdx? badPage).map fun p => (9, p)) := by
  simp only [configFailure, failingFields_eq, List.find?_map, Function.comp_def]
  cases (List.range' 1 8).find? (fun n => decide (¬ FieldPasses c n)) <;> rfl

theorem configFailure_of_field {n : Nat} (hn : ¬ FieldPasses c n) (hfirst : ∀ m, m < n → FieldPasses c m) :
    configFailure c = some (n, 0) := by
  classical
  have hlisted : n ∈ List.range' 1 8 := by_contra (hn ∘ fieldPasses_of_notListed)
  have hfind : (List.range' 1 8).find? (fun m => decide (¬ FieldPasses c m)) = some n :=
    List.find?_range'_eq_some.mpr ⟨by simpa using hn, hlisted, fun m _ hm => by simpa using hfirst m hm⟩
  rw [configFailure_eq, hfind]; rfl

/-- With every field in its range, the pages decide. -/
theorem configFailure_of_fields (h : ∀ n, FieldPasses c n) :
    configFailure c = (c.pages.toList.findIdx? badPage).map (fun p => (9, p)) := by
  classical
  have hfind : (List.range' 1 8).find? (fun n => decide (¬ FieldPasses c n)) = none := by simp [h]
  rw [configFailure_eq, hfind]; rfl

theorem configFailure_of_page {p : Fin 64} (h : ∀ n, FieldPasses c n) (hp : ¬ PagePasses c p) (hfirst : ∀ q, q < p → PagePasses c q) :
    configFailure c = some (9, p.val) := by
  have hidx : c.pages.toList.findIdx? badPage = some p.val := by
    rw [List.findIdx?_eq_some_iff_getElem]
    refine ⟨by simp, (badPage_eq_true p).mpr hp, fun q hq => ?_⟩
    exact fun hb => (badPage_eq_true ⟨q, by omega⟩).mp hb (hfirst _ hq)
  rw [configFailure_of_fields h, hidx]; rfl

theorem configFailure_of_passes (h : ∀ n, FieldPasses c n) (hpages : ∀ p, PagePasses c p) : configFailure c = none := by
  have hidx : c.pages.toList.findIdx? badPage = none := by
    rw [List.findIdx?_eq_none_iff]
    intro x hx
    obtain ⟨q, hq, rfl⟩ := List.getElem_of_mem hx
    exact Bool.eq_false_iff.mpr fun hb => (badPage_eq_true ⟨q, by simpa using hq⟩).mp hb (hpages _)
  rw [configFailure_of_fields h, hidx]; rfl

end

/-! ### The commands in SETUP -/

section
variable {s : State}

/-- CONFIGURE in SETUP with a test that fails (R134). -/
theorem exec_configure_refused {n p : Nat} (hr : s.portReady) (hs : s.stc.state = .setup) (hf : configFailure s.stc.staged = some (n, p)) :
    exec .configure s = .next (State.cycleDone (.write 0x2333 1) 0 (setCommand .configure (.refusedConfig n p) s)) := by
  simp only [exec_configure hr, commandConfigure, hs, configureInSetup, hf]

/-- CONFIGURE in SETUP with every test passed (R134). -/
theorem exec_configure_accepted (hr : s.portReady) (hs : s.stc.state = .setup) (hf : configFailure s.stc.staged = none) :
    exec .configure s = .next (State.cycleDone (.write 0x2333 1) 0
      (setCommand .configure .accepted (updateStc (fun c => { c with active := c.staged }) s))) := by
  simp only [exec_configure hr, commandConfigure, hs, configureInSetup, hf]

/-- JOIN in SETUP (R135), with its event in the event queue. -/
theorem joinInSetup_eq (s : State) :
    joinInSetup s = { s with
      stc := { s.stc with state := .listening, command := some (.join, .accepted), listen := listenTime s }
      lp := s.lp.withEvent (.stateChanged .listening)
      lc := { s.lc with last0 := 15, last1 := 15 }
      pt := { s.pt with peers := s.pt.peers.each (fun e => { e with nextSeq := 0 }) } } := by
  simp only [joinInSetup, enterState, postEvent_eq_withEvent]; rfl

theorem exec_join_setup (hr : s.portReady) (hs : s.stc.state = .setup) :
    exec .join s = .next (reselect ((joinInSetup s).cycleDone (.write 0x2333 2) 0)) := by
  simp only [exec_join hr, commandJoin, hs]

end

/-- Settles O18: CONFIGURE by the first test that fails, a field's or a page's, and JOIN by its effect in SETUP. -/
theorem configureAndJoin : Obligations.ConfigureAndJoin := by
  refine ⟨fun s hr hs => ?configure, fun s hr hs => ?join⟩
  case configure =>
    intro c within passes pagePasses ends
    refine ⟨fun hfields hpages => ?accepted, fun n hn hfirst => ?field, fun p hfields hp hfirst => ?page⟩
    case accepted => exact exec_configure_accepted hr hs (configFailure_of_passes hfields hpages)
    case field => exact exec_configure_refused hr hs (configFailure_of_field hn hfirst)
    case page => exact exec_configure_refused hr hs (configFailure_of_page hfields hp hfirst)
  case join =>
    refine ⟨s.pt.peers.each fun e => { e with nextSeq := 0 }, ?_, fun p => Table.at_each _ _ p⟩
    rw [exec_join_setup hr hs, joinInSetup_eq]; rfl

end Sys2Proof.Machine
end

section
/-! PROOFS. The views of the local port (O10, O11): what the half-words of the peer view show, and where the snapshot of the group view comes from in every step. -/

namespace Sys2Proof.Machine

/-! ### The peer view (R150) -/

theorem flagHalf_getLsbD (b : Bool) (i : Nat) : (flagHalf b).getLsbD i = (decide (i = 0) && b) := by
  cases b <;> simp [flagHalf]

/-- Bit 0 of the state half-word is presence and bit 1 the record's validity; the others are 0 (10.3). -/
theorem peerStateHalf_getLsbD (e : Peer) (i : Nat) :
    (peerStateHalf e).getLsbD i = (decide (i = 0 ∧ e.presence = .present) || decide (i = 1 ∧ e.record.isSome)) := by
  simp only [peerStateHalf, BitVec.getLsbD_or, BitVec.getLsbD_shiftLeft, flagHalf_getLsbD]
  match i with
  | 0 => simp
  | 1 => simp
  | i + 2 => simp

theorem peerStateHalf_of_unused {e : Peer} (hp : e.presence = .absent) (hr : e.record = none) : peerStateHalf e = 0 := by
  simp [peerStateHalf, hp, hr, flagHalf]

theorem readLocation_peerView (s : State) {k : Nat} (hk : k < 0x20) : readLocation s (0x2340 + k) = readPeer s k := by
  simp only [readLocation]
  repeat rw [if_neg (by omega)]
  rw [if_pos (by omega), Nat.add_sub_cancel_left]

section
variable {s : State} {p : Station}

theorem readPeer_state : readPeer s (2 * p.val) = peerStateHalf (s.pt.peers.at p) := by
  simp [readPeer]

theorem readPeer_seq : readPeer s (2 * p.val + 1) = ((s.pt.peers.at p).record.map fun r => r.seq.setWidth 16).getD 0 := by
  have hp : Fin.ofNat 16 ((2 * p.val + 1) / 2) = p := Fin.ext (by simp; omega)
  have hodd : (2 * p.val + 1) % 2 ≠ 0 := by omega
  simp only [readPeer, hp, if_neg hodd]
  cases (s.pt.peers.at p).record <;> rfl

/-- A read of half-word k of the peer view changes nothing. -/
theorem exec_read_peerView (hr : s.portReady) {la : BitVec 14} {k : Nat} (hk : k < 0x20) (hla : la.toNat = 0x2340 + k) :
    exec (readCommand la) s = .next (s.cycleDone (.read la) (readPeer s k)) := by
  have hevent : ¬ NoEventRead la.toNat s := fun ⟨_, _, h⟩ => by omega
  rw [read_outside_plain hr la (by omega) (by omega) hevent, hla, readLocation_peerView s hk]

end

/-- After a pin reset every peer is ABSENT without a record (R79). -/
theorem peers_of_pinReset {addr : Station} {rate : BitVec 2} {s t : State} (h : exec (.pinReset addr rate) s = .next t) (p : Station) :
    (t.pt.peers.at p).presence = .absent ∧ (t.pt.peers.at p).record = none := by
  cases h
  have hp : (setStraps addr rate (resetContents s)).pt.peers.at p = Peer.reset := by simp [resetContents, State.reset]
  rw [hp]
  exact ⟨rfl, rfl⟩

/-- Settles O10: the two half-words of a position are the two cases of `readPeer`, and the station's own entry holds nothing. -/
theorem peerViewShowsEntries : Obligations.PeerViewShowsEntries := by
  refine ⟨fun p s hr hown => ?reads, fun addr rate s t h => peers_of_pinReset h⟩
  intro e la
  have hla : la.toNat = 0x2340 + 2 * p.val := toNat_ofNat14 _ (by omega)
  have hla' : (la + 1).toNat = 0x2340 + (2 * p.val + 1) := by bv_omega
  refine ⟨_, _, exec_read_peerView hr (by omega) hla, exec_read_peerView hr (by omega) hla', ?_⟩
  simp only [readPeer_state, readPeer_seq, peerStateHalf_getLsbD]
  refine ⟨?present, ?valid, fun i hi => ?zeros, fun r h => ?record, fun h => ?noRecord, fun hp => ?own⟩
  case present => simp [e]
  case valid => simp [e]
  case zeros => simp [show i ≠ 0 by omega, show i ≠ 1 by omega]
  case record => rw [show (s.pt.peers.at p).record = some r from h]; rfl
  case noRecord => rw [show (s.pt.peers.at p).record = none from h]; rfl
  case own =>
    obtain ⟨habsent, -, -, hrecord⟩ := hown.entry
    rw [← hp] at habsent hrecord
    exact ⟨peerStateHalf_of_unused habsent hrecord, by rw [hrecord]; rfl⟩

/-! ### What the group view shows (R151) -/

theorem getElem?_filterMap_of_isSome {α β : Type} {f : α → Option β} {l : List α} (h : ∀ a ∈ l, (f a).isSome) (i : Nat) :
    (l.filterMap f)[i]? = l[i]?.bind f := by
  induction l generalizing i with
  | nil => rfl
  | cons a l ih =>
    obtain ⟨b, hb⟩ := Option.isSome_iff_exists.mp (h a List.mem_cons_self)
    rw [List.filterMap_cons_some hb]
    cases i with
    | zero => exact hb.symm
    | succ i => exact ih (fun a ha => h a (List.mem_cons_of_mem _ ha)) i

section
variable {ge : Ge}

/-- Open order names OPEN entries alone, so that none is left out of the positions (R18). -/
theorem isSome_position (h : HoldLaws ge) : ∀ g ∈ ge.order, ((ge.table.at g).map fun x => (⟨x.owner, x.tag, x.held⟩ : GroupPosition)).isSome := by
  intro g hg
  rw [Option.isSome_map]
  exact (h.order.2 g).mp hg

theorem length_groupPositions (h : HoldLaws ge) : (groupPositions ge).length = ge.order.length :=
  List.filterMap_length_eq_length.mpr (isSome_position h)

theorem length_order_le (h : HoldLaws ge) : ge.order.length ≤ 4 := by
  obtain ⟨hnodup, -⟩ := h.order
  exact hnodup.length_le_card

/-- The positions show the OPEN groups in open order. -/
theorem groupPositions_shows (h : HoldLaws ge) {i : Nat} {g : Fin 4} (hi : ge.order[i]? = some g) :
    ∃ x, ge.table.at g = some x ∧ (groupPositions ge)[i]? = some ⟨x.owner, x.tag, x.held⟩ := by
  obtain ⟨x, hx⟩ := Option.isSome_iff_exists.mp ((h.order.2 g).mp (List.mem_of_getElem? hi))
  refine ⟨x, hx, ?_⟩
  rw [groupPositions, getElem?_filterMap_of_isSome (isSome_position h), hi, Option.bind_some, hx]
  rfl

end

/-- GROUP_VIEW_SNAPSHOT is the read cycle at the first half-word of position 0. -/
theorem exec_groupViewSnapshot_eq_read (s : State) : exec .groupViewSnapshot s = exec (readCommand 0x2360) s := by
  rw [exec_readCommand]; rfl

section
variable {s : State} (hr : s.portReady)
include hr

/-- The first half-word is read from the snapshot that its read has taken. -/
theorem exec_read_groupView_first :
    exec (readCommand 0x2360) s = .next (State.cycleDone (.read 0x2360) (groupViewShows (groupPositions s.ge) 0 0) (takeSnapshot s)) := by
  have hevent : ¬ NoEventRead (0x2360 : BitVec 14).toNat (takeSnapshot s) := fun ⟨_, _, h⟩ => absurd h (by decide)
  have hsnapshot : snapshotFor 0x2360 s = takeSnapshot s := if_pos rfl
  rw [read_outside hr _ (by decide), hsnapshot, (countRead_eq _ _).2 hevent]
  exact congrArg (fun v => Host.Outcome.next (State.cycleDone (.read 0x2360) v (takeSnapshot s))) (readLocation_groupView (takeSnapshot s) 0 0)

/-- Every other half-word is read from the snapshot that stands. -/
theorem exec_read_groupView {p : Fin 4} {k : Fin 8} (h : ¬ (p = 0 ∧ k = 0)) {la : BitVec 14} (hla : la.toNat = 0x2360 + 8 * p.val + k.val) :
    exec (readCommand la) s = .next (s.cycleDone (.read la) (groupViewShows s.lp.snapshot p k)) := by
  have hevent : ¬ NoEventRead la.toNat s := fun ⟨_, _, h⟩ => by omega
  have hfirst : la.toNat ≠ 0x2360 := fun h' => h ⟨by omega, by omega⟩
  rw [read_outside_plain hr la (by omega) hfirst hevent, hla, readLocation_groupView]

end

/-! ### Where the snapshot comes from (R151) -/

/-- A step from s to t leaves the snapshot, or t stands in a read cycle of the first half-word of the group view, with the snapshot of the groups of s. -/
def SnapshotFollows (s t : State) : Prop :=
  t.lp.snapshot = s.lp.snapshot ∨ (t.lp.cycle.map (·.bus) = some (.read 0x2360) ∧ t.lp.snapshot = groupPositions s.ge)

theorem groupPositions_congr {ge ge' : Ge} (ht : ge'.table = ge.table) (ho : ge'.order = ge.order) : groupPositions ge' = groupPositions ge := by
  rw [groupPositions, ht, ho]; rfl

/-- The step may begin with work that leaves the snapshot and the groups as they are. -/
theorem SnapshotFollows.of_before {s s' t : State} (h : SnapshotFollows s' t) (hs : s'.lp.snapshot = s.lp.snapshot)
    (ht : s'.ge.table = s.ge.table) (ho : s'.ge.order = s.ge.order) : SnapshotFollows s t := by
  rwa [SnapshotFollows, hs, groupPositions_congr ht ho] at h

theorem SnapshotFollows.after_reselect {s t : State} (h : SnapshotFollows s t) : SnapshotFollows s (reselect t) := by
  simpa [SnapshotFollows] using h

theorem beginRead_snapshotFollows (la : BitVec 14) (s : State) : SnapshotFollows s (beginRead la s) := by
  unfold beginRead
  split
  case isTrue => left; (repeat' split) <;> simp [beginNoClaim, apply_ite]
  case isFalse =>
    by_cases h : la = 0x2360
    · right; subst h; simp [snapshotFor, takeSnapshot, setCycle]
    · left
      have : la.toNat ≠ 0x2360 := fun h' => h (BitVec.eq_of_toNat_eq h')
      simp [snapshotFor, this]

theorem beginCycle_snapshotFollows (b : BusCycle) (s : State) : SnapshotFollows s (beginCycle b s) := by
  cases b with
  | read la => exact beginRead_snapshotFollows la s
  | write la v => left; simp [beginCycle]

theorem presentStrobe_snapshotFollows (b : BusCycle) (s : State) : SnapshotFollows s (presentStrobe b s) := by
  unfold presentStrobe
  split
  · exact beginCycle_snapshotFollows b s
  · exact Or.inl rfl

theorem busCycle_snapshotFollows (b : BusCycle) (s : State) : SnapshotFollows s (busCycle b s) := by
  unfold busCycle
  split
  · exact Or.inl rfl
  · exact (presentStrobe_snapshotFollows b (raiseStrobe s)).of_before (by simp) (by simp) (by simp)

theorem beginWaiting_snapshotFollows (s : State) : SnapshotFollows s (beginWaiting s) := by
  unfold beginWaiting
  split
  · exact Or.inl rfl
  · exact (beginCycle_snapshotFollows _ _).of_before rfl rfl rfl

theorem workDone_snapshotFollows (c : Cycle) (result : Half) (s : State) : SnapshotFollows s (workDone c result s) := by
  unfold workDone
  split
  · exact Or.inl (by simp)
  · exact (beginWaiting_snapshotFollows _).of_before (by simp) (by simp) (by simp)

theorem localWordRead_snapshotFollows (c : Cycle) (la : BitVec 14) (s : State) : SnapshotFollows s (localWordRead c la s) := by
  unfold localWordRead
  split <;> exact (workDone_snapshotFollows _ _ _).of_before (by simp) (by simp) (by simp)

theorem localWordWrite_snapshotFollows (c : Cycle) (la : BitVec 14) (v : Half) (s : State) : SnapshotFollows s (localWordWrite c la v s) := by
  unfold localWordWrite
  refine (workDone_snapshotFollows _ _ _).of_before ?_ ?_ ?_ <;> split <;> simp

theorem resumeAfterClearing_snapshotFollows (s : State) : SnapshotFollows s (resumeAfterClearing s) := by
  unfold resumeAfterClearing
  split
  · exact (workDone_snapshotFollows _ _ _).of_before (by simp) (by simp) (by simp)
  · exact workDone_snapshotFollows _ _ _
  · exact Or.inl rfl

/-! ### Commands that leave the snapshot (R151) -/

/-- Every next state of an outcome has the snapshot of s. -/
def KeepsSnapshot (s : State) (o : Answered) : Prop := ∀ t, o = .next t → t.lp.snapshot = s.lp.snapshot

@[simp] theorem keepsSnapshot_next {s t : State} : KeepsSnapshot s (.next t) ↔ t.lp.snapshot = s.lp.snapshot := by
  simp [KeepsSnapshot]

@[simp] theorem keepsSnapshot_nextWithSelection {s t : State} : KeepsSnapshot s (nextWithSelection t) ↔ t.lp.snapshot = s.lp.snapshot := by
  simp [nextWithSelection]

/-- The commands that end the work of a cycle, or give the port its reset contents: those that can change the snapshot without beginning a cycle themselves. -/
def endsWork : Instr → Bool
  | .pinReset _ _ | .clearingDone | .localWordRead | .localWordWrite => true
  | _ => false

/-- A command that neither begins a bus cycle nor ends the work of one leaves the snapshot, block by block. -/
theorem exec_keepsSnapshot {c : Instr} (hbus : busOf c = none) (hends : endsWork c = false) (s : State) : KeepsSnapshot s (exec c s) := by
  cases c
  case resetRelease | localCycleEnd | quietTimerExpiry | listenTimerExpiry | leavingPresenceDue =>
    simp only [exec, execResetRelease, execLocalCycleEnd, execQuietTimerExpiry, execListenTimerExpiry, execLeavingPresenceDue]
    (repeat' split) <;> simp
  case startDelimiter | contentionWon | transmitSent | transmitFault | lineIdle | goodFrame | frameDiscarded | dominantBitInGap =>
    simp only [exec, execStartDelimiter, execContentionWon, execTransmitSent, execTransmitFault, execLineIdle, execGoodFrame, execFrameDiscarded, execDominantBitInGap]
    (repeat' split) <;> simp
  case frameInHand | rdRangeRead | wrApply | restartPurge | lastHeardExpiry =>
    simp only [exec, execFrameInHand, execRdRangeRead, execWrApply, execRestartPurge, execLastHeardExpiry]
    (repeat' split) <;> simp
  case rdsEvaluation | slotCapture | sruTakeAnnouncement | sruTakeStartOfLeaving | discardTimerExpiry =>
    simp only [exec, execRdsEvaluation, execSlotCapture, execSruTakeAnnouncement, execSruTakeStartOfLeaving, execDiscardTimerExpiry]
    (repeat' split) <;> simp
  case gopen | gwrite | gwriteApply | gclose | groupCommit | gabort | groupRollback | idleTimerExpiry | geTakeExpiry | geTakePeerLost | geTakePeerRestarted | geTakeRevoke | geTakeStartOfLeaving =>
    simp only [exec, execGopen, execGwrite, execGwriteApply, execGclose, execGroupCommit, execGabort,
      execGroupRollback, execIdleTimerExpiry, execGeTakeExpiry, execGeTakePeerLost, execGeTakePeerRestarted, execGeTakeRevoke, execGeTakeStartOfLeaving]
    (repeat' split) <;> simp
  case reTakeAnnouncement | reTakeStartOfLeaving | responseWindowExpiry | backoffExpiry | deferralDeadlineExpiry =>
    simp only [exec, execReTakeAnnouncement, execReTakeStartOfLeaving, execResponseWindowExpiry, execBackoffExpiry, execDeferralDeadlineExpiry]
    (repeat' split) <;> simp
  case pinReset | clearingDone | localWordRead | localWordWrite => nomatch hends
  all_goals nomatch hbus

theorem execClearingDone_snapshotFollows {s t : State} (h : execClearingDone s = .next t) : SnapshotFollows s t := by
  unfold execClearingDone at h
  split at h <;> cases h
  case isTrue => exact ((resumeAfterClearing_snapshotFollows _).of_before (by simp) (by simp) (by simp)).after_reselect
  case isFalse => exact Or.inl rfl

theorem execLocalWordRead_snapshotFollows {s t : State} (h : execLocalWordRead s = .next t) : SnapshotFollows s t := by
  unfold execLocalWordRead at h
  split at h
  case h_1 =>
    split at h <;> cases h
    case isTrue => exact (localWordRead_snapshotFollows _ _ s).after_reselect
    case isFalse => exact Or.inl rfl
  case h_2 => cases h; exact Or.inl rfl

theorem execLocalWordWrite_snapshotFollows {s t : State} (h : execLocalWordWrite s = .next t) : SnapshotFollows s t := by
  unfold execLocalWordWrite at h
  split at h
  case h_1 =>
    split at h <;> cases h
    case isTrue => exact (localWordWrite_snapshotFollows _ _ _ s).after_reselect
    case isFalse => exact Or.inl rfl
  case h_2 => cases h; exact Or.inl rfl

/-- No command but a pin reset gives the group view another snapshot than that of its first half-word's read (R151). -/
theorem exec_snapshotFollows {c : Instr} {s t : State} (h : exec c s = .next t) (hc : ∀ addr rate, c ≠ .pinReset addr rate) : SnapshotFollows s t := by
  refine exec_cases SnapshotFollows busCycle_snapshotFollows (fun _ _ => SnapshotFollows.after_reselect) h fun hbus => ?_
  cases hends : endsWork c
  case false => exact Or.inl (exec_keepsSnapshot hbus hends s t h)
  case true =>
    cases c
    case pinReset addr rate => exact absurd rfl (hc addr rate)
    case clearingDone => exact execClearingDone_snapshotFollows h
    case localWordRead => exact execLocalWordRead_snapshotFollows h
    case localWordWrite => exact execLocalWordWrite_snapshotFollows h
    all_goals nomatch hends

/-- After a pin reset the group view shows four FREE positions. -/
theorem groupView_of_pinReset {addr : Station} {rate : BitVec 2} {s t : State} (h : exec (.pinReset addr rate) s = .next t) (p : Fin 4) (k : Fin 8) :
    groupViewShows t.lp.snapshot p k = 0 := by
  cases h; rfl

/-- Settles O11: the first half-word is read from the snapshot its read has taken, the others from the one that stands, and no other step changes it but a pin reset. -/
theorem groupViewIsSnapshot : Obligations.GroupViewIsSnapshot := by
  refine ⟨fun s hr hl => ?first, fun p k s hr h => ?others, fun c s t h hc => ?changes, fun addr rate s t h => groupView_of_pinReset h⟩
  case first =>
    have hread := exec_read_groupView_first hr
    exact ⟨groupPositions s.ge, _, rfl, (exec_groupViewSnapshot_eq_read s).trans hread, (exec_groupViewSnapshot_eq_read s).symm, rfl,
      length_groupPositions hl, (length_groupPositions hl).trans_le (length_order_le hl), fun i g => groupPositions_shows hl⟩
  case others => exact exec_read_groupView hr h (toNat_ofNat14 _ (by omega))
  case changes => exact exec_snapshotFollows h hc

end Sys2Proof.Machine
end

section
/-! PROOFS. Steps, pin reset and clearing (O1, O3, O4, O52): the front of the queue, the contents of every block after PIN_RESET, the end of clearing, and the laws in the state at reset. -/

namespace Sys2Proof.Machine

/-- Settles O1, by the two cases of the queue. -/
theorem stepRunsFrontCommand : Obligations.StepRunsFrontCommand :=
  ⟨fun c rest s h => by simp only [step, h], fun s h => by simp only [step, h]⟩

/-! ### The local port after an event (R147) -/

section
variable (e : Event) (lp : Lp)

/-- An event reaches the event queue and its flag alone. -/
theorem Lp.withEvent_eq : lp.withEvent e = { lp with events := (lp.withEvent e).events, eventsLost := (lp.withEvent e).eventsLost } := by
  unfold Lp.withEvent; split <;> rfl

@[simp] theorem Lp.withEvent_cycle : (lp.withEvent e).cycle = lp.cycle := by rw [Lp.withEvent_eq]
@[simp] theorem Lp.withEvent_nextStrobe : (lp.withEvent e).nextStrobe = lp.nextStrobe := by rw [Lp.withEvent_eq]
@[simp] theorem Lp.withEvent_latch : (lp.withEvent e).latch = lp.latch := by rw [Lp.withEvent_eq]
@[simp] theorem Lp.withEvent_stagedLow : (lp.withEvent e).stagedLow = lp.stagedLow := by rw [Lp.withEvent_eq]
@[simp] theorem Lp.withEvent_buffers : (lp.withEvent e).buffers = lp.buffers := by rw [Lp.withEvent_eq]
@[simp] theorem Lp.withEvent_completions : (lp.withEvent e).completions = lp.completions := by rw [Lp.withEvent_eq]

end

/-! ### Pin reset (R13, R131) -/

/-- Settles O3, block by block: each is that of the state at reset. -/
theorem pinResetContents : Obligations.PinResetContents := by
  intro addr rate s
  refine ⟨_, rfl, ?groupEngine, ?settledReadUnit, ?targetEngine, ?peerTable, ?requesterEngine, ?linkController, ?stationControl, ?localPort,
    rfl, rfl, rfl, rfl, rfl, rfl⟩
  case groupEngine => exact ⟨fun g => Table.at_const _ g, rfl, rfl, fun a => rfl, rfl, rfl⟩
  case settledReadUnit => exact ⟨fun i => Table.at_const _ i, rfl, rfl, rfl⟩
  case targetEngine => exact ⟨rfl, rfl, rfl, rfl, rfl⟩
  case peerTable => exact fun p => Table.at_const _ p
  case requesterEngine => exact ⟨rfl, fun e => Table.at_const _ e, rfl, rfl, rfl, rfl, rfl⟩
  case linkController => exact ⟨rfl, rfl, rfl, rfl, rfl⟩
  case stationControl =>
    exact ⟨rfl, rfl, rfl, rfl, rfl, rfl, rfl, rfl, rfl, rfl, rfl, rfl, rfl, rfl, rfl, rfl, rfl, fun p => Table.at_const _ p⟩
  case localPort => exact ⟨rfl, rfl, rfl, rfl, fun k => rfl, rfl, rfl, rfl, rfl, rfl, rfl, rfl, rfl, rfl⟩

/-! ### The end of clearing (R13, R131, R14) -/

/-- The station when clearing has ended, a cycle that waited for it apart. -/
def State.cleared (s : State) : State := { s with
  sgm := { s.sgm with words := [], clearing := false }
  stc := { s.stc with state := .setup }
  lp := s.lp.withEvent (.stateChanged .setup) }

theorem enterState_eq (st : StationState) (s : State) :
    enterState st s = { s with stc := { s.stc with state := st }, lp := s.lp.withEvent (.stateChanged st) } := by
  rw [enterState, postEvent_eq_withEvent]; rfl

theorem exec_clearingDone {s : State} (h : s.sgm.clearing = true) :
    exec .clearingDone s = .next (reselect (resumeAfterClearing s.cleared)) := by
  simp only [exec, execClearingDone, if_pos h, enterState_eq]; rfl

section
variable {s : State} {la : BitVec 14} {st : Bool}

theorem resumeAfterClearing_of_none (h : s.lp.cycle.map (·.work) ≠ some .clearing) : resumeAfterClearing s = s := by
  unfold resumeAfterClearing
  split
  · next hc => exact absurd (by rw [hc]; rfl) h
  · next hc => exact absurd (by rw [hc]; rfl) h
  · rfl

theorem resumeAfterClearing_of_write {v : Half} (h : s.lp.cycle = some ⟨.write la v, st, .clearing⟩) :
    resumeAfterClearing s = workDone ⟨.write la v, st, .clearing⟩ 0 (stageLow (wordOf la) v s) := by
  simp only [resumeAfterClearing, h]

theorem resumeAfterClearing_of_read {v : Half} (h : s.lp.cycle = some ⟨.read la, st, .clearing⟩) (hl : s.lp.latch = some (wordOf la, v)) :
    resumeAfterClearing s = workDone ⟨.read la, st, .clearing⟩ v s := by
  simp only [resumeAfterClearing, h, latched, hl, if_true, Option.getD_some]

end

/-- Settles O4: RESET_RELEASE by RESET#, CLEARING_DONE by the cycle that waited for the end of clearing. -/
theorem resetReleaseAndClearing : Obligations.ResetReleaseAndClearing := by
  refine ⟨fun addr rate s => ⟨fun h => ?low, fun h => ?high⟩, fun s hc => ?_⟩
  case low => simp only [exec, execResetRelease, h, if_true]; rfl
  case high => simp [exec, execResetRelease, h]
  intro cleared
  have hcycle : s.cleared.lp.cycle = s.lp.cycle := Lp.withEvent_cycle _ _
  have hlatch : s.cleared.lp.latch = s.lp.latch := Lp.withEvent_latch _ _
  rw [exec_clearingDone hc]
  refine ⟨fun a => rfl, fun h => ?none, fun la v h => ?write, fun la v h hl => ?read, fun la v h => ?writeRaised, fun la v h hl => ?readRaised⟩
  case none => rw [resumeAfterClearing_of_none (by rwa [hcycle])]; rfl
  case write => rw [resumeAfterClearing_of_write (hcycle.trans h)]; rfl
  case read => rw [resumeAfterClearing_of_read (hcycle.trans h) (hlatch.trans hl)]; rfl
  case writeRaised => rw [resumeAfterClearing_of_write (hcycle.trans h)]; rfl
  case readRaised => rw [resumeAfterClearing_of_read (hcycle.trans h) (hlatch.trans hl)]; rfl

/-! ### The laws at reset -/

theorem clearingLaws_reset : ClearingLaws State.reset :=
  ⟨fun _ => rfl, by decide, fun _ => ⟨rfl, rfl, rfl, rfl, rfl, rfl, rfl, rfl, rfl, rfl, rfl, rfl⟩⟩

theorem reset_peer (p : Station) : State.reset.pt.peers.at p = Peer.reset := Table.at_const _ p
theorem reset_group (g : Fin 4) : State.reset.ge.table.at g = none := Table.at_const _ g
theorem reset_slot (i : Fin 4) : State.reset.sru.slots.at i = none := Table.at_const _ i
theorem reset_entry (e : Fin 8) : State.reset.re.table.at e = none := Table.at_const _ e

theorem ownEntryUnused_reset : OwnEntryUnused State.reset :=
  ⟨by rw [reset_peer]; exact ⟨rfl, rfl, rfl, rfl⟩, nofun, nofun⟩

theorem memoryCanonical_reset : MemoryCanonical State.reset :=
  ⟨⟨⟨.nil, nofun⟩, nofun⟩, ⟨⟨.nil, nofun⟩, nofun⟩, ⟨.nil, nofun⟩, nofun, nofun, nofun, nofun, fun e x h => by rw [reset_entry] at h; cases h⟩

theorem queuesBounded_reset : QueuesBounded State.reset := by
  refine ⟨?_, ?_, ?_, ?_, nofun⟩ <;> decide

theorem holdLaws_reset : HoldLaws State.reset.ge := by
  refine ⟨fun a g => ⟨nofun, fun ⟨e, he, _⟩ => nomatch he⟩, .nil, ?_, fun g _ => rfl, by decide, ⟨.nil, ?_⟩, ?_, nofun, nofun⟩
  · intro g x h; rw [reset_group] at h; cases h
  · intro g; rw [reset_group]; exact ⟨nofun, nofun⟩
  · intro g g' x x' h; rw [reset_group] at h; cases h

theorem slotLaws_reset : SlotLaws State.reset := by
  refine ⟨?_, nofun, ?_, fun _ _ => reset_slot⟩
  · intro i j x y h; rw [reset_slot] at h; cases h
  · intro i x ws h; rw [reset_slot] at h; cases h

theorem tableLaws_reset : TableLaws State.reset := by
  refine ⟨?_, ⟨.nil, ?_⟩, ⟨.nil, ?_⟩, ?_, ?_, ?_, ?_, nofun⟩
  · intro e f x y h; rw [reset_entry] at h; cases h
  · intro e; rw [reset_entry]; exact ⟨nofun, nofun⟩
  · intro e; rw [reset_entry]; exact ⟨nofun, nofun⟩
  · intro e x h; rw [reset_entry] at h; cases h
  · intro e x h; rw [reset_entry] at h; cases h
  · rintro (h | h)
    · exact absurd rfl h
    · cases h
  · intro b; simp [State.reset]

theorem linkLaws_reset : LinkLaws State.reset :=
  ⟨by decide, fun _ _ _ _ _ h => h.elim nofun nofun, nofun⟩

theorem handMatches_reset : HandMatches State.reset :=
  ⟨rfl, rfl, fun i => by rw [reset_slot]; exact ⟨nofun, nofun⟩, .nil⟩

theorem claimsMatch_reset : ClaimsMatch State.reset := ⟨rfl, rfl, by decide, by decide⟩

/-- Settles O52, law by law: nothing waits, runs, is held or is listed at reset. -/
theorem lawsHoldAtReset : Obligations.LawsHoldAtReset :=
  ⟨clearingLaws_reset, ownEntryUnused_reset, memoryCanonical_reset, queuesBounded_reset, holdLaws_reset, slotLaws_reset, tableLaws_reset,
    linkLaws_reset, handMatches_reset, claimsMatch_reset⟩

end Sys2Proof.Machine
end

section
/-! PROOFS. Bus cycles and the segment through the local port (O5, O6, O7, O8): the end of a cycle's work, strobes during a cycle, which cycles present a claim, and the two local word claims. -/

namespace Sys2Proof.Machine

/-! ### The end of a cycle's work (R141) -/

theorem workDone_of_raised (b : BusCycle) (w : CycleWork) (result : Half) (s : State) :
    workDone ⟨b, false, w⟩ result s = beginWaiting (closeCycle b s) := rfl

theorem beginWaiting_of_none {s : State} (h : s.lp.nextStrobe = none) : beginWaiting s = s := by
  simp only [beginWaiting, h]

theorem beginWaiting_of_some {s : State} {b : BusCycle} (h : s.lp.nextStrobe = some b) :
    beginWaiting s = beginCycle b { s with lp := { s.lp with nextStrobe := none } } := by
  simp only [beginWaiting, h]

/-- Settles O5, by the strobe: still low, or raised before. -/
theorem cycleWorkDone : Obligations.CycleWorkDone := by
  intro b w result s
  refine ⟨rfl, rfl, fun la h => by rw [h]; rfl, fun la v h => by rw [h]; rfl, ?_⟩
  intro ended
  exact ⟨fun h => beginWaiting_of_none (s := ended) h, fun b' h => beginWaiting_of_some (s := ended) h⟩

/-! ### Strobes while a cycle is in progress (R141) -/

section
variable {s : State} {b b' : BusCycle} {st : Bool}

theorem raiseStrobe_of_none (h : s.lp.cycle = none) : raiseStrobe s = s := by
  simp only [raiseStrobe, h]

theorem raiseStrobe_of_done {v : Half} (h : s.lp.cycle = some ⟨b, st, .done v⟩) : raiseStrobe s = closeCycle b s := by
  simp only [raiseStrobe, h]

/-- Work in progress loses its strobe. -/
theorem raiseStrobe_of_low {w : CycleWork} (h : s.lp.cycle = some ⟨b, true, w⟩) (hw : w = .claim ∨ w = .clearing) :
    raiseStrobe s = setCycle (some ⟨b, false, w⟩) s := by
  rcases hw with rfl | rfl <;> simp only [raiseStrobe, h]

/-- With the cycle's own strobe raised before, the later strobe is withdrawn. -/
theorem raiseStrobe_of_raised {w : CycleWork} (h : s.lp.cycle = some ⟨b, false, w⟩) (hw : w = .claim ∨ w = .clearing) :
    raiseStrobe s = { s with lp := { s.lp with nextStrobe := none } } := by
  rcases hw with rfl | rfl <;> simp only [raiseStrobe, h]

theorem busCycle_of_resetLow (h : s.resetLow = true) : busCycle b s = s := by
  simp only [busCycle, h, if_true]

/-- A finished cycle ends before the next strobe is presented (log 7). -/
theorem busCycle_of_done {v : Half} (hr : s.resetLow = false) (h : s.lp.cycle = some ⟨b', st, .done v⟩) :
    busCycle b s = busCycle b (closeCycle b' s) := by
  have hclosed : raiseStrobe (closeCycle b' s) = closeCycle b' s := raiseStrobe_of_none rfl
  have hlow : (closeCycle b' s).resetLow = false := hr
  simp only [busCycle, hr, hlow, hclosed, raiseStrobe_of_done h, Bool.false_eq_true, if_false]

/-- With work in progress the strobe waits, in place of one that waited (log 25). -/
theorem busCycle_of_working {w : CycleWork} (hr : s.resetLow = false) (h : s.lp.cycle = some ⟨b', st, w⟩) (hw : w = .claim ∨ w = .clearing) :
    busCycle b s = { s with lp := { s.lp with cycle := some ⟨b', false, w⟩, nextStrobe := some b } } := by
  cases st with
  | true => simp [busCycle, hr, raiseStrobe_of_low h hw, presentStrobe, setCycle]
  | false => simp [busCycle, hr, raiseStrobe_of_raised h hw, presentStrobe, h]

/-- A command of the local controller that changes the local port alone chooses nothing anew on a lawful line. -/
theorem exec_of_busOf_local {c : Instr} {lp : Lp} (h : busOf c = some b) (hl : LinkLaws s) (hb : busCycle b s = { s with lp := lp }) :
    exec c s = .next { s with lp := lp } := by
  rcases exec_of_busOf_at h s with he | he <;> rw [he, hb]
  rw [reselect_lp, reselect_of_linkLaws hl]

end

/-- Settles O6, by how far the cycle in progress has come. -/
theorem strobesDuringCycle : Obligations.StrobesDuringCycle := by
  refine ⟨fun c b s h hl => ⟨fun hr => ?reset, fun b' st v hr hc => ?done, fun b' st w hr hc hw => ?working⟩,
    fun s => ⟨fun hc => ?endNone, fun b st v hc => ?endDone, fun b w hc hw => ?endLow, fun b w hc hw => ?endRaised⟩⟩
  case reset => exact exec_of_busOf_local h hl (busCycle_of_resetLow hr)
  case done =>
    have hb : busCycle b s = busCycle b (closeCycle b' s) := busCycle_of_done hr hc
    rcases exec_of_busOf h with he | he
    · rw [he s, hb]; exact (he (closeCycle b' s)).symm
    · rw [he s, hb]; exact (he (closeCycle b' s)).symm
  case working => exact exec_of_busOf_local h hl (busCycle_of_working hr hc hw)
  case endNone => exact congrArg Host.Outcome.next (raiseStrobe_of_none hc)
  case endDone => exact ⟨closeCycle b s, congrArg Host.Outcome.next (raiseStrobe_of_done hc), rfl, rfl, rfl⟩
  case endLow => exact congrArg Host.Outcome.next (raiseStrobe_of_low hc hw)
  case endRaised => exact congrArg Host.Outcome.next (raiseStrobe_of_raised hc hw)

/-! ### Cycles of the segment (R142, R143, R14) -/

/-- The station with the claim of cycle b presented. -/
def State.cycleClaimed (b : BusCycle) (s : State) : State :=
  { s with sgm := { s.sgm with claims := s.sgm.claims ++ [.lp] }, lp := { s.lp with cycle := some ⟨b, true, .claim⟩ } }

section
variable {s : State} (a : BitVec 12)

theorem latched_of_eq {v : Half} (h : s.lp.latch = some (a, v)) : latched s a = some v := by
  simp [latched, h]

theorem latched_of_ne (h : ∀ v, s.lp.latch ≠ some (a, v)) : latched s a = none := by
  unfold latched
  split
  · next b v hl => exact if_neg fun hb => h v (by rw [hl, hb])
  · rfl

/-- A read of a low half always presents a claim. -/
theorem beginCycle_readLow : beginCycle (.read (BitVec.ofNat 14 (2 * a.toNat + 0))) s = s.cycleClaimed (.read (BitVec.ofNat 14 (2 * a.toNat + 0))) := by
  simp only [beginCycle, beginRead, inSegment_half a 0 (by decide), isHigh_half a 0 (by decide)]
  rfl

/-- A read of a high half presents a claim unless the latch holds its word. -/
theorem beginCycle_readHigh : beginCycle (.read (BitVec.ofNat 14 (2 * a.toNat + 1))) s = match latched s a with
    | some v => beginNoClaim (.read (BitVec.ofNat 14 (2 * a.toNat + 1))) v id s
    | none => s.cycleClaimed (.read (BitVec.ofNat 14 (2 * a.toNat + 1))) := by
  simp only [beginCycle, beginRead, inSegment_half a 1 (by decide), isHigh_half a 1 (by decide), wordOf_half a 1 (by decide)]
  rfl

theorem beginCycle_writeLow (v : Half) : beginCycle (.write (BitVec.ofNat 14 (2 * a.toNat + 0)) v) s =
    beginNoClaim (.write (BitVec.ofNat 14 (2 * a.toNat + 0)) v) 0 (stageLow a v) s := by
  simp only [beginCycle, beginWrite, inSegment_half a 0 (by decide), isHigh_half a 0 (by decide), wordOf_half a 0 (by decide)]
  rfl

theorem beginCycle_writeHigh (v : Half) : beginCycle (.write (BitVec.ofNat 14 (2 * a.toNat + 1)) v) s =
    s.cycleClaimed (.write (BitVec.ofNat 14 (2 * a.toNat + 1)) v) := by
  simp only [beginCycle, beginWrite, inSegment_half a 1 (by decide), isHigh_half a 1 (by decide)]
  rfl

theorem beginNoClaim_of_clearing {b : BusCycle} {v : Half} {work : State → State} (h : s.stc.state = .clearing) :
    beginNoClaim b v work s = { s with lp := { s.lp with cycle := some ⟨b, true, .clearing⟩ } } := by
  simp only [beginNoClaim, h, if_true]; rfl

theorem beginNoClaim_of_running {b : BusCycle} {v : Half} {work : State → State} (h : s.stc.state ≠ .clearing) :
    beginNoClaim b v work s = State.cycleDone b v (work s) := by
  simp only [beginNoClaim, if_neg h]; rfl

/-- The four commands of segment word a begin the cycles of its halves. -/
theorem exec_segment (v : Half) (hr : s.portReady) :
    exec (.localReadLowHalf (a.setWidth 13)) s = .next (beginCycle (.read (BitVec.ofNat 14 (2 * a.toNat + 0))) s) ∧
    exec (.localReadHighHalf (a.setWidth 13)) s = .next (beginCycle (.read (BitVec.ofNat 14 (2 * a.toNat + 1))) s) ∧
    exec (.localWriteLowHalf a v) s = .next (beginCycle (.write (BitVec.ofNat 14 (2 * a.toNat + 0)) v) s) ∧
    exec (.localWriteHighHalf a v) s = .next (beginCycle (.write (BitVec.ofNat 14 (2 * a.toNat + 1)) v) s) := by
  have ha : (a.setWidth 13).toNat = a.toNat := by simp; omega
  simp only [← busCycle_of_portReady hr]
  refine ⟨?_, ?_, rfl, rfl⟩ <;> rw [← ha] <;> rfl

end

/-- Settles O7, by the half and the direction; without a claim the station state decides. -/
theorem segmentCyclesBegin : Obligations.SegmentCyclesBegin := by
  intro a v s hr low high claim
  obtain ⟨hreadLow, hreadHigh, hwriteLow, hwriteHigh⟩ := exec_segment a v hr
  rw [beginCycle_readLow] at hreadLow
  rw [beginCycle_readHigh] at hreadHigh
  rw [beginCycle_writeLow] at hwriteLow
  rw [beginCycle_writeHigh] at hwriteHigh
  refine ⟨hreadLow, fun h => ?claimed, fun h hl hs => ?latched, fun h hl hs => ?latchedClearing, fun hs => ?staged, fun hs => ?stagedClearing, hwriteHigh⟩
  case claimed => rw [hreadHigh, latched_of_ne a h]; rfl
  case latched => rw [hreadHigh, latched_of_eq a hl]; exact congrArg _ (beginNoClaim_of_running hs)
  case latchedClearing => rw [hreadHigh, latched_of_eq a hl]; exact congrArg _ (beginNoClaim_of_clearing hs)
  case staged => rw [hwriteLow, beginNoClaim_of_running hs]; rfl
  case stagedClearing => rw [hwriteLow, beginNoClaim_of_clearing hs]; rfl

/-! ### The local word claims (R142, R143) -/

section
variable {s : State} {la : BitVec 14} {st : Bool}

theorem exec_localWordRead (h : s.lp.cycle = some ⟨.read la, st, .claim⟩) (hg : Granted .lp s) :
    exec .localWordRead s = .next (reselect (localWordRead ⟨.read la, st, .claim⟩ la s)) := by
  simp only [exec, execLocalWordRead, claimingCycle, h, (granted_iff _ _).mpr hg, if_true, nextWithSelection]

theorem exec_localWordWrite {v : Half} (h : s.lp.cycle = some ⟨.write la v, st, .claim⟩) (hg : Granted .lp s) :
    exec .localWordWrite s = .next (reselect (localWordWrite ⟨.write la v, st, .claim⟩ la v s)) := by
  simp only [exec, execLocalWordWrite, claimingCycle, h, (granted_iff _ _).mpr hg, if_true, nextWithSelection]

/-- A low-half read loads the word latch, a high-half read leaves it (R142). -/
theorem localWordRead_eq (c : Cycle) : localWordRead c la s =
    workDone c (if isHigh la then highHalf (committed s (wordOf la).toNat) else lowHalf (committed s (wordOf la).toNat)) { s with
      sgm := { s.sgm with claims := s.sgm.claims.erase .lp }
      lp := { s.lp with latch := if isHigh la then s.lp.latch else some (wordOf la, highHalf (committed s (wordOf la).toNat)) } } := by
  unfold localWordRead
  cases isHigh la <;> rfl

theorem localWordWrite_of_held {c : Cycle} {v : Half} {g : Fin 4} (h : heldBy s (wordOf la).toNat = some g) :
    localWordWrite c la v s = workDone c 0 { s with
      sgm := { s.sgm with claims := s.sgm.claims.erase .lp }
      lp := { s.lp.withEvent (.localWriteRefused (wordOf la).toNat) with stagedLow := none } } := by
  simp only [localWordWrite, h, Option.isSome_some, if_true, postEvent_eq_withEvent]; rfl

/-- The station when word a of the local port has been stored and reported, before the end of the cycle's work. -/
def State.wordStored (a : BitVec 12) (w : Word) (s : State) : State :=
  dropStaged (reportStores [a.toNat] (storeWords a.toNat [w] (takeClaim .lp s)))

theorem localWordWrite_of_free {c : Cycle} {v : Half} (h : heldBy s (wordOf la).toNat = none) :
    localWordWrite c la v s = workDone c 0 (s.wordStored (wordOf la) (v ++ lowForWrite s (wordOf la))) := by
  simp only [localWordWrite, h, Option.isSome_none, Bool.false_eq_true, if_false]; rfl

theorem wordStored_words (a : BitVec 12) (w : Word) (b : Nat) :
    (s.wordStored a w).sgm.words.read b = if b = a.toNat then w else s.sgm.words.read b :=
  Mem.read_write s.sgm.words a.toNat b w

theorem wordStored_reportTaken (a : BitVec 12) (w : Word) : ReportTaken [a.toNat] s (s.wordStored a w) :=
  reportStores_taken [a.toNat] (storeWords a.toNat [w] (takeClaim .lp s))

end

/-- Settles O8: the read by its half, the write by whether the word is held. -/
theorem localWordClaims : Obligations.LocalWordClaims := by
  refine ⟨fun la st s hc hg => ?read, fun la v st s hc hg => ?write⟩
  case read =>
    intro w read half
    rw [exec_localWordRead hc hg, localWordRead_eq]; rfl
  case write =>
    intro a low
    rw [exec_localWordWrite hc hg]
    refine ⟨fun g hg => ?held, fun hf => ?free⟩
    case held => rw [localWordWrite_of_held hg]
    case free =>
      have hlow : lowForWrite s a = low := by simp only [lowForWrite, low]; rfl
      rw [localWordWrite_of_free hf, hlow]
      exact ⟨s.wordStored a (v ++ low), rfl, wordStored_words a _, rfl, rfl, wordStored_reportTaken a _, rfl⟩

end Sys2Proof.Machine
end

section
/-! PROOFS. The local address map (O9, O12, O13): what a read of each area shows, and what a write to a transfer buffer, the submission window and the configuration area changes. -/

namespace Sys2Proof.Machine

/-! ### Reads (R144 to R149) -/

section
variable (s : State)

theorem readLocation_buffer (b j : Fin 16) (k : Nat) (hk : k < 2) :
    readLocation s (0x2000 + 32 * b.val + 2 * j.val + k) = halfOf (decide (k = 1)) (s.lp.buffers.read (16 * b.val + j.val)) := by
  have hword : (0x2000 + 32 * b.val + 2 * j.val + k - 0x2000) / 2 = 16 * b.val + j.val := by omega
  have hhalf : (0x2000 + 32 * b.val + 2 * j.val + k) % 2 = k := by omega
  rw [readLocation, if_pos (by omega), readBuffer, hword, hhalf]

theorem readLocation_configField (k : Nat) (hk : k < 0x80) : readLocation s (0x2200 + k) = configField s.stc.staged k := by
  rw [readLocation, if_neg (by omega), if_pos (by omega), readConfig, if_pos (by omega), Nat.add_sub_cancel_left]

theorem configField_eq_getD (c : ConfigRecord) : ∀ k, configField c k = c.fields.getD k 0
  | 0 | 1 | 2 | 3 | 4 | 5 | 6 | 7 => rfl
  | _ + 8 => rfl

theorem pageAt_eq (p : Fin 64) (k : Nat) (hk : k < 2) : pageAt (0x2280 + 2 * p.val + k) = p := by
  apply Fin.ext
  simp only [pageAt, Fin.val_ofNat]
  omega

theorem readLocation_page (p : Fin 64) (k : Nat) (hk : k < 2) : readLocation s (0x2280 + 2 * p.val + k) =
    if k = 0 then (s.stc.staged.pages.at p).readOpen else (s.stc.staged.pages.at p).writeSet := by
  have hparity : (0x2280 + 2 * p.val + k) % 2 = k := by omega
  rw [readLocation, if_neg (by omega), if_pos (by omega), readConfig, if_neg (by omega), pageAt_eq p k hk, hparity]

theorem readLocation_beyond (n : Nat) (h : 0x2380 ≤ n) : readLocation s n = 0 := by
  simp only [readLocation]
  repeat rw [if_neg (by omega)]

end

/-- Settles O9, area by area; only a field of the head of an empty event queue uses a free value up. -/
theorem localAreaReads : Obligations.LocalAreaReads := by
  intro la s hr hl hview
  have hsnapshot : snapshotFor la s = s := if_neg (by omega)
  have hread := read_outside hr la hl
  rw [hsnapshot] at hread
  obtain ⟨hcounted, hplain⟩ := countRead_eq la s
  refine ⟨_, _, hread, hplain, hcounted, fun b j h => ?low, fun b j h => ?high, fun k h => ?field, fun h => ?noField, fun p h => ?readOpen,
    fun p h => ?writeSet, fun h hne => readLocation_window s _ h.1 h.2 hne, readLocation_beyond s _⟩
  case low => rw [h]; exact readLocation_buffer s b j 0 (by decide)
  case high => rw [h]; exact readLocation_buffer s b j 1 (by decide)
  case field => rw [h, readLocation_configField s _ (by omega), configField_eq_getD]
  case noField =>
    obtain ⟨k, hk⟩ : ∃ k, la.toNat = 0x2200 + k := ⟨la.toNat - 0x2200, by omega⟩
    have hlen : s.stc.staged.fields.length ≤ k := by
      show 8 ≤ k
      omega
    rw [hk, readLocation_configField s _ (by omega), configField_eq_getD, List.getD_eq_default _ _ hlen]
  case readOpen => rw [h]; exact readLocation_page s p 0 (by decide)
  case writeSet => rw [show la.toNat = 0x2280 + 2 * p.val + 1 by omega]; exact readLocation_page s p 1 (by decide)

/-! ### Writes to the transfer buffers (R144) -/

section
variable {s : State} {b : Fin 16}

theorem writeBufferHalf_of_lent (h : Lent s b) (j : Fin 16) (high : Bool) (v : Half) : writeBufferHalf b j high v s = s := by
  simp only [writeBufferHalf, (lent_eq_true s b).mpr h, if_true]

theorem writeBufferHalf_of_free (h : ¬ Lent s b) (j : Fin 16) (high : Bool) (v : Half) : writeBufferHalf b j high v s =
    { s with lp := { s.lp with buffers := s.lp.buffers.write (16 * b.val + j.val) (setHalf high v (s.lp.buffers.read (16 * b.val + j.val))) } } := by
  simp only [writeBufferHalf, mt (lent_eq_true s b).mp h, Bool.false_eq_true, if_false]; rfl

/-- The half-words of the transfer buffers, in the order of Table 10-4. -/
theorem writeLocation_buffer (j : Fin 16) (high : Bool) (v : Half) :
    writeLocation (0x2000 + 32 * b.val + 2 * j.val + high.toNat) v s = writeBufferHalf b j high v s := by
  have hbuffer : Fin.ofNat 16 ((0x2000 + 32 * b.val + 2 * j.val + high.toNat - 0x2000) / 32) = b := by
    apply Fin.ext; simp only [Fin.val_ofNat]; have := high.toNat_le; omega
  have hword : Fin.ofNat 16 ((0x2000 + 32 * b.val + 2 * j.val + high.toNat) / 2) = j := by
    apply Fin.ext; simp only [Fin.val_ofNat]; have := high.toNat_le; omega
  have hhalf : decide ((0x2000 + 32 * b.val + 2 * j.val + high.toNat) % 2 = 1) = high := by
    cases high <;> simp <;> omega
  rw [writeLocation, if_pos (by have := high.toNat_le; omega), hbuffer, hword, hhalf]

end

/-- Settles O12, by whether the buffer is lent. -/
theorem transferBufferWritten : Obligations.TransferBufferWritten := by
  intro b j high v s hr bus old
  have hla : (bufferAddress b j high).toNat = 0x2000 + 32 * b.val + 2 * j.val + high.toNat :=
    toNat_ofNat14 _ (by have := high.toNat_le; omega)
  have hexec : exec (.transferBufferWrite b j high v) s = .next ((writeBufferHalf b j high v s).cycleDone bus 0) := by
    show Host.Outcome.next (busCycle (.write (bufferAddress b j high) v) s) = _
    rw [write_outside hr _ v (by omega), hla, writeLocation_buffer]; rfl
  refine ⟨fun h => by rw [hexec, writeBufferHalf_of_lent h], fun h => ⟨_, by rw [hexec, writeBufferHalf_of_free h], fun k => ?_⟩⟩
  rw [Mem.read_write]
  cases high <;> rfl

/-! ### Writes to the submission window and the configuration area (R145, R133) -/

theorem setDescriptorField_fields (d : Descriptor) (k : Fin 7) (v : Half) : (setDescriptorField d k.val v).fields = d.fields.set k.val v := by
  fin_cases k <;> rfl

theorem setConfigField_fields (c : ConfigRecord) (k : Fin 8) (v : Half) :
    (setConfigField c k.val v).fields = c.fields.set k.val v ∧ (setConfigField c k.val v).pages = c.pages := by
  fin_cases k <;> exact ⟨rfl, rfl⟩

theorem setConfigField_beyond (c : ConfigRecord) {k : Nat} (hk : 8 ≤ k) (v : Half) : setConfigField c k v = c := by
  unfold setConfigField
  split <;> first | omega | rfl

/-- A write to the configuration area changes the staged record alone. -/
theorem writeLocation_config (s : State) (k : Nat) (hk : k < 0x100) (v : Half) : writeLocation (0x2200 + k) v s =
    { s with stc := { s.stc with staged := if k < 0x80 then setConfigField s.stc.staged k v else setPageField s.stc.staged (0x2200 + k) v } } := by
  have harea : 0x2200 + k < 0x2280 ↔ k < 0x80 := by omega
  rw [writeLocation, if_neg (by omega), if_pos (by omega), writeConfig, updateStc, Nat.add_sub_cancel_left]
  simp only [harea]

theorem setPageField_fields (c : ConfigRecord) (la : Nat) (v : Half) : (setPageField c la v).fields = c.fields := rfl

theorem setPageField_pages (c : ConfigRecord) (p q : Fin 64) (odd : Bool) (v : Half) :
    (setPageField c (0x2280 + 2 * p.val + odd.toNat) v).pages.at q = if q ≠ p then c.pages.at q
      else if odd then ⟨(c.pages.at p).readOpen, v⟩ else ⟨v, (c.pages.at p).writeSet⟩ := by
  have hpage := pageAt_eq p odd.toNat (by cases odd <;> decide)
  have hparity : (0x2280 + 2 * p.val + odd.toNat) % 2 = 0 ↔ odd = false := by cases odd <;> simp; omega
  simp only [setPageField, hpage, Table.at_put, hparity]
  by_cases hq : q = p <;> cases odd <;> simp [hq]

theorem writeWindow_of_ignored (s : State) {k : Nat} (h7 : 7 < k) (hcc : k ≠ 0x1A) (hec : k ≠ 0x2A) {v : Half}
    (hcmd : k = 0x33 → Command.ofCode v = none) : writeWindow k v s = s := by
  simp only [writeWindow, if_neg (show ¬ k < 7 by omega), if_neg (show k ≠ 0x07 by omega), if_neg hcc, if_neg hec]
  split
  · next h => simp only [writeCommand, hcmd h]
  · rfl

/-- Settles O13, by the location: a field of the window, a field or a page of the staged record, or a location that ignores writes. -/
theorem registerWritten : Obligations.RegisterWritten := by
  intro la v s hr hwf ends
  obtain ⟨hl, hpost, hcc, hec, hcmd⟩ := plainLocation_bounds hwf
  have hexec : exec (.localRegisterWrite la v) s = ends (writeLocation la.toNat v s) := by
    show nextWithSelection (busCycle (.write la v) s) = _
    rw [write_outside hr _ v (by omega)]; rfl
  refine ⟨fun k h => ?window, fun k h => ?field, fun p odd h => ?page, fun h => ?ignored⟩
  case window =>
    refine ⟨_, ?_, setDescriptorField_fields s.lp.window k v⟩
    rw [hexec, h, writeLocation_window, writeWindow, if_pos k.isLt]
  case field =>
    refine ⟨_, ?_, setConfigField_fields s.stc.staged k v⟩
    rw [hexec, h, writeLocation_config s _ (by omega), if_pos (by omega)]
  case page =>
    have hodd := odd.toNat_le
    have hla : la.toNat = 0x2200 + (0x80 + 2 * p.val + odd.toNat) := by omega
    refine ⟨setPageField s.stc.staged (0x2280 + 2 * p.val + odd.toNat) v, ?_, rfl, fun q => setPageField_pages s.stc.staged p q odd v⟩
    rw [hexec, hla, writeLocation_config s _ (by omega), if_neg (by omega), show 0x2200 + (0x80 + 2 * p.val + odd.toNat) = 0x2280 + 2 * p.val + odd.toNat by omega]
  case ignored =>
    rcases h with ⟨h1, h2⟩ | h
    · rw [hexec, show la.toNat = 0x2200 + (la.toNat - 0x2200) by omega, writeLocation_config s _ (by omega), if_pos (by omega),
        setConfigField_beyond _ (by omega)]
    · rw [hexec, show la.toNat = 0x2300 + (la.toNat - 0x2300) by omega, writeLocation_window,
        writeWindow_of_ignored s (by omega) (by omega) (by omega) (fun hk => hcmd (by omega))]

end Sys2Proof.Machine
end

section
/-! PROOFS. The link (O20, O21, O23, O27, O28): transmit selection, the key and its rank, contention, the idle line, and the end of a frame. -/

namespace Sys2Proof.Machine

/-! ### Transmit selection (R121) -/

section
variable {s : State}

theorem selectOffer_of_offLink (h : s.stc.state = .clearing ∨ s.stc.state = .setup) : selectOffer s = none := by
  rcases h with h | h <;> simp only [selectOffer, h]

theorem selectOffer_of_listening (h : s.stc.state = .listening) :
    selectOffer s = if s.stc.due = some .fresh then some (.presence .fresh) else none := by
  simp only [selectOffer, h]

/-- In JOINED and LEAVING a response goes first, then a PRESENCE, then a request that is not on the line. -/
theorem selectOffer_of_onLink (h : s.stc.state = .joined ∨ s.stc.state = .leaving) :
    selectOffer s = if s.te.queue ≠ [] then some .response else match s.stc.due with
      | some m => some (.presence m)
      | none => (s.re.ready.find? (fun e => onLineOffer s ≠ some (.request e))).map .request := by
  rcases h with h | h <;> simp only [selectOffer, h] <;> rfl

theorem selectOffer_of_queue (h : s.stc.state = .joined ∨ s.stc.state = .leaving) (hq : s.te.queue ≠ []) : selectOffer s = some .response := by
  rw [selectOffer_of_onLink h, if_pos hq]

theorem selectOffer_of_due (h : s.stc.state = .joined ∨ s.stc.state = .leaving) (hq : s.te.queue = []) {m : Mark} (hd : s.stc.due = some m) :
    selectOffer s = some (.presence m) := by
  simp [selectOffer_of_onLink h, hq, hd]

theorem selectOffer_of_requests (h : s.stc.state = .joined ∨ s.stc.state = .leaving) (hq : s.te.queue = []) (hd : s.stc.due = none) :
    selectOffer s = (s.re.ready.find? (fun e => onLineOffer s ≠ some (.request e))).map .request := by
  simp [selectOffer_of_onLink h, hq, hd]

/-! ### START_DELIMITER (R115, R117, R118) -/

theorem exec_startDelimiter (hv : s.lc.view = .idle) (r : KeyRead) : exec (.startDelimiter r) s =
    .next { s with lc := { s.lc with view := .frame, receive := some r.bits, slot := slotAfterKey s r } } := by
  simp only [exec, execStartDelimiter, hv, if_true]; rfl

theorem exec_startDelimiter_of_busy (hv : s.lc.view ≠ .idle) (r : KeyRead) : exec (.startDelimiter r) s = .next s := by
  simp only [exec, execStartDelimiter, hv, if_false]

theorem slotAfterKey_of_none (h : selectOffer s = none) (r : KeyRead) : slotAfterKey s r = .empty := by
  simp only [slotAfterKey, h]

theorem slotAfterKey_of_readBack {o : Offer} (h : selectOffer s = some o) {r : KeyRead} (hr : KeyReadBack (keyFor s o) r) :
    slotAfterKey s r = .contending o (keyFor s o) := by
  simp only [slotAfterKey, h, (keyReadAsSent_iff _ _).mpr hr, if_true]

theorem slotAfterKey_of_misread {o : Offer} (h : selectOffer s = some o) {r : KeyRead} (hr : ¬ KeyReadBack (keyFor s o) r) :
    slotAfterKey s r = .chosen o := by
  simp only [slotAfterKey, h, mt (keyReadAsSent_iff _ _).mp hr, Bool.false_eq_true, if_false]

end

/-- Settles O20: selection by station state, START_DELIMITER by the line view, the offer and what is read back of its key. -/
theorem selectionAndStartDelimiter : Obligations.SelectionAndStartDelimiter := by
  refine ⟨fun s => ⟨selectOffer_of_offLink, selectOffer_of_listening, fun h => ⟨selectOffer_of_queue h, fun hq m => selectOffer_of_due h hq,
    fun hq hd => ⟨fun l e r hready he hl => ?first, fun hall => ?noRequest⟩⟩⟩, fun r s => ⟨fun hv ho => ?nothing, fun o hv ho => ⟨fun hr => ?contends,
    fun hr => ?withdraws⟩, fun hv => exec_startDelimiter_of_busy hv r⟩⟩
  case first =>
    rw [selectOffer_of_requests h hq hd, hready, find_append_cons (fun e' he' => by simpa using hl e' he') (by simpa using he)]
    rfl
  case noRequest =>
    rw [selectOffer_of_requests h hq hd, List.find?_eq_none.mpr fun e he => by simpa using hall e he]
    rfl
  case nothing => rw [exec_startDelimiter hv, slotAfterKey_of_none ho]
  case contends => rw [exec_startDelimiter hv, slotAfterKey_of_readBack ho hr, hr.1]
  case withdraws => rw [exec_startDelimiter hv, slotAfterKey_of_misread ho hr]

/-! ### The key and its rank (R119) -/

/-- The stations rank in their order after the last winner. -/
theorem rankOf_after (w : Station) (k : Nat) (hk : k < 16) : (rankOf (w + 1 + Fin.ofNat 16 k) w).toNat = k := by
  have hw := w.isLt
  rw [rankOf_toNat]
  simp only [Fin.val_add, Fin.val_one, Fin.val_ofNat]
  omega

theorem eq_after_rankOf (i w : Station) : i = w + 1 + Fin.ofNat 16 (rankOf i w).toNat := by
  have hw := w.isLt
  have hi := i.isLt
  apply Fin.ext
  rw [rankOf_toNat]
  simp only [Fin.val_add, Fin.val_one, Fin.val_ofNat]
  omega

theorem rankOf_bijective (w : Station) : Function.Bijective (fun i => rankOf i w) := by
  refine ⟨fun i j h => ?_, fun r => ⟨w + 1 + Fin.ofNat 16 r.toNat, BitVec.eq_of_toNat_eq (rankOf_after w _ r.isLt)⟩⟩
  rw [eq_after_rankOf i w, eq_after_rankOf j w]
  exact congrArg (fun r : BitVec 4 => w + 1 + Fin.ofNat 16 r.toNat) h

theorem rankOf_lt_iff (i j w : Station) : (rankOf j w).toNat < (rankOf i w).toNat ↔
    j ≠ i ∧ ∃ k l : Nat, k < l ∧ l < 16 ∧ j = w + 1 + Fin.ofNat 16 k ∧ i = w + 1 + Fin.ofNat 16 l := by
  constructor
  · intro h
    exact ⟨fun he => by rw [he] at h; omega, _, _, h, (rankOf i w).isLt, eq_after_rankOf j w, eq_after_rankOf i w⟩
  · rintro ⟨-, k, l, hkl, hl, rfl, rfl⟩
    rwa [rankOf_after w k (by omega), rankOf_after w l hl]

theorem rankOf_passedOver {i j w : Station} (h : (rankOf j w).toNat < (rankOf i w).toNat) : (rankOf i j).toNat < (rankOf i w).toNat := by
  have := i.isLt
  have := j.isLt
  have := w.isLt
  simp only [rankOf_toNat] at h ⊢
  omega

/-- The key of an offer as a number (R116, R119). -/
theorem keyFor_toNat (s : State) (o : Offer) : (keyFor s o).toNat =
    256 * (match o with | .response => 0 | _ => 1) +
      16 * ((s.stc.address.val + 16 - (match o with | .response => s.lc.last0 | _ => s.lc.last1).val - 1) % 16) + s.stc.address.val := by
  rw [keyFor, keyOf_toNat, rankFor, rankOf_toNat]
  cases o <;> rfl

/-- Settles O21: the key from its three fields, and the rank as the distance after the last winner. -/
theorem rankRotates : Obligations.RankRotates := by
  refine ⟨fun s o r hv ho => ⟨keyFor s o, keyFor_toNat s o, fun hr => ?contends, fun hr => ?withdraws⟩, rankOf_toNat,
    fun w => ⟨rankOf_bijective w, ?last, ?next⟩, rankOf_lt_iff, fun i j w => rankOf_passedOver⟩
  case contends => exact ⟨_, exec_startDelimiter hv r, slotAfterKey_of_readBack ho hr⟩
  case withdraws => exact ⟨_, exec_startDelimiter hv r, slotAfterKey_of_misread ho hr⟩
  case last => revert w; decide
  case next => revert w; decide

/-! ### CONTENTION_WON (R118, R122) -/

section
variable {s : State} {o : Offer} {k : BitVec 9}

theorem exec_contentionWon {f : Frame} (h : s.lc.slot = .contending o k) (hf : offerFrame s o (keyRank k) = some f) :
    exec .contentionWon s = .next { s with lc := { s.lc with slot := .onLine o f (frameBits f) false } } := by
  simp only [exec, execContentionWon, h, hf]; rfl

theorem exec_contentionWon_of_none (h : ∀ o k, s.lc.slot ≠ .contending o k) : exec .contentionWon s = .next s := by
  simp only [exec, execContentionWon]

/-- The frame of a queued response, as its bytes are sent (Table 10-3). -/
theorem responseFrame_eq_sentAs (own : Station) (rank : BitVec 4) (r : Response) : responseFrame own rank r =
    ⟨.response, rank, own, r.reply.sentAs.1, BitVec.ofNat 8 (r.requester.val + 1) :: r.seq :: r.reply.sentAs.2⟩ := by
  unfold responseFrame Reply.sentAs
  cases r.reply with
  | data ws => simp only [bytesOfWords_eq_flatMap]; rfl
  | _ => rfl

/-- The frame of a copy of an entry (R100). -/
theorem offerFrame_request {e : Fin 8} {x : Entry} (h : s.re.table.at e = some x) (h1 : 1 ≤ x.desc.kind.toNat) (h7 : x.desc.kind.toNat ≤ 7)
    (rank : BitVec 4) : offerFrame s (.request e) rank = some ⟨.request, rank, s.stc.address, x.desc.kind.extractLsb' 0 4,
      [x.desc.target.extractLsb' 0 8, x.seq, if x.attempts = 0 then 0 else 1] ++
        x.desc.sentAs (if carriesData x.desc then bufferData s x.desc else [])⟩ := by
  have hflags : (if decide (x.attempts ≠ 0) then (1 : Byte) else 0) = if x.attempts = 0 then 0 else 1 := by
    by_cases h0 : x.attempts = 0 <;> simp [h0]
  rw [offerFrame, h, Option.map_some, requestFrame_eq_sentAs _ _ _ _ _ _ h1 h7, hflags]

theorem carriesData_iff (d : Descriptor) : carriesData d = true ↔ d.kind = 3 ∨ d.kind = 5 := by
  simp [carriesData]

theorem bufferData_of_references {d : Descriptor} {b : Fin 16} (h : d.references b) : bufferData s d = bufferWords s b d.count.toNat := by
  simp only [bufferData, (bufferOf_eq_some d b).mpr h]; rfl

end

/-- Settles O23, by the offer that has won; a request carries the words of its buffer when its kind has data. -/
theorem contentionWonSendsFrame : Obligations.ContentionWonSendsFrame := by
  intro s k sends rank
  refine ⟨fun r rs h hq => ?response, fun m h => exec_contentionWon h rfl, fun e x h hx h1 h7 => ?request, exec_contentionWon_of_none⟩
  case response =>
    have hf : offerFrame s .response (keyRank k) = some (responseFrame s.stc.address rank r) := by
      rw [offerFrame, hq]; rfl
    have := exec_contentionWon h hf
    rwa [responseFrame_eq_sentAs] at this
  case request =>
    intro head
    have hf := offerFrame_request (s := s) hx h1 h7 (keyRank k)
    refine ⟨fun h3 h5 => ?plain, fun b hk hb => ?data⟩
    case plain =>
      have hc : ¬ carriesData x.desc = true := mt (carriesData_iff _).mp (not_or.mpr ⟨h3, h5⟩)
      simp only [hc] at hf
      exact exec_contentionWon h hf
    case data =>
      simp only [(carriesData_iff _).mpr hk, if_true, bufferData_of_references hb] at hf
      exact exec_contentionWon h hf

/-! ### The idle line (R115, R121) -/

section
variable {s : State}

theorem exec_lineIdle_of_gap {n : Nat} (hr : s.resetLow = false) (hv : s.lc.view = .gap n) :
    exec .lineIdle s = .next (reselect (lineBecomesIdle s)) := by
  simp only [exec, execLineIdle, hr, hv, Bool.false_eq_true, if_false]; rfl

theorem exec_lineIdle_of_frame (hr : s.resetLow = false) (hv : s.lc.view = .frame) (hs : s.lc.slot.sending = false) :
    exec .lineIdle s = .next (reselect (lineBecomesIdle { s with lc := s.lc.ended })) := by
  simp only [exec, execLineIdle, hr, hv, hs, Bool.false_eq_true, if_false, endReception_eq]; rfl

theorem exec_lineIdle_of_none (h : s.resetLow = true ∨ s.lc.view = .idle ∨ (s.lc.view = .frame ∧ s.lc.slot.sending = true)) :
    exec .lineIdle s = .next s := by
  rcases h with h | h | ⟨h, h'⟩
  · simp only [exec, execLineIdle, h, if_true]
  · simp only [exec, execLineIdle, h, ite_self]
  · simp only [exec, execLineIdle, h, h', if_true, ite_self]

/-- On an IDLE line the LC chooses, by what does not depend on the view. -/
theorem reselect_lineBecomesIdle (s : State) :
    reselect (lineBecomesIdle s) = { s with lc := { s.lc with view := .idle, slot := TxSlot.ofOffer (selectOffer s) } } := by
  simp only [reselect, lineBecomesIdle, updateLc, if_true]; rfl

theorem exec_dominantBitInGap {n : Nat} (hv : s.lc.view = .gap n) :
    exec .dominantBitInGap s = .next { s with lc := { s.lc with view := .gap 0 } } := by
  simp only [exec, execDominantBitInGap, hv]; rfl

theorem exec_dominantBitInGap_of_none (hv : ∀ n, s.lc.view ≠ .gap n) : exec .dominantBitInGap s = .next s := by
  simp only [exec, execDominantBitInGap]

end

/-- Settles O27, by the line view. -/
theorem lineBecomesIdle_chooses : Obligations.LineBecomesIdle := by
  intro s chosen
  refine ⟨fun n hr hv => ?gap, fun hr hv hs => ?frame, exec_lineIdle_of_none, fun n => exec_dominantBitInGap, exec_dominantBitInGap_of_none⟩
  case gap => exact ⟨_, by rw [exec_lineIdle_of_gap hr hv, reselect_lineBecomesIdle], rfl⟩
  case frame => rw [exec_lineIdle_of_frame hr hv hs, reselect_lineBecomesIdle]; rfl

/-! ### The end of a frame (R125 to R127) -/

section
variable {s : State} {f : Frame}

theorem takeGoodFrame_of_request (h : f.cls = .request) :
    takeGoodFrame f s = passToTarget f (hear f { s with lc := Lc.won f.cls f.sender s.lc.ended }) := by
  simp only [takeGoodFrame, h, endReception_eq]; rfl

theorem takeGoodFrame_of_ownResponse (h : f.cls = .response) (ho : f.sender = s.stc.address) :
    takeGoodFrame f s = hear f { s with lc := Lc.won f.cls f.sender s.lc.ended } := by
  simp only [takeGoodFrame, h, ho, endReception_eq, if_true]; rfl

/-- A response of another station is taken by the PT and the RE in either order (log 9). -/
theorem takeGoodFrame_of_response (h : f.cls = .response) (ho : f.sender ≠ s.stc.address) :
    let v : State := { s with lc := Lc.won f.cls f.sender s.lc.ended, freeCount := s.freeCount + 1 }
    takeGoodFrame f s = hear f (passToRequester f v) ∨ takeGoodFrame f s = passToRequester f (hear f v) := by
  intro v
  have htake : takeGoodFrame f s = takeResponseFrame f { s with lc := Lc.won f.cls f.sender s.lc.ended } := by
    simp only [takeGoodFrame, h, ho, endReception_eq, if_false]; rfl
  rw [htake, takeResponseFrame]
  dsimp only
  split
  · exact Or.inl rfl
  · exact Or.inr rfl

end

/-- Settles O28: a good frame by its class and sender, a discarded frame by where its bits end. -/
theorem frameEnds : Obligations.FrameEnds := by
  intro c s done
  refine ⟨fun f ht hr => ?good, fun f hc hf hr => ?badFormat, fun bits d hc hd hn hr => ?discarded, fun bits hc hd => ?cutOff, fun hc hr => ?notReceiving⟩
  case good =>
    intro u v
    rw [exec_of_taken ht hr, nextWithSelection]
    refine ⟨fun h => by rw [takeGoodFrame_of_request h], fun h ho => by rw [takeGoodFrame_of_ownResponse h ho], fun h ho => ?_⟩
    rcases takeGoodFrame_of_response h ho with he | he <;> rw [he]
    · exact Or.inl rfl
    · exact Or.inr rfl
  case badFormat => rw [hc]; simp [exec, execGoodFrame, hr, hf, endReception_eq, done]
  case discarded =>
    rw [hc]
    simp only [exec, execFrameDiscarded, hr, if_true, hd]
    cases d <;> first | exact absurd rfl hn | rw [endReception_eq]
  case cutOff => rw [hc]; simp only [exec, execFrameDiscarded, hd, ite_self]
  case notReceiving =>
    rcases hc with ⟨f, rfl⟩ | ⟨bits, rfl⟩
    · simp [exec, execGoodFrame, hr]
    · simp [exec, execFrameDiscarded, hr]

end Sys2Proof.Machine
end

section
/-! PROOFS. The ends of a transmission (O24, O25, O26): what each owner makes of the reports sent and fault. -/

namespace Sys2Proof.Machine

/-! ### TRANSMIT_SENT (R123, R90) -/

/-- The Link Controller when a frame of offer o has been sent: the line released, this station the last winner of the class (R120, R123). -/
def State.lineReleased (o : Offer) (s : State) : Lc :=
  Lc.won o.cls s.stc.address { s.lc with slot := .empty, view := .gap 0, receive := none }

theorem lineReleased_view (o : Offer) (s : State) : (s.lineReleased o).view = .gap 0 := won_view _ _ _

section
variable {s : State} {o : Offer} {f : Frame} {b : List Bool} {orphan : Bool}

/-- On the released line nothing is chosen anew. -/
theorem exec_transmitSent (h : s.lc.slot = .onLine o f b orphan) : exec .transmitSent s =
    .next (frameSent s (if orphan then { s with lc := s.lineReleased o } else reportSent o { s with lc := s.lineReleased o })) := by
  have hview : ∀ u : State, u.lc.view = .gap 0 → reselect u = u := fun u hu => reselect_of_not_idle (by rw [hu]; nofun)
  have hgap : (frameSent s (if orphan then { s with lc := s.lineReleased o } else reportSent o { s with lc := s.lineReleased o })).lc.view = .gap 0 := by
    cases orphan <;> simp [lineReleased_view]
  simp only [exec, execTransmitSent, h, nextWithSelection]
  exact congrArg Host.Outcome.next (hview _ hgap)

/-- Station Control learns of the frame after the owner's report that left it as it was (R90). -/
theorem frameSent_eq_quieted {u : State} (hu : u.stc = s.stc) : frameSent s u = { u with stc := s.stc.quieted } := by
  unfold frameSent Stc.quieted
  rw [hu]
  split
  · rw [← hu]; rfl
  · rw [← hu]

/-- A due plain PRESENCE is withdrawn by its own report and by any other alike (R90, R91). -/
theorem quieted_of_plainSent {c : Stc} (hs : c.state = .joined ∨ c.state = .leaving) (hd : c.due = some .plain) :
    { c with quiet := .running (1000 * c.active.presenceInterval.toNat), due := none } = c.quieted := by
  unfold Stc.quieted
  rw [if_pos ⟨hs, by rw [hd]; nofun⟩, if_pos hd]

theorem frameSent_of_plainSent {u : State} (hu : u.stc = s.stc) (hs : s.stc.state = .joined ∨ s.stc.state = .leaving) :
    frameSent s (presenceSent .plain u) = { u with stc := s.stc.quieted } := by
  by_cases hd : s.stc.due = some .plain
  · have hsent : presenceSent .plain u = { u with stc := { s.stc with due := none } } := by
      simp only [presenceSent, hu, hd, if_true, updateStc]
    rw [hsent, ← quieted_of_plainSent hs hd, frameSent, if_pos ⟨hs, by rw [hd]; nofun⟩]
    rfl
  · have hsent : presenceSent .plain u = u := by simp only [presenceSent, hu, hd, if_false]
    rw [hsent, frameSent_eq_quieted hu]

/-- A PRESENCE that is not due, or a fresh one outside LISTENING, has no further effect (R91, R136). -/
theorem presenceSent_of_notDue {u : State} {m : Mark} (h : u.stc.due ≠ some m ∨ (m = .fresh ∧ u.stc.state ≠ .listening)) : presenceSent m u = u := by
  rcases h with h | ⟨rfl, h⟩
  · simp only [presenceSent, if_neg h]
  · simp only [presenceSent, freshSent, if_neg h, ite_self]

/-- The fresh PRESENCE sent in LISTENING (R136): the later note of a frame sent starts the quiet timer no differently. -/
theorem frameSent_of_freshSent {u : State} (hu : u.stc = s.stc) (hd : s.stc.due = some .fresh) (hs : s.stc.state = .listening) :
    frameSent s (presenceSent .fresh u) = { u with
      stc := { s.stc with state := .joined, due := none, quiet := .running (1000 * s.stc.active.presenceInterval.toNat) }
      lp := u.lp.withEvent (.stateChanged .joined) } := by
  have hsent : presenceSent .fresh u = { u with
      stc := { s.stc with state := .joined, due := none, quiet := .running (1000 * s.stc.active.presenceInterval.toNat) }
      lp := u.lp.withEvent (.stateChanged .joined) } := by
    simp only [presenceSent, freshSent, hu, hd, hs, if_true, enterState_eq, updateStc, presenceInterval]
  rw [hsent, frameSent, if_pos ⟨Or.inl rfl, by rw [hd]; nofun⟩]
  rfl

theorem copySent_eq {e : Fin 8} {x : Entry} {u : State} (hx : u.re.table.at e = some x) : copySent e u = { u with
    re := { u.re with
      table := u.re.table.put e (some { x with
        state := .awaitResponse, attempts := min 255 (x.attempts + 1), window := .running u.stc.active.responseWindow.toNat })
      ready := u.re.ready.erase e } } := by
  simp only [copySent, updateEntry, hx]; rfl

end

/-- Settles O24, owner by owner; the note of a frame sent is `Stc.quieted` in all but the entry to JOINED. -/
theorem transmitSentReports : Obligations.TransmitSentReports := by
  intro s o f b orphan h lc plainly
  rw [exec_transmitSent h]
  refine ⟨fun ho => ?orphan, fun ho hr => ?response, fun m ho hm hp => ?presence, fun ho hm hd hs => ?fresh, fun e x ho he hx => ?request⟩
  case orphan =>
    rw [ho, if_pos rfl]
    exact congrArg Host.Outcome.next (frameSent_eq_quieted (u := { s with lc := s.lineReleased o }) rfl)
  all_goals rw [ho, if_neg nofun]
  case response => subst hr; exact congrArg _ (frameSent_eq_quieted rfl)
  case presence =>
    subst hm
    have hsame : frameSent s { s with lc := s.lineReleased (.presence m) } = plainly := frameSent_eq_quieted rfl
    rcases hp with ⟨rfl, hs⟩ | hp
    · exact congrArg Host.Outcome.next (frameSent_of_plainSent (u := { s with lc := s.lineReleased (.presence .plain) }) rfl hs)
    · rw [reportSent, presenceSent_of_notDue (u := { s with lc := s.lineReleased (.presence m) }) hp, hsame]
  case fresh =>
    subst hm
    exact congrArg Host.Outcome.next (frameSent_of_freshSent (u := { s with lc := s.lineReleased (.presence .fresh) }) rfl hd hs)
  case request =>
    subst he
    have hsent := copySent_eq (u := { s with lc := s.lineReleased (.request e) }) hx
    have hquiet := frameSent_eq_quieted (s := s) (u := copySent e { s with lc := s.lineReleased (.request e) }) (by simp)
    rw [hsent] at hquiet
    rw [reportSent, hsent]
    exact congrArg Host.Outcome.next hquiet

/-! ### The leaving PRESENCE (R139) -/

theorem peersDown_true_at (s : State) (p : Station) : (peersDown true s).pt.peers.at p = { s.pt.peers.at p with
    presence := .absent, departure := none, heardAgain := false, freshWaiting := false, timer := .stopped, record := none } :=
  Table.at_each _ _ p

/-- SETUP is entered from LEAVING when all that waits has been taken (R139). -/
theorem endLeaving_eq (s : State) : endLeaving s = { takeAllWaiting s with
    stc := { s.stc with state := .setup, due := none, quiet := .stopped }
    lp := (takeAllWaiting s).lp.withEvent (.stateChanged .setup)
    te := { (takeAllWaiting s).te with closed := false, input := none }
    ge := (takeAllWaiting s).ge.unreported
    pt := (peersDown true (takeAllWaiting s)).pt } := by
  have hstc : (takeAllWaiting s).stc = s.stc := by simp
  simp only [endLeaving, enterState_eq, updateStc, updateGe, staleReports_eq, hstc]
  rfl

/-- Settles O25: SETUP is entered, where a frame sent starts no quiet timer. -/
theorem leavingPresenceSentEntersSetup : Obligations.LeavingPresenceSentEntersSetup := by
  intro s f b h hd u
  refine ⟨takeAllWaiting_nothingWaits _, (peersDown true u).pt.peers, ?_, peersDown_true_at u⟩
  have hsent : reportSent (.presence .leaving) { s with lc := s.lineReleased (.presence .leaving) } =
      endLeaving { s with lc := s.lineReleased (.presence .leaving) } := by
    simp only [reportSent, presenceSent, hd, if_true]
  have hstc : u.stc = s.stc := by simp [u]
  rw [exec_transmitSent h, if_neg nofun, hsent, endLeaving_eq, frameSent, if_neg (by rintro ⟨h | h, -⟩ <;> cases h), hstc]
  rfl

/-! ### TRANSMIT_FAULT (R124) -/

section
variable {s : State} {o : Offer} {f : Frame} {b : List Bool} {orphan : Bool}

/-- The transmit slot is empty. -/
def State.slotEmptied (s : State) : State := { s with lc := { s.lc with slot := .empty } }

theorem exec_transmitFault (h : s.lc.slot = .onLine o f b orphan) :
    exec .transmitFault s = .next (reselect (if orphan then s.slotEmptied else reportFault o s.slotEmptied)) := by
  simp only [exec, execTransmitFault, h]; rfl

theorem responseFaulted_eq {r : Response} {rs : List Response} (h : s.te.queue = r :: rs) : responseFaulted s = { s with te := { s.te with
    queue := if r.purged = true ∨ r.attempts ≥ 2 then rs else { r with attempts := r.attempts + 1 } :: rs } } := by
  simp only [responseFaulted, h, ge_iff_le]
  split <;> rfl

theorem copyFaulted_eq {e : Fin 8} {x : Entry} (hx : s.re.table.at e = some x) :
    copyFaulted e s = copyUnanswered e x.attempted (putEntry e (some x.attempted) s) := by
  simp only [copyFaulted, hx]

theorem putEntry_putEntry (e : Fin 8) (x y : Option Entry) (s : State) : putEntry e x (putEntry e y s) = putEntry e x s := by
  simp only [putEntry, Table.put_put]

/-- What a copy without a response makes of its entry, by the three tests in their order (R101, R102, R108, R111). -/
theorem copyUnanswered_eq (e : Fin 8) (x : Entry) (s : State) : copyUnanswered e x (putEntry e (some x) s) =
    if x.deadlinePassed then finishEntry e .deferralTimeout .none 0 (putEntry e (some x) s)
    else if s.stc.state = .leaving then finishEntry e .cancelled .none 0 (putEntry e (some x) s)
    else if s.stc.active.lostLimit.toNat < x.lost + 1 then finishEntry e .noResponse .none 0 (putEntry e (some { x with lost := x.lost + 1 }) s)
    else leaveReady e (putEntry e (some { x with
      lost := x.lost + 1, state := .backoff, window := .stopped, backoff := .running s.stc.active.retryInterval.toNat }) s) := by
  have hstc : (putEntry e (some x) s).stc = s.stc := by simp
  by_cases hd : x.deadlinePassed = true
  · rw [if_pos hd, copyUnanswered_deadline hd]
  · rw [if_neg hd]
    rw [Bool.not_eq_true] at hd
    by_cases hl : s.stc.state = .leaving
    · rw [if_pos hl, copyUnanswered_leaving hd (by rw [hstc]; exact hl)]
    · rw [if_neg hl, copyUnanswered_lost hd (by rw [hstc]; exact hl)]
      by_cases hlost : s.stc.active.lostLimit.toNat < x.lost + 1
      · rw [if_pos hlost, attemptLost_limit (by rw [hstc]; exact hlost), putEntry_putEntry]
      · rw [if_neg hlost, attemptLost_backoff (by rw [hstc]; exact hlost), putEntry_putEntry, hstc]

end

/-- Settles O26, owner by owner; a copy's report is that of a copy without a response. -/
theorem transmitFaultReports : Obligations.TransmitFaultReports := by
  intro s o f b orphan h u
  rw [exec_transmitFault h]
  refine ⟨fun ho => by rw [ho]; rfl, fun m hm => ?presence, fun r rs ho hr hq => ?response, fun e x ho he hx => ?request⟩
  case presence => rw [hm]; cases orphan <;> rfl
  case response =>
    rw [ho, hr, if_neg nofun, reportFault, responseFaulted_eq (s := s.slotEmptied) hq]; rfl
  case request =>
    intro x1 x2 ends
    rw [ho, he, if_neg nofun, reportFault, copyFaulted_eq (s := s.slotEmptied) hx, copyUnanswered_eq]
    show Host.Outcome.next (reselect (if x.deadlinePassed = true then _ else if s.stc.state = .leaving then _
      else if s.stc.active.lostLimit.toNat < x.lost + 1 then _ else _)) = _
    split
    · rfl
    · split
      · rfl
      · split <;> rfl

end Sys2Proof.Machine
end

section
/-! PROOFS. The Peer Table and what reaches the other blocks (O29, O30, O31, O49, O50): hearing, announcements, end reports and the presence timers. -/

namespace Sys2Proof.Machine

/-! ### Hearing a peer (R82 to R87) -/

theorem ptUsesFrames_eq_true {s : State} : ptUsesFrames s = true ↔ s.stc.state = .listening ∨ s.stc.state = .joined ∨ s.stc.state = .leaving := by
  unfold ptUsesFrames
  cases s.stc.state <;> simp

section
variable {s : State} {p : Station}

/-- An entry that is not ABSENT is settled exactly when no departure is pending (R80). -/
theorem settled_of_present {e : Peer} (h : e.presence = .present) : e.settled = e.departure.isNone := by
  simp [Peer.settled, h]

theorem hearPlain_of_absent (h : (s.pt.peers.at p).presence = .absent) : hearPlain p s =
    { s with
      pt := { s.pt with peers := s.pt.peers.put p { s.pt.peers.at p with presence := .present, timer := absenceTime s } }
      lp := s.lp.withEvent (.peerUp p false) } := by
  simp only [hearPlain, h, postEvent_eq_withEvent, updatePeer, Peer.up]

theorem hearPlain_of_settled (h : (s.pt.peers.at p).presence = .present) (hd : (s.pt.peers.at p).departure = none) :
    hearPlain p s = { s with pt := { s.pt with peers := s.pt.peers.put p { s.pt.peers.at p with timer := absenceTime s } } } := by
  simp only [hearPlain, h, settled_of_present h, hd, Option.isNone_none, if_true, updatePeer]

theorem hearPlain_of_pending (h : (s.pt.peers.at p).presence = .present) (hd : (s.pt.peers.at p).departure ≠ none) :
    hearPlain p s = { s with pt := { s.pt with peers := s.pt.peers.put p { s.pt.peers.at p with heardAgain := true } } } := by
  have hn : (s.pt.peers.at p).departure.isNone = false := Option.isNone_eq_false_iff.mpr (Option.isSome_iff_ne_none.mpr hd)
  simp only [hearPlain, h, settled_of_present h, hn, updatePeer]
  rfl

theorem hearLeaving_of_absent (h : (s.pt.peers.at p).presence = .absent) : hearLeaving p s = s := by
  simp only [hearLeaving, h]

theorem hearLeaving_of_settled (h : (s.pt.peers.at p).presence = .present) (hd : (s.pt.peers.at p).departure = none) :
    hearLeaving p s = announce (.departed p)
      { s with pt := { s.pt with peers := s.pt.peers.put p { s.pt.peers.at p with timer := .stopped, departure := some .left } } } := by
  simp only [hearLeaving, h, settled_of_present h, hd, Option.isNone_none, if_true, updatePeer]

theorem hearLeaving_of_pending (h : (s.pt.peers.at p).presence = .present) (hd : (s.pt.peers.at p).departure ≠ none) : hearLeaving p s =
    { s with pt := { s.pt with peers := s.pt.peers.put p { s.pt.peers.at p with heardAgain := false, freshWaiting := false } } } := by
  have hn : (s.pt.peers.at p).departure.isNone = false := Option.isNone_eq_false_iff.mpr (Option.isSome_iff_ne_none.mpr hd)
  simp only [hearLeaving, h, settled_of_present h, hn, updatePeer]
  rfl

theorem hearFresh_of_pending (h : (s.pt.peers.at p).presence = .present ∧ (s.pt.peers.at p).departure ≠ none) :
    hearFresh p s = { s with pt := { s.pt with peers := s.pt.peers.put p { s.pt.peers.at p with freshWaiting := true } } } :=
  if_pos h

theorem hearFresh_of_notPending (h : ¬ ((s.pt.peers.at p).presence = .present ∧ (s.pt.peers.at p).departure ≠ none)) :
    hearFresh p s = announce (.restarted p)
      { s with pt := { s.pt with peers := s.pt.peers.put p { s.pt.peers.at p with presence := .present, timer := absenceTime s, record := none } } } :=
  if_neg h

end

section
variable {s : State} {f : Frame}

theorem hear_of_unused (h : (ptUsesFrames s && decide (f.sender ≠ s.stc.address)) = false) : hear f s = s := by
  unfold hear
  rw [if_neg (by rw [h]; nofun)]

theorem hear_eq_hearLeaving (h : (ptUsesFrames s && decide (f.sender ≠ s.stc.address)) = true) (hm : presenceOf f = some .leaving) :
    hear f s = hearLeaving f.sender s := by
  unfold hear
  rw [if_pos h, hm]

theorem hear_eq_hearFresh (h : (ptUsesFrames s && decide (f.sender ≠ s.stc.address)) = true) (hm : presenceOf f = some .fresh) :
    hear f s = hearFresh f.sender s := by
  unfold hear
  rw [if_pos h, hm]

/-- When the Peer Table uses a frame (R82). -/
theorem hears_iff : (ptUsesFrames s && decide (f.sender ≠ s.stc.address)) = true ↔
    (s.stc.state = .listening ∨ s.stc.state = .joined ∨ s.stc.state = .leaving) ∧ f.sender ≠ s.stc.address := by
  rw [Bool.and_eq_true, ptUsesFrames_eq_true, decide_eq_true_iff]

end

/-- Settles O29, by the mark of the frame and the entry of its sender. -/
theorem peerHeard : Obligations.PeerHeard := by
  intro f s p e used timer withEntry pending
  refine ⟨fun hu => hear_of_unused (Bool.eq_false_iff.mpr fun h => hu (hears_iff.mp h)),
    fun hu hf hl => ?plain, fun hu hm => ?leaving, fun hu hm => ?fresh⟩
  case plain =>
    rw [hear_eq_hearPlain (hears_iff.mpr hu) hf hl]
    exact ⟨hearPlain_of_absent, hearPlain_of_settled, fun h => hearPlain_of_pending h.1 h.2⟩
  case leaving =>
    rw [hear_eq_hearLeaving (hears_iff.mpr hu) hm]
    exact ⟨hearLeaving_of_absent, hearLeaving_of_settled, fun h => hearLeaving_of_pending h.1 h.2⟩
  case fresh =>
    rw [hear_eq_hearFresh (hears_iff.mpr hu) hm]
    exact ⟨hearFresh_of_notPending, hearFresh_of_pending⟩

/-! ### Announcements (R88) -/

section
variable {s : State}

theorem sruTakeAnnouncement_of_none (h : s.sru.announced = none) : sruTakeAnnouncement s = s := by
  simp only [sruTakeAnnouncement, h]

theorem reTakeAnnouncement_of_none (h : s.re.announced = none) : reTakeAnnouncement s = s := by
  simp only [reTakeAnnouncement, h]

theorem restartPurge_of_none (h : s.te.restarted = none) : restartPurge s = s := by
  simp only [restartPurge, h]

end

/-- Settles O30: `announce_eq` by the kind of announcement. -/
theorem announcementReachesBlocks : Obligations.AnnouncementReachesBlocks := by
  refine ⟨fun a s => ?_, fun s =>
    ⟨rfl, sruTakeAnnouncement_of_none, rfl, reTakeAnnouncement_of_none, rfl, restartPurge_of_none⟩⟩
  have h := announce_eq a s
  cases a with
  | lost q => exact ⟨fun _ => h, nofun⟩
  | departed q => exact ⟨fun _ => h, nofun⟩
  | restarted q =>
    refine ⟨fun hn => absurd rfl (hn q), fun p hp => ?_⟩
    obtain rfl := Announcement.restarted.inj hp
    exact h

/-! ### A request frame reaches the input place (R61 to R63) -/

section
variable {s : State} {f : Frame}

theorem teServes_eq_true : teServes s = true ↔ s.stc.state = .joined ∨ (s.stc.state = .leaving ∧ s.te.closed = false) := by
  unfold teServes
  cases s.stc.state <;> simp

/-- The target of a frame that carries a common request header (Table 10-3). -/
theorem target_eq_some {b : Byte} : (headerOf f).map (·.target) = some b ↔ ∃ q fl r, f.body = b :: q :: fl :: r := by
  unfold headerOf
  split
  · next t q fl r hb =>
    rw [hb]
    exact ⟨fun h => ⟨q, fl, r, congrArg (· :: q :: fl :: r) (Option.some.inj h)⟩, fun ⟨_, _, _, h⟩ => congrArg some (List.cons.inj h).1⟩
  · next hb => exact ⟨nofun, fun ⟨q, fl, r, h⟩ => absurd h (hb b q fl r)⟩

/-- A request frame of another station, addressed to this one (R61). -/
def AddressedTo (own : Station) (f : Frame) : Prop :=
  f.cls = .request ∧ f.kind ≠ 8 ∧ f.sender ≠ own ∧ (∃ a b r, f.body = BitVec.ofNat 8 (own.val + 1) :: a :: b :: r)

theorem addressed_iff : (isRequest f && ptUsesFrames s && decide (f.sender ≠ s.stc.address) &&
      decide ((headerOf f).map (·.target) = some (addressByte s.stc.address))) = true ↔
    AddressedTo s.stc.address f ∧ ptUsesFrames s = true := by
  simp only [Bool.and_eq_true, decide_eq_true_eq, target_eq_some, isRequest, AddressedTo]
  exact ⟨fun ⟨⟨⟨⟨hc, hk⟩, hu⟩, ho⟩, hb⟩ => ⟨⟨hc, hk, ho, hb⟩, hu⟩, fun ⟨⟨hc, hk, ho, hb⟩, hu⟩ => ⟨⟨⟨⟨hc, hk⟩, hu⟩, ho⟩, hb⟩⟩

/-- The TE serves only where the Peer Table uses frames. -/
theorem ptUsesFrames_of_teServes (h : teServes s = true) : ptUsesFrames s = true :=
  ptUsesFrames_eq_true.mpr (Or.inr ((teServes_eq_true.mp h).imp id And.left))

theorem passToTarget_of_not (h : ¬ (AddressedTo s.stc.address f ∧ teServes s = true)) : passToTarget f s = s := by
  by_cases hc : AddressedTo s.stc.address f ∧ ptUsesFrames s = true
  · have hs : teServes s = false := Bool.eq_false_iff.mpr fun hs => h ⟨hc.1, hs⟩
    rw [passToTarget, if_pos (addressed_iff.mpr hc), passRequest, if_neg (by rw [hs]; nofun)]
  · exact if_neg fun h => hc (addressed_iff.mp h)

theorem passToTarget_of_served (ha : AddressedTo s.stc.address f) (hs : teServes s = true) : passToTarget f s =
    (let s' := if s.te.input.isSome then takeNextFrame s else s
     if s'.te.input.isSome then s' else enterInput f s') := by
  rw [passToTarget, if_pos (addressed_iff.mpr ⟨ha, ptUsesFrames_of_teServes hs⟩), passRequest, if_pos hs]

theorem enterInput_eq : enterInput f s =
    { takeRestartOf f.sender s with te := { (takeRestartOf f.sender s).te with input := some f } } := rfl

/-- The check sequence leaves the input place as it was. -/
theorem checkSequence_input : (checkSequence f s).te.input = s.te.input := by simp

theorem takeNextFrame_of_hand {h : Hand} (hh : s.te.hand = some h) : takeNextFrame s = s := by
  simp only [takeNextFrame, hh]

theorem takeNextFrame_of_waiting (hh : s.te.hand = none) (hi : s.te.input = some f) :
    takeNextFrame s = checkSequence f { s with te := { s.te with input := none } } := by
  simp only [takeNextFrame, hh, hi]

theorem takeNextFrame_input (hh : s.te.hand = none) : (takeNextFrame s).te.input = none := by
  cases hi : s.te.input with
  | none => simp only [takeNextFrame, hh, hi]
  | some f => rw [takeNextFrame_of_waiting hh hi, checkSequence_input]

end

/-- Settles O31. -/
theorem requestFrameReachesInputPlace : Obligations.RequestFrameReachesInputPlace := by
  intro f s addressed serves enters
  have hserves : serves ↔ teServes s = true := teServes_eq_true.symm
  refine ⟨fun hn => passToTarget_of_not fun h => hn ⟨h.1, hserves.mpr h.2⟩, fun ha hs hi => ?empty, fun ha hs hi hh => ?occupied,
    fun ha hs hi hh => ?moves, fun u hl hu i x hx => ?noSlot⟩
  case empty =>
    simp only [passToTarget_of_served ha (hserves.mp hs), hi, Option.isSome_none, Bool.false_eq_true, if_false]
    rfl
  case occupied =>
    obtain ⟨g, hg⟩ := Option.ne_none_iff_exists'.mp hi
    obtain ⟨h, hh⟩ := Option.ne_none_iff_exists'.mp hh
    simp only [passToTarget_of_served ha (hserves.mp hs), takeNextFrame_of_hand hh, ite_self, hg, Option.isSome_some, if_true]
  case moves =>
    obtain ⟨g, hg⟩ := Option.ne_none_iff_exists'.mp hi
    simp only [passToTarget_of_served ha (hserves.mp hs), hg, Option.isSome_some, if_true, takeNextFrame_input hh]
    rfl
  case noSlot =>
    simp only [enters, if_pos hu] at hx
    exact sruTakeAnnouncement_noSlot hl hu i x hx

/-! ### End reports (R86, R87) -/

section
variable {s : State} {p : Station} {d : Departure}

/-- Station state s when the PT has taken the departure of p with cause d to its end: PEER_DOWN posted, the entry now y (R86). -/
def State.lossEnded (p : Station) (d : Departure) (y : Peer) (s : State) : State :=
  { s with pt := { s.pt with peers := s.pt.peers.put p y }, lp := s.lp.withEvent (.peerDown p d) }

/-- The loss has ended with the entry ABSENT. -/
theorem lossEnded_down : postEvent (.peerDown p d) (updatePeer p Peer.down s) = s.lossEnded p d (s.pt.peers.at p).down := by
  rw [postEvent_eq_withEvent]; rfl

theorem updatePeer_lossEnded (g : Peer → Peer) (y : Peer) :
    updatePeer p g (s.lossEnded p d y) = s.lossEnded p d (g y) := by
  simp only [updatePeer, State.lossEnded, Table.at_put_self, Table.put_put]

theorem endOfLoss_of_settled (h : (s.pt.peers.at p).departure = none) : endOfLoss p s = s := by
  simp only [endOfLoss, h]

/-- A fresh PRESENCE that came meanwhile is taken when the loss has ended (R86, R87). -/
theorem endOfLoss_of_fresh (h : (s.pt.peers.at p).departure = some d) (hf : (s.pt.peers.at p).freshWaiting = true) :
    endOfLoss p s = announce (.restarted p)
      (s.lossEnded p d { (s.pt.peers.at p).down with presence := .present, timer := absenceTime s, record := none }) := by
  have hdown : ((s.lossEnded p d (s.pt.peers.at p).down).pt.peers.at p) = (s.pt.peers.at p).down := Table.at_put_self _ _ _
  have hnot : ¬ (((s.lossEnded p d (s.pt.peers.at p).down).pt.peers.at p).presence = .present ∧
      ((s.lossEnded p d (s.pt.peers.at p).down).pt.peers.at p).departure ≠ none) := by
    rw [hdown]; exact nofun
  simp only [endOfLoss, h, hf, if_true, lossEnded_down]
  rw [hearFresh_of_notPending hnot, hdown]
  refine congrArg (announce (.restarted p)) ?_
  simp only [State.lossEnded, Table.put_put]
  rfl

/-- A frame heard meanwhile makes the peer PRESENT again (R86). -/
theorem endOfLoss_of_heardAgain (h : (s.pt.peers.at p).departure = some d) (hf : (s.pt.peers.at p).freshWaiting = false)
    (ha : (s.pt.peers.at p).heardAgain = true) : endOfLoss p s =
      { s.lossEnded p d { (s.pt.peers.at p).down with presence := .present, timer := absenceTime s } with
        lp := (s.lp.withEvent (.peerDown p d)).withEvent (.peerUp p false) } := by
  have hup : endOfLoss p s = postEvent (.peerUp p false) (updatePeer p (Peer.up (absenceTime s)) (s.lossEnded p d (s.pt.peers.at p).down)) := by
    simp only [endOfLoss, h, hf, ha, Bool.false_eq_true, if_false, if_true, lossEnded_down]
    rfl
  rw [hup, updatePeer_lossEnded, postEvent_eq_withEvent]
  rfl

theorem endOfLoss_of_silent (h : (s.pt.peers.at p).departure = some d) (hf : (s.pt.peers.at p).freshWaiting = false)
    (ha : (s.pt.peers.at p).heardAgain = false) : endOfLoss p s = s.lossEnded p d (s.pt.peers.at p).down := by
  simp only [endOfLoss, h, hf, ha, Bool.false_eq_true, if_false, lossEnded_down]

theorem endOfRestart_eq (n : Nat) : endOfRestart p (n + 1) s = endOfRestart p n { s with lp := s.lp.withEvent (.peerUp p true) } := by
  rw [endOfRestart, postEvent_eq_withEvent]

end

/-- Settles O49, end by end. -/
theorem endReportsTaken : Obligations.EndReportsTaken := fun _ =>
  ⟨rfl, rfl, fun _ hh => finishHand_some hh _, fun _ => rfl, fun _ n => endOfRestart_eq n, fun _ => rfl,
    fun _ h => endOfLoss_of_settled h,
    fun _ _ h => ⟨endOfLoss_of_fresh h, endOfLoss_of_heardAgain h, endOfLoss_of_silent h⟩⟩

/-! ### The presence timers (R84, R90 to R92, R139) -/

section
variable {s : State}

theorem exec_quietTimerExpiry {us : Nat} (h : s.stc.quiet = .running us) : exec .quietTimerExpiry s = .next (reselect { s with
    stc := { s.stc with quiet := .stopped, due := match s.stc.due with | none => some .plain | some m => some m } }) := by
  have hr : s.stc.quiet.isRunning = true := by rw [h]; rfl
  simp only [exec, execQuietTimerExpiry, hr, if_true, nextWithSelection, updateStc]
  cases s.stc.due <;> rfl

theorem exec_listenTimerExpiry {us : Nat} (h : s.stc.listen = .running us) : exec .listenTimerExpiry s = .next (reselect { s with
    stc := { s.stc with listen := .stopped, due := some .fresh } }) := by
  have hr : s.stc.listen.isRunning = true := by rw [h]; rfl
  simp only [exec, execListenTimerExpiry, hr, if_true, nextWithSelection, updateStc]

theorem exec_lastHeardExpiry {p : Station} {us : Nat} (h : (s.pt.peers.at p).presence = .present)
    (hd : (s.pt.peers.at p).departure = none) (ht : (s.pt.peers.at p).timer = .running us) :
    exec (.lastHeardExpiry p) s = .next (reselect (announce (.lost p) { s with
      pt := { s.pt with peers := s.pt.peers.put p { s.pt.peers.at p with timer := .stopped, departure := some .silent } } })) := by
  have hr : (s.pt.peers.at p).timer.isRunning = true := by rw [ht]; rfl
  simp only [exec, execLastHeardExpiry, settled_of_present h, hd, hr, Option.isNone_none, Bool.and_self, if_true, nextWithSelection, updatePeer]

/-- The three conditions for ending LEAVING, each as what the blocks hold (R139). -/
theorem leavingDone_iff : leavingDone s = true ↔
    s.stc.state = .leaving ∧ s.stc.due ≠ some .leaving ∧ s.stc.noGroupOpen = true ∧ (∀ e, s.re.table.at e = none) ∧
      s.re.queue = [] ∧ s.te.hand = none ∧ s.te.input = none ∧ s.te.queue = [] := by
  have hall : (∀ e ∈ all8, s.re.table.at e = none) ↔ ∀ e, s.re.table.at e = none := ⟨fun h e => h e (mem_all8 e), fun h e _ => h e⟩
  simp only [leavingDone, reEmpty, teQuiet, Bool.and_eq_true, decide_eq_true_eq, List.all_eq_true, Option.isNone_iff_eq_none, hall,
    List.isEmpty_iff, and_assoc]

theorem exec_leavingPresenceDue (h : leavingDone s = true) : exec .leavingPresenceDue s = .next (reselect { s with
    te := { s.te with closed := true }
    lc := { s.lc with slot := s.lc.slot.without (.presence .plain) }
    stc := { s.stc with quiet := .stopped, due := some .leaving } }) := by
  simp only [exec, execLeavingPresenceDue, h, if_true, nextWithSelection, updateStc, withdrawOffer]

end

/-- Settles O50, timer by timer. -/
theorem presenceTimersExpire : Obligations.PresenceTimersExpire := by
  intro s
  refine ⟨fun _ => exec_quietTimerExpiry, fun _ => exec_listenTimerExpiry, fun _ _ => exec_lastHeardExpiry, fun he => ?_, fun he => ?_⟩
  · exact ⟨_, TxSlot.without_withdrawn _ _, exec_leavingPresenceDue (leavingDone_iff.mpr he)⟩
  · exact if_neg fun h => he (leavingDone_iff.mp h)

end Sys2Proof.Machine
end

section
/-! PROOFS. Frames on the line (O32, O33): the bits of a frame are received as that frame, and its fields are read as they were sent. -/

namespace Sys2Proof.Machine

/-! ### The bits of a frame (R116, R125, R126) -/

/-- The 21 bits of key, kind and length that a frame is sent with (R116). -/
def headBits (f : Frame) : List Bool := msbFirst (keyOf f.cls f.rank f.sender) ++ msbFirst f.kind ++ msbFirst (BitVec.ofNat 8 f.body.length)

/-- The bits of a frame between its start delimiter and its end mark (R116). -/
def stuffedBits (f : Frame) : List Bool :=
  stuff false 0 (headBits f ++ (f.body.flatMap msbFirst ++ msbFirst (crc (payloadBits f))))

theorem payloadBits_eq (f : Frame) : payloadBits f = headBits f ++ f.body.flatMap msbFirst := rfl

theorem frameBits_eq (f : Frame) : frameBits f = stuffedBits f ++ [false] := by
  rw [frameBits, stuffedBits, payloadBits_eq, List.append_assoc]

theorem headBits_length (f : Frame) : (headBits f).length = 21 := by
  simp only [headBits, List.length_append, msbFirst_length]

section
variable {f : Frame}

/-- The length field of a frame no longer than the maximum is its number of bytes. -/
theorem ofMsbFirst_length (h : f.body.length ≤ 71) : ofMsbFirst ((headBits f).drop 13) = f.body.length := by
  have hdrop : (headBits f).drop 13 = msbFirst (BitVec.ofNat 8 f.body.length) :=
    List.drop_left' (by simp only [List.length_append, msbFirst_length])
  rw [hdrop, ofMsbFirst_msbFirst, BitVec.toNat_ofNat]
  omega

/-- The head of a frame, field by field. -/
theorem headBits_eq (f : Frame) : headBits f =
    classBit f.cls :: (msbFirst f.rank ++ (msbFirst (addressField f.sender) ++ (msbFirst f.kind ++ msbFirst (BitVec.ofNat 8 f.body.length)))) := by
  simp only [headBits, msbFirst_keyOf, List.cons_append, List.append_assoc]

theorem ofNat_ofMsbFirst {n : Nat} (w : BitVec n) : BitVec.ofNat n (ofMsbFirst (msbFirst w)) = w := by
  rw [ofMsbFirst_msbFirst, BitVec.ofNat_toNat, BitVec.setWidth_eq]

theorem sender_of_addressField (p : Station) : Fin.ofNat 16 (ofMsbFirst (msbFirst (addressField p))) = p := by
  rw [ofMsbFirst_msbFirst]
  revert p
  decide

theorem class_of_classBit (c : FrameClass) : (if classBit c then FrameClass.request else .response) = c := by
  cases c <;> rfl

/-- A frame is what its head and the bits of its fields spell. -/
theorem frameOfBits_headBits (h : f.body.length ≤ 71) : frameOfBits (headBits f) (f.body.flatMap msbFirst) = f := by
  have hcls : (headBits f).headD false = classBit f.cls := by rw [headBits_eq]; rfl
  have hrank : ((headBits f).drop 1).take 4 = msbFirst f.rank := by
    rw [headBits_eq]; exact List.take_left' (msbFirst_length _)
  have hsender : ((headBits f).drop 5).take 4 = msbFirst (addressField f.sender) := by
    rw [headBits_eq, List.drop_succ_cons, List.drop_left' (msbFirst_length _), List.take_left' (msbFirst_length _)]
  have hkind : ((headBits f).drop 9).take 4 = msbFirst f.kind := by
    rw [headBits_eq, List.drop_succ_cons, ← List.append_assoc, List.drop_left' (by simp only [List.length_append, msbFirst_length]),
      List.take_left' (msbFirst_length _)]
  simp only [frameOfBits, hcls, hrank, hsender, hkind, class_of_classBit, ofNat_ofMsbFirst, sender_of_addressField,
    ofMsbFirst_length h, bytesOfBits_flatMap]

/-- What a reception makes of the bits that follow those of a frame: the end mark ends it. -/
def endOfReception (f : Frame) : List Bool → Except Discard Frame
  | [] => .error .cutOff
  | true :: _ => .error .missingEndMark
  | false :: _ => .ok f

/-- The bits of a frame are read as its head, its fields and its check, and what follows ends it or not. -/
theorem receive_stuffedBits (hf : formatOk f = true) (rest : List Bool) : receive (stuffedBits f ++ rest) = endOfReception f rest := by
  have hlen : f.body.length ≤ 71 := by
    have := (Bool.and_eq_true _ _ ▸ hf : decide (f.body.length ≤ Config.maxFrameBytes) = true ∧ _).1
    exact of_decide_eq_true this
  obtain ⟨r1, last1, run1, hrun1, hhead, hu1⟩ := readBits_stuff 21 (f.body.flatMap msbFirst ++ msbFirst (crc (payloadBits f)))
    ⟨false, 0, stuffedBits f ++ rest⟩ false 0 (headBits f) rest (headBits_length f) (by omega) rfl
  obtain ⟨r2, last2, run2, hrun2, hfields, hu2⟩ := readBits_stuff (8 * f.body.length) (msbFirst (crc (payloadBits f)))
    r1 last1 run1 _ rest (flatMap_msbFirst_length f.body) hrun1 hu1
  obtain ⟨r3, last3, run3, hrun3, hcheck, hu3⟩ := readBits_stuff 16 [] r2 last2 run2 (msbFirst (crc (payloadBits f))) rest
    (msbFirst_length _) hrun2 (by rw [List.append_nil]; exact hu2)
  have hmax : ¬ Config.maxFrameBytes < f.body.length := Nat.not_lt.mpr hlen
  simp only [receive, hhead, ofMsbFirst_length hlen, if_neg hmax, hfields, hcheck, finishReception, hu3, stuff, List.nil_append]
  match rest with
  | [] => rfl
  | true :: _ => rfl
  | false :: _ => simp only [endOfReception, ← payloadBits_eq, if_true, frameOfBits_headBits hlen, hf]

end

/-- The end of a reception is the same whatever bits follow it. -/
theorem finishReception_append (h fields check : List Bool) (r : Reader) (more : List Bool)
    (hc : finishReception h fields check r ≠ .error .cutOff) :
    finishReception h fields check { r with rest := r.rest ++ more } = finishReception h fields check r := by
  unfold finishReception at hc ⊢
  rw [unstuff_append r more (fun e => hc (by rw [e]))]
  cases hu : unstuff r with
  | error e => rfl
  | ok r1 =>
    rw [hu] at hc
    dsimp only [Except.map] at hc ⊢
    cases hr : r1.rest with
    | nil => rw [hr] at hc; exact absurd rfl hc
    | cons b bs => cases b <;> rfl

/-- A reception that has ended is the same whatever bits follow (R125). -/
theorem receive_append (bits more : List Bool) (hc : receive bits ≠ .error .cutOff) : receive (bits ++ more) = receive bits := by
  unfold receive at hc ⊢
  have hhead := readBits_append 21 ⟨false, 0, bits⟩ more fun e => hc (by rw [e])
  dsimp only at hhead
  rw [hhead]
  cases h1 : readBits 21 ⟨false, 0, bits⟩ with
  | error e => rfl
  | ok x =>
    obtain ⟨h, r⟩ := x
    rw [h1] at hc
    dsimp only [Except.map] at hc ⊢
    by_cases hmax : Config.maxFrameBytes < ofMsbFirst (h.drop 13)
    · rw [if_pos hmax, if_pos hmax]
    · rw [if_neg hmax] at hc ⊢
      rw [if_neg hmax, readBits_append _ r more fun e => hc (by rw [e])]
      cases h2 : readBits (8 * ofMsbFirst (h.drop 13)) r with
      | error e => rfl
      | ok y =>
        obtain ⟨fields, r'⟩ := y
        rw [h2] at hc
        dsimp only [Except.map] at hc ⊢
        rw [readBits_append _ r' more fun e => hc (by rw [e])]
        cases h3 : readBits 16 r' with
        | error e => rfl
        | ok z =>
          obtain ⟨check, r''⟩ := z
          rw [h3] at hc
          exact finishReception_append h fields check r'' more hc

/-- A frame has not ended before its end mark: bits received as an end would be that end with all the bits before the mark. -/
theorem receive_take_frameBits {f : Frame} (hf : formatOk f = true) {n : Nat} (hn : n < (frameBits f).length) :
    receive ((frameBits f).take n) = .error .cutOff := by
  have hle : n ≤ (stuffedBits f).length := by
    rw [frameBits_eq, List.length_append, List.length_singleton] at hn
    omega
  have htake : (frameBits f).take n = (stuffedBits f).take n := by rw [frameBits_eq, List.take_append_of_le_length hle]
  have hall : receive (stuffedBits f) = .error .cutOff := by
    have := receive_stuffedBits hf []
    rwa [List.append_nil] at this
  rw [htake]
  by_contra hne
  have happ := receive_append ((stuffedBits f).take n) ((stuffedBits f).drop n) hne
  rw [List.take_append_drop, hall] at happ
  exact hne happ.symm

/-- Settles O32. -/
theorem frameBitsRoundTrip : Obligations.FrameBitsRoundTrip :=
  ⟨fun f hf => ⟨by rw [frameBits_eq, receive_stuffedBits hf]; rfl, fun _ => receive_take_frameBits hf⟩, receive_append⟩

/-! ### The fields of a frame (Table 10-3) -/

section
variable {d : Descriptor} {seq : Byte} {retry : Bool} {data : List Word}

/-- The bytes of a request's range: the address in two, the low eight bits of the count (Table 10-3, R153). -/
abbrev Descriptor.rangeBytes (d : Descriptor) : List Byte :=
  [d.address.extractLsb' 8 8, d.address.extractLsb' 0 8, d.count.extractLsb' 0 8]

/-- A range is read as it was sent. -/
theorem readFields_sent (k : ReqKind) (h : 1 ≤ d.count.toNat ∧ d.count.toNat ≤ 16) : readFields k seq (flagsByte retry) d.rangeBytes =
    some { kind := k, seq := seq, retry := retry, tag := 0, addr := d.address.toNat, data := [], count := d.count.toNat } := by
  have hc := count_byte d.count h.2
  have hv : countValid d.count.toNat = true := by simp [countValid, h.1, h.2]
  simp only [readFields, hv, if_true, hc, twoBytes_of_half, retryOf_flagsByte]

/-- A range with its data words is read as it was sent. -/
theorem writeFields_sent (k : ReqKind) (tag : BitVec 4) (h : 1 ≤ d.count.toNat ∧ d.count.toNat ≤ 16) (hd : data.length = d.count.toNat) :
    writeFields k seq (flagsByte retry) tag (d.rangeBytes ++ bytesOfWords data) =
      some { kind := k, seq := seq, retry := retry, tag := tag, addr := d.address.toNat, data := data, count := d.count.toNat } := by
  have hc := count_byte d.count h.2
  have hv : (countValid d.count.toNat && decide (data.length = d.count.toNat)) = true := by
    simp [countValid, h.1, h.2, hd]
  simp only [writeFields, List.cons_append, List.nil_append, wordsOfBytes_bytesOfWords, hv, if_true, hc, twoBytes_of_half, retryOf_flagsByte]

end

/-- The bytes of a request after its header, by its kind (Table 10-3). -/
def ReqKind.bytesOf (k : ReqKind) (d : Descriptor) (data : List Word) : List Byte :=
  let tag : Byte := (d.tag.extractLsb' 0 4).setWidth 8
  match k with
  | .rd => d.rangeBytes
  | .rds => d.rangeBytes
  | .wr => d.rangeBytes ++ bytesOfWords data
  | .gwrite => tag :: (d.rangeBytes ++ bytesOfWords data)
  | _ => [tag]

/-- The request that a request frame of a good descriptor carries (R67, R152, R153). -/
def ReqKind.requestFor (k : ReqKind) (d : Descriptor) (seq : Byte) (retry : Bool) (data : List Word) : Request :=
  match k with
  | .rd => ⟨.rd, seq, retry, 0, d.address.toNat, [], d.count.toNat⟩
  | .rds => ⟨.rds, seq, retry, 0, d.address.toNat, [], d.count.toNat⟩
  | .wr => ⟨.wr, seq, retry, 0, d.address.toNat, data, d.count.toNat⟩
  | .gwrite => ⟨.gwrite, seq, retry, d.tag.extractLsb' 0 4, d.address.toNat, data, d.count.toNat⟩
  | k => ⟨k, seq, retry, d.tag.extractLsb' 0 4, 0, [], 0⟩

/-- The kind codes 1 to 7 are those of the request kinds (Table 10-1). -/
theorem kind_of_code {h : Half} (h1 : 1 ≤ h.toNat) (h7 : h.toNat ≤ 7) : ∃ k : ReqKind, h = k.code.setWidth 16 := by
  obtain ⟨n, hn⟩ : ∃ n, n = h.toNat := ⟨_, rfl⟩
  have hk : h = BitVec.ofNat 16 n := by rw [hn]; simp
  rw [← hn] at h1 h7
  interval_cases n
  exacts [⟨.rd, hk⟩, ⟨.rds, hk⟩, ⟨.wr, hk⟩, ⟨.gopen, hk⟩, ⟨.gwrite, hk⟩, ⟨.gclose, hk⟩, ⟨.gabort, hk⟩]

section
variable {own : Station} {rank : BitVec 4} {d : Descriptor} {seq : Byte} {retry : Bool} {data : List Word} {k : ReqKind}

theorem requestFrame_of_kind (hk : d.kind = k.code.setWidth 16) : requestFrame own rank d seq retry data =
    ⟨.request, rank, own, k.code, d.target.extractLsb' 0 8 :: seq :: flagsByte retry :: k.bytesOf d data⟩ := by
  cases k <;> simp only [requestFrame, hk, ReqKind.code] <;> rfl

/-- The kinds that carry address and count, and those that carry data words. -/
def ReqKind.ranged (k : ReqKind) : Prop := k = .rd ∨ k = .rds ∨ k = .wr ∨ k = .gwrite

theorem requestOf_requestFrame (hk : d.kind = k.code.setWidth 16) (hc : k.ranged → 1 ≤ d.count.toNat ∧ d.count.toNat ≤ 16)
    (hd : k = .wr ∨ k = .gwrite → data.length = d.count.toNat) :
    requestOf (requestFrame own rank d seq retry data) = some (k.requestFor d seq retry data) := by
  rw [requestFrame_of_kind hk]
  cases k with
  | rd => exact readFields_sent .rd (hc (by simp [ReqKind.ranged]))
  | rds => exact readFields_sent .rds (hc (by simp [ReqKind.ranged]))
  | wr => exact writeFields_sent .wr 0 (hc (by simp [ReqKind.ranged])) (hd (by simp))
  | gwrite =>
    have hw := writeFields_sent (seq := seq) (retry := retry) .gwrite (d.tag.extractLsb' 0 4) (hc (by simp [ReqKind.ranged])) (hd (by simp))
    rw [← tagOf_tagByte] at hw
    exact hw.trans (by rw [tagOf_tagByte]; rfl)
  | gopen | gclose | gabort =>
    show some (Request.mk _ _ (retryOf _) (tagOf _) _ _ _) = _
    rw [retryOf_flagsByte, tagOf_tagByte]; rfl

theorem formatOk_requestFrame (hk : d.kind = k.code.setWidth 16) (hc : k.ranged → 1 ≤ d.count.toNat ∧ d.count.toNat ≤ 16)
    (hd : k = .wr ∨ k = .gwrite → data.length = d.count.toNat) : formatOk (requestFrame own rank d seq retry data) = true := by
  have hlen : (k.bytesOf d data).length ≤ 68 := by
    cases k with
    | wr | gwrite =>
      have := hc (by simp [ReqKind.ranged])
      have := hd (by simp)
      simp only [ReqKind.bytesOf, List.length_cons, List.length_append, bytesOfWords_length, List.length_nil]
      omega
    | rd | rds | gopen | gclose | gabort => simp [ReqKind.bytesOf]
  have hkind : k.code ≠ kindPresence := by cases k <;> decide
  rw [requestFrame_of_kind hk]
  simp only [formatOk, if_neg hkind, headerOf, Option.isSome_some, Bool.and_true, List.length_cons, Config.maxFrameBytes]
  exact decide_eq_true (by omega)

end

/-! ### Responses and PRESENCE -/

section
variable {own p : Station} {rank : BitVec 4} {seq : Byte} {n : Nat} {purged : Bool}

/-- The answer that the requester reads in the frame of a reply (R104, R152). -/
def Reply.answer : Reply → Answer
  | .data ws => .data ws
  | .done k => .done (BitVec.ofNat 8 k)
  | .defer => .defer
  | .busy => .busy
  | .refuse c => .refuse c.code

theorem responseOf_responseFrame {reply : Reply} (h : ∀ ws, reply = .data ws → ws.length ≤ 16) :
    responseOf (responseFrame own rank ⟨p, seq, reply, n, purged⟩) = some ⟨addressByte p, seq, reply.answer⟩ := by
  cases reply with
  | data ws =>
    have hw : ws.length = (BitVec.ofNat 8 ws.length).toNat := by
      have := h ws rfl
      rw [BitVec.toNat_ofNat]
      omega
    simp only [responseOf, responseFrame, List.cons_append, List.nil_append, if_true, wordsOfBytes_bytesOfWords, if_pos hw, Reply.answer]
  | done k => rfl
  | defer => rfl
  | busy => rfl
  | refuse c => rfl

theorem formatOk_responseFrame {reply : Reply} (h : ∀ ws, reply = .data ws → ws.length ≤ 16) :
    formatOk (responseFrame own rank ⟨p, seq, reply, n, purged⟩) = true := by
  have hlen : (responseFrame own rank ⟨p, seq, reply, n, purged⟩).body.length ≤ 71 := by
    cases reply with
    | data ws =>
      have := h ws rfl
      simp only [responseFrame, List.length_append, List.length_cons, List.length_nil, bytesOfWords_length]
      omega
    | done _ | defer | busy | refuse _ => simp [responseFrame]
  have hcls : (responseFrame own rank ⟨p, seq, reply, n, purged⟩).cls = .response := by cases reply <;> rfl
  simp only [formatOk, hcls, responseOf_responseFrame h, Option.isSome_some, Bool.and_true, decide_eq_true_eq]
  exact hlen

theorem presenceOf_presenceFrame (m : Mark) : presenceOf (presenceFrame own rank m) = some m := by
  simp only [presenceOf, presenceFrame, and_self, if_true]
  cases m <;> rfl

theorem formatOk_presenceFrame (m : Mark) : formatOk (presenceFrame own rank m) = true := by
  have h := presenceOf_presenceFrame (own := own) (rank := rank) m
  simp only [presenceFrame] at h
  simp [formatOk, presenceFrame, h, Config.maxFrameBytes]

end

/-- Settles O33, kind by kind. -/
theorem frameFieldsRoundTrip : Obligations.FrameFieldsRoundTrip := by
  refine ⟨fun own rank d seq retry data h1 h7 hc hd => ?_, fun own p rank seq reply n purged h => ?_,
    fun own rank m => ⟨formatOk_presenceFrame m, presenceOf_presenceFrame m⟩⟩
  · obtain ⟨k, hk⟩ := kind_of_code h1 h7
    have hranged : (d.kind = 1 ∨ d.kind = 2 ∨ d.kind = 3 ∨ d.kind = 5) ↔ k.ranged := by
      rw [hk]; cases k <;> simp [ReqKind.ranged] <;> decide
    have hdata : (d.kind = 3 ∨ d.kind = 5) ↔ k = .wr ∨ k = .gwrite := by
      rw [hk]; cases k <;> simp <;> decide
    rw [hranged] at hc
    rw [hdata] at hd
    refine ⟨formatOk_requestFrame hk hc hd, _, requestOf_requestFrame hk hc hd, ?_⟩
    have hcode : d.kind.extractLsb' 0 4 = k.code := by rw [hk]; cases k <;> rfl
    have htag : 4 ≤ d.kind.toNat ↔ k ≠ .rd ∧ k ≠ .rds ∧ k ≠ .wr := by rw [hk]; cases k <;> decide
    rw [hranged, hdata, hcode, htag]
    cases k <;> simp [ReqKind.requestFor, ReqKind.ranged]
  · exact ⟨formatOk_responseFrame h, (responseOf_responseFrame h).trans (by cases reply <;> rfl)⟩

end Sys2Proof.Machine
end

section
/-! PROOFS. The Requester Engine (O15, O16, O34 to O37): admission, completion space, finishing, responses, timers and what the RE and the TE take. -/

namespace Sys2Proof.Machine

/-! ### Admission (R96 to R98) -/

section
variable {s : State} {e : Fin 8} {q : Queued} {l r : List Queued}

theorem freeEntry_eq_none (h : ∀ e, s.re.table.at e ≠ none) : freeEntry s = none :=
  List.find?_eq_none.mpr fun e _ => by simpa using h e

/-- The lowest-numbered FREE entry (R97). -/
theorem freeEntry_eq_some (he : s.re.table.at e = none) (hlow : ∀ f, f < e → s.re.table.at f ≠ none) : freeEntry s = some e :=
  find_all8 _ e (by rw [he]; rfl) fun f hf => Option.isNone_eq_false_iff.mpr (Option.isSome_iff_ne_none.mpr (hlow f hf))

theorem candidate_eq_none (h : ∀ q ∈ s.re.queue, ∃ e x, s.re.table.at e = some x ∧ x.desc.target = q.desc.target) : candidate s = none :=
  List.find?_eq_none.mpr fun q hq => by simpa using (targetTaken_eq_true s q.desc.target).mpr (h q hq)

theorem targetTaken_eq_false {t : Half} (h : ∀ f x, s.re.table.at f = some x → x.desc.target ≠ t) : targetTaken s t = false :=
  Bool.eq_false_iff.mpr fun ht => have ⟨f, x, hx, ht⟩ := (targetTaken_eq_true s t).mp ht; h f x hx ht

/-- The oldest queued descriptor whose target has no entry (R96). -/
theorem candidate_eq_some (hq : s.re.queue = l ++ q :: r)
    (hl : ∀ q' ∈ l, ∃ f x, s.re.table.at f = some x ∧ x.desc.target = q'.desc.target)
    (hfree : ∀ f x, s.re.table.at f = some x → x.desc.target ≠ q.desc.target) : candidate s = some q := by
  unfold candidate
  rw [hq]
  exact find_append_cons (fun q' hq' => by simpa using (targetTaken_eq_true s q'.desc.target).mpr (hl q' hq'))
    (by rw [targetTaken_eq_false hfree]; rfl)

/-- The candidate is not among the descriptors before it, whose targets are taken. -/
theorem erase_candidate (hq : s.re.queue = l ++ q :: r)
    (hl : ∀ q' ∈ l, ∃ f x, s.re.table.at f = some x ∧ x.desc.target = q'.desc.target)
    (hfree : ∀ f x, s.re.table.at f = some x → x.desc.target ≠ q.desc.target) : s.re.queue.erase q = l ++ r := by
  rw [hq, erase_append_cons fun hmem => have ⟨f, x, hx, ht⟩ := hl q hmem; hfree f x hx ht]

/-- A descriptor leaves the queue with a completion of 0 words and 0 attempts (R97). -/
theorem retire_eq {st : Status} {dt : Detail} (hq : s.re.queue.erase q = l) : retire q st dt s = { s with
    re := { s.re with queue := l }
    lp := { s.lp with completions := s.lp.completions ++ [⟨q.desc.userTag, q.desc.kind, q.desc.target, st, dt, 0, q.desc.buffer, 0⟩] } } := by
  simp only [retire, postCompletion, dequeue, hq, completionFor]

/-- A descriptor that fails a check is retired, or stalls admission while the completion queue is full (R97). -/
theorem admission_retires {st : Status} {dt : Detail} (hs : s.stc.state = .joined) (hst : s.re.stalled = false)
    (he : freeEntry s = some e) (hc : candidate s = some q) (hq : s.re.queue.erase q = l) (hd : checkDescriptor s q.desc = some (st, dt)) :
    (s.lp.completions.length < 16 → admission s = admission { s with
      re := { s.re with queue := l }
      lp := { s.lp with completions := s.lp.completions ++ [⟨q.desc.userTag, q.desc.kind, q.desc.target, st, dt, 0, q.desc.buffer, 0⟩] } }) ∧
    (16 ≤ s.lp.completions.length → admission s = { s with re := { s.re with stalled := true } }) := by
  rw [admission_step s e q hs hst he hc, hd]
  dsimp only
  refine ⟨fun h => ?_, fun h => ?_⟩
  · rw [if_pos ((completionSpace_iff s).mpr h), retire_eq hq]
  · rw [if_neg fun hsp => absurd ((completionSpace_iff s).mp hsp) (by omega)]; rfl

/-- A descriptor that passes every check becomes an outstanding entry, last in the ready order (R97 to R100). -/
theorem admission_admits {p : Station} (hs : s.stc.state = .joined) (hst : s.re.stalled = false)
    (he : freeEntry s = some e) (hc : candidate s = some q) (hq : s.re.queue.erase q = l) (hp : q.desc.target.toNat = p.val + 1)
    (hd : checkDescriptor s q.desc = none) : admission s = admission { s with
      re := { s.re with
        queue := l
        table := s.re.table.put e (some ⟨q.desc, (s.pt.peers.at p).nextSeq, .readyToSend, 0, 0, 0, false, false, .stopped, .stopped, .stopped, none⟩)
        ready := s.re.ready ++ [e] }
      pt := { s.pt with peers := s.pt.peers.put p { s.pt.peers.at p with nextSeq := (s.pt.peers.at p).nextSeq + 1 } } } := by
  rw [admission_step s e q hs hst he hc, hd]
  dsimp only
  simp only [admitEntry, stationOfHalf_of_toNat hp, makeReady, putEntry, updatePeer, dequeue, hq, freshEntry]

end

/-! ### The checks of R97 -/

section
variable {s : State} {d : Descriptor} {p : Station}

theorem checkDescriptor_kind (h : ¬ (1 ≤ d.kind.toNat ∧ d.kind.toNat ≤ 7)) : checkDescriptor s d = some (.invalid, .check .kind) :=
  if_pos h

theorem checkDescriptor_target (hk : 1 ≤ d.kind.toNat ∧ d.kind.toNat ≤ 7)
    (h : d.target.toNat = 0 ∨ 16 < d.target.toNat ∨ d.target.toNat = s.stc.address.val + 1) :
    checkDescriptor s d = some (.invalid, .check .target) := by
  unfold checkDescriptor
  rw [if_neg (not_not_intro hk)]
  rcases or_assoc.mpr h with h | h
  · rw [stationOfHalf_eq_none h]
  · rw [stationOfHalf_of_toNat h]
    exact if_pos rfl

theorem checkDescriptor_count (hk : 1 ≤ d.kind.toNat ∧ d.kind.toNat ≤ 7) (hp : d.target.toNat = p.val + 1) (ho : p ≠ s.stc.address)
    (h : ¬ (d.kind = 1 ∨ d.kind = 2 ∨ d.kind = 3 ∨ d.kind = 5 → 1 ≤ d.count.toNat ∧ d.count.toNat ≤ 16)) :
    checkDescriptor s d = some (.invalid, .check .count) := by
  rw [checkDescriptor_of_station s d p hk (stationOfHalf_of_toNat hp) ho, if_pos ((count_check d).mpr h)]

theorem checkDescriptor_buffer (hk : 1 ≤ d.kind.toNat ∧ d.kind.toNat ≤ 7) (hp : d.target.toNat = p.val + 1) (ho : p ≠ s.stc.address)
    (hc : d.kind = 1 ∨ d.kind = 2 ∨ d.kind = 3 ∨ d.kind = 5 → 1 ≤ d.count.toNat ∧ d.count.toNat ≤ 16)
    (h : ¬ (d.kind = 1 ∨ d.kind = 2 ∨ d.kind = 3 ∨ d.kind = 5 → d.buffer.toNat ≤ 15)) :
    checkDescriptor s d = some (.invalid, .check .buffer) := by
  rw [checkDescriptor_of_station s d p hk (stationOfHalf_of_toNat hp) ho, if_neg fun hf => (count_check d).mp hf hc,
    if_pos ((buffer_check d).mpr h)]

theorem checkDescriptor_peer (hk : 1 ≤ d.kind.toNat ∧ d.kind.toNat ≤ 7) (hp : d.target.toNat = p.val + 1) (ho : p ≠ s.stc.address)
    (hc : d.kind = 1 ∨ d.kind = 2 ∨ d.kind = 3 ∨ d.kind = 5 → 1 ≤ d.count.toNat ∧ d.count.toNat ≤ 16)
    (hb : d.kind = 1 ∨ d.kind = 2 ∨ d.kind = 3 ∨ d.kind = 5 → d.buffer.toNat ≤ 15) :
    checkDescriptor s d = peerCheck (s.pt.peers.at p) := by
  rw [checkDescriptor_of_station s d p hk (stationOfHalf_of_toNat hp) ho, if_neg fun hf => (count_check d).mp hf hc,
    if_neg fun hf => (buffer_check d).mp hf hb]

theorem peerCheck_absent {e : Peer} (h : e.presence = .absent) : peerCheck e = some (.peerAbsent, .cause .silent) := by
  simp only [peerCheck, h]

theorem peerCheck_departed {e : Peer} {c : Departure} (h : e.presence = .present) (hd : e.departure = some c) :
    peerCheck e = some (.peerAbsent, .cause c) := by
  simp only [peerCheck, h, hd]

theorem peerCheck_settled {e : Peer} (h : e.presence = .present) (hd : e.departure = none) : peerCheck e = none := by
  simp only [peerCheck, h, hd]

end

/-- Settles O15, check by check. -/
theorem admissionTakesCandidates : Obligations.AdmissionTakesCandidates := by
  intro s
  refine ⟨fun h => ?stops, fun e l r q hs hst he hlow hq hl hfree => ?takes⟩
  case stops =>
    refine attemptAdmission_stop s ?_ _
    rcases h with h | h | h | h
    · exact Or.inl fun hj => h hj.1
    · exact Or.inl fun hj => by rw [h] at hj; exact nomatch hj.2
    · exact Or.inr (Or.inl (freeEntry_eq_none h))
    · exact Or.inr (Or.inr (candidate_eq_none h))
  case takes =>
    intro d sized without retired goodKind goodCount goodBuffer
    have hentry := freeEntry_eq_some he hlow
    have hcand := candidate_eq_some hq hl hfree
    have herase := erase_candidate hq hl hfree
    have hretired : ∀ {st dt}, checkDescriptor s d = some (st, dt) → retired st dt :=
      fun hd => admission_retires hs hst hentry hcand herase hd
    refine ⟨fun hk => hretired (checkDescriptor_kind hk), fun hk ht => hretired (checkDescriptor_target hk ht), fun hk p hp ho =>
      ⟨fun hc => hretired (checkDescriptor_count hk hp ho hc), fun hc hb => hretired (checkDescriptor_buffer hk hp ho hc hb), fun hc hb => ?_⟩⟩
    have hcheck := checkDescriptor_peer hk hp ho hc hb
    exact ⟨fun ha => hretired (hcheck.trans (peerCheck_absent ha)), fun c hp' hd => hretired (hcheck.trans (peerCheck_departed hp' hd)),
      fun hp' hd => admission_admits hs hst hentry hcand herase hp (hcheck.trans (peerCheck_settled hp' hd))⟩

/-! ### Completion space (R109, R111, R146) -/

/-- Station s with its stall ended when no result waits in COMPLETING (R97). -/
def State.unstalled (s : State) : State := if s.re.completing = [] then { s with re := { s.re with stalled := false } } else s

section
variable {s : State}

theorem completionSpaceGained_eq : completionSpaceGained s = admission
    (retireCancelled (postWaiting s.re.completing.length s).re.queue.length (postWaiting s.re.completing.length s)).unstalled := rfl

theorem postWaiting_of_none (n : Nat) (h : s.re.completing = []) : postWaiting n s = s := by
  cases n with
  | zero => rfl
  | succ n => simp only [postWaiting, h]

theorem postWaiting_of_full (n : Nat) (h : 16 ≤ s.lp.completions.length) : postWaiting n s = s := by
  cases n with
  | zero => rfl
  | succ n =>
    have hs : completionSpace s = false := Bool.eq_false_iff.mpr fun h' => absurd ((completionSpace_iff s).mp h') (by omega)
    simp only [postWaiting]
    split
    · rfl
    · rw [if_neg (by rw [hs]; nofun)]

/-- The oldest waiting result is posted and its entry becomes FREE (R109). -/
theorem postWaiting_posts {e : Fin 8} {es : List (Fin 8)} {x : Entry} {r : Result} (n : Nat) (hc : s.re.completing = e :: es)
    (hx : s.re.table.at e = some x) (hr : x.result = some r) (hs : s.lp.completions.length < 16) :
    postWaiting (n + 1) s = postWaiting n { s with
      lp := { s.lp with completions := s.lp.completions ++
        [⟨x.desc.userTag, x.desc.kind, x.desc.target, r.status, r.detail, r.words, x.desc.buffer, x.attempts⟩] }
      re := { s.re with table := s.re.table.put e none, completing := es } } := by
  simp only [postWaiting, hc, if_pos ((completionSpace_iff s).mpr hs), hx, hr, putEntry, postCompletion, completionFor]

theorem retireCancelled_of_full (n : Nat) (h : 16 ≤ s.lp.completions.length) : retireCancelled n s = s := by
  cases n with
  | zero => rfl
  | succ n => exact if_neg fun hc => absurd ((completionSpace_iff s).mp hc.2) (by omega)

theorem retireCancelled_of_none (n : Nat) (h : ∀ q ∈ s.re.queue, q.cancelled = false) : retireCancelled n s = s := by
  have hf : s.re.queue.find? (·.cancelled) = none := List.find?_eq_none.mpr fun q hq => by rw [h q hq]; nofun
  cases n with
  | zero => rfl
  | succ n => simp only [retireCancelled, hf, ite_self]

/-- The oldest cancelled descriptor is retired (R111). -/
theorem retireCancelled_retires {q : Queued} {l r : List Queued} (n : Nat) (hc : s.re.completing = []) (hs : s.lp.completions.length < 16)
    (hq : s.re.queue = l ++ q :: r) (hqc : q.cancelled = true) (hl : ∀ q' ∈ l, q'.cancelled = false) :
    retireCancelled (n + 1) s = retireCancelled n { s with
      lp := { s.lp with completions := s.lp.completions ++ [⟨q.desc.userTag, q.desc.kind, q.desc.target, .cancelled, .none, 0, q.desc.buffer, 0⟩] }
      re := { s.re with queue := l ++ r } } := by
  have hf : s.re.queue.find? (·.cancelled) = some q := by rw [hq]; exact find_append_cons hl hqc
  have herase : s.re.queue.erase q = l ++ r := by
    rw [hq, erase_append_cons fun hmem => by rw [hl q hmem] at hqc; exact nomatch hqc]
  simp only [retireCancelled, if_pos (And.intro hc ((completionSpace_iff s).mpr hs)), hf, retire_eq herase]

theorem consumeCompletion_of_none (h : s.lp.completions = []) : consumeCompletion s = s := by simp only [consumeCompletion, h]

theorem consumeCompletion_of_cons {c : Completion} {rest : List Completion} (h : s.lp.completions = c :: rest) :
    consumeCompletion s = completionSpaceGained { s with lp := { s.lp with completions := rest } } := by
  simp only [consumeCompletion, h]

theorem completionSpaceGained_of_nothing (hc : s.re.completing = []) (hq : ∀ q ∈ s.re.queue, q.cancelled = false) :
    completionSpaceGained s = admission s.unstalled := by
  rw [completionSpaceGained_eq, postWaiting_of_none _ hc, retireCancelled_of_none _ hq]

/-- One place in the completion queue: the oldest waiting result takes it. -/
theorem completionSpaceGained_of_result {e : Fin 8} {es : List (Fin 8)} {x : Entry} {r : Result} (hlen : s.lp.completions.length = 15)
    (hc : s.re.completing = e :: es) (hx : s.re.table.at e = some x) (hr : x.result = some r) :
    completionSpaceGained s = admission (State.unstalled { s with
      lp := { s.lp with completions := s.lp.completions ++
        [⟨x.desc.userTag, x.desc.kind, x.desc.target, r.status, r.detail, r.words, x.desc.buffer, x.attempts⟩] }
      re := { s.re with table := s.re.table.put e none, completing := es } }) := by
  have hfull : 16 ≤ (s.lp.completions ++
      [(⟨x.desc.userTag, x.desc.kind, x.desc.target, r.status, r.detail, r.words, x.desc.buffer, x.attempts⟩ : Completion)]).length := by
    rw [List.length_append, hlen]; exact le_rfl
  have hpost : postWaiting s.re.completing.length s = { s with
      lp := { s.lp with completions := s.lp.completions ++
        [⟨x.desc.userTag, x.desc.kind, x.desc.target, r.status, r.detail, r.words, x.desc.buffer, x.attempts⟩] }
      re := { s.re with table := s.re.table.put e none, completing := es } } := by
    rw [hc, List.length_cons, postWaiting_posts _ hc hx hr (by omega), postWaiting_of_full _ hfull]
  rw [completionSpaceGained_eq, hpost, retireCancelled_of_full _ hfull]

/-- With no result waiting the oldest cancelled descriptor takes it. -/
theorem completionSpaceGained_of_cancelled {q : Queued} {l r : List Queued} (hlen : s.lp.completions.length = 15) (hc : s.re.completing = [])
    (hq : s.re.queue = l ++ q :: r) (hqc : q.cancelled = true) (hl : ∀ q' ∈ l, q'.cancelled = false) :
    completionSpaceGained s = admission (State.unstalled { s with
      lp := { s.lp with completions := s.lp.completions ++ [⟨q.desc.userTag, q.desc.kind, q.desc.target, .cancelled, .none, 0, q.desc.buffer, 0⟩] }
      re := { s.re with queue := l ++ r } }) := by
  have hfull : 16 ≤ (s.lp.completions ++
      [(⟨q.desc.userTag, q.desc.kind, q.desc.target, .cancelled, .none, 0, q.desc.buffer, 0⟩ : Completion)]).length := by
    rw [List.length_append, hlen]; exact le_rfl
  have hn : s.re.queue.length = (l ++ r).length + 1 := by rw [hq]; simp [Nat.add_assoc]
  rw [completionSpaceGained_eq, postWaiting_of_none _ hc, hn, retireCancelled_retires _ hc (by omega) hq hqc hl,
    retireCancelled_of_full _ hfull]

theorem exec_completionConsume (hp : s.portReady) (v : Half) :
    exec (.completionConsume v) s = .next (reselect (State.cycleDone (.write 0x231A v) 0 (consumeCompletion s))) := by
  have hw := write_window hp 0x231A v 0x1A (by decide)
  simp only [exec, execCompletionConsume, nextWithSelection, hw]
  rfl

theorem exec_eventConsume (hp : s.portReady) (v : Half) :
    exec (.eventConsume v) s = .next (State.cycleDone (.write 0x232A v) 0 (consumeEvent s)) := by
  have hw := write_window hp 0x232A v 0x2A (by decide)
  simp only [exec, execEventConsume, hw]
  rfl

theorem consumeEvent_of_none (h : s.lp.events = []) : consumeEvent s = s := by simp only [consumeEvent, h]

theorem consumeEvent_of_cons {e : Event} {rest : List Event} (h : s.lp.events = e :: rest) : consumeEvent s = { s with
    lp := { s.lp with events := rest, eventsLost := if rest = [] then false else s.lp.eventsLost } } := by
  simp only [consumeEvent, h]
  cases rest <;> simp

end

/-- Settles O16. -/
theorem queueHeadsConsumed : Obligations.QueueHeadsConsumed := by
  refine ⟨fun v s hp => ?completions, fun v s hp => ?events⟩
  case completions =>
    rw [exec_completionConsume hp]
    refine ⟨fun h => by rw [consumeCompletion_of_none h], fun c rest h hc hq => ?_, fun c rest e es x r h hlen hc hx hr => ?_,
      fun c rest l q r h hlen hc hq hqc hl => ?_⟩ <;> rw [consumeCompletion_of_cons h]
    · rw [completionSpaceGained_of_nothing (s := { s with lp := { s.lp with completions := rest } }) hc hq]; rfl
    · rw [completionSpaceGained_of_result (s := { s with lp := { s.lp with completions := rest } }) hlen hc hx hr]; rfl
    · rw [completionSpaceGained_of_cancelled (s := { s with lp := { s.lp with completions := rest } }) hlen hc hq hqc hl]; rfl
  case events =>
    rw [exec_eventConsume hp]
    exact ⟨fun h => by rw [consumeEvent_of_none h], fun e rest h => by rw [consumeEvent_of_cons h]⟩

end Sys2Proof.Machine
end

section
/-! PROOFS. Outstanding entries (O34 to O37): how they finish, what responses, timers, announcements and the start of LEAVING make of them. -/

namespace Sys2Proof.Machine

/-! ### Finishing (R99, R109, R122) -/

section
variable {s : State} {e : Fin 8} {x : Entry} {st : Status} {dt : Detail} {words : Nat}

theorem finishEntry_of_space (hx : s.re.table.at e = some x) (h : s.lp.completions.length < 16) :
    finishEntry e st dt words s = admission { s with
      lc := { s.lc with slot := s.lc.slot.without (.request e) }
      lp := { s.lp with completions := s.lp.completions ++
        [⟨x.desc.userTag, x.desc.kind, x.desc.target, st, dt, words, x.desc.buffer, x.attempts⟩] }
      re := { s.re with table := s.re.table.put e none, ready := s.re.ready.erase e } } := by
  simp only [finishEntry, hx, if_pos ((completionSpace_iff s).mpr h), retractEntry, withdrawOffer, postCompletion, putEntry, completionFor]

theorem finishEntry_of_full (hx : s.re.table.at e = some x) (h : 16 ≤ s.lp.completions.length) :
    finishEntry e st dt words s = { s with
      lc := { s.lc with slot := s.lc.slot.without (.request e) }
      re := { s.re with
        table := s.re.table.put e (some { x with
          state := .completing, window := .stopped, backoff := .stopped, deadline := .stopped, result := some ⟨st, dt, words⟩ })
        ready := s.re.ready.erase e
        completing := s.re.completing ++ [e] } } := by
  have hs : ¬ completionSpace s = true := fun h' => absurd ((completionSpace_iff s).mp h') (by omega)
  simp only [finishEntry, hx, if_neg hs, retractEntry, withdrawOffer, putEntry, Entry.stopTimers]

end

/-- Settles O34. -/
theorem entryFinishes : Obligations.EntryFinishes := fun _ _ _ _ _ _ hx =>
  ⟨_, TxSlot.without_withdrawn _ _, finishEntry_of_space hx, finishEntry_of_full hx⟩

/-! ### Responses (R104 to R107) -/

section
variable {s : State} {f : Frame} {r : ResponseFields} {e : Fin 8} {x : Entry}

theorem matchingEntry_eq_none {p : Station} {q : Byte} (h : ∀ e x, ¬ Matches s p q x e) : matchingEntry s p q = none :=
  List.find?_eq_none.mpr fun e _ he => have ⟨x, hx⟩ := (entryMatches_iff s p q e).mp he; h e x hx

theorem passToRequester_of_unmatched (hr : responseOf f = some r) (h : ∀ e x, ¬ Matches s f.sender r.seq x e) : passToRequester f s = s := by
  simp only [passToRequester, hr, takeResponse, matchingEntry_eq_none h, ite_self]

theorem passToRequester_of_other (h : ∀ r, responseOf f = some r → r.requester ≠ addressByte s.stc.address) : passToRequester f s = s := by
  unfold passToRequester
  cases hr : responseOf f with
  | none => rfl
  | some r => exact if_neg (h r hr)

theorem passToRequester_of_matches (hl : TableLaws s) (hr : responseOf f = some r) (ho : r.requester = addressByte s.stc.address)
    (hm : Matches s f.sender r.seq x e) : passToRequester f s = takeAnswer e x r.answer s := by
  simp only [passToRequester, hr, if_pos ho, takeResponse, matchingEntry_of_matches hl hm, hm.1]

/-- A REPLY_DATA stores its words in the entry's buffer (R95). -/
theorem takeAnswer_data {ws : List Word} {b : Fin 16} (hk : x.desc.kind = 1 ∨ x.desc.kind = 2) (hn : ws.length = x.desc.count.toNat)
    (hb : x.desc.references b) : takeAnswer e x (.data ws) s = finishEntry e .ok .none ws.length
      { s with lp := { s.lp with buffers := s.lp.buffers.writeAll (16 * b.val) ws } } := by
  simp only [takeAnswer, if_pos (And.intro hk hn), writeBuffer, (bufferOf_eq_some x.desc b).mpr hb]
  rfl

theorem timely_iff : x.timely = true ↔ x.state = .awaitResponse := decide_eq_true_iff

/-- What a deferral or a busy answer makes of a timely entry whose deadline has not passed (R106, R107). -/
theorem backOffOrCancel_eq (y : Entry) : backOffOrCancel e y s =
    if s.stc.state = .leaving then finishEntry e .cancelled .none 0 { s with re := { s.re with table := s.re.table.put e (some y) } }
    else { s with re := { s.re with table := s.re.table.put e (some { y with
      state := .backoff, window := .stopped, backoff := .running s.stc.active.retryInterval.toNat }) } } := rfl

theorem takeAnswer_defer (hk : x.desc.kind = 2) (y : Entry)
    (hy : y = { x with deferred := true, deadline := if x.deferred then x.deadline else .running (1000 * s.stc.active.deferralDeadline.toNat), lost := 0 }) :
    takeAnswer e x .defer s =
      if x.state ≠ .awaitResponse then { s with re := { s.re with table := s.re.table.put e (some y) } }
      else if x.deadlinePassed then finishEntry e .deferralTimeout .none 0 s
      else backOffOrCancel e y s := by
  have hnote : x.noteDeferral (deferralDeadline s) = y := hy.symm
  simp only [takeAnswer, if_pos hk, takeDefer, hnote, timely_iff]
  split
  · next h => rw [if_neg (not_not_intro h)]
  · rfl

theorem takeAnswer_busy (hk : x.desc.kind = 2) : takeAnswer e x .busy s =
    if x.state ≠ .awaitResponse then s
    else if x.deadlinePassed then finishEntry e .deferralTimeout .none 0 s
    else if s.stc.active.busyLimit.toNat < x.busy + 1 then
      finishEntry e .busyLimit .none 0 { s with re := { s.re with table := s.re.table.put e (some { x with busy := x.busy + 1, lost := 0 }) } }
    else backOffOrCancel e { x with busy := x.busy + 1, lost := 0 } s := by
  simp only [takeAnswer, if_pos hk, takeBusy, timely_iff]
  split
  · next h => rw [if_neg (not_not_intro h)]; rfl
  · rfl

end

/-- Settles O35, answer by answer. -/
theorem responseTaken : Obligations.ResponseTaken := by
  intro f s hl
  refine ⟨fun r hr _ hn => passToRequester_of_unmatched hr hn, passToRequester_of_other, fun r e x hr ho hm => ?_⟩
  intro t reads put retry deferred busy
  have ht : t = takeAnswer e x r.answer s := passToRequester_of_matches hl hr ho hm
  rw [ht]
  refine ⟨fun c ha => ?refuse, fun n ha hk => ?done, fun ws b ha hk hn hb => ?data, fun ha hk => ?defer, fun ha hk => ?busy, fun h => ?discarded⟩
  case refuse => rw [ha]; rfl
  case done => rw [ha]; exact if_neg hk
  case data =>
    rw [ha, takeAnswer_data hk hn hb]
    exact ⟨_, rfl, fun k => Mem.read_writeAll_getD ws s.lp.buffers (16 * b.val) k⟩
  case defer => rw [ha, takeAnswer_defer hk deferred rfl, backOffOrCancel_eq]
  case busy => rw [ha, takeAnswer_busy hk, backOffOrCancel_eq]
  case discarded =>
    rcases h with ⟨⟨n, ha⟩, hk⟩ | ⟨ws, ha, hk⟩ | ⟨ha | ha, hk⟩ <;> rw [ha]
    · exact if_pos hk
    · exact if_neg hk
    · exact if_neg hk
    · exact if_neg hk

/-! ### The timers of an entry (R102, R103, R108) -/

section
variable {s : State} {e : Fin 8} {x : Entry} {us : Nat}

theorem exec_responseWindowExpiry (hx : s.re.table.at e = some x) (hst : x.state = .awaitResponse) (ht : x.window = .running us) :
    exec (.responseWindowExpiry e) s =
      .next (reselect (copyUnanswered e { x with window := .stopped } (putEntry e (some { x with window := .stopped }) s))) := by
  have hr : x.window.isRunning = true := by rw [ht]; rfl
  simp only [exec, execResponseWindowExpiry, hx, if_pos (And.intro hst hr), nextWithSelection]

theorem exec_backoffExpiry (hx : s.re.table.at e = some x) (hst : x.state = .backoff) (ht : x.backoff = .running us) :
    exec (.backoffExpiry e) s = .next (reselect { s with re := { s.re with
      table := s.re.table.put e (some { x with state := .readyToSend, backoff := .stopped })
      ready := s.re.ready ++ [e] } }) := by
  have hr : x.backoff.isRunning = true := by rw [ht]; rfl
  simp only [exec, execBackoffExpiry, hx, if_pos (And.intro hst hr), nextWithSelection, makeReady, putEntry]

/-- The deadline of an entry with no copy on the line and none that waits for its response (R108). -/
theorem exec_deferralDeadlineExpiry_ends (hx : s.re.table.at e = some x) (ht : x.deadline = .running us)
    (hst : x.state = .backoff ∨ (x.state = .readyToSend ∧ onLineOffer s ≠ some (.request e))) :
    exec (.deferralDeadlineExpiry e) s =
      .next (reselect (finishEntry e .deferralTimeout .none 0 (putEntry e (some { x with deadline := .stopped }) s))) := by
  have hr : x.deadline.isRunning = true := by rw [ht]; rfl
  simp only [exec, execDeferralDeadlineExpiry, hx, hr, if_true]
  rcases hst with h | ⟨h, hn⟩ <;> rw [h]
  · rfl
  · simp only [if_neg hn, nextWithSelection]

/-- The deadline of an entry whose copy is on the line or waits for its response is noted (R108). -/
theorem exec_deferralDeadlineExpiry_noted (hx : s.re.table.at e = some x) (ht : x.deadline = .running us)
    (hst : x.state = .awaitResponse ∨ (x.state = .readyToSend ∧ onLineOffer s = some (.request e))) :
    exec (.deferralDeadlineExpiry e) s = .next (putEntry e (some { x with deadline := .stopped, deadlinePassed := true }) s) := by
  have hr : x.deadline.isRunning = true := by rw [ht]; rfl
  simp only [exec, execDeferralDeadlineExpiry, hx, hr, if_true]
  rcases hst with h | ⟨h, hn⟩ <;> rw [h]
  exact if_pos hn

end

/-- Settles O36, timer by timer. -/
theorem entryTimersExpire : Obligations.EntryTimersExpire := by
  intro e s x hx put windowed lost dead ends
  refine ⟨fun us hst ht => ?window, fun us => exec_backoffExpiry hx, fun us ht =>
    ⟨fun h => exec_deferralDeadlineExpiry_ends hx ht (Or.inl h), fun h hn => exec_deferralDeadlineExpiry_ends hx ht (Or.inr ⟨h, hn⟩),
      exec_deferralDeadlineExpiry_noted hx ht⟩⟩
  case window =>
    rw [exec_responseWindowExpiry hx hst ht]
    rw [copyUnanswered_eq]
    by_cases hd : x.deadlinePassed = true
    · rw [if_pos hd, if_pos hd]; rfl
    rw [if_neg hd, if_neg hd]
    by_cases hs : s.stc.state = .leaving
    · rw [if_pos hs, if_pos hs]; rfl
    rw [if_neg hs, if_neg hs]
    by_cases hlim : s.stc.active.lostLimit.toNat < x.lost + 1
    · rw [if_pos hlim, if_pos hlim]; rfl
    · rw [if_neg hlim, if_neg hlim]; rfl

/-! ### Announcements, the start of LEAVING and the restart purge (R110, R111, R77) -/

section
variable {s : State}

theorem reTakeAnnouncement_of_live {a : Announcement} {e : Fin 8} {x : Entry} (hl : TableLaws s) (ha : s.re.announced = some a)
    (hx : s.re.table.at e = some x) (hst : x.state ≠ .completing) (ht : x.desc.target.toNat = a.peer.val + 1) :
    reTakeAnnouncement s = finishEntry e a.status.1 a.status.2 0 { s with re := { s.re with announced := none } } := by
  have hlive : liveEntryToward { s with re := { s.re with announced := none } } a.peer = some e :=
    liveEntryToward_eq_some hl a.peer e x hx hst ht
  simp only [reTakeAnnouncement, ha, hlive]

theorem reTakeAnnouncement_of_noneLive {a : Announcement} (ha : s.re.announced = some a)
    (h : ∀ e x, ¬ (s.re.table.at e = some x ∧ x.state ≠ .completing ∧ x.desc.target.toNat = a.peer.val + 1)) :
    reTakeAnnouncement s = { s with re := { s.re with announced := none } } := by
  have hlive : liveEntryToward { s with re := { s.re with announced := none } } a.peer = none := liveEntryToward_eq_none a.peer h
  simp only [reTakeAnnouncement, ha, hlive]

theorem reTakeStartOfLeaving_of_not (h : s.re.startOfLeaving = false) : reTakeStartOfLeaving s = s := by
  simp only [reTakeStartOfLeaving, h]; rfl

/-- The queued descriptors are marked, and those the completion queue has space for are retired (R111). -/
theorem retireCancelled_markCancelled {v : State} :
    let n := if v.re.completing = [] then min (16 - v.lp.completions.length) v.re.queue.length else 0
    retireCancelled (markCancelled v).re.queue.length (markCancelled v) = { v with
      re := { v.re with queue := (v.re.queue.drop n).map (fun q => { q with cancelled := true }) }
      lp := { v.lp with completions := v.lp.completions ++ (v.re.queue.take n).map (fun q =>
        ⟨q.desc.userTag, q.desc.kind, q.desc.target, .cancelled, .none, 0, q.desc.buffer, 0⟩) } } := by
  intro n
  by_cases hc : v.re.completing = []
  · have hn : n = min (16 - v.lp.completions.length) v.re.queue.length := if_pos hc
    have hall : ∀ q ∈ (markCancelled v).re.queue, q.cancelled = true := fun q hq => by
      obtain ⟨q', _, rfl⟩ := List.mem_map.mp hq; rfl
    have hlen : (markCancelled v).re.queue.length = v.re.queue.length := List.length_map _
    rw [retireCancelled_all _ (markCancelled v) hc hall le_rfl, hlen, hn]
    simp only [markCancelled, ← List.map_drop, ← List.map_take, List.map_map]
    rfl
  · have hn : n = 0 := if_neg hc
    rw [retireCancelled_blocked _ (markCancelled v) hc, hn]
    simp only [markCancelled, List.drop_zero, List.take_zero, List.map_nil, List.append_nil]

theorem restartPurge_of_some {p : Station} (hp : s.te.restarted = some p) : restartPurge s =
    (let s' : State := { s with te := { s.te with restarted := none, queue := purgeQueue p (headOnLine s) s.te.queue } }
     if purgeWithdraws p s then withdrawOffer .response s' else s') := by
  simp only [restartPurge, hp]

theorem headOnLine_iff : headOnLine s = true ↔ onLineOffer s = some .response := decide_eq_true_iff

/-- A head of another requester stays (R77). -/
theorem restartPurge_of_otherHead {p : Station} (hp : s.te.restarted = some p) (h : ∀ r rs, s.te.queue = r :: rs → r.requester ≠ p) :
    restartPurge s = { s with te := { s.te with restarted := none, queue := s.te.queue.filter (fun r => r.requester ≠ p) } } := by
  rw [restartPurge_of_some hp]
  cases hq : s.te.queue with
  | nil => simp only [purgeWithdraws, purgeQueue, hq, List.filter_nil]; rfl
  | cons r rs =>
    have hr := h r rs hq
    simp only [purgeWithdraws, purgeQueue, hq, hr, decide_false, Bool.false_and, Bool.false_eq_true, if_false]
    rw [List.filter_cons_of_pos (by simpa using hr)]

/-- A purged head on the line stays until its transmission ends (R77). -/
theorem restartPurge_of_headOnLine {p : Station} {r : Response} {rs : List Response} (hp : s.te.restarted = some p) (hq : s.te.queue = r :: rs)
    (hr : r.requester = p) (ho : onLineOffer s = some .response) : restartPurge s =
      { s with te := { s.te with restarted := none, queue := { r with purged := true } :: rs.filter (fun r => r.requester ≠ p) } } := by
  rw [restartPurge_of_some hp]
  simp only [purgeWithdraws, purgeQueue, hq, hr, headOnLine_iff.mpr ho, Bool.not_true, Bool.and_false, if_true, Bool.false_eq_true, if_false]

/-- A purged head not on the line leaves the queue, and its offer the transmit slot (R77, R122). -/
theorem restartPurge_of_headWaiting {p : Station} {r : Response} {rs : List Response} (hp : s.te.restarted = some p) (hq : s.te.queue = r :: rs)
    (hr : r.requester = p) (ho : onLineOffer s ≠ some .response) : restartPurge s =
      { s with
        te := { s.te with restarted := none, queue := rs.filter (fun r => r.requester ≠ p) }
        lc := { s.lc with slot := s.lc.slot.without .response } } := by
  have hn : headOnLine s = false := Bool.eq_false_iff.mpr fun h => ho (headOnLine_iff.mp h)
  rw [restartPurge_of_some hp]
  simp only [purgeWithdraws, purgeQueue, hq, hr, hn, decide_true, Bool.not_false, Bool.and_self, if_true, Bool.false_eq_true, if_false, withdrawOffer]

end

/-- Settles O37. -/
theorem announcementsTaken : Obligations.AnnouncementsTaken := by
  intro s
  refine ⟨fun h => ?_, fun a ha hl => ?announced, rfl, reTakeStartOfLeaving_of_not, fun h => ?leaving, fun h => ?_, fun p hp => ?purge⟩
  · show Host.Outcome.next (reselect (reTakeAnnouncement s)) = _
    rw [reTakeAnnouncement_of_none h]
  case announced =>
    intro u p live
    have hp : p = a.peer := by cases a <;> rfl
    refine ⟨fun hn => congrArg (fun t => Host.Outcome.next (reselect t)) (reTakeAnnouncement_of_noneLive ha fun e x ⟨hx, hst, ht⟩ => hn e x ⟨hx, hst, hp ▸ ht⟩),
      fun e x ⟨hx, hst, ht⟩ => congrArg (fun t => Host.Outcome.next (reselect t)) ?_⟩
    rw [reTakeAnnouncement_of_live hl ha hx hst (hp ▸ ht)]
    cases a <;> rfl
  case leaving =>
    intro cancels v n
    refine congrArg (fun t => Host.Outcome.next (reselect t)) ?_
    have hv : cancelEntries all8 { s with re := { s.re with startOfLeaving := false } } = v := cancelEntries_eq_foldl _ _
    simp only [reTakeStartOfLeaving, h, if_true, hv]
    exact retireCancelled_markCancelled
  · show Host.Outcome.next (reselect (restartPurge s)) = _
    rw [restartPurge_of_none h]
  case purge =>
    intro others purged
    refine ⟨fun h => congrArg (fun t => Host.Outcome.next (reselect t)) (restartPurge_of_otherHead hp h),
      fun r rs hq hr ho => congrArg (fun t => Host.Outcome.next (reselect t)) (restartPurge_of_headOnLine hp hq hr ho),
      fun r rs hq hr ho => ⟨_, TxSlot.without_withdrawn _ _,
        congrArg (fun t => Host.Outcome.next (reselect t)) (restartPurge_of_headWaiting hp hq hr ho)⟩⟩

end Sys2Proof.Machine
end

section
/-! PROOFS. The Target Engine (O38, O39, O40): the check sequence of a frame taken into hand, requests by kind, and the RD and WR claims. -/

namespace Sys2Proof.Machine

/-! ### The frame in hand (R63, R64, R73) -/

section
variable {s : State} {f : Frame}

theorem takeNextFrame_of_not (h : s.te.hand ≠ none ∨ s.te.input = none) : takeNextFrame s = s := by
  cases hh : s.te.hand with
  | some x => exact takeNextFrame_of_hand hh
  | none =>
    cases hi : s.te.input with
    | none => simp only [takeNextFrame, hh, hi]
    | some f => exact absurd h (by rw [hh, hi]; exact not_or.mpr ⟨not_not_intro rfl, nofun⟩)

theorem checkSequence_of_full (h : 8 ≤ s.te.queue.length) : checkSequence f s = s := if_pos h

theorem checkSequence_of_room {t q fl : Byte} {r : List Byte} (hb : f.body = t :: q :: fl :: r) (h : s.te.queue.length < 8) :
    checkSequence f s = replayOrEvaluate f ⟨t, q, fl⟩ (frameTakenReport f ⟨t, q, fl⟩ s) := by
  have hr : ¬ Config.responseEntries ≤ s.te.queue.length := Nat.not_le.mpr h
  simp only [checkSequence, if_neg hr, headerOf, hb]

theorem replayedKind_iff {k : BitVec 4} : replayedKind k = true ↔ k = 3 ∨ k = 4 ∨ k = 5 ∨ k = 6 ∨ k = 7 := by
  simp only [replayedKind, Bool.or_eq_true, decide_eq_true_eq, or_assoc]
  exact Iff.rfl

theorem replay_eq_some {o : Recorded} {r : Reply} : o.replay = some r ↔ (∃ n, o = .done n ∧ r = .done n) ∨ ∃ c, o = .refuse c ∧ r = .refuse c := by
  cases o <;> simp [Recorded.replay, eq_comm]

/-- A matching re-send (R73): the retry mark, a kind that is replayed, and the reply record with this outcome. -/
def Resent (s : State) (f : Frame) (h : Header) (o : Recorded) : Prop :=
  h.flags.getLsbD 0 = true ∧ (f.kind = 3 ∨ f.kind = 4 ∨ f.kind = 5 ∨ f.kind = 6 ∨ f.kind = 7) ∧
    (s.pt.peers.at f.sender).record = some ⟨h.seq, f.kind, o⟩

theorem replayFor_of_resent {h : Header} {o : Recorded} (hr : Resent s f h o) : replayFor s f.sender f.kind h = o.replay := by
  obtain ⟨hfl, hk, hrec⟩ := hr
  have hc : (retryOf h.flags && replayedKind f.kind) = true := by rw [Bool.and_eq_true]; exact ⟨hfl, replayedKind_iff.mpr hk⟩
  simp only [replayFor, hc, if_true, hrec, and_self]

theorem replayFor_eq_none {h : Header} (hn : ∀ o r, Resent s f h o → o.replay ≠ some r) : replayFor s f.sender f.kind h = none := by
  unfold replayFor
  split
  · next hc =>
    obtain ⟨hfl, hk⟩ := Bool.and_eq_true _ _ ▸ hc
    cases hrec : (s.pt.peers.at f.sender).record with
    | none => rfl
    | some r =>
      dsimp only
      split
      · next hm =>
        obtain ⟨seq, kind, o⟩ := r
        obtain ⟨rfl, rfl⟩ := hm
        exact Option.eq_none_iff_forall_ne_some.mpr fun r => hn o r ⟨hfl, replayedKind_iff.mp hk, hrec⟩
      · rfl
  · rfl

theorem stillQueued_iff {p : Station} {q : Byte} : stillQueued s p q = true ↔ ∃ x ∈ s.te.queue, x.requester = p ∧ x.seq = q := by
  simp only [stillQueued, List.any_eq_true, Bool.and_eq_true, decide_eq_true_eq]

theorem replayOrEvaluate_of_replay {h : Header} {r : Reply} (hr : replayFor s f.sender f.kind h = some r) :
    replayOrEvaluate f h s = if stillQueued s f.sender h.seq then s else queueResponse f.sender h.seq r s := by
  simp only [replayOrEvaluate, hr]

theorem replayOrEvaluate_of_none {h : Header} (hr : replayFor s f.sender f.kind h = none) : replayOrEvaluate f h s = evaluate f h s := by
  simp only [replayOrEvaluate, hr]

theorem exec_frameInHand_of_waiting (hh : s.te.hand = none) (hi : s.te.input = some f) :
    exec .frameInHand s = .next (reselect (checkSequence f { s with te := { s.te with input := none } })) := by
  simp only [exec, execFrameInHand, nextWithSelection, takeNextFrame_of_waiting hh hi]

end

/-- Settles O38, along the check sequence. -/
theorem frameTakenIntoHand : Obligations.FrameTakenIntoHand := by
  intro s
  refine ⟨fun h => congrArg (fun t => Host.Outcome.next (reselect t)) (takeNextFrame_of_not h), fun f hh hi => ?_⟩
  intro u
  rw [exec_frameInHand_of_waiting hh hi]
  refine ⟨fun hfull => by rw [checkSequence_of_full (s := { s with te := { s.te with input := none } }) hfull],
    fun target q flags r hb hroom => ?_⟩
  intro p v queued refused resent waiting final
  have hseq : checkSequence f { s with te := { s.te with input := none } } = replayOrEvaluate f ⟨target, q, flags⟩ v :=
    checkSequence_of_room (s := { s with te := { s.te with input := none } }) hb hroom
  rw [hseq]
  obtain ⟨hte, hpt, hstc⟩ : v.te = u.te ∧ v.pt = s.pt ∧ v.stc = s.stc := frameTakenReport_te f ⟨target, q, flags⟩ u
  have hresent : ∀ o, resent o ↔ Resent v f ⟨target, q, flags⟩ o := fun o => by rw [Resent, hpt]
  have hqueued : stillQueued v p q = true ↔ waiting := by rw [stillQueued_iff, hte]
  have hreplay : ∀ {o r}, resent o → o.replay = some r →
      replayOrEvaluate f ⟨target, q, flags⟩ v = if stillQueued v p q then v else queueResponse p q r v :=
    fun {o r} ho hr => replayOrEvaluate_of_replay ((replayFor_of_resent ((hresent o).mp ho)).trans hr)
  have hevaluate : ¬ final → replayOrEvaluate f ⟨target, q, flags⟩ v = evaluate f ⟨target, q, flags⟩ v := fun hn => by
    refine replayOrEvaluate_of_none (replayFor_eq_none fun o r ho hr => hn ?_)
    rw [replay_eq_some] at hr
    rcases hr with ⟨n, rfl, -⟩ | ⟨c, rfl, -⟩
    · exact Or.inl ⟨n, (hresent _).mpr ho⟩
    · exact Or.inr ⟨c, (hresent _).mpr ho⟩
  refine ⟨fun hf hw => ?waits, fun n ho hw => ?_, fun c ho hw => ?_, fun hf hl => ?leaving, fun hf hl hm => ?malformed, fun x hf hl hx => ?served⟩
  case waits =>
    rcases hf with ⟨n, ho⟩ | ⟨c, ho⟩ <;> rw [hreplay ho rfl, if_pos (hqueued.mpr hw)]
  · rw [hreplay ho rfl, if_neg (mt hqueued.mp hw)]; rfl
  · rw [hreplay ho rfl, if_neg (mt hqueued.mp hw)]; rfl
  case leaving => rw [hevaluate hf, evaluate, if_pos (by rw [hstc]; exact hl), answer_eq]
  case malformed =>
    have hl' : v.stc.state ≠ .leaving := by rw [hstc]; exact hl
    simp only [hevaluate hf, evaluate, if_neg hl', hm, answer_eq]; rfl
  case served =>
    have hl' : v.stc.state ≠ .leaving := by rw [hstc]; exact hl
    simp only [hevaluate hf, evaluate, if_neg hl', hx]; rfl

/-! ### Requests by kind (R67 to R71) -/

section
variable {s : State} {p : Station} {r : Request}

theorem testRange_outside (h : 4096 < r.addr + r.count) : testRange s p r = some .range := by
  have hv : rangeValid r.addr r.count = false := decide_eq_false (Nat.not_le.mpr h)
  simp only [testRange, hv, if_true]

theorem testRange_write (hk : r.kind = .wr) (h : r.addr + r.count ≤ 4096) :
    testRange s p r = if writePermitted s p r.addr r.count then none else some .notPermitted := by
  have hv : rangeValid r.addr r.count = true := (rangeValid_eq_true _ _).mpr h
  simp only [testRange, hv, Bool.true_eq_false, if_false, hk, if_true]

theorem testRange_read (hk : r.kind ≠ .wr) (h : r.addr + r.count ≤ 4096) :
    testRange s p r = if readPermitted s r.addr r.count then none else some .notPermitted := by
  have hv : rangeValid r.addr r.count = true := (rangeValid_eq_true _ _).mpr h
  simp only [testRange, hv, Bool.true_eq_false, if_false, if_neg hk]

/-- A request tested and served, or refused with the first reason that holds (R68 to R70). -/
theorem afterTests_cases {permitted : Prop} {served : State} (ht : ∀ _ : r.addr + r.count ≤ 4096,
      (permitted → testRange s p r = none) ∧ (¬ permitted → testRange s p r = some .notPermitted)) :
    (4096 < r.addr + r.count → afterTests p r s served = answer p r.seq r.kind.code (.refuse .range) s) ∧
    (r.addr + r.count ≤ 4096 → ¬ permitted → afterTests p r s served = answer p r.seq r.kind.code (.refuse .notPermitted) s) ∧
    (r.addr + r.count ≤ 4096 → permitted → afterTests p r s served = served) := by
  refine ⟨fun h => ?_, fun h hp => ?_, fun h hp => ?_⟩
  · simp only [afterTests, testRange_outside h]
  · simp only [afterTests, (ht h).2 hp]
  · simp only [afterTests, (ht h).1 hp]

end

/-- Settles O39, kind by kind. -/
theorem requestsDispatched : Obligations.RequestsDispatched := by
  refine ⟨fun f target q flags r hb => ?fields, fun p r s => ?served⟩
  case fields =>
    intro n count counted
    obtain ⟨hiff, hsome⟩ := requestOf_spec f target q flags r hb
    refine ⟨?_, hsome⟩
    have hn : n = 3 + r.length := by simp only [n, hb, List.length_cons]; omega
    have hcount : ∀ i, count (3 + i) = (r.getD i 0).toNat := fun i => by
      simp only [count, hb, Nat.add_comm 3 i, List.getD_cons_succ]
    rw [hiff, hn, show count 5 = _ from hcount 2, show count 6 = _ from hcount 3]
    simp only [counted, show count 5 = _ from hcount 2, show count 6 = _ from hcount 3]
    refine or_congr (and_congr_right fun _ => and_congr_left fun _ => ?_) (or_congr (and_congr_right fun _ => and_congr_left fun _ => ?_)
      (or_congr (and_congr_right fun _ => and_congr_left fun _ => ?_) (and_congr_right fun _ => ?_))) <;> omega
  case served =>
    intro inHand claims refused tested
    refine ⟨fun h1 h16 => ⟨fun hk => ?rd, fun hk => ?wr, fun hk => ?rds⟩, fun hk => ?group⟩
    case rd =>
      have hdispatch : ∀ t, dispatchRequest p r s = t ↔ afterTests p r s (claims .rdClaim) = t := fun t => by
        simp only [dispatchRequest, hk]; rfl
      simp only [tested, hdispatch, refused, ← answer_eq]
      exact afterTests_cases fun h => by
        rw [testRange_read (by rw [hk]; nofun) h, ← readPermitted_iff s _ _ h1 h16]
        exact ⟨fun hp => if_pos hp, fun hp => if_neg hp⟩
    case wr =>
      have hdispatch : ∀ t, dispatchRequest p r s = t ↔ afterTests p r s (claims .wrClaim) = t := fun t => by
        simp only [dispatchRequest, hk]; rfl
      simp only [tested, hdispatch, refused, ← answer_eq]
      exact afterTests_cases fun h => by
        rw [testRange_write hk h, ← writePermitted_iff s p _ _ h1 h16]
        exact ⟨fun hp => if_pos hp, fun hp => if_neg hp⟩
    case rds =>
      have hdispatch : ∀ t, dispatchRequest p r s = t ↔ afterTests p r s (takeRds p r (inHand .sru)) = t := fun t => by
        simp only [dispatchRequest, hk]; rfl
      simp only [tested, hdispatch, refused, ← answer_eq]
      exact afterTests_cases fun h => by
        rw [testRange_read (by rw [hk]; nofun) h, ← readPermitted_iff s _ _ h1 h16]
        exact ⟨fun hp => if_pos hp, fun hp => if_neg hp⟩
    case group =>
      rcases hk with hk | hk | hk | hk <;> (simp only [dispatchRequest, hk]; rfl)

/-! ### The claims of RD and WR (R68, R69, R12) -/

section
variable {s : State} {h : Hand}

theorem exec_rdRangeRead (hh : s.te.hand = some h) (hst : h.stage = .rdClaim) (hg : Granted .te s) :
    exec .rdRangeRead s = .next (reselect ((takeClaim .te s).answered h (.data ((rangeOf h.req.addr h.req.count).map (committed s))))) := by
  simp only [exec, execRdRangeRead, hh, if_pos (And.intro hst ((granted_iff _ _).mpr hg)), nextWithSelection]
  rw [finishHand_some (s := takeClaim .te s) (by simpa using hh)]

theorem exec_wrApply_refused (hh : s.te.hand = some h) (hst : h.stage = .wrClaim) (hg : Granted .te s)
    (hr : rangeHeld s h.req.addr h.req.count = true) : exec .wrApply s = .next (reselect ((takeClaim .te s).answered h (.refuse .conflict))) := by
  simp only [exec, execWrApply, hh, if_pos (And.intro hst ((granted_iff _ _).mpr hg)), hr, if_true, nextWithSelection]
  rw [finishHand_some (s := takeClaim .te s) (by simpa using hh)]

/-- Station s when a WR has been applied: its words stored and reported (R69). -/
def State.wrApplied (r : Request) (s : State) : State :=
  reportStores (rangeOf r.addr r.count) (storeWords r.addr r.data (takeClaim .te s))

theorem exec_wrApply_applied (hh : s.te.hand = some h) (hst : h.stage = .wrClaim) (hg : Granted .te s)
    (hr : rangeHeld s h.req.addr h.req.count = false) :
    exec .wrApply s = .next (reselect ((s.wrApplied h.req).answered h (.done h.req.count))) := by
  simp only [exec, execWrApply, hh, if_pos (And.intro hst ((granted_iff _ _).mpr hg)), hr, Bool.false_eq_true, if_false, nextWithSelection]
  rw [finishHand_some (s := reportStores _ _) (by simpa using hh)]
  rfl

end

/-- Settles O40. -/
theorem readAndWriteClaims : Obligations.ReadAndWriteClaims := by
  refine ⟨fun h s hh hg => ?claims, fun s p hp hg => ?notGranted⟩
  case claims =>
    intro r u
    refine ⟨fun hst => exec_rdRangeRead hh hst hg, fun hst => ⟨fun hheld => exec_wrApply_refused hh hst hg ((rangeHeld_eq_true _ _ _).mpr hheld), fun hfree => ?_⟩⟩
    refine ⟨s.wrApplied r, exec_wrApply_applied hh hst hg ((rangeHeld_eq_false _ _ _).mpr hfree), fun a => ?_, ?_, rfl⟩
    · exact Mem.read_writeAll_getD r.data s.sgm.words r.addr a
    · exact reportStores_taken (rangeOf r.addr r.count) (storeWords r.addr r.data (takeClaim .te s))
  case notGranted =>
    have hgr : ∀ {c}, ¬ Granted c s → granted c s = false := fun h => Bool.eq_false_iff.mpr fun h' => h ((granted_iff _ _).mp h')
    simp only [List.mem_cons, List.not_mem_nil, or_false] at hp
    rcases hp with rfl | rfl | rfl | rfl | rfl | rfl | rfl | rfl | rfl <;> replace hg := hgr hg
    · simp only [exec, execLocalWordRead, hg]; split <;> rfl
    · simp only [exec, execLocalWordWrite, hg]; split <;> rfl
    · simp only [exec, execRdRangeRead, hg]; split <;> simp
    · simp only [exec, execWrApply, hg]; split <;> simp
    · simp only [exec, execRdsEvaluation, hg]; split <;> simp
    · simp only [exec, execSlotCapture, hg]; split <;> rfl
    · simp only [exec, execGwriteApply, hg]; split <;> rfl
    · simp only [exec, execGroupCommit, hg]; split <;> rfl
    · simp only [exec, execGroupRollback, hg]; split <;> rfl

end Sys2Proof.Machine
end

section
/-! PROOFS. The Settled-Read Unit (O41, O42, O43): re-issues and evaluation as new, the outcomes of its claims, and how slots are freed. -/

namespace Sys2Proof.Machine

/-! ### An RDS handed to the SRU (R44, R46, R47) -/

/-- A re-issue of the settled read in a slot (R46): retry mark, requester, sequence number, address and count. -/
def Slot.sameRead (x : Slot) (p : Station) (r : Request) : Prop :=
  r.retry = true ∧ x.requester = p ∧ x.seq = r.seq ∧ x.addr = r.addr ∧ x.count = r.count

section
variable {s : State} {h : Hand} {p : Station} {r : Request} {i : Fin 4} {x : Slot}

/-- The slot that a request matches, with the retry mark. -/
theorem matchingSlot_eq_some (hx : s.sru.slots.at i = some x) (hs : x.sameRead p r)
    (honly : ∀ j y, s.sru.slots.at j = some y → y.requester = p → j = i) : matchingSlot s p r = some i := by
  obtain ⟨-, hp, hq, ha, hc⟩ := hs
  refine find_all4 _ i ?_ fun j hj => ?_
  · simp only [hx, hp, hq, ha, hc, decide_true, Bool.and_self]
  · cases hy : s.sru.slots.at j with
    | none => rfl
    | some y =>
      have hne : y.requester ≠ p := fun hyp => absurd (honly j y hy hyp) (by omega)
      simp only [decide_eq_false hne, Bool.false_and]

theorem matchingSlot_eq_none (hn : ∀ i x, s.sru.slots.at i = some x → ¬ x.sameRead p r) (hr : r.retry = true) : matchingSlot s p r = none :=
  List.find?_eq_none.mpr fun i _ => by
    cases hx : s.sru.slots.at i with
    | none => nofun
    | some x =>
      simp only [Bool.and_eq_true, decide_eq_true_eq]
      exact fun ⟨⟨⟨hp, hq⟩, ha⟩, hc⟩ => hn i x hx ⟨hr, hp, hq, ha, hc⟩

theorem takeRds_of_same (hx : s.sru.slots.at i = some x) (hs : x.sameRead p r)
    (honly : ∀ j y, s.sru.slots.at j = some y → y.requester = p → j = i) : takeRds p r s = answerFromSlot i s := by
  simp only [takeRds, hs.1, if_true, matchingSlot_eq_some hx hs honly]

theorem takeRds_of_new (hn : ∀ i x, s.sru.slots.at i = some x → ¬ x.sameRead p r) : takeRds p r s = evaluateAsNew p s := by
  unfold takeRds
  split
  · next i hi =>
    split at hi
    · next hr => rw [matchingSlot_eq_none hn hr] at hi; exact nomatch hi
    · exact nomatch hi
  · rfl

theorem answerFromSlot_waiting {b : Bool} (hh : s.te.hand = some h) (hx : s.sru.slots.at i = some x) (hw : x.state = .waiting b) :
    answerFromSlot i s = State.answered h .defer
      { s with sru := { s.sru with slots := s.sru.slots.put i (some { x with discard := discardTime s }) } } := by
  have hanswer : answerFromSlot i s = finishHand (some .defer) (updateSlot i (fun x => { x with discard := discardTime s }) s) := by
    simp only [answerFromSlot, hx, hw]
  rw [hanswer, finishHand_some (s := updateSlot i _ s) hh]
  simp only [updateSlot, hx, Option.map_some]

theorem answerFromSlot_ready {ws : List Word} (hh : s.te.hand = some h) (hx : s.sru.slots.at i = some x) (hr : x.state = .ready ws) :
    answerFromSlot i s = (freeSlot i s).answered h (.data ws) := by
  simp only [answerFromSlot, hx, hr]
  exact finishHand_some (by simpa using hh) _

theorem freeSlotOf_of_slot (hx : s.sru.slots.at i = some x) (hp : x.requester = p)
    (honly : ∀ j y, s.sru.slots.at j = some y → y.requester = p → j = i) : freeSlotOf p s = freeSlot i s := by
  simp only [freeSlotOf, slotOf_eq_some hx hp honly]

theorem freeSlotOf_of_none (hn : ∀ i x, s.sru.slots.at i = some x → x.requester ≠ p) : freeSlotOf p s = s := by
  simp only [freeSlotOf, slotOf_eq_none hn]

/-- The evaluation is queued with its claim, marked when other work stands before it (R45, R47). -/
theorem evaluateAsNew_queued {v : State} (hv : freeSlotOf p s = v) :
    ∃ behind cs, (behind = true ↔ v.sru.work ≠ []) ∧ ClaimFollows v.sru.work (v.sru.work ++ [.evaluate behind]) v.sgm.claims cs ∧
      evaluateAsNew p s = { v with sru := { v.sru with work := v.sru.work ++ [.evaluate behind] }, sgm := { v.sgm with claims := cs } } := by
  obtain ⟨cs, hcs, hset⟩ := setSruWork_spec (v.sru.work ++ [.evaluate (!v.sru.work.isEmpty)]) v
  refine ⟨!v.sru.work.isEmpty, cs, ?_, hcs, ?_⟩
  · cases v.sru.work <;> simp
  · rw [← hset, ← hv]; rfl

end

/-- Settles O41. -/
theorem settledReadTaken : Obligations.SettledReadTaken := by
  intro h s hh p r same only asNew
  refine ⟨fun i x b ⟨hx, _, ho⟩ hs hw => (takeRds_of_same hx hs ho).trans (answerFromSlot_waiting hh hx hw),
    fun i x ws ⟨hx, _, ho⟩ hs hr => (takeRds_of_same hx hs ho).trans (answerFromSlot_ready hh hx hr),
    fun i x ⟨hx, hp, ho⟩ hn => ?other, fun hn => ?none⟩
  case other =>
    have hnew : ∀ j y, s.sru.slots.at j = some y → ¬ y.sameRead p r := fun j y hy hs => by
      obtain rfl := ho j y hy hs.2.1
      exact hn (Option.some.inj (hy.symm.trans hx) ▸ hs)
    simp only [asNew, takeRds_of_new hnew]
    exact evaluateAsNew_queued (freeSlotOf_of_slot hx hp ho)
  case none =>
    have hnew : ∀ j y, s.sru.slots.at j = some y → ¬ y.sameRead p r := fun j y hy hs => hn j y hy hs.2.1
    simp only [asNew, takeRds_of_new hnew]
    exact evaluateAsNew_queued (freeSlotOf_of_none hn)

/-! ### The claims of the SRU (R48, R49, R52) -/

section
variable {s : State} {h : Hand}

/-- A word of a range is held by a group of the requester (R50). -/
theorem selfHeld_eq_true {p : Station} {addr count : Nat} : selfHeld s p addr count = true ↔
    ∃ a g, addr ≤ a ∧ a < addr + count ∧ heldBy s a = some g ∧ (s.ge.table.at g).map (·.owner) = some p := by
  simp only [selfHeld, List.any_eq_true, mem_rangeOf]
  refine ⟨fun ⟨a, ⟨h1, h2⟩, hm⟩ => ?_, fun ⟨a, g, h1, h2, hg, ho⟩ => ⟨a, ⟨h1, h2⟩, by simp only [hg, ho, decide_true]⟩⟩
  cases hg : heldBy s a with
  | none => rw [hg] at hm; exact nomatch hm
  | some g => rw [hg] at hm; exact ⟨a, g, h1, h2, hg, of_decide_eq_true hm⟩

/-- A range with no held word has none of the requester's groups. -/
theorem selfHeld_of_free {p : Station} {addr count : Nat} (hf : rangeHeld s addr count = false) : selfHeld s p addr count = false :=
  Bool.eq_false_iff.mpr fun hs => by
    obtain ⟨a, g, h1, h2, hg, -⟩ := selfHeld_eq_true.mp hs
    rw [(rangeHeld_eq_false _ _ _).mp hf a h1 h2] at hg
    exact nomatch hg

/-- The requester is PRESENT with no departure pending (R49). -/
def Hand.senderPresent (h : Hand) (s : State) : Prop := (s.pt.peers.at h.sender).presence = .present ∧ (s.pt.peers.at h.sender).departure = none

theorem decideRds_of_gone (hp : ¬ h.senderPresent s) : decideRds s h = (none, none) := by
  refine if_pos ?_
  by_cases ha : (s.pt.peers.at h.sender).presence = .absent
  · exact Or.inl ha
  · refine Or.inr fun hd => hp ⟨?_, hd⟩
    cases hq : (s.pt.peers.at h.sender).presence with
    | absent => exact absurd hq ha
    | present => rfl

theorem decideRds_of_present (hp : h.senderPresent s) : decideRds s h =
    if s.stc.state = .leaving then (some (.refuse .notServing), none)
    else if selfHeld s h.sender h.req.addr h.req.count then (some (.refuse .selfHeld), none)
    else if rangeHeld s h.req.addr h.req.count = false then (some (.data (storedRange s h.req.addr h.req.count)), none)
    else match freeSlotIndex s with
      | some i => (some .defer, some i)
      | none => (some .busy, none) := by
  obtain ⟨hpr, hd⟩ := hp
  simp only [decideRds, hpr, hd]
  rfl

theorem freeSlotIndex_eq_some {i : Fin 4} (hi : s.sru.slots.at i = none) (hlow : ∀ j, j < i → s.sru.slots.at j ≠ none) : freeSlotIndex s = some i :=
  find_all4 _ i (by rw [hi]; rfl) fun j hj => Option.isNone_eq_false_iff.mpr (Option.isSome_iff_ne_none.mpr (hlow j hj))

theorem freeSlotIndex_eq_none (h : ∀ i, s.sru.slots.at i ≠ none) : freeSlotIndex s = none :=
  List.find?_eq_none.mpr fun i _ => by simpa using h i

section
variable {w : SruWork} {b : Bool} {rest : List SruWork} (hw : s.sru.work = .evaluate b :: rest) (hh : s.te.hand = some h) (hst : h.stage = .sru)
  (hg : Granted .sru s)
include hw hh hst hg

theorem exec_rdsEvaluation_dropped (hd : decideRds s h = (none, none)) :
    exec .rdsEvaluation s = .next (reselect { sruWorkDone s with te := { s.te with hand := none } }) := by
  simp only [exec, execRdsEvaluation, hw, hh, if_pos (And.intro hst ((granted_iff _ _).mpr hg)), hd, nextWithSelection]
  have hte : (sruWorkDone s).te = s.te := by simp
  rw [finishHand_none (s := sruWorkDone s) (by rw [hte]; exact hh), hte]

theorem exec_rdsEvaluation_answered {r : Reply} (hd : decideRds s h = (some r, none)) :
    exec .rdsEvaluation s = .next (reselect ((sruWorkDone s).answered h r)) := by
  simp only [exec, execRdsEvaluation, hw, hh, if_pos (And.intro hst ((granted_iff _ _).mpr hg)), hd, nextWithSelection]
  rw [finishHand_some (s := sruWorkDone s) (by simpa using hh)]

theorem exec_rdsEvaluation_deferred {i : Fin 4} (hd : decideRds s h = (some .defer, some i)) :
    exec .rdsEvaluation s = .next (reselect ((allocateSlot i h (sruWorkDone s)).answered h .defer)) := by
  simp only [exec, execRdsEvaluation, hw, hh, if_pos (And.intro hst ((granted_iff _ _).mpr hg)), hd, nextWithSelection]
  rw [finishHand_some (s := allocateSlot i h (sruWorkDone s)) (by simpa using hh)]

end

theorem exec_slotCapture {i : Fin 4} {rest : List SruWork} (hw : s.sru.work = .capture i :: rest) (hg : Granted .sru s) :
    exec .slotCapture s = .next (sruWorkDone (updateSlot i (captured s) s)) := by
  simp only [exec, execSlotCapture, hw, if_pos ((granted_iff _ _).mpr hg)]

theorem setSruWork_slots (ws : List SruWork) (sl : Table 4 (Option Slot)) (u : State) :
    setSruWork ws { u with sru := { u.sru with slots := sl } } =
      { setSruWork ws u with sru := { (setSruWork ws u).sru with slots := sl } } := by
  simp only [setSruWork]
  split <;> rfl

/-- The SRU's first work is done and the next one's claim takes its place, whatever has become of the slots (R45). -/
theorem sruWorkDone_spec {w : SruWork} {rest : List SruWork} (hw : s.sru.work = w :: rest) :
    ∃ cs, ClaimFollows (w :: rest) rest (s.sgm.claims.erase .sru) cs ∧
      ∀ sl, sruWorkDone { s with sru := { s.sru with slots := sl } } =
        { s with sru := { s.sru with slots := sl, work := rest }, sgm := { s.sgm with claims := cs } } := by
  obtain ⟨cs, hcs, hset⟩ := setSruWork_spec rest (takeClaim .sru s)
  refine ⟨cs, by rw [← hw]; exact hcs, fun sl => ?_⟩
  have hdone : sruWorkDone { s with sru := { s.sru with slots := sl } } =
      setSruWork rest { takeClaim .sru s with sru := { s.sru with slots := sl } } := by
    simp only [sruWorkDone, hw]
    rfl
  rw [hdone]
  have hslots := setSruWork_slots rest sl (takeClaim .sru s)
  rw [hset] at hslots
  exact hslots

end

/-- Settles O42, outcome by outcome. -/
theorem settledReadClaims : Obligations.SettledReadClaims := by
  intro s w rest hwork hg owner stored free discard
  obtain ⟨cs, hcs, hdone⟩ := sruWorkDone_spec hwork
  refine ⟨cs, hcs, ?_⟩
  intro u withSlot
  have hu : sruWorkDone s = u := hdone s.sru.slots
  refine ⟨fun b h hw hh hst => ?evaluation, fun i x hw hx => ?capture⟩
  case evaluation =>
    intro p r present own ends
    rw [hw] at hwork
    have hself : selfHeld s p r.addr r.count = true ↔ own := selfHeld_eq_true
    have hheld : rangeHeld s r.addr r.count = false ↔ free r.addr r.count := rangeHeld_eq_false s _ _
    have hends : ∀ {rep}, decideRds s h = (some rep, none) → ends rep := fun hd => by
      simp only [ends, ← hu]
      exact exec_rdsEvaluation_answered hwork hh hst hg hd
    refine ⟨fun hp => ?gone, fun hp hl => hends ?leaving, fun hp hl ho => hends ?own, fun hp hl hf => hends ?free,
      fun i hp hl ho hf hi hlow => ?slot, fun hp hl ho hf hfull => hends ?full⟩
    case gone =>
      rw [exec_rdsEvaluation_dropped hwork hh hst hg (decideRds_of_gone hp), hu]
    case leaving => rw [decideRds_of_present hp, if_pos hl]
    case own => rw [decideRds_of_present hp, if_neg hl, if_pos (hself.mpr ho)]
    case free =>
      have hns : ¬ selfHeld s p r.addr r.count = true := by rw [selfHeld_of_free (hheld.mpr hf)]; nofun
      rw [decideRds_of_present hp, if_neg hl, if_neg hns, if_pos (hheld.mpr hf)]; rfl
    case slot =>
      have hd : decideRds s h = (some .defer, some i) := by
        rw [decideRds_of_present hp, if_neg hl, if_neg (mt hself.mp ho), if_neg (mt hheld.mp hf), freeSlotIndex_eq_some hi hlow]
      rw [exec_rdsEvaluation_deferred hwork hh hst hg hd, hu]; rfl
    case full =>
      rw [decideRds_of_present hp, if_neg hl, if_neg (mt hself.mp ho), if_neg (mt hheld.mp hf), freeSlotIndex_eq_none hfull]
  case capture =>
    rw [hw] at hwork
    have hslot : ∀ y, captured s x = y → exec .slotCapture s = .next (withSlot i y) := fun y hy => by
      rw [exec_slotCapture hwork hg, updateSlot, hx, Option.map_some, hy, hdone]
    exact ⟨fun hf => hslot _ (if_neg (by rw [(rangeHeld_eq_false s _ _).mpr hf]; nofun)),
      fun hf => hslot _ (if_pos (Bool.of_not_eq_false (mt (rangeHeld_eq_false s _ _).mp hf)))⟩

/-! ### How slots are freed (R53, R55, R56, R58, R59) -/

section
variable {s : State}

theorem exec_discardTimerExpiry {i : Fin 4} {x : Slot} {us : Nat} (hx : s.sru.slots.at i = some x) (ht : x.discard = .running us) :
    exec (.discardTimerExpiry i) s = .next (freeSlot i s) := by
  have hr : x.discard.isRunning = true := by rw [ht]; rfl
  simp only [exec, execDiscardTimerExpiry, hx, hr, if_true]

theorem sruTakeAnnouncement_of_some {a : Announcement} (ha : s.sru.announced = some a) :
    sruTakeAnnouncement s = freeSlotOf a.peer { s with sru := { s.sru with announced := none } } := by
  simp only [sruTakeAnnouncement, ha]

theorem sruTakeStartOfLeaving_of_not (h : s.sru.startOfLeaving = false) : sruTakeStartOfLeaving s = s := by
  simp only [sruTakeStartOfLeaving, h]; rfl

/-- The slot of a requester is its only one (R43). -/
theorem SlotLaws.only (hl : SlotLaws s) {i : Fin 4} {x : Slot} {p : Station} (hx : s.sru.slots.at i = some x) (hp : x.requester = p) :
    ∀ j y, s.sru.slots.at j = some y → y.requester = p → j = i :=
  fun j y hy hq => hl.one j i y x hy hx (hq.trans hp.symm)

/-- A frame whose report does not free the slot of its sender (R46, R56). -/
theorem reissues_iff {f : Frame} {t q fl : Byte} {r : List Byte} {x : Slot} (hb : f.body = t :: q :: fl :: r) :
    reissues f ⟨t, q, fl⟩ x = true ↔ f.kind = 2 ∧ fl.getLsbD 0 = true ∧ x.seq = q ∧
      ∃ ah al c more, r = ah :: al :: c :: more ∧ x.addr = ah.toNat * 256 + al.toNat ∧ x.count = c.toNat := by
  have hrange : rdsRange f = some (x.addr, x.count) ↔
      ∃ ah al c more, r = ah :: al :: c :: more ∧ x.addr = ah.toNat * 256 + al.toNat ∧ x.count = c.toNat := by
    unfold rdsRange
    rw [hb]
    match r with
    | ah :: al :: c :: more =>
      simp only [Option.some.injEq, Prod.mk.injEq, twoBytes]
      exact ⟨fun ⟨ha, hc⟩ => ⟨ah, al, c, more, rfl, ha.symm, hc.symm⟩, fun ⟨_, _, _, _, he, ha, hc⟩ => by
        cases he
        exact ⟨ha.symm, hc.symm⟩⟩
    | [] | [_] | [_, _] => exact ⟨nofun, nofun⟩
  simp only [reissues, Bool.and_eq_true, decide_eq_true_eq, hrange, and_assoc]
  exact and_congr_right fun _ => and_congr_right fun _ => and_congr_left fun _ => eq_comm

theorem frameTakenReport_of_noSlot {f : Frame} {h : Header} (hn : ∀ i x, s.sru.slots.at i = some x → x.requester ≠ f.sender) :
    frameTakenReport f h s = s := by
  simp only [frameTakenReport, slotOf_eq_none hn]

end

/-- Settles O43, cause by cause. -/
theorem slotsFreed : Obligations.SlotsFreed := by
  intro s
  refine ⟨fun i => freeSlot_spec i s, fun i x us => exec_discardTimerExpiry, fun h => congrArg Host.Outcome.next (sruTakeAnnouncement_of_none h),
    fun a ha => ?announced, fun f target q flags r hb => ?report, rfl, sruTakeStartOfLeaving_of_not, fun h => ?leaving⟩
  case announced =>
    intro p u
    have hp : a.peer = p := by cases a <;> rfl
    have htaken : exec .sruTakeAnnouncement s = .next (freeSlotOf p u) :=
      congrArg Host.Outcome.next ((sruTakeAnnouncement_of_some ha).trans (by rw [hp]))
    rw [htaken]
    exact ⟨fun hn => congrArg Host.Outcome.next (freeSlotOf_of_none (s := u) hn),
      fun i x hl hx hq => congrArg Host.Outcome.next (freeSlotOf_of_slot (s := u) hx hq (hl.only hx hq))⟩
  case report =>
    intro report reissue
    refine ⟨frameTakenReport_of_noSlot, fun i x hl hx hp => ?_⟩
    have hreport : report = if reissues f ⟨target, q, flags⟩ x then s else freeSlot i s :=
      frameTakenReport_of_slot (slotOf_eq_some hx hp (hl.only hx hp)) hx
    rw [hreport]
    exact ⟨fun hr => if_pos ((reissues_iff hb).mpr hr), fun hr => if_neg (mt (reissues_iff hb).mp hr)⟩
  case leaving =>
    obtain ⟨sl, cs, hnone, hothers, hfollows, htaken⟩ := sruTakeStartOfLeaving_spec h
    refine ⟨_, htaken, hnone, rfl, rfl, rfl, hothers, fun hc => hfollows ?_, rfl⟩
    rw [hc.sru]
    split <;> omega

end Sys2Proof.Machine
end

section
/-! PROOFS. The Group Engine (O46, O47, O48, O51): the end of a group by commit and by rollback, the work that is no frame, and what changes the committed image. -/

namespace Sys2Proof.Machine

/-! ### The committed image when a group has ended (R7, R27, R28) -/

/-- State t has the holds and the log of s after group g has ended. -/
def GroupGone (g : Fin 4) (s t : State) : Prop := t.ge.holds = (s.ge.ended g).holds ∧ t.ge.undo = (s.ge.ended g).undo

section
variable {s t : State} {g : Fin 4}

/-- The holds of the ended group are released, the others stay (R27, R28). -/
theorem GroupGone.heldBy_eq (h : GroupGone g s t) (hm : MemoryCanonical s) (a : Nat) :
    heldBy t a = if heldBy s a = some g then none else heldBy s a := by
  unfold Machine.heldBy
  rw [h.1]
  exact get_release hm.holds.1 g a

/-- The log lists of the other groups stay. -/
theorem oldValue_ended {ge : Ge} {g' : Fin 4} (hne : g' ≠ g) (a : Nat) : oldValue (ge.ended g).undo g' a = oldValue ge.undo g' a := by
  have hlog : logOf (ge.ended g).undo g' = logOf ge.undo g' := by
    simp only [logOf, Ge.ended, List.filter_filter]
    exact List.filter_congr fun e _ => by by_cases he : e.group = g' <;> simp [he, hne]
  rw [oldValue, hlog]; rfl

/-- A word the ended group held is its stored value now; of any other whose stored value is as it was the committed image stays. -/
theorem GroupGone.committed_eq (h : GroupGone g s t) (hm : MemoryCanonical s) (a : Nat)
    (hw : heldBy s a ≠ some g → t.sgm.words.read a = s.sgm.words.read a) :
    committed t a = if heldBy s a = some g then t.sgm.words.read a else committed s a := by
  have hheld := h.heldBy_eq hm a
  by_cases hg : heldBy s a = some g
  · rw [if_pos hg] at hheld
    rw [if_pos hg, committed_of_free hheld]
  · rw [if_neg hg] at hheld
    rw [if_neg hg]
    cases hs : heldBy s a with
    | none => rw [committed_of_free (hheld.trans hs), committed_of_free hs, hw hg]
    | some g' =>
      have hne : g' ≠ g := fun he => hg (he ▸ hs)
      simp only [Machine.committed, hheld, hs, h.2, oldValue_ended hne, storedWord, hw hg]

end

/-! ### GROUP_COMMIT (R27) -/

section
variable {s : State} {g : Fin 4} {x : Group}

/-- Station s when group g has been committed, the release notice and the answer apart (R27). -/
def State.groupCommitted (g : Fin 4) (x : Group) (s : State) : State := { s with
  sgm := { s.sgm with claims := s.sgm.claims.erase .ge }
  ge := Ge.ended g { s.ge with op := none }
  lp := s.lp.withEvent (.groupCommitted x.owner x.tag x.held) }

theorem exec_groupCommit {h : Hand} (hop : s.ge.op = some (.commit g)) (hh : s.te.hand = some h) (hx : s.ge.table.at g = some x)
    (hg : Granted .ge s) : exec .groupCommit s = .next (reselect ((releaseNotice (s.groupCommitted g x)).answered h (.done x.held))) := by
  have hpost : postEvent (.groupCommitted x.owner x.tag x.held) (updateGe (Ge.ended g) (setOp none (takeClaim .ge s))) = s.groupCommitted g x :=
    postEvent_eq_withEvent _ _
  simp only [exec, execGroupCommit, hop, if_pos ((granted_iff _ _).mpr hg), hx, nextWithSelection, hpost]
  rw [finishHand_some (s := releaseNotice (s.groupCommitted g x)) (by simpa [State.groupCommitted] using hh)]

theorem groupCommitted_gone : GroupGone g s (s.groupCommitted g x) := ⟨rfl, rfl⟩

end

/-- A release notice leaves the committed image. -/
theorem releaseNotice_sameImage (u : State) : SameImage u (releaseNotice u) := by
  simp [SameImage]

/-- Settles O46. -/
theorem groupCommitted : Obligations.GroupCommitted := by
  intro h g x s _ hm hop hh hx hg
  obtain ⟨v, hv, hnotice, hclaims, hframe⟩ := releaseNotice_spec (s.groupCommitted g x)
  refine ⟨s.groupCommitted g x, v, hv ▸ exec_groupCommit hop hh hx hg, ended_endedBut g _, groupCommitted_gone.heldBy_eq hm, rfl, hnotice, hclaims,
    hframe, fun a => ?_⟩
  rw [hv, (releaseNotice_sameImage _).committed, groupCommitted_gone.committed_eq hm a fun _ => rfl]
  rfl

/-! ### GROUP_ROLLBACK (R28, R31) -/

section
variable {s : State} {g : Fin 4} {x : Group} {cause : AbortCause}

/-- Station s when group g has been rolled back, the release notice apart (R28). -/
def State.groupRolledBack (cause : AbortCause) (g : Fin 4) (x : Group) (s : State) : State := { s with
  sgm := { s.sgm with claims := s.sgm.claims.erase .ge, words := restoreLog (logOf s.ge.undo g) s.sgm.words }
  ge := s.ge.ended g
  sru := (reportStores ((logOf s.ge.undo g).map (·.addr)) s).sru
  lp := s.lp.withEvent (.groupAborted x.owner x.tag cause) }

theorem rollbackGroup_eq (hx : s.ge.table.at g = some x) : rollbackGroup cause g (takeClaim .ge s) = s.groupRolledBack cause g x := by
  have hx' : (takeClaim .ge s).ge.table.at g = some x := hx
  simp only [rollbackGroup, hx', postEvent_eq_withEvent]
  rfl

theorem groupRolledBack_gone : GroupGone g s (s.groupRolledBack cause g x) := ⟨rfl, rfl⟩

/-- The words of the group take their committed image again, the others stay (R28, R29). -/
theorem groupRolledBack_words (hl : HoldLaws s.ge) (a : Nat) :
    (s.groupRolledBack cause g x).sgm.words.read a = if heldBy s a = some g then committed s a else s.sgm.words.read a := by
  show (restoreLog (logOf s.ge.undo g) s.sgm.words).read a = _
  by_cases hg : heldBy s a = some g
  · rw [if_pos hg]
    obtain ⟨e, he, hgr, rfl, hc, hu⟩ := committed_of_held hl hg
    rw [hc]
    exact restoreLog_of_mem _ _ e (List.mem_filter.mpr ⟨he, by simpa using hgr⟩) fun e' he' ha => hu e' (List.mem_filter.mp he').1 ha
  · rw [if_neg hg]
    refine restoreLog_of_not_mem _ _ a fun e he ha => hg ?_
    obtain ⟨hmem, hgr⟩ := List.mem_filter.mp he
    exact (hl.held a g).mpr ⟨e, hmem, ha, of_decide_eq_true hgr⟩

/-- A rollback leaves the committed image (R9, R29). -/
theorem groupRolledBack_committed (hl : HoldLaws s.ge) (hm : MemoryCanonical s) (a : Nat) :
    committed (s.groupRolledBack cause g x) a = committed s a := by
  have hwords := groupRolledBack_words (cause := cause) (x := x) (g := g) hl a
  rw [groupRolledBack_gone.committed_eq hm a fun hg => by rw [hwords, if_neg hg], hwords]
  split <;> rfl

theorem exec_groupRollback {rest : List (Fin 4)} {fin : OpEnd} (hop : s.ge.op = some (.rollback cause (g :: rest) fin))
    (hx : s.ge.table.at g = some x) (hg : Granted .ge s) : exec .groupRollback s =
      .next (reselect (afterRollback cause rest fin (slotsBeforeNotice cause (s.groupRolledBack cause g x)))) := by
  simp only [exec, execGroupRollback, hop, if_pos ((granted_iff _ _).mpr hg), rollbackGroup_eq hx, nextWithSelection]

/-- In a rollback for LEAVING no slot is left for the release notice (R59, log 31). -/
theorem slotsBeforeNotice_none (hs : s.stc.state = .leaving) (hl : SlotLaws s) (i : Fin 4) :
    (slotsBeforeNotice .leaving (s.groupRolledBack cause g x)).sru.slots.at i = none := by
  have hif : slotsBeforeNotice .leaving (s.groupRolledBack cause g x) = sruTakeStartOfLeaving (s.groupRolledBack cause g x) := if_pos rfl
  rw [hif]
  cases hst : s.sru.startOfLeaving with
  | true =>
    obtain ⟨sl, cs, hnone, -, -, htaken⟩ := sruTakeStartOfLeaving_spec (s := s.groupRolledBack cause g x) hst
    rw [htaken]; exact hnone i
  | false =>
    rw [sruTakeStartOfLeaving_of_not (s := s.groupRolledBack cause g x) hst]
    exact (reportStores_taken _ s).2.1 i (hl.leaving hs hst i)

end

/-- A release notice marks no FREE slot. -/
theorem releaseNotice_none {u : State} (h : ∀ i, u.sru.slots.at i = none) (i : Fin 4) : (releaseNotice u).sru.slots.at i = none := by
  obtain ⟨v, rfl, ⟨-, hunmarked, -⟩, -⟩ := releaseNotice_spec u
  have hm : marked u i = false := by simp only [marked, h i]
  rw [hunmarked i hm, h i]

/-- Settles O47. -/
theorem groupRolledBack : Obligations.GroupRolledBack := by
  intro cause g rest fin x s hl hm hop hx hg
  refine ⟨s.groupRolledBack cause g x, groupRolledBack_words hl, groupRolledBack_gone.heldBy_eq hm, groupRolledBack_committed hl hm,
    ended_endedBut g _, reportStores_taken _ s, rfl, ?_⟩
  intro noticed claims taken
  have hexec := exec_groupRollback hop hx hg
  refine ⟨fun hr => ?last, fun hr => ?next, fun hc hf hs hsl => ?noSlot⟩
  case last =>
    obtain ⟨v, hv, hnotice, hclaims, hframe⟩ := releaseNotice_spec (taken (s.groupRolledBack cause g x))
    refine ⟨v, ⟨hnotice, hclaims, hframe⟩, ?_⟩
    rw [hexec, hr, hv]
    rfl
  case next =>
    obtain ⟨v, hv, hnotice, hclaims, hframe⟩ := releaseNotice_spec { taken (s.groupRolledBack cause g x) with
      ge := { (s.groupRolledBack cause g x).ge with op := some (.rollback cause rest fin), following := true } }
    refine ⟨v, ⟨hnotice, hclaims, hframe⟩, ?_⟩
    have hge : (slotsBeforeNotice cause (s.groupRolledBack cause g x)).ge = (s.groupRolledBack cause g x).ge := by simp
    have hafter : afterRollback cause rest fin (slotsBeforeNotice cause (s.groupRolledBack cause g x)) = claims v := by
      cases rest with
      | nil => exact absurd rfl hr
      | cons g' gs => rw [hv]; simp only [afterRollback, setFollowing, setOp, hge]; rfl
    rw [hexec, hafter]
  case noSlot =>
    subst hc hf
    refine ⟨_, hexec, fun i => ?_⟩
    have hnone := slotsBeforeNotice_none (cause := .leaving) (g := g) (x := x) hs hsl
    cases rest with
    | nil => simpa [afterRollback, endOperation] using releaseNotice_none hnone i
    | cons g' gs =>
      simp only [afterRollback, reselect_frame, presentClaim_frame]
      exact releaseNotice_none (u := setFollowing true (setOp (some (.rollback .leaving (g' :: gs) .noGroupOpen))
        (slotsBeforeNotice .leaving (s.groupRolledBack .leaving g x)))) (fun i => by simpa using hnone i) i

/-! ### Work that is no frame (R22, R33 to R38) -/

section
variable {s : State} {rest : List GeWork}

theorem exec_idleTimerExpiry {g : Fin 4} {x : Group} {us : Nat} (hx : s.ge.table.at g = some x) (ht : x.idle = .running us) :
    exec (.idleTimerExpiry g) s = .next { s with
      ge := { s.ge with table := s.ge.table.put g (some { x with idle := .stopped }), work := s.ge.work ++ [.expiry g] } } := by
  have hr : x.idle.isRunning = true := by rw [ht]; rfl
  simp only [exec, execIdleTimerExpiry, hx, hr, if_true, giveGe, updateGe]
  rfl

theorem takeOther_eq {w : GeWork} (hl : frameLater s.ge.work = w :: rest) : takeOther s = { s with ge := { s.ge with work := rest } } := by
  simp only [takeOther, hl, List.tail_cons]

theorem exec_geTakeExpiry_ended {g : Fin 4} (hop : s.ge.op = none) (hl : frameLater s.ge.work = .expiry g :: rest)
    (hg : s.ge.table.at g = none) : exec .geTakeExpiry s = .next { s with ge := { s.ge with work := rest } } := by
  simp only [exec, execGeTakeExpiry, hop, hl, hg]
  rw [takeOther_eq hl]
  simp only [hop]

theorem exec_geTakeExpiry_open {g : Fin 4} (hop : s.ge.op = none) (hl : frameLater s.ge.work = .expiry g :: rest)
    (hg : s.ge.table.at g ≠ none) : exec .geTakeExpiry s = .next (Begun .expired [g] .nothing { s with ge := { s.ge with work := rest } }) := by
  obtain ⟨x, hx⟩ := Option.ne_none_iff_exists'.mp hg
  simp only [exec, execGeTakeExpiry, hop, hl, hx]
  rw [takeOther_eq hl, beginRollbacks_eq_begun]
  simp only [hop]

end

/-- Settles O48, work by work. -/
theorem groupWorkTaken : Obligations.GroupWorkTaken := by
  intro s
  refine ⟨fun g x us => exec_idleTimerExpiry, fun rest hop => ?_⟩
  intro u groupsOf
  refine ⟨fun g hn => ?expiry, fun p report hn => ?lost, fun p n hn => ?restarted, fun hn => ?revoke, fun hn => ?leaving⟩ <;>
    have hl := frameLater_of_next (by nofun) hn
  case expiry => exact ⟨exec_geTakeExpiry_ended hop hl, exec_geTakeExpiry_open hop hl⟩
  case lost => simp only [exec, execGeTakePeerLost, hop, hl]; rw [takeOther_eq hl, beginRollbacks_eq_begun]; rfl
  case restarted => simp only [exec, execGeTakePeerRestarted, hop, hl]; rw [takeOther_eq hl, beginRollbacks_eq_begun]; rfl
  case revoke => simp only [exec, execGeTakeRevoke, hop, hl]; rw [takeOther_eq hl, beginRollbacks_eq_begun]
  case leaving => simp only [exec, execGeTakeStartOfLeaving, hop, hl]; rw [takeOther_eq hl, beginRollbacks_eq_begun]

/-! ### What changes the committed image (R7, R9) -/

/-- Every next state of an outcome satisfies P. -/
def Leads (P : State → Prop) (o : Answered) : Prop := ∀ t, o = .next t → P t

@[simp] theorem leads_next {P : State → Prop} {t : State} : Leads P (.next t) ↔ P t :=
  ⟨fun h => h t rfl, fun h _ ht => by cases ht; exact h⟩

@[simp] theorem leads_nextWithSelection {P : State → Prop} {t : State} : Leads P (nextWithSelection t) ↔ P (reselect t) := leads_next

section
variable {s : State}

/-- The commands that store words, or mark or release holds. -/
def touchesImage : Instr → Bool
  | .pinReset _ _ | .clearingDone | .localWordWrite | .wrApply | .gwriteApply | .groupCommit | .groupRollback => true
  | _ => false

/-- Any other command leaves all that the committed image depends on, block by block. -/
theorem exec_sameImage {c : Instr} (hc : touchesImage c = false) (s : State) : Leads (SameImage s) (exec c s) := by
  cases hb : busOf c with
  | some b => rcases exec_of_busOf_at hb s with h | h <;> simp [h, SameImage]
  | none =>
    cases c
    case resetRelease | localCycleEnd | localWordRead | quietTimerExpiry | listenTimerExpiry | leavingPresenceDue =>
      simp only [exec, execResetRelease, execLocalCycleEnd, execLocalWordRead, execQuietTimerExpiry, execListenTimerExpiry, execLeavingPresenceDue]
      (repeat' split) <;> simp [SameImage]
    case startDelimiter | contentionWon | transmitSent | transmitFault | lineIdle | goodFrame | frameDiscarded | dominantBitInGap =>
      simp only [exec, execStartDelimiter, execContentionWon, execTransmitSent, execTransmitFault, execLineIdle, execGoodFrame, execFrameDiscarded, execDominantBitInGap]
      (repeat' split) <;> simp [SameImage]
    case frameInHand | rdRangeRead | restartPurge | lastHeardExpiry =>
      simp only [exec, execFrameInHand, execRdRangeRead, execRestartPurge, execLastHeardExpiry]
      (repeat' split) <;> simp [SameImage]
    case rdsEvaluation | slotCapture | sruTakeAnnouncement | sruTakeStartOfLeaving | discardTimerExpiry =>
      simp only [exec, execRdsEvaluation, execSlotCapture, execSruTakeAnnouncement, execSruTakeStartOfLeaving, execDiscardTimerExpiry]
      (repeat' split) <;> simp [SameImage]
    case gopen | gwrite | gclose | gabort | idleTimerExpiry | geTakeExpiry | geTakePeerLost | geTakePeerRestarted | geTakeRevoke | geTakeStartOfLeaving =>
      simp only [exec, execGopen, execGwrite, execGclose, execGabort, execIdleTimerExpiry, execGeTakeExpiry, execGeTakePeerLost,
        execGeTakePeerRestarted, execGeTakeRevoke, execGeTakeStartOfLeaving]
      (repeat' split) <;> simp [SameImage, updateGe, Ge.opened]
    case reTakeAnnouncement | reTakeStartOfLeaving | responseWindowExpiry | backoffExpiry | deferralDeadlineExpiry =>
      simp only [exec, execReTakeAnnouncement, execReTakeStartOfLeaving, execResponseWindowExpiry, execBackoffExpiry, execDeferralDeadlineExpiry]
      (repeat' split) <;> simp [SameImage]
    case pinReset | clearingDone | localWordWrite | wrApply | gwriteApply | groupCommit | groupRollback => nomatch hc
    all_goals nomatch hb

/-- The image of a held word stands on the hold map and the log, which a WR and a local word write leave. -/
theorem exec_wrApply_holds (s : State) : Leads (fun t => t.ge.holds = s.ge.holds ∧ t.ge.undo = s.ge.undo) (exec .wrApply s) := by
  simp only [exec, execWrApply]
  (repeat' split) <;> simp

theorem exec_localWordWrite_holds (s : State) : Leads (fun t => t.ge.holds = s.ge.holds ∧ t.ge.undo = s.ge.undo) (exec .localWordWrite s) := by
  simp only [exec, execLocalWordWrite]
  (repeat' split) <;> simp

/-- The tests of a GWRITE inside its claim have passed (R25). -/
theorem fits_of_decideApply {ge : Ge} {g : Fin 4} {addr count : Nat} (hpool : ge.undo.length ≤ 128) (hd : decideApply ge g addr count = none) :
    conflicts ge g addr count = false ∧ ge.undo.length + (newlyHeld ge g addr count).length ≤ 128 := by
  unfold decideApply at hd
  split at hd
  · exact nomatch hd
  · next hc =>
    split at hd
    · exact nomatch hd
    · next hf =>
      rw [freeLog_lt_iff hpool] at hf
      exact ⟨Bool.eq_false_iff.mpr hc, by omega⟩

section
variable {g : Fin 4} {r : Request} {x : Group} (hl : HoldLaws s.ge) (hop : s.ge.op = some (.gwrite g))
  (hx : s.ge.table.at g = some x) (hd : decideApply s.ge g r.addr r.count = none)
include hl hop hx hd

theorem gwriteApplied_holdLaws : HoldLaws (s.gwriteApplied g r).ge :=
  have ⟨hc, hf⟩ := fits_of_decideApply hl.pool hd
  HoldLaws.written hl hx hc hf hop

/-- A GWRITE that stores keeps the old value of each word it newly holds in the log: the image stays (R9, R26). -/
theorem gwriteApplied_committed (hlen : r.data.length = r.count) (a : Nat) : committed (s.gwriteApplied g r) a = committed s a := by
  have hheld := gwriteApplied_heldBy g r s a
  have hentry : ∀ e ∈ (s.gwriteApplied g r).ge.undo, e.addr = a → heldBy (s.gwriteApplied g r) a ≠ none → committed (s.gwriteApplied g r) a = e.old := by
    intro e he ha hh
    obtain ⟨g', hg'⟩ := Option.ne_none_iff_exists'.mp hh
    obtain ⟨e', -, -, -, hc, hu⟩ := committed_of_held (gwriteApplied_holdLaws hl hop hx hd) hg'
    rw [hc, hu e he ha]
  cases hs : heldBy s a with
  | some g' =>
    obtain ⟨e, he, -, ha, hc, -⟩ := committed_of_held hl hs
    rw [hc]
    refine hentry e (List.mem_append_left _ he) ha ?_
    rw [hheld, hs]
    split <;> nofun
  | none =>
    rw [committed_of_free hs]
    by_cases hin : r.addr ≤ a ∧ a < r.addr + r.count
    · have hnew : a ∈ newlyHeld s.ge g r.addr r.count := (mem_newlyHeld s g _ _ a).mpr ⟨hin, by rw [hs]; nofun⟩
      exact hentry ⟨g, a, s.sgm.words.read a⟩ (List.mem_append_right _ (List.mem_map.mpr ⟨a, hnew, rfl⟩)) rfl
        (by rw [hheld, if_pos hin]; nofun)
    · rw [if_neg hin] at hheld
      rw [committed_of_free (hheld.trans hs), gwriteApplied_words, hlen, if_neg hin]

end

end

/-- The committed image depends on nothing a change of the answer or of the offers touches. -/
theorem committed_reselect_answered {h : Hand} {r : Reply} {u : State} (a : Nat) :
    committed (reselect (u.answered h r)) a = committed u a :=
  SameImage.committed (by simp [SameImage, State.answered]) a

theorem exec_gwriteApply_committed {s : State} (hl : HoldLaws s.ge) (hm : MemoryCanonical s) (a : Nat) :
    Leads (fun t => committed t a = committed s a) (exec .gwriteApply s) := by
  by_cases hop : ∃ g, s.ge.op = some (.gwrite g)
  · obtain ⟨g, hop⟩ := hop
    obtain ⟨h, hh, -, hready⟩ := hm.gwrite g hop
    obtain ⟨x, hx⟩ := Option.isSome_iff_exists.mp (hl.target g hop)
    by_cases hg : Granted .ge s
    · cases hd : decideApply s.ge g h.req.addr h.req.count with
      | some r =>
        rw [exec_gwriteApply_refused hop hh hg hd, leads_next, committed_reselect_answered]
        exact SameImage.committed ⟨rfl, rfl, rfl⟩ a
      | none =>
        rw [exec_gwriteApply_applied hop hh hg hd, leads_next, committed_reselect_answered]
        exact gwriteApplied_committed hl hop hx hd hready.2 a
    · have hng : granted .ge s = false := Bool.eq_false_iff.mpr (mt (granted_iff _ _).mp hg)
      simp [exec, execGwriteApply, hop, hh, hng]
  · simp only [exec, execGwriteApply]
    split
    · next hop' _ => exact absurd ⟨_, hop'⟩ hop
    · exact leads_next.mpr rfl

theorem afterRollback_sameImage (cause : AbortCause) (rest : List (Fin 4)) (fin : OpEnd) (u : State) :
    SameImage u (reselect (afterRollback cause rest fin (slotsBeforeNotice cause u))) := by
  simp [SameImage]

theorem exec_groupRollback_committed {s : State} (hl : HoldLaws s.ge) (hm : MemoryCanonical s) (a : Nat) :
    Leads (fun t => committed t a = committed s a) (exec .groupRollback s) := by
  simp only [exec, execGroupRollback]
  split
  · next cause g rest fin hop =>
    split
    · next hg =>
      rw [leads_nextWithSelection, (afterRollback_sameImage _ _ _ _).committed]
      cases hx : s.ge.table.at g with
      | none =>
        have hnone : rollbackGroup cause g (takeClaim .ge s) = takeClaim .ge s := by
          have hx' : (takeClaim .ge s).ge.table.at g = none := hx
          simp only [rollbackGroup, hx']
        rw [hnone]
        exact SameImage.committed ⟨rfl, rfl, rfl⟩ a
      | some x => rw [rollbackGroup_eq hx]; exact groupRolledBack_committed hl hm a
    · exact leads_next.mpr rfl
  · exact leads_next.mpr rfl

/-- Settles O51. -/
theorem committedImageChanges : Obligations.CommittedImageChanges := by
  refine ⟨fun s a hl => ⟨committed_of_free, fun g => committed_of_held hl⟩, fun c s t a hl hm ht h1 h2 h3 hheld => ?_⟩
  cases hc : touchesImage c with
  | false => exact (exec_sameImage hc s t ht).committed a
  | true =>
    cases c
    case wrApply =>
      obtain ⟨hholds, hundo⟩ := exec_wrApply_holds s t ht
      exact committed_of_held_unchanged hl hholds hundo (hheld (Or.inl rfl))
    case localWordWrite =>
      obtain ⟨hholds, hundo⟩ := exec_localWordWrite_holds s t ht
      exact committed_of_held_unchanged hl hholds hundo (hheld (Or.inr rfl))
    case gwriteApply => exact exec_gwriteApply_committed hl hm a t ht
    case groupRollback => exact exec_groupRollback_committed hl hm a t ht
    case clearingDone => exact absurd rfl h1
    case groupCommit => exact absurd rfl h2
    case pinReset addr rate => exact absurd rfl (h3 addr rate)
    all_goals nomatch hc

end Sys2Proof.Machine
end

section
/-! PROOFS. The port layer: what a bus cycle and the end of its work can do, said once for the statements about every command. -/

namespace Sys2Proof.Machine

/-! ### What the port changes by itself -/

/-- State t is s but for the port's own place in its cycles, the windows that only a read or write of theirs shows, the staged record and the counter. -/
def PortMoved (s t : State) : Prop :=
  t = { s with
    lp := { s.lp with
      cycle := t.lp.cycle, nextStrobe := t.lp.nextStrobe, latch := t.lp.latch, stagedLow := t.lp.stagedLow
      snapshot := t.lp.snapshot, window := t.lp.window }
    stc := { s.stc with staged := t.stc.staged }
    freeCount := t.freeCount }

theorem PortMoved.refl (s : State) : PortMoved s s := rfl

theorem PortMoved.trans {s t u : State} (h : PortMoved s t) (h' : PortMoved t u) : PortMoved s u := by
  rw [PortMoved] at h h' ⊢
  rw [h', h]

theorem setCycle_portMoved (c : Option Cycle) (s : State) : PortMoved s (setCycle c s) := rfl

theorem closeCycle_portMoved (b : BusCycle) (s : State) : PortMoved s (closeCycle b s) := rfl

theorem stageLow_portMoved (a : BitVec 12) (v : Half) (s : State) : PortMoved s (stageLow a v s) := rfl

theorem dropStaged_portMoved (s : State) : PortMoved s (dropStaged s) := rfl

theorem latch_portMoved (l : Option (BitVec 12 × Half)) (s : State) : PortMoved s { s with lp := { s.lp with latch := l } } := rfl

theorem nextStrobe_portMoved (b : Option BusCycle) (s : State) : PortMoved s { s with lp := { s.lp with nextStrobe := b } } := rfl

theorem writeConfig_portMoved (la : Nat) (v : Half) (s : State) : PortMoved s (writeConfig la v s) := rfl

theorem raiseStrobe_portMoved (s : State) : PortMoved s (raiseStrobe s) := by
  unfold raiseStrobe
  split
  · exact PortMoved.refl s
  · exact closeCycle_portMoved _ s
  · exact setCycle_portMoved _ s
  · exact nextStrobe_portMoved _ s

theorem snapshotFor_portMoved (la : BitVec 14) (s : State) : PortMoved s (snapshotFor la s) := by
  unfold snapshotFor
  split
  · exact (rfl : PortMoved s (takeSnapshot s))
  · exact PortMoved.refl s

theorem countRead_portMoved (la : BitVec 14) (s : State) : PortMoved s (countRead la s) := by
  unfold countRead
  split
  · exact (rfl : PortMoved s (countFree s))
  · exact PortMoved.refl s

/-! ### A relation that a beginning cycle is in holds of every bus cycle -/

/-- A relation between a state and a later one that the beginning of a cycle is in, and that the port's own moves before it leave. -/
structure PortClosed (P : State → State → Prop) : Prop where
  moved : ∀ {s t}, PortMoved s t → P s t
  before : ∀ {s s' t}, PortMoved s s' → P s' t → P s t
  begins : ∀ b s, P s (beginCycle b s)

section
variable {P : State → State → Prop} (h : PortClosed P)
include h

theorem PortClosed.presentStrobe (b : BusCycle) (s : State) : P s (presentStrobe b s) := by
  unfold Machine.presentStrobe
  split
  · exact h.begins b s
  · exact h.moved (nextStrobe_portMoved _ s)

theorem PortClosed.busCycle (b : BusCycle) (s : State) : P s (busCycle b s) := by
  unfold Machine.busCycle
  split
  · exact h.moved (PortMoved.refl s)
  · exact h.before (raiseStrobe_portMoved s) (h.presentStrobe b _)

theorem PortClosed.beginWaiting (s : State) : P s (beginWaiting s) := by
  unfold Machine.beginWaiting
  split
  · exact h.moved (PortMoved.refl s)
  · exact h.before (nextStrobe_portMoved none s) (h.begins _ _)

theorem PortClosed.workDone (c : Cycle) (result : Half) (s : State) : P s (workDone c result s) := by
  unfold Machine.workDone
  split
  · exact h.moved (setCycle_portMoved _ s)
  · exact h.before (closeCycle_portMoved c.bus s) (h.beginWaiting _)

theorem PortClosed.resumeAfterClearing (s : State) : P s (resumeAfterClearing s) := by
  unfold Machine.resumeAfterClearing
  split
  · exact h.before (stageLow_portMoved _ _ s) (h.workDone _ _ _)
  · exact h.workDone _ _ _
  · exact h.moved (PortMoved.refl s)

/-- The claim of a read is granted: the relation holds from the state in which it has been taken. -/
theorem PortClosed.localWordRead (c : Cycle) (la : BitVec 14) (s : State) : P (takeClaim .lp s) (localWordRead c la s) := by
  unfold Machine.localWordRead
  split
  · exact h.workDone _ _ _
  · exact h.before (latch_portMoved _ _) (h.workDone _ _ _)

end

/-- The claim of a write has done its work, but for the end of the cycle (R143). -/
def State.writeClaimed (la : BitVec 14) (v : Half) (s : State) : State :=
  if (heldBy s (wordOf la).toNat).isSome then postEvent (.localWriteRefused (wordOf la).toNat) (takeClaim .lp s)
  else reportStores [(wordOf la).toNat] (storeWords (wordOf la).toNat [joinHalves v (lowForWrite s (wordOf la))] (takeClaim .lp s))

theorem PortClosed.localWordWrite {P : State → State → Prop} (h : PortClosed P) (c : Cycle) (la : BitVec 14) (v : Half) (s : State) :
    P (s.writeClaimed la v) (localWordWrite c la v s) :=
  h.before (dropStaged_portMoved _) (h.workDone c 0 _)

/-! ### What a beginning cycle does -/

/-- A state law that the port's own moves keep, and what a cycle can begin: a claim, a write of a transfer buffer, POST, CONSUME or a command. -/
structure PortKept (I : State → Prop) : Prop where
  moved : ∀ {s t}, PortMoved s t → I s → I t
  claim : ∀ {s}, I s → I (presentClaim .lp s)
  buffer : ∀ {s} b j high v, I s → I (writeBufferHalf b j high v s)
  post : ∀ {s}, I s → I (postWindow s)
  completion : ∀ {s}, I s → I (consumeCompletion s)
  event : ∀ {s}, I s → I (consumeEvent s)
  command : ∀ {s} c, I s → I (takeCommand c s)

section
variable {I : State → Prop} (h : PortKept I)
include h

theorem PortKept.writeWindow (k : Nat) (v : Half) {s : State} (hs : I s) : I (writeWindow k v s) := by
  unfold Machine.writeWindow
  split
  · exact h.moved rfl hs
  split
  · exact h.post hs
  split
  · exact h.completion hs
  split
  · exact h.event hs
  split
  · unfold writeCommand
    split
    · exact h.command _ hs
    · exact hs
  · exact hs

theorem PortKept.writeLocation (la : Nat) (v : Half) {s : State} (hs : I s) : I (writeLocation la v s) := by
  unfold Machine.writeLocation
  split
  · exact h.buffer _ _ _ _ hs
  split
  · exact h.moved (writeConfig_portMoved la v s) hs
  · exact h.writeWindow _ v hs

theorem PortKept.beginClaim (b : BusCycle) {s : State} (hs : I s) : I (beginClaim b s) :=
  h.claim (h.moved (setCycle_portMoved _ s) hs)

theorem PortKept.beginNoClaim (b : BusCycle) (v : Half) {work : State → State} (hw : ∀ s, PortMoved s (work s)) {s : State} (hs : I s) :
    I (beginNoClaim b v work s) := by
  unfold Machine.beginNoClaim
  split
  · exact h.moved (setCycle_portMoved _ s) hs
  · exact h.moved ((hw s).trans (setCycle_portMoved _ _)) hs

theorem PortKept.beginRead (la : BitVec 14) {s : State} (hs : I s) : I (beginRead la s) := by
  unfold Machine.beginRead
  split
  · split
    · split
      · exact h.beginNoClaim _ _ PortMoved.refl hs
      · exact h.beginClaim _ hs
    · exact h.beginClaim _ hs
  · exact h.moved (((snapshotFor_portMoved la s).trans (countRead_portMoved la _)).trans (setCycle_portMoved _ _)) hs

theorem PortKept.beginWrite (la : BitVec 14) (v : Half) {s : State} (hs : I s) : I (beginWrite la v s) := by
  unfold Machine.beginWrite
  split
  · split
    · exact h.beginClaim _ hs
    · exact h.beginNoClaim _ _ (stageLow_portMoved _ v) hs
  · exact h.moved (setCycle_portMoved _ _) (h.writeLocation _ v hs)

theorem PortKept.beginCycle (b : BusCycle) {s : State} (hs : I s) : I (beginCycle b s) := by
  cases b with
  | read la => exact h.beginRead la hs
  | write la v => exact h.beginWrite la v hs

theorem PortKept.portClosed : PortClosed (fun s t => I s → I t) where
  moved hm hs := h.moved hm hs
  before hm ht hs := ht (h.moved hm hs)
  begins b _ hs := h.beginCycle b hs

/-- A command that begins a bus cycle keeps the law, when choosing again keeps it. -/
theorem PortKept.exec_bus (hre : ∀ {t}, I t → I (reselect t)) {c : Instr} {b : BusCycle} (hb : busOf c = some b) {s : State} (hs : I s) :
    Leads I (exec c s) := by
  have hcycle := h.portClosed.busCycle b s hs
  rcases exec_of_busOf_at hb s with he | he <;> rw [he, leads_next]
  · exact hcycle
  · exact hre hcycle

/-- The commands that end the work of a cycle keep it, when the work itself does. -/
theorem PortKept.exec_localWordRead (hre : ∀ {t}, I t → I (reselect t)) {s : State} (ht : I (takeClaim .lp s)) (hs : I s) :
    Leads I (exec .localWordRead s) := by
  simp only [exec, execLocalWordRead]
  split
  · split
    · exact leads_nextWithSelection.mpr (hre (h.portClosed.localWordRead _ _ s ht))
    · exact leads_next.mpr hs
  · exact leads_next.mpr hs

theorem PortKept.exec_localWordWrite (hre : ∀ {t}, I t → I (reselect t)) {s : State} (hw : ∀ la v, I (s.writeClaimed la v)) (hs : I s) :
    Leads I (exec .localWordWrite s) := by
  simp only [exec, execLocalWordWrite]
  split
  · split
    · exact leads_nextWithSelection.mpr (hre (h.portClosed.localWordWrite _ _ _ s (hw _ _)))
    · exact leads_next.mpr hs
  · exact leads_next.mpr hs

theorem PortKept.exec_localCycleEnd {s : State} (hs : I s) : Leads I (exec .localCycleEnd s) :=
  leads_next.mpr (h.moved (raiseStrobe_portMoved s) hs)

theorem PortKept.exec_clearingDone (hre : ∀ {t}, I t → I (reselect t)) {s : State} (hc : s.sgm.clearing = true → I s.cleared) (hs : I s) :
    Leads I (exec .clearingDone s) := by
  by_cases hcl : s.sgm.clearing = true
  · rw [Machine.exec_clearingDone hcl, leads_next]
    exact hre (h.portClosed.resumeAfterClearing _ (hc hcl))
  · exact leads_next.mpr hs |> fun hn => by simpa only [exec, execClearingDone, if_neg hcl] using hn

end

end Sys2Proof.Machine
end

section
/-! PROOFS. Station Control (O2, O17, O19, O22): every command answers, the results of commands, LEAVE and REVOKE, and the last winners. -/

namespace Sys2Proof.Machine

/-! ### Every command answers a next state (logs 1, 21) -/

/-- The outcome is a next state, in which the queue of commands, RESET# and the straps are those of s. -/
def AnswersStill (s : State) (o : Answered) : Prop :=
  ∃ t, o = .next t ∧ t.pending = s.pending ∧ t.resetLow = s.resetLow ∧ t.stc.address = s.stc.address ∧ t.stc.rate = s.stc.rate

@[simp] theorem answersStill_next {s t : State} : AnswersStill s (.next t) ↔
    t.pending = s.pending ∧ t.resetLow = s.resetLow ∧ t.stc.address = s.stc.address ∧ t.stc.rate = s.stc.rate :=
  ⟨fun ⟨_, ht, h⟩ => by cases ht; exact h, fun h => ⟨t, rfl, h⟩⟩

@[simp] theorem answersStill_nextWithSelection {s t : State} : AnswersStill s (nextWithSelection t) ↔
    t.pending = s.pending ∧ t.resetLow = s.resetLow ∧ t.stc.address = s.stc.address ∧ t.stc.rate = s.stc.rate := by
  simp [nextWithSelection]

/-- The commands that move RESET# or read the straps. -/
def movesReset : Instr → Bool
  | .pinReset _ _ | .resetRelease _ _ => true
  | _ => false

/-- Any other command moves neither RESET# nor the straps, nor the queue, block by block. -/
theorem exec_answersStill {c : Instr} (hc : movesReset c = false) (s : State) : AnswersStill s (exec c s) := by
  cases hb : busOf c with
  | some b => rcases exec_of_busOf_at hb s with h | h <;> simp [h]
  | none =>
    cases c
    case clearingDone | localCycleEnd | localWordRead | localWordWrite | quietTimerExpiry | listenTimerExpiry | leavingPresenceDue =>
      simp only [exec, execClearingDone, execLocalCycleEnd, execLocalWordRead, execLocalWordWrite, execQuietTimerExpiry, execListenTimerExpiry,
        execLeavingPresenceDue]
      (repeat' split) <;> simp [updateStc]
    case startDelimiter | contentionWon | transmitSent | transmitFault | lineIdle | goodFrame | frameDiscarded | dominantBitInGap =>
      simp only [exec, execStartDelimiter, execContentionWon, execTransmitSent, execTransmitFault, execLineIdle, execGoodFrame, execFrameDiscarded, execDominantBitInGap]
      (repeat' split) <;> simp
    case frameInHand | rdRangeRead | wrApply | restartPurge | lastHeardExpiry =>
      simp only [exec, execFrameInHand, execRdRangeRead, execWrApply, execRestartPurge, execLastHeardExpiry]
      (repeat' split) <;> simp
    case rdsEvaluation | slotCapture | sruTakeAnnouncement | sruTakeStartOfLeaving | discardTimerExpiry =>
      simp only [exec, execRdsEvaluation, execSlotCapture, execSruTakeAnnouncement, execSruTakeStartOfLeaving, execDiscardTimerExpiry]
      (repeat' split) <;> simp
    case gopen | gwrite | gwriteApply | gclose | groupCommit | gabort | groupRollback =>
      simp only [exec, execGopen, execGwrite, execGwriteApply, execGclose, execGroupCommit, execGabort, execGroupRollback]
      (repeat' split) <;> simp
    case idleTimerExpiry | geTakeExpiry | geTakePeerLost | geTakePeerRestarted | geTakeRevoke | geTakeStartOfLeaving =>
      simp only [exec, execIdleTimerExpiry, execGeTakeExpiry, execGeTakePeerLost, execGeTakePeerRestarted, execGeTakeRevoke, execGeTakeStartOfLeaving]
      (repeat' split) <;> simp
    case reTakeAnnouncement | reTakeStartOfLeaving | responseWindowExpiry | backoffExpiry | deferralDeadlineExpiry =>
      simp only [exec, execReTakeAnnouncement, execReTakeStartOfLeaving, execResponseWindowExpiry, execBackoffExpiry, execDeferralDeadlineExpiry]
      (repeat' split) <;> simp
    case pinReset | resetRelease => nomatch hc
    all_goals nomatch hb

/-- Settles O2, apart for the two commands of RESET#. -/
theorem everyCommandAnswersNext : Obligations.EveryCommandAnswersNext := by
  intro c s
  cases hc : movesReset c with
  | false =>
    obtain ⟨t, ht, hp, hr⟩ := exec_answersStill hc s
    refine ⟨t, ht, hp, ?_⟩
    split
    · nomatch hc
    · nomatch hc
    · exact hr
  | true =>
    cases c
    case pinReset addr rate => exact ⟨_, rfl, rfl, rfl, rfl, rfl⟩
    case resetRelease addr rate =>
      simp only [exec, execResetRelease]
      split
      · next hr => exact ⟨_, rfl, rfl, rfl, fun _ => ⟨rfl, rfl⟩, fun hn => nomatch hn.symm.trans hr⟩
      · next hr => exact ⟨_, rfl, rfl, Bool.eq_false_iff.mpr hr, fun hn => absurd hn hr, fun _ => ⟨rfl, rfl⟩⟩
    all_goals nomatch hc

/-! ### Results of commands (R132, Table 8-3) -/

/-- The cycle of a command and its result leave the choice of the LC. -/
theorem reselect_commanded {s : State} (h : LinkLaws s) (c : Command) (r : CommandResult) (b : BusCycle) :
    reselect ((setCommand c r s).cycleDone b 0) = (setCommand c r s).cycleDone b 0 :=
  reselect_of_linkLaws ⟨h.receive, h.sending, h.chosen⟩

section
variable {s : State}

theorem commandConfigure_of_running (h : s.stc.state = .clearing ∨ s.stc.state = .listening ∨ s.stc.state = .joined) :
    commandConfigure s = setCommand .configure .wrongState s := by
  rcases h with h | h | h <;> simp only [commandConfigure, h]

theorem commandConfigure_of_leaving (h : s.stc.state = .leaving) : commandConfigure s = setCommand .configure .busy s := by
  simp only [commandConfigure, h]

theorem commandJoin_of_running (h : s.stc.state = .clearing ∨ s.stc.state = .listening ∨ s.stc.state = .joined) :
    commandJoin s = setCommand .join .wrongState s := by
  rcases h with h | h | h <;> simp only [commandJoin, h]

theorem commandJoin_of_leaving (h : s.stc.state = .leaving) : commandJoin s = setCommand .join .busy s := by
  simp only [commandJoin, h]

theorem commandLeave_of_offLink (h : s.stc.state = .clearing ∨ s.stc.state = .setup) : commandLeave s = setCommand .leave .wrongState s := by
  rcases h with h | h <;> simp only [commandLeave, h]

theorem commandLeave_of_listening (h : s.stc.state = .listening) : commandLeave s = leaveListening (setCommand .leave .accepted s) := by
  simp only [commandLeave, h]

theorem commandLeave_of_joined (h : s.stc.state = .joined) : commandLeave s = leaveJoined (setCommand .leave .accepted s) := by
  simp only [commandLeave, h]

theorem commandLeave_of_leaving (h : s.stc.state = .leaving) : commandLeave s = setCommand .leave .busy s := by
  simp only [commandLeave, h]

theorem commandRevoke_of_outside (h : s.stc.state = .clearing ∨ s.stc.state = .setup ∨ s.stc.state = .listening) :
    commandRevoke s = setCommand .revoke .wrongState s := by
  rcases h with h | h | h <;> simp only [commandRevoke, h]

theorem commandRevoke_of_member (h : s.stc.state = .joined ∨ s.stc.state = .leaving) :
    commandRevoke s = giveGe .revoke (setCommand .revoke .accepted s) := by
  rcases h with h | h <;> simp only [commandRevoke, h]

/-- An accepted LEAVE keeps its command and result through all it does. -/
theorem commandLeave_status (h : s.stc.state = .listening ∨ s.stc.state = .joined) :
    (commandLeave s).stc.command = some (.leave, .accepted) := by
  rcases h with h | h
  · rw [commandLeave_of_listening h]; simp [setCommand, updateStc]
  · rw [commandLeave_of_joined h]; simp [setCommand, updateStc]

end

theorem ofCode_eq_none {v : Half} (h : v.toNat = 0 ∨ 4 < v.toNat) : Command.ofCode v = none := by
  have hne : ∀ w : Half, 1 ≤ w.toNat → w.toNat ≤ 4 → v ≠ w := fun w h1 h4 he => by subst he; omega
  simp only [Command.ofCode, if_neg (hne 1 (by decide) (by decide)), if_neg (hne 2 (by decide) (by decide)), if_neg (hne 3 (by decide) (by decide)),
    if_neg (hne 4 (by decide) (by decide))]

/-- The status of the last command stays, or a cycle in progress writes a command. -/
def CommandFollows (s t : State) : Prop :=
  t.stc.command = s.stc.command ∨ ∃ v : Half, 1 ≤ v.toNat ∧ v.toNat ≤ 4 ∧ t.lp.cycle.map (·.bus) = some (.write 0x2333 v)

theorem PortMoved.command_eq {s t : State} (h : PortMoved s t) : t.stc.command = s.stc.command :=
  congrArg (·.stc.command) h

/-- A write outside the segment that changes the status writes a command code to the command location. -/
theorem writeLocation_command (la : BitVec 14) (v : Half) (s : State) :
    (writeLocation la.toNat v s).stc.command = s.stc.command ∨ (la = 0x2333 ∧ 1 ≤ v.toNat ∧ v.toNat ≤ 4) := by
  by_cases hcmd : la.toNat = 0x2333 ∧ Command.ofCode v ≠ none
  · obtain ⟨hla, hv⟩ := hcmd
    refine Or.inr ⟨BitVec.eq_of_toNat_eq hla, ?_⟩
    have hcode := mt ofCode_eq_none hv
    omega
  · refine Or.inl ?_
    unfold writeLocation
    split
    · simp
    split
    · rfl
    unfold writeWindow
    split
    · rfl
    split
    · simp
    split
    · simp
    split
    · simp
    split
    · next h33 =>
      have hn : Command.ofCode v = none := Classical.not_not.mp fun hv => hcmd ⟨by omega, hv⟩
      simp only [writeCommand, hn]
    · rfl

theorem beginCycle_commandFollows (b : BusCycle) (s : State) : CommandFollows s (beginCycle b s) := by
  cases b with
  | read la => exact Or.inl (by simp [beginCycle])
  | write la v =>
    simp only [beginCycle, beginWrite, beginNoClaim]
    split
    · exact Or.inl (by (repeat' split) <;> simp)
    · rcases writeLocation_command la v s with hc | ⟨rfl, hv⟩
      · exact Or.inl hc
      · exact Or.inr ⟨v, hv.1, hv.2, rfl⟩

theorem commandFollows_portClosed : PortClosed CommandFollows where
  moved h := Or.inl h.command_eq
  before h ht := ht.imp_left fun hc => hc.trans h.command_eq
  begins := beginCycle_commandFollows

/-- What a command does before the work of a cycle ends has left the status. -/
theorem CommandFollows.of_same {s s' t : State} (h : CommandFollows s' t) (hs : s'.stc.command = s.stc.command) : CommandFollows s t :=
  h.imp_left fun hc => hc.trans hs

theorem CommandFollows.after_reselect {s t : State} (h : CommandFollows s t) : CommandFollows s (reselect t) := by
  simpa [CommandFollows] using h

theorem writeClaimed_command (la : BitVec 14) (v : Half) (s : State) : (s.writeClaimed la v).stc.command = s.stc.command := by
  unfold State.writeClaimed
  split <;> simp

/-- The commands that end the work of a cycle, after which a waiting strobe can begin one. -/
theorem exec_commandFollows_of_ends {c : Instr} (hc : endsWork c = true) (hpin : ∀ addr rate, c ≠ .pinReset addr rate) (s : State) :
    Leads (CommandFollows s) (exec c s) := by
  cases c
  case pinReset addr rate => exact absurd rfl (hpin addr rate)
  case clearingDone =>
    by_cases h : s.sgm.clearing = true
    · rw [exec_clearingDone h, leads_next]
      exact ((commandFollows_portClosed.resumeAfterClearing s.cleared).of_same (s := s) rfl).after_reselect
    · simp [exec, execClearingDone, h, CommandFollows]
  case localWordRead =>
    simp only [exec, execLocalWordRead]
    (repeat' split) <;> simp only [leads_next, leads_nextWithSelection]
    · exact ((commandFollows_portClosed.localWordRead _ _ s).of_same (s := s) rfl).after_reselect
    all_goals exact Or.inl rfl
  case localWordWrite =>
    simp only [exec, execLocalWordWrite]
    (repeat' split) <;> simp only [leads_next, leads_nextWithSelection]
    · exact ((commandFollows_portClosed.localWordWrite _ _ _ s).of_same (writeClaimed_command _ _ s)).after_reselect
    all_goals exact Or.inl rfl
  all_goals nomatch hc

/-- No other command but PIN_RESET and those of the bus changes the status, block by block. -/
theorem exec_keepsCommand {c : Instr} (hb : busOf c = none) (hends : endsWork c = false) (s : State) :
    Leads (fun t => t.stc.command = s.stc.command) (exec c s) := by
  cases c
  case resetRelease | localCycleEnd | quietTimerExpiry | listenTimerExpiry | leavingPresenceDue =>
    simp only [exec, execResetRelease, execLocalCycleEnd, execQuietTimerExpiry, execListenTimerExpiry, execLeavingPresenceDue]
    (repeat' split) <;> simp [updateStc]
  case startDelimiter | contentionWon | transmitSent | transmitFault | lineIdle | goodFrame | frameDiscarded | dominantBitInGap =>
    simp only [exec, execStartDelimiter, execContentionWon, execTransmitSent, execTransmitFault, execLineIdle, execGoodFrame, execFrameDiscarded, execDominantBitInGap]
    (repeat' split) <;> simp
  case frameInHand | rdRangeRead | wrApply | restartPurge | lastHeardExpiry =>
    simp only [exec, execFrameInHand, execRdRangeRead, execWrApply, execRestartPurge, execLastHeardExpiry]
    (repeat' split) <;> simp
  case rdsEvaluation | slotCapture | sruTakeAnnouncement | sruTakeStartOfLeaving | discardTimerExpiry =>
    simp only [exec, execRdsEvaluation, execSlotCapture, execSruTakeAnnouncement, execSruTakeStartOfLeaving, execDiscardTimerExpiry]
    (repeat' split) <;> simp
  case gopen | gwrite | gwriteApply | gclose | groupCommit | gabort | groupRollback =>
    simp only [exec, execGopen, execGwrite, execGwriteApply, execGclose, execGroupCommit, execGabort, execGroupRollback]
    (repeat' split) <;> simp
  case idleTimerExpiry | geTakeExpiry | geTakePeerLost | geTakePeerRestarted | geTakeRevoke | geTakeStartOfLeaving =>
    simp only [exec, execIdleTimerExpiry, execGeTakeExpiry, execGeTakePeerLost, execGeTakePeerRestarted, execGeTakeRevoke, execGeTakeStartOfLeaving]
    (repeat' split) <;> simp
  case reTakeAnnouncement | reTakeStartOfLeaving | responseWindowExpiry | backoffExpiry | deferralDeadlineExpiry =>
    simp only [exec, execReTakeAnnouncement, execReTakeStartOfLeaving, execResponseWindowExpiry, execBackoffExpiry, execDeferralDeadlineExpiry]
    (repeat' split) <;> simp
  case pinReset | clearingDone | localWordRead | localWordWrite => nomatch hends
  all_goals nomatch hb

theorem exec_commandFollows {c : Instr} (hc : ∀ addr rate, c ≠ .pinReset addr rate) (s : State) : Leads (CommandFollows s) (exec c s) := by
  cases hb : busOf c with
  | some b =>
    have hcycle := commandFollows_portClosed.busCycle b s
    rcases exec_of_busOf_at hb s with he | he <;> rw [he, leads_next]
    · exact hcycle
    · exact hcycle.after_reselect
  | none =>
    cases hends : endsWork c with
    | true => exact exec_commandFollows_of_ends hends hc s
    | false => exact fun t ht => Or.inl (exec_keepsCommand hb hends s t ht)

/-- Settles O17, command by command. -/
theorem commandResults : Obligations.CommandResults := by
  refine ⟨fun s hp => ?_, fun c s t ht hne => ?_⟩
  · intro status only st
    refine ⟨fun h => ?_, fun h => ?_, fun h => ?_, fun hl h => ?_, fun hl h => ?_, fun h => ?_, fun hl h => ?_, fun hl h => ?_, fun h => ?_, fun h => ?_,
      fun h => ?_, fun v h hl => ?_⟩
    · rw [exec_configure hp, commandConfigure_of_running h]; rfl
    · rw [exec_configure hp, commandConfigure_of_leaving h]; rfl
    · cases hf : configFailure s.stc.staged with
      | none => exact ⟨_, exec_configure_accepted hp h hf, Or.inl rfl⟩
      | some np => exact ⟨_, exec_configure_refused hp h hf, Or.inr ⟨_, _, rfl⟩⟩
    · rw [exec_join hp, commandJoin_of_running h, reselect_commanded hl]; rfl
    · rw [exec_join hp, commandJoin_of_leaving h, reselect_commanded hl]; rfl
    · refine ⟨_, exec_join_setup hp h, ?_⟩
      simp [status, joinInSetup_eq, State.cycleDone]
    · rw [exec_leave hp, commandLeave_of_offLink h, reselect_commanded hl]; rfl
    · rw [exec_leave hp, commandLeave_of_leaving h, reselect_commanded hl]; rfl
    · refine ⟨_, exec_leave hp, ?_⟩
      simpa [status, State.cycleDone] using commandLeave_status h
    · rw [exec_revoke hp, commandRevoke_of_outside h]; rfl
    · refine ⟨_, exec_revoke hp, ?_⟩
      rw [commandRevoke_of_member h]; rfl
    · refine exec_of_busOf_local (b := .write 0x2333 v) (lp := (s.cycleDone (.write 0x2333 v) 0).lp) rfl hl ?_
      rw [write_command hp, writeCommand, ofCode_eq_none h]
      rfl
  · by_cases hc : ∃ addr rate, c = .pinReset addr rate
    · exact Or.inl hc
    · exact Or.inr ((exec_commandFollows (fun addr rate he => hc ⟨addr, rate, he⟩) s t ht).resolve_left hne)

/-! ### LEAVE and REVOKE (R137, R138, R140) -/

/-- SETUP is entered from LISTENING, with what waited taken first (R137, R81, log 15). -/
theorem leaveListening_eq (s : State) : leaveListening s = { takeAllWaiting s with
    stc := { (takeAllWaiting s).stc with state := .setup, listen := .stopped, due := none }
    lp := (takeAllWaiting s).lp.withEvent (.stateChanged .setup)
    lc := { (takeAllWaiting s).lc with slot := (takeAllWaiting s).lc.slot.without (.presence .fresh) }
    ge := (takeAllWaiting s).ge.unreported
    pt := { (takeAllWaiting s).pt with peers := (takeAllWaiting s).pt.peers.each Peer.down } } := by
  simp only [leaveListening, enterState_eq, updateGe, ← staleReports_eq]
  rfl

theorem leaveJoined_eq (s : State) : leaveJoined s = { s with
    stc := { s.stc with state := .leaving, noGroupOpen := false }
    lp := s.lp.withEvent (.stateChanged .leaving)
    ge := { s.ge with work := s.ge.work ++ [.startOfLeaving] }
    sru := { s.sru with startOfLeaving := true }
    re := { s.re with startOfLeaving := true } } := by
  simp only [leaveJoined, enterState_eq]
  rfl

/-- A REVOKE is joined to one that waits with no group frame behind it, or waits last (R22). -/
theorem addWork_revokeWaits (ws : List GeWork) : RevokeWaits ws (addWork .revoke ws) := by
  refine ⟨fun h => ?_, fun h => ?_⟩
  · exact if_pos ((revokeJoins_eq_true ws).mpr h)
  · exact if_neg (mt (revokeJoins_eq_true ws).mp h)

/-- Settles O19, by the command and the station state. -/
theorem leaveAndRevoke : Obligations.LeaveAndRevoke := by
  refine ⟨fun s hp hs => ?listening, fun s hp hs => ?joined, fun s hp hs => ?revoke⟩
  case listening =>
    refine ⟨takeAllWaiting_nothingWaits (setCommand .leave .accepted s), (takeAllWaiting (setCommand .leave .accepted s)).pt.peers.each Peer.down, _, ?_, fun p => Table.at_each _ _ _, TxSlot.without_withdrawn _ _⟩
    rw [exec_leave hp, commandLeave_of_listening hs, leaveListening_eq]
    rfl
  case joined =>
    rw [exec_leave hp, commandLeave_of_joined hs, leaveJoined_eq]
    rfl
  case revoke =>
    refine ⟨addWork .revoke s.ge.work, ?_, addWork_revokeWaits _⟩
    rw [exec_revoke hp, commandRevoke_of_member hs]
    rfl

/-! ### The last winners (R120) -/

/-- In t the last winner of class c is p, and the other as in s. -/
def WinnerIs (c : FrameClass) (p : Station) (s t : State) : Prop :=
  t.lc.last0 = (if c = .response then p else s.lc.last0) ∧ t.lc.last1 = (if c = .request then p else s.lc.last1)

/-- The last winners stay, and LISTENING is not entered. -/
def WinnersStay (s t : State) : Prop :=
  (t.stc.state = .listening → s.stc.state = .listening) ∧ t.lc.last0 = s.lc.last0 ∧ t.lc.last1 = s.lc.last1

/-- LISTENING has been entered, with no last winners (R120, held as 15). -/
def WinnersCleared (s t : State) : Prop :=
  s.stc.state ≠ .listening ∧ t.stc.state = .listening ∧ t.lc.last0 = 15 ∧ t.lc.last1 = 15

theorem won_winnerIs (c : FrameClass) (p : Station) (s : State) : WinnerIs c p s (updateLc (Lc.won c p) s) := by
  cases c <;> exact ⟨rfl, rfl⟩

theorem WinnerIs.of_same {c : FrameClass} {p : Station} {s s' t t' : State} (h : WinnerIs c p s' t) (h0 : s'.lc.last0 = s.lc.last0)
    (h1 : s'.lc.last1 = s.lc.last1) (h0' : t'.lc.last0 = t.lc.last0) (h1' : t'.lc.last1 = t.lc.last1) : WinnerIs c p s t' :=
  ⟨h0'.trans (h0 ▸ h.1), h1'.trans (h1 ▸ h.2)⟩

/-- A good frame sets the last winner of its class before any block takes it. -/
theorem takeGoodFrame_winnerIs (f : Frame) (s : State) : WinnerIs f.cls f.sender s (reselect (takeGoodFrame f s)) := by
  refine (won_winnerIs f.cls f.sender (endReception s)).of_same (by simp) (by simp) ?_ ?_ <;>
    simp only [reselect_frame, takeGoodFrame] <;> (repeat' split) <;> simp

section
variable {s : State} {o : Offer} {f : Frame} {b : List Bool} {r : Bool}

/-- This station's own frame sets the last winner of its class before the report is taken. -/
theorem exec_transmitSent_winnerIs (h : s.lc.slot = .onLine o f b r) : Leads (WinnerIs o.cls s.stc.address s) (exec .transmitSent s) := by
  rw [exec_transmitSent h, leads_next]
  refine (won_winnerIs o.cls s.stc.address { s with lc := { s.lc with slot := .empty, view := .gap 0, receive := none } }).of_same rfl rfl ?_ ?_ <;>
    cases r <;> simp [State.lineReleased, updateLc]

/-- No report of a sent frame leads to LISTENING. -/
theorem reportSent_listening (o : Offer) (s : State) (h : (reportSent o s).stc.state = .listening) : s.stc.state = .listening := by
  unfold reportSent presenceSent freshSent endLeaving at h
  (repeat' split at h) <;> simp_all [updateStc, enterState]

theorem exec_transmitSent_listening (h : s.lc.slot = .onLine o f b r) :
    Leads (fun t => t.stc.state = .listening → s.stc.state = .listening) (exec .transmitSent s) := by
  rw [exec_transmitSent h, leads_next]
  intro hl
  cases r
  · exact reportSent_listening o { s with lc := s.lineReleased o } (by simpa using hl)
  · simpa using hl

end

/-! #### The port -/

/-- What the port and its commands can do: nothing to the last winners, but for JOIN in SETUP. -/
def WinnersFollow (s t : State) : Prop := WinnersStay s t ∨ WinnersCleared s t

theorem PortMoved.winnersStay {s t : State} (h : PortMoved s t) : WinnersStay s t :=
  ⟨fun hl => by rw [h] at hl; exact hl, congrArg (·.lc.last0) h, congrArg (·.lc.last1) h⟩

theorem WinnersFollow.of_stay {s s' t : State} (h : WinnersFollow s' t) (hs : s'.stc.state = s.stc.state) (hlc : s'.lc = s.lc) : WinnersFollow s t := by
  refine h.imp (fun hst => ⟨fun hl => hs ▸ hst.1 hl, hlc ▸ hst.2⟩) (fun hcl => ⟨hs ▸ hcl.1, hcl.2⟩)

theorem takeCommand_winnersFollow (c : Command) (s : State) : WinnersFollow s (takeCommand c s) := by
  cases c with
  | configure => exact Or.inl (by simp [takeCommand, WinnersStay])
  | revoke => exact Or.inl (by simp [takeCommand, WinnersStay])
  | join =>
    cases hs : s.stc.state with
    | setup =>
      refine Or.inr ⟨by rw [hs]; nofun, ?_⟩
      simp [takeCommand, commandJoin, hs, joinInSetup_eq]
    | _ => exact Or.inl (by simp [takeCommand, commandJoin, hs, WinnersStay])
  | leave =>
    refine Or.inl ⟨fun hl => ?_, by simp [takeCommand], by simp [takeCommand]⟩
    cases hs : s.stc.state with
    | listening => rfl
    | joined => simp [takeCommand, commandLeave_of_joined hs, leaveJoined_eq] at hl
    | _ => simp [takeCommand, commandLeave, hs] at hl

theorem writeWindow_winnersFollow (k : Nat) (v : Half) (s : State) : WinnersFollow s (writeWindow k v s) := by
  unfold writeWindow
  split
  · exact Or.inl ⟨id, rfl, rfl⟩
  split
  · exact Or.inl (by simp [WinnersStay])
  split
  · exact Or.inl (by simp [WinnersStay])
  split
  · exact Or.inl (by simp [WinnersStay])
  split
  · unfold writeCommand
    split
    · exact takeCommand_winnersFollow _ s
    · exact Or.inl ⟨id, rfl, rfl⟩
  · exact Or.inl ⟨id, rfl, rfl⟩

theorem beginCycle_winnersFollow (b : BusCycle) (s : State) : WinnersFollow s (beginCycle b s) := by
  cases b with
  | read la => exact Or.inl (by simp [beginCycle, WinnersStay])
  | write la v =>
    simp only [beginCycle, beginWrite, beginNoClaim, writeLocation]
    split
    · exact Or.inl (by (repeat' split) <;> simp [WinnersStay])
    split
    · exact Or.inl (by simp [WinnersStay])
    split
    · exact Or.inl (by simp [WinnersStay])
    · simpa [WinnersFollow, WinnersStay, WinnersCleared] using writeWindow_winnersFollow (la.toNat - 0x2300) v s

theorem winnersFollow_portClosed : PortClosed WinnersFollow where
  moved h := Or.inl h.winnersStay
  before h ht := ht.of_stay (congrArg (·.stc.state) h) (congrArg (·.lc) h)
  begins := beginCycle_winnersFollow

theorem WinnersFollow.after_reselect {s t : State} (h : WinnersFollow s t) : WinnersFollow s (reselect t) := by
  simpa [WinnersFollow, WinnersStay, WinnersCleared] using h

theorem exec_winnersFollow_of_ends {c : Instr} (hc : endsWork c = true) (hpin : ∀ addr rate, c ≠ .pinReset addr rate) {s : State}
    (hl : ClearingLaws s) : Leads (WinnersFollow s) (exec c s) := by
  cases c
  case pinReset addr rate => exact absurd rfl (hpin addr rate)
  case clearingDone =>
    by_cases h : s.sgm.clearing = true
    · rw [exec_clearingDone h, leads_next]
      have hne : s.stc.state ≠ .listening := by rw [(hl.clearing.mp h).1]; nofun
      refine WinnersFollow.after_reselect ((winnersFollow_portClosed.resumeAfterClearing s.cleared).imp (fun hst => ⟨fun hli => ?_, hst.2⟩) (fun hcl => ⟨hne, hcl.2⟩))
      exact nomatch (hst.1 hli : StationState.setup = .listening)
    · simp [exec, execClearingDone, h, WinnersFollow, WinnersStay]
  case localWordRead =>
    simp only [exec, execLocalWordRead]
    (repeat' split) <;> simp only [leads_next, leads_nextWithSelection]
    · exact ((winnersFollow_portClosed.localWordRead _ _ s).of_stay (s := s) rfl rfl).after_reselect
    all_goals exact Or.inl ⟨id, rfl, rfl⟩
  case localWordWrite =>
    have hclaim : ∀ la v, (s.writeClaimed la v).stc = s.stc ∧ (s.writeClaimed la v).lc = s.lc := fun la v => by
      unfold State.writeClaimed; split <;> simp
    simp only [exec, execLocalWordWrite]
    (repeat' split) <;> simp only [leads_next, leads_nextWithSelection]
    · exact ((winnersFollow_portClosed.localWordWrite _ _ _ s).of_stay (congrArg (·.state) (hclaim _ _).1) (hclaim _ _).2).after_reselect
    all_goals exact Or.inl ⟨id, rfl, rfl⟩
  all_goals nomatch hc

/-- The commands by which a frame of this station or of another can end. -/
def endsFrame : Instr → Bool
  | .transmitSent | .goodFrame _ | .frameDiscarded _ => true
  | _ => false

/-- Any other command leaves the last winners and the station state, block by block. -/
theorem exec_winnersStay {c : Instr} (hb : busOf c = none) (hends : endsWork c = false) (hf : endsFrame c = false) (s : State) :
    Leads (WinnersStay s) (exec c s) := by
  cases c
  case resetRelease | localCycleEnd | quietTimerExpiry | listenTimerExpiry | leavingPresenceDue =>
    simp only [exec, execResetRelease, execLocalCycleEnd, execQuietTimerExpiry, execListenTimerExpiry, execLeavingPresenceDue]
    (repeat' split) <;> simp [WinnersStay, updateStc]
  case startDelimiter | contentionWon | transmitFault | lineIdle | dominantBitInGap =>
    simp only [exec, execStartDelimiter, execContentionWon, execTransmitFault, execLineIdle, execDominantBitInGap]
    (repeat' split) <;> simp [WinnersStay, updateLc]
  case frameInHand | rdRangeRead | wrApply | restartPurge | lastHeardExpiry =>
    simp only [exec, execFrameInHand, execRdRangeRead, execWrApply, execRestartPurge, execLastHeardExpiry]
    (repeat' split) <;> simp [WinnersStay]
  case rdsEvaluation | slotCapture | sruTakeAnnouncement | sruTakeStartOfLeaving | discardTimerExpiry =>
    simp only [exec, execRdsEvaluation, execSlotCapture, execSruTakeAnnouncement, execSruTakeStartOfLeaving, execDiscardTimerExpiry]
    (repeat' split) <;> simp [WinnersStay]
  case gopen | gwrite | gwriteApply | gclose | groupCommit | gabort | groupRollback =>
    simp only [exec, execGopen, execGwrite, execGwriteApply, execGclose, execGroupCommit, execGabort, execGroupRollback]
    (repeat' split) <;> simp [WinnersStay]
  case idleTimerExpiry | geTakeExpiry | geTakePeerLost | geTakePeerRestarted | geTakeRevoke | geTakeStartOfLeaving =>
    simp only [exec, execIdleTimerExpiry, execGeTakeExpiry, execGeTakePeerLost, execGeTakePeerRestarted, execGeTakeRevoke, execGeTakeStartOfLeaving]
    (repeat' split) <;> simp [WinnersStay]
  case reTakeAnnouncement | reTakeStartOfLeaving | responseWindowExpiry | backoffExpiry | deferralDeadlineExpiry =>
    simp only [exec, execReTakeAnnouncement, execReTakeStartOfLeaving, execResponseWindowExpiry, execBackoffExpiry, execDeferralDeadlineExpiry]
    (repeat' split) <;> simp [WinnersStay]
  case pinReset | clearingDone | localWordRead | localWordWrite => nomatch hends
  case transmitSent | goodFrame | frameDiscarded => nomatch hf
  all_goals nomatch hb

/-- With no frame ended the last winners stay; a frame taken as a good one enters no LISTENING. -/
theorem exec_endsFrame_winners {c : Instr} (hf : endsFrame c = true) (s : State) :
    Leads (fun t => (t.stc.state = .listening → s.stc.state = .listening) ∧
      (¬ (∃ f, taken c f ∧ receiving s = true) → ¬ (c = .transmitSent ∧ s.lc.slot.sending = true) → t.lc.last0 = s.lc.last0 ∧ t.lc.last1 = s.lc.last1))
      (exec c s) := by
  cases c
  case transmitSent =>
    cases hslot : s.lc.slot with
    | onLine o f b r => exact fun t ht => ⟨exec_transmitSent_listening hslot t ht, fun _ hn => absurd ⟨rfl, rfl⟩ hn⟩
    | _ => simp [exec, execTransmitSent, hslot]
  case goodFrame f =>
    by_cases hr : receiving s = true
    · cases hok : formatOk f with
      | true => simp [exec, execGoodFrame, hr, hok, taken]
      | false => simp [exec, execGoodFrame, hr, hok]
    · simp [exec, execGoodFrame, hr]
  case frameDiscarded bits =>
    by_cases hr : receiving s = true
    · cases hrec : receive bits with
      | ok f => simp [exec, execFrameDiscarded, hr, hrec, taken]
      | error e => cases e <;> simp [exec, execFrameDiscarded, hr, hrec]
    · simp [exec, execFrameDiscarded, hr]
  all_goals nomatch hf

/-- What the statement says of a step that ends no frame: the last winners stay, or LISTENING is entered. -/
theorem exec_winners {c : Instr} {s t : State} (hl : ClearingLaws s) (ht : exec c s = .next t) (hpin : ∀ addr rate, c ≠ .pinReset addr rate) :
    ((t.stc.state = .listening → s.stc.state = .listening) ∧
      (¬ (∃ f, taken c f ∧ receiving s = true) → ¬ (c = .transmitSent ∧ s.lc.slot.sending = true) → t.lc.last0 = s.lc.last0 ∧ t.lc.last1 = s.lc.last1)) ∨
    WinnersCleared s t := by
  suffices hfollow : endsFrame c = true ∨ WinnersFollow s t by
    rcases hfollow with hf | hst | hcl
    · exact Or.inl (exec_endsFrame_winners hf s t ht)
    · exact Or.inl ⟨hst.1, fun _ _ => hst.2⟩
    · exact Or.inr hcl
  cases hb : busOf c with
  | some b =>
    have hcycle := winnersFollow_portClosed.busCycle b s
    rcases exec_of_busOf_at hb s with he | he <;> rw [he] at ht <;> cases ht
    · exact Or.inr hcycle
    · exact Or.inr hcycle.after_reselect
  | none =>
    cases hends : endsWork c with
    | true => exact Or.inr (exec_winnersFollow_of_ends hends hpin hl t ht)
    | false =>
      cases hf : endsFrame c with
      | true => exact Or.inl rfl
      | false => exact Or.inr (Or.inl (exec_winnersStay hb hends hf s t ht))

/-- Settles O22. -/
theorem lastWinnerFollowsFrames : Obligations.LastWinnerFollowsFrames := by
  intro c s t hl ht
  refine ⟨fun f hf hr => ?good, fun o f b r hc hslot => ?sent, fun addr rate hc => ?reset, fun hns hlis => ?entered, fun hf hsent hpin hlis => ?other⟩
  case good =>
    rw [exec_of_taken hf hr] at ht
    cases ht
    exact takeGoodFrame_winnerIs f s
  case sent =>
    subst hc
    exact exec_transmitSent_winnerIs hslot t ht
  case reset =>
    subst hc
    cases ht
    exact ⟨rfl, rfl⟩
  case entered =>
    by_cases hpin : ∃ addr rate, c = .pinReset addr rate
    · obtain ⟨addr, rate, rfl⟩ := hpin
      cases ht
      exact ⟨rfl, rfl⟩
    · rcases exec_winners hl ht (fun addr rate he => hpin ⟨addr, rate, he⟩) with h | h
      · exact absurd (h.1 hlis) hns
      · exact h.2.2
  case other =>
    rcases exec_winners hl ht hpin with h | h
    · exact h.2 hf hsent
    · exact absurd ⟨h.1, h.2.1⟩ hlis

end Sys2Proof.Machine
end

section
/-! PROOFS. Invariants of the Group Engine (O56): the laws of holds and log entries through every command. -/

namespace Sys2Proof.Machine

/-! ### What keeps the laws of holds -/

section
variable {s t : State}

/-- The laws stand on the groups, the log, the holds and the operation: what changes the GE's work alone keeps them. -/
theorem HoldLaws.of_work {ge ge' : Ge} (h : HoldLaws ge) (ht : ge'.table = ge.table) (ho : ge'.order = ge.order) (hu : ge'.undo = ge.undo)
    (hh : ge'.holds = ge.holds) (hop : ge'.op = ge.op) (hf : ge'.following = ge.following) : HoldLaws ge' :=
  h.of_same ht ho hu hh (fun _ hg => hop ▸ hg) (fun hft => hop ▸ h.following (hf ▸ hft))

/-- An operation that is no GWRITE takes the place of the one in progress. -/
theorem HoldLaws.setOp {ge : Ge} (h : HoldLaws ge) {op : Option GeOp} {following : Bool} (hop : ∀ g, op ≠ some (.gwrite g))
    (hf : following = true → ∃ cause list fin, op = some (.rollback cause list fin)) : HoldLaws { ge with op := op, following := following } :=
  h.of_same rfl rfl rfl rfl (fun g hg => absurd hg (hop g)) hf

theorem HoldLaws.not_following {ge : Ge} (h : HoldLaws ge) (hop : ge.op = none) : ge.following = false :=
  Bool.eq_false_iff.mpr fun hf => by obtain ⟨_, _, _, hr⟩ := h.following hf; exact nomatch hr.symm.trans hop

theorem HoldLaws.staleReports {ge : Ge} (h : HoldLaws ge) : HoldLaws (staleReports ge) := by
  refine h.of_same rfl rfl rfl rfl (fun g hg => ?_) (fun hf => ?_)
  · obtain ⟨op, hop, hst⟩ := Option.map_eq_some_iff.mp hg
    cases op with
    | rollback => exact nomatch hst
    | _ => exact hop.trans (congrArg some hst)
  · obtain ⟨cause, list, fin, hop⟩ := h.following hf
    exact ⟨cause, list, fin.stale, by simp only [Machine.staleReports, hop]; rfl⟩

/-- The idle timer of an OPEN entry is no part of the laws (R33). -/
theorem HoldLaws.idle {ge : Ge} (h : HoldLaws ge) {g : Fin 4} {x : Group} (hx : ge.table.at g = some x) (t : Timer) :
    HoldLaws { ge with table := ge.table.put g (some { x with idle := t }) } := by
  have hat : ∀ i y, (ge.table.put g (some { x with idle := t })).at i = some y →
      ∃ z, ge.table.at i = some z ∧ y.owner = z.owner ∧ y.tag = z.tag ∧ y.held = z.held := by
    intro i y hy
    rw [Table.at_put] at hy
    split at hy
    · next hi => cases hy; exact ⟨x, hi ▸ hx, rfl, rfl, rfl⟩
    · exact ⟨y, hy, rfl, rfl, rfl⟩
  have hsome : ∀ i, ((ge.table.put g (some { x with idle := t })).at i).isSome = (ge.table.at i).isSome := by
    intro i
    rw [Table.at_put]
    split
    · next hi => rw [hi, hx]; rfl
    · rfl
  refine { h with count := fun i y hy => ?_, freeLog := fun i hi => ?_, order := ⟨h.order.1, fun i => ?_⟩, pair := fun i j y z hy hz ho ht => ?_, target := fun i hi => ?_ }
  · obtain ⟨z, hz, -, -, hheld⟩ := hat i y hy
    exact hheld.trans (h.count i z hz)
  · refine h.freeLog i (Option.not_isSome_iff_eq_none.mp fun hs => ?_)
    rw [← hsome i, hi] at hs
    exact nomatch hs
  · rw [hsome i]; exact h.order.2 i
  · obtain ⟨y', hy', hyo, hyt, -⟩ := hat i y hy
    obtain ⟨z', hz', hzo, hzt, -⟩ := hat j z hz
    exact h.pair i j y' z' hy' hz' (hyo ▸ hzo ▸ ho) (hyt ▸ hzt ▸ ht)
  · rw [hsome i]; exact h.target i hi

theorem endOperation_holdLaws (fin : OpEnd) (h : HoldLaws s.ge) : HoldLaws (endOperation fin s).ge :=
  h.of_work (by simp) (by simp) (by simp) (by simp) (by simp) (by simp)

theorem beginRollbacks_holdLaws (cause : AbortCause) (list : List (Fin 4)) (fin : OpEnd) (h : HoldLaws s.ge) :
    HoldLaws (beginRollbacks cause list fin s).ge := by
  cases list with
  | nil => exact endOperation_holdLaws fin h
  | cons g gs => exact h.setOp (following := s.ge.following) (by nofun) fun _ => ⟨_, _, _, rfl⟩

/-! ### The port and the link -/

theorem takeCommand_holdLaws (c : Command) (h : HoldLaws s.ge) : HoldLaws (takeCommand c s).ge := by
  cases c with
  | configure => simpa [takeCommand] using h
  | join => simpa [takeCommand] using h
  | revoke => exact h.of_work (by simp) (by simp) (by simp) (by simp) (by simp [takeCommand]) (by simp)
  | leave =>
    cases hs : s.stc.state with
    | listening =>
      rw [takeCommand, commandLeave_of_listening hs, leaveListening_eq, ← staleReports_eq]
      have hge : (takeAllWaiting (setCommand .leave .accepted s)).ge = s.ge := by simp
      exact (hge ▸ h).staleReports
    | joined => rw [takeCommand, commandLeave_of_joined hs, leaveJoined_eq]; exact h.of_work rfl rfl rfl rfl rfl rfl
    | _ => simpa [takeCommand, commandLeave, hs] using h

theorem holdLaws_portKept : PortKept (fun t => HoldLaws t.ge) where
  moved hm h := (congrArg (·.ge) hm : _ = _) ▸ h
  claim h := h
  buffer b j high v h := by simpa using h
  post h := by simpa using h
  completion h := by simpa using h
  event h := by simpa using h
  command c h := takeCommand_holdLaws c h

theorem presenceSent_holdLaws (m : Mark) (h : HoldLaws s.ge) : HoldLaws (presenceSent m s).ge := by
  unfold presenceSent
  split
  · cases m with
    | plain => exact h
    | fresh => simpa using h
    | leaving =>
      have hge : (takeAllWaiting s).ge = s.ge := by simp
      simp only [endLeaving_eq, ← staleReports_eq, hge]
      exact h.staleReports
  · exact h

theorem reportSent_holdLaws (o : Offer) (h : HoldLaws s.ge) : HoldLaws (reportSent o s).ge := by
  cases o with
  | response => exact h
  | presence m => exact presenceSent_holdLaws m h
  | request e => simpa [reportSent] using h

end

/-! ### The Group Engine's own commands -/

/-- The frame the GE takes: no operation is in progress, and the frame of kind k stands first in the work (R22). -/
theorem frameTaken_eq_some {s : State} {k : ReqKind} {h : Hand} (ht : frameTaken k s = some h) :
    h.req.kind = k ∧ ∃ rest, GroupFrameNext h rest s := by
  unfold frameTaken at ht
  split at ht
  · next rest _ hop hwork hhand =>
    split at ht
    · next hst => cases ht; exact ⟨hst.2, rest, hop, hwork, hhand, hst.1⟩
    · exact nomatch ht
  · exact nomatch ht

theorem findGroup_isSome {ge : Ge} {p : Station} {tag : BitVec 4} {g : Fin 4} (h : findGroup ge p tag = some g) : (ge.table.at g).isSome := by
  have hf := List.find?_some h
  cases hg : ge.table.at g with
  | none => rw [hg] at hf; exact nomatch of_decide_eq_true hf
  | some x => rfl

theorem findGroup_none_only {ge : Ge} {p : Station} {tag : BitVec 4} (h : findGroup ge p tag = none) (g : Fin 4) (x : Group)
    (hx : ge.table.at g = some x) (ho : x.owner = p) (ht : x.tag = tag) : False := by
  have hf := List.find?_eq_none.mp h g (mem_all4 g)
  subst ho ht
  exact hf (by rw [hx]; exact decide_eq_true rfl)

/-- A GOPEN that opens a group takes a FREE entry, and no OPEN group has its owner and tag (R23). -/
theorem decideGopen_opens {s : State} {h : Hand} {r : Option Reply} {g : Fin 4} (hd : decideGopen s h = (r, some g)) :
    s.ge.table.at g = none ∧ findGroup s.ge h.sender h.req.tag = none := by
  unfold decideGopen at hd
  split at hd
  · cases hd
  split at hd
  · cases hd
  split at hd
  · cases hd
  next hfind =>
    split at hd
    · cases hd
    next g' hfree =>
    cases hd
    exact ⟨Option.isNone_iff_eq_none.mp (List.find?_some (p := fun g => (s.ge.table.at g).isNone) hfree), Option.not_isSome_iff_eq_none.mp hfind⟩

theorem decideGwrite_ok {s : State} {h : Hand} {g : Fin 4} (hd : decideGwrite s h = .ok g) :
    findGroup s.ge h.sender h.req.tag = some g ∧ h.req.addr + h.req.count ≤ 4096 := by
  unfold decideGwrite at hd
  split at hd
  · cases hd
  next g' hfind =>
    split at hd
    · cases hd
    next hrange =>
    split at hd
    · cases hd
    cases hd
    exact ⟨hfind, of_decide_eq_true (Bool.eq_true_of_not_eq_false hrange)⟩

section
variable {s : State} (hl : HoldLaws s.ge)
include hl

/-- Taking work from the head or next to it leaves the laws. -/
theorem takeWork_holdLaws : HoldLaws (takeWork s).ge := hl.of_work rfl rfl rfl rfl rfl rfl

theorem takeOther_holdLaws : HoldLaws (takeOther s).ge := hl.of_work rfl rfl rfl rfl rfl rfl

/-- An operation begins on an idle GE (R22). -/
theorem setOp_holdLaws {op : Option GeOp} (hop : s.ge.op = none) (hg : ∀ g, op = some (.gwrite g) → (s.ge.table.at g).isSome) :
    HoldLaws (setOp op (takeWork s)).ge :=
  { hl with target := hg, following := fun hf => nomatch hf.symm.trans (hl.not_following hop) }

theorem exec_gopen_holdLaws : Leads (fun t => HoldLaws t.ge) (exec .gopen s) := by
  simp only [exec, execGopen]
  split
  · exact leads_next.mpr hl
  · next h ht =>
    obtain ⟨-, rest, hn⟩ := frameTaken_eq_some ht
    split
    · next r g hd =>
      obtain ⟨hfree, hnone⟩ := decideGopen_opens hd
      rw [leads_nextWithSelection]
      simp only [reselect_frame, finishHand_frame]
      exact (takeWork_holdLaws hl).opened hfree (findGroup_none_only hnone) hn.op
    · rw [leads_nextWithSelection]
      simpa using takeWork_holdLaws hl

theorem exec_groupFrame_holdLaws {c : Instr} (hc : c = .gwrite ∨ c = .gclose ∨ c = .gabort) : Leads (fun t => HoldLaws t.ge) (exec c s) := by
  have hrefused : ∀ r, HoldLaws (reselect (finishHand r (takeWork s))).ge := fun r => by simpa using takeWork_holdLaws hl
  rcases hc with rfl | rfl | rfl <;> simp only [exec, execGwrite, execGclose, execGabort]
  · split
    · exact leads_next.mpr hl
    · next h ht =>
      obtain ⟨-, rest, hn⟩ := frameTaken_eq_some ht
      split
      · exact leads_nextWithSelection.mpr (hrefused _)
      · next g hd => exact leads_next.mpr (setOp_holdLaws hl hn.op fun g' hg => by cases hg; exact findGroup_isSome (decideGwrite_ok hd).1)
  · split
    · exact leads_next.mpr hl
    · next h ht =>
      obtain ⟨-, rest, hn⟩ := frameTaken_eq_some ht
      split
      · exact leads_nextWithSelection.mpr (hrefused _)
      · exact leads_next.mpr (setOp_holdLaws hl hn.op (by nofun))
  · split
    · exact leads_next.mpr hl
    · split
      · exact leads_nextWithSelection.mpr (hrefused _)
      · exact leads_next.mpr (beginRollbacks_holdLaws _ _ _ (takeWork_holdLaws hl))

theorem exec_gwriteApply_holdLaws (hm : MemoryCanonical s) : Leads (fun t => HoldLaws t.ge) (exec .gwriteApply s) := by
  by_cases hop : ∃ g, s.ge.op = some (.gwrite g)
  · obtain ⟨g, hop⟩ := hop
    obtain ⟨h, hh, -, -⟩ := hm.gwrite g hop
    obtain ⟨x, hx⟩ := Option.isSome_iff_exists.mp (hl.target g hop)
    by_cases hg : Granted .ge s
    · have hnf : s.ge.following = false := Bool.eq_false_iff.mpr fun hf => by obtain ⟨_, _, _, hr⟩ := hl.following hf; exact nomatch hr.symm.trans hop
      cases hd : decideApply s.ge g h.req.addr h.req.count with
      | some r =>
        rw [exec_gwriteApply_refused hop hh hg hd, leads_next]
        simp only [reselect_frame]
        exact hl.setOp (op := none) (by nofun) fun hf => nomatch hf.symm.trans hnf
      | none =>
        rw [exec_gwriteApply_applied hop hh hg hd, leads_next]
        simp only [reselect_frame]
        exact gwriteApplied_holdLaws hl hop hx hd
    · simp [exec, execGwriteApply, hop, hh, Bool.eq_false_iff.mpr (mt (granted_iff _ _).mp hg), hl]
  · simp only [exec, execGwriteApply]
    split
    · next hop' _ => exact absurd ⟨_, hop'⟩ hop
    · exact leads_next.mpr hl

theorem exec_groupCommit_holdLaws (hm : MemoryCanonical s) : Leads (fun t => HoldLaws t.ge) (exec .groupCommit s) := by
  simp only [exec, execGroupCommit]
  split
  · next g hop =>
    have hnf : s.ge.following = false := Bool.eq_false_iff.mpr fun hf => by obtain ⟨_, _, _, hr⟩ := hl.following hf; exact nomatch hr.symm.trans hop
    split
    · split
      · exact leads_next.mpr hl
      · rw [leads_nextWithSelection]
        simp only [reselect_frame, finishHand_frame, releaseNotice_frame, postEvent_frame]
        have hnone : HoldLaws { s.ge with op := none } := hl.setOp (op := none) (by nofun) fun hf => nomatch hf.symm.trans hnf
        exact hnone.ended hm.holds.1 g (by nofun)
    · exact leads_next.mpr hl
  · exact leads_next.mpr hl

theorem rollbackGroup_holdLaws (hm : MemoryCanonical s) (hop : ∀ g, s.ge.op ≠ some (.gwrite g)) (cause : AbortCause) (g : Fin 4) :
    HoldLaws (rollbackGroup cause g (takeClaim .ge s)).ge := by
  cases hx : s.ge.table.at g with
  | none =>
    have hx' : (takeClaim .ge s).ge.table.at g = none := hx
    simp only [rollbackGroup, hx']
    exact hl
  | some x => rw [rollbackGroup_eq hx]; exact hl.ended hm.holds.1 g hop

theorem exec_groupRollback_holdLaws (hm : MemoryCanonical s) : Leads (fun t => HoldLaws t.ge) (exec .groupRollback s) := by
  simp only [exec, execGroupRollback]
  split
  · next cause g rest fin hop =>
    split
    · have hgone := rollbackGroup_holdLaws hl hm (by rw [hop]; nofun) cause g
      rw [leads_nextWithSelection]
      simp only [reselect_frame]
      unfold afterRollback
      split
      · refine endOperation_holdLaws fin ?_
        simp only [setFollowing, setOp, releaseNotice_frame, slotsBeforeNotice_frame]
        exact hgone.setOp (by nofun) nofun
      · simp only [presentClaim_frame, releaseNotice_frame, setFollowing, setOp, slotsBeforeNotice_frame]
        exact hgone.setOp (by nofun) fun _ => ⟨_, _, _, rfl⟩
    · exact leads_next.mpr hl
  · exact leads_next.mpr hl

/-- The work that is no frame: the expiry of an idle timer, and what begins rollbacks (R33 to R38). -/
theorem exec_groupWork_holdLaws {c : Instr} (hc : (∃ g, c = .idleTimerExpiry g) ∨ c ∈ [Instr.geTakeExpiry, .geTakePeerLost, .geTakePeerRestarted, .geTakeRevoke, .geTakeStartOfLeaving]) :
    Leads (fun t => HoldLaws t.ge) (exec c s) := by
  have hbegun : ∀ cause list fin, HoldLaws (beginRollbacks cause list fin (takeOther s)).ge := fun cause list fin =>
    beginRollbacks_holdLaws cause list fin (takeOther_holdLaws hl)
  rcases hc with ⟨g, rfl⟩ | hc
  · simp only [exec, execIdleTimerExpiry]
    split
    · exact leads_next.mpr hl
    · next x hx =>
      split
      · exact leads_next.mpr ((hl.idle hx .stopped).of_work rfl rfl rfl rfl rfl rfl)
      · exact leads_next.mpr hl
  · simp only [List.mem_cons, List.not_mem_nil, or_false] at hc
    rcases hc with rfl | rfl | rfl | rfl | rfl <;>
      simp only [exec, execGeTakeExpiry, execGeTakePeerLost, execGeTakePeerRestarted, execGeTakeRevoke, execGeTakeStartOfLeaving] <;>
      (repeat' split) <;> simp [hl, hbegun, takeOther_holdLaws hl]

end

/-- The laws of holds through every command, block by block. -/
theorem exec_holdLaws (c : Instr) {s : State} (hl : HoldLaws s.ge) (hm : MemoryCanonical s) : Leads (fun t => HoldLaws t.ge) (exec c s) := by
  have hre : ∀ {t : State}, HoldLaws t.ge → HoldLaws (reselect t).ge := fun h => by simpa using h
  cases hb : busOf c with
  | some b => exact holdLaws_portKept.exec_bus hre hb hl
  | none =>
    cases c
    case pinReset addr rate => exact leads_next.mpr holdLaws_reset
    case clearingDone => exact holdLaws_portKept.exec_clearingDone hre (fun _ => hl) hl
    case localWordRead => exact holdLaws_portKept.exec_localWordRead hre hl hl
    case localWordWrite =>
      refine holdLaws_portKept.exec_localWordWrite hre (fun la v => ?_) hl
      unfold State.writeClaimed
      split <;> simpa using hl
    case localCycleEnd => exact holdLaws_portKept.exec_localCycleEnd hl
    case resetRelease | quietTimerExpiry | listenTimerExpiry | leavingPresenceDue =>
      simp only [exec, execResetRelease, execQuietTimerExpiry, execListenTimerExpiry, execLeavingPresenceDue]
      (repeat' split) <;> simpa using hl
    case transmitSent =>
      simp only [exec, execTransmitSent]
      (repeat' split) <;> simp only [leads_next, leads_nextWithSelection, reselect_frame, frameSent_frame]
      · simpa using hl
      · exact reportSent_holdLaws _ (by simpa using hl)
      · exact hl
    case startDelimiter | contentionWon | transmitFault | lineIdle | dominantBitInGap =>
      simp only [exec, execStartDelimiter, execContentionWon, execTransmitFault, execLineIdle, execDominantBitInGap]
      (repeat' split) <;> simpa using hl
    case goodFrame | frameDiscarded =>
      simp only [exec, execGoodFrame, execFrameDiscarded]
      (repeat' split) <;> simp only [leads_next, leads_nextWithSelection, reselect_frame]
      all_goals exact hl.of_work (by simp) (by simp) (by simp) (by simp) (by simp) (by simp)
    case frameInHand | lastHeardExpiry =>
      simp only [exec, execFrameInHand, execLastHeardExpiry]
      (repeat' split) <;> simp only [leads_next, leads_nextWithSelection, reselect_frame]
      all_goals exact hl.of_work (by simp) (by simp) (by simp) (by simp) (by simp) (by simp)
    case rdRangeRead | wrApply | restartPurge | rdsEvaluation | slotCapture | sruTakeAnnouncement | sruTakeStartOfLeaving | discardTimerExpiry =>
      simp only [exec, execRdRangeRead, execWrApply, execRestartPurge, execRdsEvaluation, execSlotCapture, execSruTakeAnnouncement,
        execSruTakeStartOfLeaving, execDiscardTimerExpiry]
      (repeat' split) <;> simpa using hl
    case reTakeAnnouncement | reTakeStartOfLeaving | responseWindowExpiry | backoffExpiry | deferralDeadlineExpiry =>
      simp only [exec, execReTakeAnnouncement, execReTakeStartOfLeaving, execResponseWindowExpiry, execBackoffExpiry, execDeferralDeadlineExpiry]
      (repeat' split) <;> simpa using hl
    case gopen => exact exec_gopen_holdLaws hl
    case gwrite => exact exec_groupFrame_holdLaws hl (Or.inl rfl)
    case gclose => exact exec_groupFrame_holdLaws hl (Or.inr (Or.inl rfl))
    case gabort => exact exec_groupFrame_holdLaws hl (Or.inr (Or.inr rfl))
    case gwriteApply => exact exec_gwriteApply_holdLaws hl hm
    case groupCommit => exact exec_groupCommit_holdLaws hl hm
    case groupRollback => exact exec_groupRollback_holdLaws hl hm
    case idleTimerExpiry g => exact exec_groupWork_holdLaws hl (Or.inl ⟨g, rfl⟩)
    case geTakeExpiry | geTakePeerLost | geTakePeerRestarted | geTakeRevoke | geTakeStartOfLeaving => exact exec_groupWork_holdLaws hl (Or.inr (by simp))
    all_goals nomatch hb

/-- Settles O56. -/
theorem holdLawsKept : Obligations.HoldLawsKept := by
  intro s t hl hm h
  unfold step at h
  split at h
  · cases h; exact hl
  · next c rest hp => exact exec_holdLaws c (s := { s with pending := rest }) hl { hm with } t h

end Sys2Proof.Machine
end

section
/-! PROOFS. Invariants of the Link Controller (O59): what withdraws offers keeps the slot in its place, and the LC has chosen whenever the line is IDLE. -/

namespace Sys2Proof.Machine

/-! ### The slot and the line view -/

/-- Whether the slot sends: a key, or a frame on the line. -/
def TxSlot.active : TxSlot → Bool
  | .contending _ _ | .onLine _ _ _ _ => true
  | _ => false

/-- The laws of the line view and the slot, the choice apart: those that a step keeps before the LC chooses again. -/
def Lc.Sound (lc : Lc) : Prop := (lc.receive.isSome ↔ lc.view = .frame) ∧ (lc.slot.active = true → lc.view = .frame)

theorem LinkLaws.sound {s : State} (h : LinkLaws s) : s.lc.Sound := by
  refine ⟨h.receive, fun ha => ?_⟩
  cases hs : s.lc.slot with
  | contending o k => exact h.sending o k ⟨.response, 0, 0, 0, []⟩ [] false (Or.inl hs)
  | onLine o f b r => exact h.sending o 0 f b r (Or.inr hs)
  | _ => rw [hs] at ha; exact nomatch ha

theorem Lc.Sound.linkLaws {s : State} (h : s.lc.Sound) (hc : s.lc.view = .idle → s.lc.slot = TxSlot.ofOffer (selectOffer s)) : LinkLaws s where
  receive := h.1
  sending := by rintro o k f b r (hs | hs) <;> exact h.2 (by rw [hs]; rfl)
  chosen := hc

/-- Withdrawing offers puts nothing on the line. -/
theorem TxSlot.active_without {o : Offer} {sl : TxSlot} (h : (sl.without o).active = true) : sl.active = true := by
  cases sl with
  | contending => rfl
  | onLine => rfl
  | empty => exact h
  | chosen o' => exact nomatch (show (if o' = o then TxSlot.empty else TxSlot.chosen o').active = false by split <;> rfl).symm.trans h

section
variable {s : State}

@[simp] theorem withdrawOffer_sound (o : Offer) (h : s.lc.Sound) : (withdrawOffer o s).lc.Sound :=
  ⟨h.1, fun ha => h.2 (TxSlot.active_without ha)⟩

@[simp] theorem retractEntry_sound (e : Fin 8) (h : s.lc.Sound) : (retractEntry e s).lc.Sound :=
  withdrawOffer_sound (s := { s with re := _ }) _ h

@[simp] theorem finishEntry_sound (e : Fin 8) (st : Status) (dt : Detail) (n : Nat) (h : s.lc.Sound) : (finishEntry e st dt n s).lc.Sound := by
  unfold finishEntry
  split
  · exact h
  · split <;> simpa using retractEntry_sound e h

@[simp] theorem attemptLost_sound (e : Fin 8) (x : Entry) (h : s.lc.Sound) : (attemptLost e x s).lc.Sound := by
  unfold attemptLost
  dsimp only
  split <;> simp [h]

@[simp] theorem copyUnanswered_sound (e : Fin 8) (x : Entry) (h : s.lc.Sound) : (copyUnanswered e x s).lc.Sound := by
  unfold copyUnanswered
  (repeat' split) <;> simp [h]

@[simp] theorem copyFaulted_sound (e : Fin 8) (h : s.lc.Sound) : (copyFaulted e s).lc.Sound := by
  unfold copyFaulted
  split <;> simp [h]

@[simp] theorem backOffOrCancel_sound (e : Fin 8) (x : Entry) (h : s.lc.Sound) : (backOffOrCancel e x s).lc.Sound := by
  unfold backOffOrCancel
  split <;> simp [h]

@[simp] theorem takeDefer_sound (e : Fin 8) (x : Entry) (h : s.lc.Sound) : (takeDefer e x s).lc.Sound := by
  unfold takeDefer
  dsimp only
  (repeat' split) <;> simp [h]

@[simp] theorem takeBusy_sound (e : Fin 8) (x : Entry) (h : s.lc.Sound) : (takeBusy e x s).lc.Sound := by
  unfold takeBusy
  dsimp only
  (repeat' split) <;> simp [h]

@[simp] theorem takeAnswer_sound (e : Fin 8) (x : Entry) (a : Answer) (h : s.lc.Sound) : (takeAnswer e x a s).lc.Sound := by
  unfold takeAnswer
  (repeat' split) <;> simp [h]

@[simp] theorem passToRequester_sound (f : Frame) (h : s.lc.Sound) : (passToRequester f s).lc.Sound := by
  unfold passToRequester takeResponse
  (repeat' split) <;> simp [h]

@[simp] theorem reTakeAnnouncement_sound (h : s.lc.Sound) : (reTakeAnnouncement s).lc.Sound := by
  unfold reTakeAnnouncement
  split
  · exact h
  · dsimp only; split <;> simp [h]

@[simp] theorem cancelEntries_sound (es : List (Fin 8)) : ∀ {s : State}, s.lc.Sound → (cancelEntries es s).lc.Sound := by
  induction es with
  | nil => exact fun h => h
  | cons e es ih =>
    intro s h
    unfold cancelEntries
    refine ih ?_
    split <;> simp [h]

@[simp] theorem reTakeStartOfLeaving_sound (h : s.lc.Sound) : (reTakeStartOfLeaving s).lc.Sound := by
  unfold reTakeStartOfLeaving
  split <;> simp [h]

@[simp] theorem restartPurge_sound (h : s.lc.Sound) : (restartPurge s).lc.Sound := by
  unfold restartPurge
  split
  · exact h
  · dsimp only; split <;> simp [h]

@[simp] theorem announce_sound (a : Announcement) (h : s.lc.Sound) : (announce a s).lc.Sound := by
  unfold announce
  cases a <;> simp [h]

@[simp] theorem hearFresh_sound (p : Station) (h : s.lc.Sound) : (hearFresh p s).lc.Sound := by
  unfold hearFresh
  dsimp only
  split <;> simp [h]

@[simp] theorem hearLeaving_sound (p : Station) (h : s.lc.Sound) : (hearLeaving p s).lc.Sound := by
  unfold hearLeaving
  dsimp only
  (repeat' split) <;> simp [h]

@[simp] theorem hear_sound (f : Frame) (h : s.lc.Sound) : (hear f s).lc.Sound := by
  unfold hear
  (repeat' split) <;> simp [h]

@[simp] theorem endOfLoss_sound (p : Station) (h : s.lc.Sound) : (endOfLoss p s).lc.Sound := by
  unfold endOfLoss
  dsimp only
  (repeat' split) <;> simp [h]

@[simp] theorem endOperation_sound (fin : OpEnd) (h : s.lc.Sound) : (endOperation fin s).lc.Sound := by
  unfold endOperation
  (repeat' split) <;> simp [h]

@[simp] theorem beginRollbacks_sound (cause : AbortCause) (list : List (Fin 4)) (fin : OpEnd) (h : s.lc.Sound) :
    (beginRollbacks cause list fin s).lc.Sound := by
  unfold beginRollbacks
  split <;> simp [h]

@[simp] theorem afterRollback_sound (cause : AbortCause) (rest : List (Fin 4)) (fin : OpEnd) (h : s.lc.Sound) :
    (afterRollback cause rest fin s).lc.Sound := by
  unfold afterRollback
  split <;> simp [h]

@[simp] theorem takeAllWaiting_sound (h : s.lc.Sound) : (takeAllWaiting s).lc.Sound := by
  simp (maxDischargeDepth := 4) [takeAllWaiting, h]

@[simp] theorem takeGoodFrame_sound (f : Frame) (h : (endReception s).lc.Sound) : (takeGoodFrame f s).lc.Sound := by
  have hwon : (updateLc (Lc.won f.cls f.sender) (endReception s)).lc.Sound := by cases f.cls <;> exact h
  unfold takeGoodFrame takeResponseFrame
  dsimp only
  (repeat' split) <;> simp (maxDischargeDepth := 4) [hwon]

@[simp] theorem reportSent_sound (o : Offer) (h : s.lc.Sound) : (reportSent o s).lc.Sound := by
  unfold reportSent presenceSent
  (repeat' split) <;> simp [h, endLeaving]

@[simp] theorem reportFault_sound (o : Offer) (h : s.lc.Sound) : (reportFault o s).lc.Sound := by
  unfold reportFault
  split <;> simp [h]

/-- The frame being received has ended: with no frame of this station on the line the slot sends nothing. -/
theorem endReception_sound (h : s.lc.slot.sending = false) : (endReception s).lc.Sound := by
  refine ⟨⟨nofun, nofun⟩, fun ha => ?_⟩
  rw [endReception_eq] at ha
  cases hs : s.lc.slot with
  | onLine => rw [hs] at h; exact nomatch h
  | _ => simp [hs, Lc.ended, TxSlot.active] at ha

theorem takeCommand_sound (c : Command) (h : s.lc.Sound) : (takeCommand c s).lc.Sound := by
  cases c with
  | configure => simpa [takeCommand] using h
  | revoke => simpa [takeCommand] using h
  | join =>
    show (commandJoin s).lc.Sound
    unfold commandJoin
    split
    · rw [joinInSetup_eq]; exact h
    all_goals simpa using h
  | leave =>
    show (commandLeave s).lc.Sound
    unfold commandLeave
    split
    · simp (maxDischargeDepth := 4) [leaveListening, h]
    all_goals simpa using h

theorem sound_portKept : PortKept (fun t => t.lc.Sound) where
  moved hm h := (congrArg (·.lc) hm : _ = _) ▸ h
  claim h := h
  buffer b j high v h := by simpa using h
  post h := by simpa using h
  completion h := by simpa using h
  event h := by simpa using h
  command c h := takeCommand_sound c h

end

/-! ### Choosing -/

/-- The LC has what it has in s, and so have the blocks it chooses from. -/
def OfferSame (s t : State) : Prop :=
  t.lc = s.lc ∧ t.stc.state = s.stc.state ∧ t.stc.due = s.stc.due ∧ t.te.queue = s.te.queue ∧ t.re.ready = s.re.ready

theorem OfferSame.refl (s : State) : OfferSame s s := ⟨rfl, rfl, rfl, rfl, rfl⟩

/-- What the LC may choose depends on the slot by the offer on the line alone. -/
theorem selectOffer_congr {s t : State} (hl : onLineOffer t = onLineOffer s) (hs : t.stc.state = s.stc.state) (hd : t.stc.due = s.stc.due)
    (hq : t.te.queue = s.te.queue) (hr : t.re.ready = s.re.ready) : selectOffer t = selectOffer s := by
  simp only [selectOffer, hl, hs, hd, hq, hr]

theorem LinkLaws.of_offerSame {s t : State} (h : LinkLaws s) (ho : OfferSame s t) : LinkLaws t := by
  obtain ⟨hlc, hs, hd, hq, hr⟩ := ho
  have hsel : selectOffer t = selectOffer s := selectOffer_congr (by simp only [onLineOffer, hlc]) hs hd hq hr
  exact Lc.Sound.linkLaws (hlc ▸ h.sound) (fun hv => by rw [hsel, hlc]; exact h.chosen (hlc ▸ hv))

theorem onLineOffer_of_not_active {s : State} (h : s.lc.slot.active = false) : onLineOffer s = none := by
  unfold onLineOffer
  split
  · next hs => rw [hs] at h; exact nomatch h
  · rfl

theorem TxSlot.ofOffer_active (o : Option Offer) : (TxSlot.ofOffer o).active = false := by
  cases o <;> rfl

/-- When the LC has chosen again, all its laws hold (R121). -/
theorem linkLaws_reselect {s : State} (h : s.lc.Sound) : LinkLaws (reselect s) := by
  by_cases hv : s.lc.view = .idle
  · have hre : reselect s = { s with lc := { s.lc with slot := TxSlot.ofOffer (selectOffer s) } } := if_pos hv
    have hna : s.lc.slot.active = false := Bool.eq_false_iff.mpr fun ha => nomatch hv.symm.trans (h.2 ha)
    rw [hre]
    refine Lc.Sound.linkLaws ⟨h.1, fun ha => nomatch (TxSlot.ofOffer_active _).symm.trans ha⟩ fun _ => congrArg TxSlot.ofOffer ?_
    exact selectOffer_congr ((onLineOffer_of_not_active hna).trans (onLineOffer_of_not_active (TxSlot.ofOffer_active _)).symm) rfl rfl rfl rfl
  · rw [reselect_of_not_idle hv]
    exact h.linkLaws fun hi => absurd hi hv

theorem Lc.Sound.linkLaws_of_not_idle {s : State} (h : s.lc.Sound) (hv : s.lc.view ≠ .idle) : LinkLaws s :=
  h.linkLaws fun hi => absurd hi hv

/-! ### The commands after which the LC does not choose -/

theorem OfferSame.trans {s t u : State} (h : OfferSame s t) (h' : OfferSame t u) : OfferSame s u :=
  ⟨h'.1.trans h.1, h'.2.1.trans h.2.1, h'.2.2.1.trans h.2.2.1, h'.2.2.2.1.trans h.2.2.2.1, h'.2.2.2.2.trans h.2.2.2.2⟩

theorem PortMoved.offerSame {s t : State} (h : PortMoved s t) : OfferSame s t :=
  ⟨congrArg (·.lc) h, congrArg (·.stc.state) h, congrArg (·.stc.due) h, congrArg (·.te.queue) h, congrArg (·.re.ready) h⟩

/-- The bus cycles that change nothing the LC chooses from: reads, writes of the segment and of a transfer buffer, CONSUME of an event, CONFIGURE and REVOKE. -/
def BusCycle.plain : BusCycle → Prop
  | .read _ => True
  | .write la v => la.toNat < 0x2200 ∨ la = 0x232A ∨ (la = 0x2333 ∧ (v = 1 ∨ v = 4))

theorem writeWindow_eventConsume (v : Half) (s : State) : writeWindow 0x2A v s = consumeEvent s := rfl

theorem writeWindow_command (v : Half) (s : State) : writeWindow 0x33 v s = writeCommand v s := rfl

theorem beginCycle_offerSame {b : BusCycle} (hb : b.plain) (s : State) : OfferSame s (beginCycle b s) := by
  cases b with
  | read la => simp [beginCycle, OfferSame]
  | write la v =>
    simp only [beginCycle, beginWrite, beginNoClaim]
    split
    · (repeat' split) <;> simp [OfferSame]
    · rcases hb with hla | rfl | ⟨rfl, rfl | rfl⟩
      · simp [OfferSame, writeLocation, if_pos hla]
      · rw [show (0x232A : BitVec 14).toNat = 0x2300 + 0x2A from rfl, writeLocation_window, writeWindow_eventConsume]
        simp [OfferSame]
      all_goals rw [show (0x2333 : BitVec 14).toNat = 0x2300 + 0x33 from rfl, writeLocation_window, writeWindow_command]
      · exact (⟨by simp, by simp, by simp, by simp, by simp⟩ : OfferSame s (commandConfigure s))
      · exact (⟨by simp, by simp, by simp, by simp, by simp⟩ : OfferSame s (commandRevoke s))

theorem busCycle_offerSame {b : BusCycle} (hb : b.plain) (s : State) : OfferSame s (busCycle b s) := by
  unfold busCycle presentStrobe
  split
  · exact OfferSame.refl s
  · have hraised := (raiseStrobe_portMoved s).offerSame
    split
    · exact hraised.trans (beginCycle_offerSame hb _)
    · exact hraised.trans (nextStrobe_portMoved _ _).offerSame

theorem exec_bus_linkLaws {c : Instr} {b : BusCycle} (hb : busOf c = some b) {s : State} (h : LinkLaws s) : Leads LinkLaws (exec c s) := by
  have hchosen : LinkLaws (reselect (busCycle b s)) := linkLaws_reselect (sound_portKept.portClosed.busCycle b s h.sound)
  have hplain : b.plain → LinkLaws (busCycle b s) := fun hp => h.of_offerSame (busCycle_offerSame hp s)
  cases c
  case localRegisterWrite | post | completionConsume | join | leave =>
    cases hb
    exact leads_next.mpr hchosen
  case localReadLowHalf | localReadHighHalf | groupViewSnapshot =>
    cases hb
    exact leads_next.mpr (hplain trivial)
  case localWriteLowHalf a v =>
    cases hb
    exact leads_next.mpr (hplain (Or.inl (by rw [toNat_ofNat14 _ (by omega)]; omega)))
  case localWriteHighHalf a v =>
    cases hb
    exact leads_next.mpr (hplain (Or.inl (by rw [toNat_ofNat14 _ (by omega)]; omega)))
  case transferBufferWrite b j high v =>
    cases hb
    have hhigh := Bool.toNat_le high
    exact leads_next.mpr (hplain (Or.inl (by rw [toNat_ofNat14 _ (by omega)]; omega)))
  case eventConsume v =>
    cases hb
    exact leads_next.mpr (hplain (Or.inr (Or.inl rfl)))
  case configure =>
    cases hb
    exact leads_next.mpr (hplain (Or.inr (Or.inr ⟨rfl, Or.inl rfl⟩)))
  case revoke =>
    cases hb
    exact leads_next.mpr (hplain (Or.inr (Or.inr ⟨rfl, Or.inr rfl⟩)))
  all_goals nomatch hb

/-! ### The line -/

section
variable {s : State}

theorem sending_of_receiving (h : receiving s = true) : s.lc.slot.sending = false := by
  simp only [receiving, Bool.and_eq_true, Bool.not_eq_true'] at h
  exact h.2

theorem view_endReception : (endReception s).lc.view ≠ .idle := nofun

/-- The commands of the line, and what the LC does in each. -/
theorem exec_line_linkLaws {c : Instr} (h : LinkLaws s)
    (hc : (∃ k, c = .startDelimiter k) ∨ (∃ f, c = .goodFrame f) ∨ (∃ bs, c = .frameDiscarded bs) ∨
      c ∈ [Instr.contentionWon, .transmitSent, .transmitFault, .lineIdle, .dominantBitInGap]) : Leads LinkLaws (exec c s) := by
  simp only [List.mem_cons, List.not_mem_nil, or_false] at hc
  rcases hc with ⟨k, rfl⟩ | ⟨f, rfl⟩ | ⟨bs, rfl⟩ | rfl | rfl | rfl | rfl | rfl
  · simp only [exec, execStartDelimiter]
    split
    · exact leads_next.mpr (Lc.Sound.linkLaws_of_not_idle ⟨⟨fun _ => rfl, fun _ => rfl⟩, fun _ => rfl⟩ nofun)
    · exact leads_next.mpr h
  · simp only [exec, execGoodFrame]
    split
    · next hr =>
      have hend := endReception_sound (sending_of_receiving hr)
      split
      · exact leads_nextWithSelection.mpr (linkLaws_reselect (takeGoodFrame_sound f hend))
      · exact leads_next.mpr (hend.linkLaws_of_not_idle view_endReception)
    · exact leads_next.mpr h
  · simp only [exec, execFrameDiscarded]
    split
    · next hr =>
      have hend := endReception_sound (sending_of_receiving hr)
      split
      · exact leads_next.mpr h
      · exact leads_next.mpr (hend.linkLaws_of_not_idle view_endReception)
      · exact leads_nextWithSelection.mpr (linkLaws_reselect (takeGoodFrame_sound _ hend))
    · exact leads_next.mpr h
  · simp only [exec, execContentionWon]
    split
    · next o k hs =>
      have hv : s.lc.view = .frame := h.sound.2 (by rw [hs]; rfl)
      have hni : ∀ slot, (updateLc (fun lc => { lc with slot := slot }) s).lc.view ≠ .idle := fun slot hi => nomatch hv.symm.trans hi
      split
      · exact leads_next.mpr (Lc.Sound.linkLaws_of_not_idle ⟨h.receive, fun _ => hv⟩ (hni _))
      · exact leads_next.mpr (Lc.Sound.linkLaws_of_not_idle ⟨h.receive, fun _ => hv⟩ (hni _))
    · exact leads_next.mpr h
  · simp only [exec, execTransmitSent]
    split
    · next o f b orphan hs =>
      have hleft : (updateLc (fun lc => Lc.won o.cls s.stc.address { lc with slot := .empty, view := .gap 0, receive := none }) s).lc.Sound := by
        cases o <;> exact ⟨⟨nofun, nofun⟩, nofun⟩
      refine leads_nextWithSelection.mpr (linkLaws_reselect ?_)
      rw [(frameSent_frame s _).2.2.2.2.2.2.2.1]
      split
      · exact hleft
      · exact reportSent_sound o hleft
    · exact leads_next.mpr h
  · simp only [exec, execTransmitFault]
    split
    · next o f b orphan hs =>
      have hleft : (updateLc (fun lc => { lc with slot := .empty }) s).lc.Sound := ⟨h.receive, nofun⟩
      refine leads_nextWithSelection.mpr (linkLaws_reselect ?_)
      split
      · exact hleft
      · exact reportFault_sound o hleft
    · exact leads_next.mpr h
  · simp only [exec, execLineIdle]
    split
    · exact leads_next.mpr h
    split
    · exact leads_next.mpr h
    · next hv =>
      refine leads_nextWithSelection.mpr (linkLaws_reselect ⟨⟨fun hr => ?_, nofun⟩, fun ha => ?_⟩)
      · exact nomatch hv.symm.trans (h.receive.mp hr)
      · exact nomatch hv.symm.trans (h.sound.2 ha)
    · split
      · exact leads_next.mpr h
      · next hsend =>
        have hend := endReception_sound (s := s) (Bool.eq_false_iff.mpr hsend)
        refine leads_nextWithSelection.mpr (linkLaws_reselect ⟨⟨nofun, nofun⟩, fun ha => ?_⟩)
        exact nomatch (hend.2 ha : LineView.gap 0 = .frame)
  · simp only [exec, execDominantBitInGap]
    split
    · next hv =>
      refine leads_next.mpr (Lc.Sound.linkLaws_of_not_idle ⟨⟨fun hr => ?_, nofun⟩, fun ha => ?_⟩ nofun)
      · exact nomatch hv.symm.trans (h.receive.mp hr)
      · exact nomatch hv.symm.trans (h.sound.2 ha)
    · exact leads_next.mpr h

end

/-- A rollback of groups begins with nothing the LC chooses from changed. -/
theorem beginRollbacks_offerSame (cause : AbortCause) (list : List (Fin 4)) {fin : OpEnd} (s : State)
    (hfin : list ≠ [] ∨ fin = .nothing ∨ fin = .noGroupOpen ∨ ∃ p n, fin = .restarted p n) : OfferSame s (beginRollbacks cause list fin s) := by
  unfold beginRollbacks
  split
  · rcases hfin with hn | rfl | rfl | ⟨p, n, rfl⟩
    · exact absurd rfl hn
    · exact OfferSame.refl s
    · exact ⟨rfl, rfl, rfl, rfl, rfl⟩
    · simp [endOperation, OfferSame]
  · exact ⟨rfl, rfl, rfl, rfl, rfl⟩

theorem takeOther_offerSame (s : State) : OfferSame s (takeOther s) := ⟨rfl, rfl, rfl, rfl, rfl⟩

theorem exec_linkLaws (c : Instr) {s : State} (h : LinkLaws s) (hc : ClearingLaws s) : Leads LinkLaws (exec c s) := by
  have hsound := h.sound
  have hsame : ∀ {t : State}, OfferSame s t → LinkLaws t := fun ho => h.of_offerSame ho
  cases hb : busOf c with
  | some b => exact exec_bus_linkLaws hb h
  | none =>
    cases c
    case pinReset addr rate => exact leads_next.mpr (Lc.Sound.linkLaws_of_not_idle ⟨⟨nofun, nofun⟩, nofun⟩ nofun)
    case resetRelease addr rate =>
      simp only [exec, execResetRelease]
      split
      · next hr =>
        have hlc : s.lc = State.reset.lc := congrArg (·.lc) (hc.reset hr)
        refine leads_next.mpr (Lc.Sound.linkLaws_of_not_idle ?_ nofun)
        simp only [beginClearing, setStraps, updateStc, hlc]
        exact ⟨⟨nofun, nofun⟩, nofun⟩
      · exact leads_next.mpr h
    case clearingDone =>
      simp only [exec, execClearingDone]
      split
      · refine leads_nextWithSelection.mpr (linkLaws_reselect (sound_portKept.portClosed.resumeAfterClearing _ ?_))
        simpa using hsound
      · exact leads_next.mpr h
    case localWordRead =>
      simp only [exec, execLocalWordRead]
      (repeat' split) <;> simp only [leads_next, leads_nextWithSelection, h]
      exact linkLaws_reselect (sound_portKept.portClosed.localWordRead _ _ s hsound)
    case localWordWrite =>
      have hclaimed : ∀ la v, (s.writeClaimed la v).lc.Sound := fun la v => by unfold State.writeClaimed; split <;> simpa using hsound
      simp only [exec, execLocalWordWrite]
      (repeat' split) <;> simp only [leads_next, leads_nextWithSelection, h]
      exact linkLaws_reselect (sound_portKept.portClosed.localWordWrite _ _ _ s (hclaimed _ _))
    case localCycleEnd => exact leads_next.mpr (hsame (raiseStrobe_portMoved s).offerSame)
    case quietTimerExpiry | listenTimerExpiry | leavingPresenceDue =>
      simp only [exec, execQuietTimerExpiry, execListenTimerExpiry, execLeavingPresenceDue]
      (repeat' split) <;> simp only [leads_next, leads_nextWithSelection, h]
      all_goals exact linkLaws_reselect (by simp [hsound])
    case startDelimiter k => exact exec_line_linkLaws h (Or.inl ⟨k, rfl⟩)
    case goodFrame f => exact exec_line_linkLaws h (Or.inr (Or.inl ⟨f, rfl⟩))
    case frameDiscarded bs => exact exec_line_linkLaws h (Or.inr (Or.inr (Or.inl ⟨bs, rfl⟩)))
    case contentionWon | transmitSent | transmitFault | lineIdle | dominantBitInGap =>
      exact exec_line_linkLaws h (Or.inr (Or.inr (Or.inr (by simp))))
    case frameInHand | rdRangeRead | wrApply | restartPurge | lastHeardExpiry =>
      simp only [exec, execFrameInHand, execRdRangeRead, execWrApply, execRestartPurge, execLastHeardExpiry]
      (repeat' split) <;> simp only [leads_next, leads_nextWithSelection, h]
      all_goals exact linkLaws_reselect (by simp [hsound])
    case rdsEvaluation =>
      simp only [exec, execRdsEvaluation]
      (repeat' split) <;> simp only [leads_next, leads_nextWithSelection, h]
      all_goals exact linkLaws_reselect (by simp [hsound])
    case slotCapture | sruTakeAnnouncement | sruTakeStartOfLeaving | discardTimerExpiry =>
      simp only [exec, execSlotCapture, execSruTakeAnnouncement, execSruTakeStartOfLeaving, execDiscardTimerExpiry]
      (repeat' split) <;> simp only [leads_next, h]
      all_goals exact hsame (by simp [OfferSame])
    case gopen | gwriteApply | groupCommit | groupRollback | geTakePeerLost =>
      simp only [exec, execGopen, execGwriteApply, execGroupCommit, execGroupRollback, execGeTakePeerLost]
      (repeat' split) <;> simp only [leads_next, leads_nextWithSelection, h]
      all_goals exact linkLaws_reselect (by simp [hsound])
    case gwrite | gclose | gabort =>
      simp only [exec, execGwrite, execGclose, execGabort]
      (repeat' split) <;> simp only [leads_next, leads_nextWithSelection, h]
      all_goals first | exact linkLaws_reselect (by simp [hsound]) | exact hsame (by simp [OfferSame, beginRollbacks])
    case idleTimerExpiry g =>
      simp only [exec, execIdleTimerExpiry]
      (repeat' split) <;> simp only [leads_next, h]
      exact hsame ⟨rfl, rfl, rfl, rfl, rfl⟩
    case geTakeExpiry =>
      simp only [exec, execGeTakeExpiry]
      (repeat' split) <;> simp only [leads_next, h]
      · exact hsame (takeOther_offerSame s)
      · exact hsame ((takeOther_offerSame s).trans (beginRollbacks_offerSame _ _ _ (Or.inl (by simp))))
    case geTakePeerRestarted | geTakeRevoke | geTakeStartOfLeaving =>
      simp only [exec, execGeTakePeerRestarted, execGeTakeRevoke, execGeTakeStartOfLeaving]
      (repeat' split) <;> simp only [leads_next, h]
      exact hsame ((takeOther_offerSame s).trans (beginRollbacks_offerSame _ _ _ (by simp)))
    case reTakeAnnouncement | reTakeStartOfLeaving | responseWindowExpiry | backoffExpiry =>
      simp only [exec, execReTakeAnnouncement, execReTakeStartOfLeaving, execResponseWindowExpiry, execBackoffExpiry]
      (repeat' split) <;> simp only [leads_next, leads_nextWithSelection, h]
      all_goals exact linkLaws_reselect (by simp [hsound])
    case deferralDeadlineExpiry e =>
      have hput : ∀ y, LinkLaws (putEntry e y s) := fun y => hsame ⟨rfl, rfl, rfl, rfl, rfl⟩
      simp only [exec, execDeferralDeadlineExpiry]
      (repeat' split) <;> simp only [leads_next, leads_nextWithSelection, h, hput]
      all_goals exact linkLaws_reselect (by simp [hsound])
    all_goals nomatch hb

/-- The queue of commands is no part of the laws of clearing (log 21). -/
theorem ClearingLaws.of_pending {s : State} (h : ClearingLaws s) (q : List Instr) : ClearingLaws { s with pending := q } := by
  refine ⟨fun hr => ?_, h.clearing, h.blocks⟩
  have hheld := congrArg (fun u : State => { u with pending := q }) (h.reset hr)
  exact hheld

/-- Settles O59. -/
theorem linkLawsKept : Obligations.LinkLawsKept := by
  intro s t hl hc h
  unfold step at h
  split at h
  · cases h; exact hl
  · next c rest hp => exact exec_linkLaws c (s := { s with pending := rest }) { hl with } (hc.of_pending rest) t h

end Sys2Proof.Machine
end

section
/-! PROOFS. The requester layer: what the Requester Engine does is a sequence of few small changes; a law that each of them keeps is kept by every command. -/

namespace Sys2Proof.Machine

/-! ### The small changes -/

/-- Nothing of the outstanding table, the queues of the RE, the completions or the buffers is another; the slot offers a request that it offered before, or one that is ready. -/
structure SameRequester (s t : State) : Prop where
  re : t.re = { s.re with announced := t.re.announced, startOfLeaving := t.re.startOfLeaving }
  completions : t.lp.completions = s.lp.completions
  buffers : t.lp.buffers = s.lp.buffers
  slot : ∀ e, t.lc.slot.offer = some (.request e) → s.lc.slot.offer = some (.request e) ∨ e ∈ s.re.ready

/-- Entry y is x with what a copy or a response counts in it. -/
def Entry.Noted (x y : Entry) : Prop :=
  y = { x with attempts := y.attempts, lost := y.lost, busy := y.busy, deferred := y.deferred, deadlinePassed := y.deadlinePassed, deadline := y.deadline }

/-- Entry e, last with the contents y, is FREE and its completion posted (R99, R109). -/
def entryDone (e : Fin 8) (y : Entry) (st : Status) (dt : Detail) (n : Nat) (s : State) : State :=
  putEntry e none (postCompletion (completionFor y.desc st dt n y.attempts) (retractEntry e s))

/-- Entry e, last with the contents y, waits in COMPLETING (R99). -/
def entryHeld (e : Fin 8) (y : Entry) (st : Status) (dt : Detail) (n : Nat) (s : State) : State :=
  { s with
    re := { s.re with
      ready := s.re.ready.erase e, completing := s.re.completing ++ [e]
      table := s.re.table.put e (some { y.stopTimers with state := .completing, result := some ⟨st, dt, n⟩ }) }
    lc := { s.lc with slot := s.lc.slot.without (.request e) } }

/-- The oldest result that waits, of entry e, is posted (R109). -/
def postOldest (e : Fin 8) (es : List (Fin 8)) (s : State) : State :=
  let s' : State := { s with re := { s.re with completing := es } }
  match s.re.table.at e with
  | some x =>
    match x.result with
    | some r => putEntry e none (postCompletion (completionFor x.desc r.status r.detail r.words x.attempts) s')
    | none => putEntry e none s'
  | none => s'

theorem postWaiting_cons {n : Nat} {s : State} {e : Fin 8} {es : List (Fin 8)} (he : s.re.completing = e :: es) (hspace : completionSpace s = true) :
    postWaiting (n + 1) s = postWaiting n (postOldest e es s) := by
  simp only [postWaiting, postOldest, he, hspace, if_true]
  cases s.re.table.at e with
  | none => rfl
  | some x => dsimp only; cases x.result <;> rfl

/-- A law of states that the small changes of the RE keep. A strict one is told, where an entry ends or backs off, that it is live and that the slot does not offer it. -/
structure RequesterSteps (strict : Bool) (P : State → Prop) : Prop where
  same : ∀ {s t}, P s → SameRequester s t → P t
  offered : ∀ {s e}, strict = true → P s → s.lc.slot.offer = some (.request e) → (s.re.table.at e).map (·.state) = some .readyToSend
  noted : ∀ {s e x y}, P s → s.re.table.at e = some x → x.Noted y → P (putEntry e (some y) s)
  finished : ∀ {s e x y st dt n}, P s → s.re.table.at e = some x → (strict = true → x.state ≠ .completing) → y.desc = x.desc →
    completionSpace s = true → P (entryDone e y st dt n s)
  held : ∀ {s e x y st dt n}, P s → s.re.table.at e = some x → (strict = true → x.state ≠ .completing) → y.desc = x.desc →
    completionSpace s = false → P (entryHeld e y st dt n s)
  backedOff : ∀ {s e x us} {y : Entry}, P s → s.re.table.at e = some x → (strict = true → x.state ≠ .completing ∧ s.lc.slot.offer ≠ some (.request e)) →
    y.desc = x.desc → y.result = x.result → P (leaveReady e (putEntry e (some (y.backOff (.running us))) s)) ∧
      (x.state = .awaitResponse → P (putEntry e (some (y.backOff (.running us))) s))
  readied : ∀ {s e x}, P s → s.re.table.at e = some x → x.state = .backoff →
    P (makeReady e (putEntry e (some { x with state := .readyToSend, backoff := .stopped }) s))
  sent : ∀ {s e x us}, P s → s.re.table.at e = some x → (strict = true → x.state = .readyToSend ∧ s.lc.slot.offer ≠ some (.request e)) →
    P (leaveReady e (putEntry e (some { x.attempted with state := .awaitResponse, window := .running us }) s))
  /-- the report of a copy whose entry is FREE, which no strict law has -/
  reported : ∀ {s e}, strict = false → P s → P (leaveReady e s)
  retired : ∀ {s q st dt}, P s → completionSpace s = true → P (retire q st dt s)
  admitted : ∀ {s e q}, P s → freeEntry s = some e → candidate s = some q → checkDescriptor s q.desc = none → P (admitEntry e q s)
  stalled : ∀ {s}, P s → completionSpace s = false → P (stall s)
  unstalled : ∀ {s}, P s → s.re.completing = [] → P { s with re := { s.re with stalled := false } }
  posted : ∀ {s e es}, P s → s.re.completing = e :: es → completionSpace s = true → P (postOldest e es s)
  queued : ∀ {s d}, P s → decidePost s d = .accepted → P (enqueue d s)
  cancelled : ∀ {s}, P s → P (markCancelled s)
  data : ∀ {s e x ws}, P s → s.re.table.at e = some x → ws.length = x.desc.count.toNat → P (writeBuffer x.desc ws s)
  buffer : ∀ {s} b j high v, P s → P (writeBufferHalf b j high v s)

theorem SameRequester.refl (s : State) : SameRequester s s := ⟨rfl, rfl, rfl, fun _ h => Or.inl h⟩

/-- The blocks but the RE, the LC's slot and the port's queues and buffers are of no matter. -/
theorem SameRequester.of_eq {s t : State} (hre : t.re = s.re) (hc : t.lp.completions = s.lp.completions) (hb : t.lp.buffers = s.lp.buffers)
    (hs : t.lc.slot = s.lc.slot) : SameRequester s t :=
  ⟨by rw [hre], hc, hb, fun _ h => Or.inl (hs ▸ h)⟩

/-- A withdrawal takes an offer from the slot and puts none there. -/
theorem TxSlot.offer_without {o o' : Offer} {sl : TxSlot} (h : (sl.without o).offer = some o') : sl.offer = some o' ∧ o' ≠ o := by
  cases sl with
  | empty => exact nomatch h
  | chosen p =>
    by_cases hp : p = o
    · simp [TxSlot.without, hp, TxSlot.offer] at h
    · simp only [TxSlot.without, if_neg hp, TxSlot.offer, Option.some.injEq] at h
      exact ⟨congrArg some h, h ▸ hp⟩
  | contending p k =>
    by_cases hp : p = o
    · simp [TxSlot.without, hp, TxSlot.offer] at h
    · simp only [TxSlot.without, if_neg hp, TxSlot.offer, Option.some.injEq] at h
      exact ⟨congrArg some h, h ▸ hp⟩
  | onLine p f b r =>
    by_cases hp : p = o
    · simp [TxSlot.without, hp, TxSlot.offer] at h
    · simp only [TxSlot.without, decide_eq_false hp, Bool.or_false] at h
      refine ⟨h, ?_⟩
      simp only [TxSlot.offer] at h
      split at h
      · exact nomatch h
      · cases h; exact hp

theorem withdrawOffer_sameRequester (o : Offer) (s : State) : SameRequester s (withdrawOffer o s) :=
  ⟨rfl, rfl, rfl, fun _ h => Or.inl (TxSlot.offer_without h).1⟩

theorem Entry.Noted.refl (x : Entry) : x.Noted x := rfl

/-! ### The outstanding table -/

theorem putEntry_self {s : State} {e : Fin 8} {x : Option Entry} (h : s.re.table.at e = x) : putEntry e x s = s := by
  have hput : s.re.table.put e x = s.re.table := Table.ext_at fun i => by
    rw [Table.at_put]
    split
    · next hi => rw [hi, h]
    · rfl
  simp only [putEntry, hput]

/-- The end of an entry whose last contents are y. -/
theorem finishEntry_putEntry (e : Fin 8) (y : Entry) (st : Status) (dt : Detail) (n : Nat) (s : State) :
    finishEntry e st dt n (putEntry e (some y) s) = if completionSpace s then admission (entryDone e y st dt n s) else entryHeld e y st dt n s := by
  have hat : (putEntry e (some y) s).re.table.at e = some y := Table.at_put_self _ _ _
  have hspace : completionSpace (putEntry e (some y) s) = completionSpace s := rfl
  unfold finishEntry
  rw [hat]
  dsimp only
  rw [hspace]
  split
  · exact congrArg admission (putEntry_putEntry e none (some y) (postCompletion (completionFor y.desc st dt n y.attempts) (retractEntry e s)))
  · simp only [putEntry, retractEntry, withdrawOffer, Table.put_put, entryHeld]

/-- What a report of no response makes of an entry whose last contents are y (R101, R102). -/
theorem copyUnanswered_putEntry (e : Fin 8) (y : Entry) (s : State) : copyUnanswered e y (putEntry e (some y) s) =
    if y.deadlinePassed then finishEntry e .deferralTimeout .none 0 (putEntry e (some y) s)
    else if s.stc.state = .leaving then finishEntry e .cancelled .none 0 (putEntry e (some y) s)
    else if s.stc.active.lostLimit.toNat < y.lost + 1 then finishEntry e .noResponse .none 0 (putEntry e (some { y with lost := y.lost + 1 }) s)
    else leaveReady e (putEntry e (some ({ y with lost := y.lost + 1 }.backOff (retryInterval s))) s) := by
  unfold copyUnanswered attemptLost
  simp only [putEntry_putEntry]
  rfl

/-! ### What the RE does, as a sequence of the small changes -/

theorem matchable_live {s : State} {e : Fin 8} {x : Entry} (h : matchable s e x = true) : x.state ≠ .completing := by
  intro hc
  simp only [matchable, hc] at h
  exact nomatch h

theorem matchingEntry_live {s : State} {p : Station} {q : Byte} {e : Fin 8} {x : Entry} (h : matchingEntry s p q = some e)
    (hx : s.re.table.at e = some x) : x.state ≠ .completing := by
  have hm := List.find?_some h
  simp only [entryMatches, hx, Bool.and_eq_true] at hm
  exact matchable_live hm.1.1

theorem liveEntryToward_live {s : State} {p : Station} {e : Fin 8} (h : liveEntryToward s p = some e) :
    ∃ x, s.re.table.at e = some x ∧ x.state ≠ .completing := by
  have hm := List.find?_some h
  cases hx : s.re.table.at e with
  | none => simp [hx] at hm
  | some x =>
    simp only [hx, Bool.and_eq_true] at hm
    exact ⟨x, rfl, of_decide_eq_true hm.1⟩

theorem cancelledAtLeaving_live {s : State} {e : Fin 8} (h : cancelledAtLeaving s e = true) : ∃ x, s.re.table.at e = some x ∧ x.state ≠ .completing := by
  unfold cancelledAtLeaving at h
  split at h
  · exact nomatch h
  · next x hx =>
    refine ⟨x, hx, fun hc => ?_⟩
    rw [hc] at h
    exact nomatch h

namespace RequesterSteps

section
variable {strict : Bool} {P : State → Prop} (h : RequesterSteps strict P)
include h

theorem attemptAdmission (n : Nat) : ∀ {s : State}, P s → P (attemptAdmission n s) := by
  induction n with
  | zero => exact fun hs => hs
  | succ n ih =>
    intro s hs
    unfold Machine.attemptAdmission
    split
    · split
      · next e q he hq =>
        split
        · split
          · next hspace => exact ih (h.retired hs hspace)
          · next hspace => exact h.stalled hs (Bool.eq_false_iff.mpr hspace)
        · next hcheck => exact ih (h.admitted hs he hq hcheck)
      · exact hs
    · exact hs

theorem admission {s : State} (hs : P s) : P (admission s) := h.attemptAdmission _ hs

section
variable {s : State} {e : Fin 8} {x y : Entry} (hs : P s) (hx : s.re.table.at e = some x)
include hs hx

/-- A live entry finishes, its counts changed before. -/
theorem finishPut (hl : strict = true → x.state ≠ .completing) (hd : y.desc = x.desc) (st : Status) (dt : Detail) (n : Nat) :
    P (finishEntry e st dt n (putEntry e (some y) s)) := by
  rw [finishEntry_putEntry]
  split
  · next hspace => exact h.admission (h.finished hs hx hl hd hspace)
  · next hspace => exact h.held hs hx hl hd (Bool.eq_false_iff.mpr hspace)

theorem finishEntry (hl : strict = true → x.state ≠ .completing) (st : Status) (dt : Detail) (n : Nat) : P (finishEntry e st dt n s) := by
  rw [← putEntry_self hx]
  exact h.finishPut hs hx hl rfl st dt n

theorem copyUnanswered (hl : strict = true → x.state ≠ .completing ∧ s.lc.slot.offer ≠ some (.request e)) (hd : y.desc = x.desc)
    (hr : y.result = x.result) : P (copyUnanswered e y (putEntry e (some y) s)) := by
  rw [copyUnanswered_putEntry]
  have hlive : strict = true → x.state ≠ .completing := fun hst => (hl hst).1
  split
  · exact h.finishPut hs hx hlive hd _ _ _
  split
  · exact h.finishPut hs hx hlive hd _ _ _
  split
  · exact h.finishPut (y := { y with lost := y.lost + 1 }) hs hx hlive hd _ _ _
  · exact (h.backedOff (y := { y with lost := y.lost + 1 }) hs hx hl hd hr).1

theorem backOffOrCancel (ha : x.state = .awaitResponse) (hd : y.desc = x.desc) (hr : y.result = x.result) : P (backOffOrCancel e y s) := by
  have hlive : x.state ≠ .completing := by rw [ha]; nofun
  unfold Machine.backOffOrCancel
  split
  · exact h.finishPut hs hx (fun _ => hlive) hd _ _ _
  · refine (h.backedOff hs hx (fun hst => ⟨hlive, fun ho => ?_⟩) hd hr).2 ha
    have hready := h.offered hst hs ho
    rw [hx, Option.map_some, ha] at hready
    exact nomatch hready

theorem takeAnswer (hlive : x.state ≠ .completing) (a : Answer) : P (takeAnswer e x a s) := by
  cases a with
  | refuse c => exact h.finishEntry hs hx (fun _ => hlive) _ _ _
  | data ws =>
    unfold Machine.takeAnswer
    dsimp only
    split
    · next hk => exact h.finishEntry (h.data hs hx hk.2) (by simpa using hx) (fun _ => hlive) _ _ _
    · exact hs
  | done n =>
    unfold Machine.takeAnswer
    dsimp only
    split
    · exact hs
    · exact h.finishEntry hs hx (fun _ => hlive) _ _ _
  | defer =>
    unfold Machine.takeAnswer takeDefer
    dsimp only
    split
    · split
      · next ht =>
        split
        · exact h.finishEntry hs hx (fun _ => hlive) _ _ _
        · exact h.backOffOrCancel hs hx (timely_iff.mp ht) rfl rfl
      · exact h.noted hs hx rfl
    · exact hs
  | busy =>
    unfold Machine.takeAnswer takeBusy
    dsimp only
    split
    · split
      · next ht =>
        split
        · exact h.finishEntry hs hx (fun _ => hlive) _ _ _
        split
        · exact h.finishPut hs hx (fun _ => hlive) (by rfl) _ _ _
        · exact h.backOffOrCancel hs hx (timely_iff.mp ht) rfl rfl
      · exact hs
    · exact hs

end

section
variable {s : State} (hs : P s)
include hs

theorem passToRequester (f : Frame) : P (passToRequester f s) := by
  unfold Machine.passToRequester takeResponse
  split
  · split
    · split
      · exact hs
      · next e he =>
        split
        · exact hs
        · next x hx => exact h.takeAnswer hs hx (matchingEntry_live he hx) _
    · exact hs
  · exact hs

theorem copyFaulted {e : Fin 8} (hl : strict = true → (s.re.table.at e).map (·.state) = some .readyToSend ∧ s.lc.slot.offer ≠ some (.request e)) :
    P (copyFaulted e s) := by
  unfold Machine.copyFaulted
  split
  · exact hs
  · next x hx =>
    refine h.copyUnanswered hs hx (fun hst => ⟨fun hc => ?_, (hl hst).2⟩) rfl rfl
    have hready := (hl hst).1
    rw [hx, Option.map_some, hc] at hready
    exact nomatch hready

theorem copySent {e : Fin 8} (hl : strict = true → (s.re.table.at e).map (·.state) = some .readyToSend ∧ s.lc.slot.offer ≠ some (.request e)) :
    P (copySent e s) := by
  cases hx : s.re.table.at e with
  | none =>
    cases hst : strict with
    | true => rw [hx] at hl; exact nomatch (hl hst).1
    | false =>
      unfold Machine.copySent updateEntry
      rw [hx, Option.map_none, putEntry_self hx]
      exact h.reported hst hs
  | some x =>
    unfold Machine.copySent updateEntry
    rw [hx]
    refine h.sent hs hx fun hst => ⟨?_, (hl hst).2⟩
    have hready := (hl hst).1
    rwa [hx, Option.map_some, Option.some.injEq] at hready

theorem reTakeAnnouncement : P (reTakeAnnouncement s) := by
  unfold Machine.reTakeAnnouncement
  split
  · exact hs
  · next a ha =>
    have htold : P { s with re := { s.re with announced := none } } := h.same hs ⟨rfl, rfl, rfl, fun _ ho => Or.inl ho⟩
    dsimp only
    split
    · exact htold
    · next e he =>
      obtain ⟨x, hx, hlive⟩ := liveEntryToward_live he
      exact h.finishEntry htold hx (fun _ => hlive) _ _ _

end

theorem cancelEntries (es : List (Fin 8)) : ∀ {s : State}, P s → P (cancelEntries es s) := by
  induction es with
  | nil => exact fun hs => hs
  | cons e es ih =>
    intro s hs
    unfold Machine.cancelEntries
    refine ih ?_
    split
    · next hc =>
      obtain ⟨x, hx, hlive⟩ := cancelledAtLeaving_live hc
      exact h.finishEntry hs hx (fun _ => hlive) _ _ _
    · exact hs

theorem retireCancelled (n : Nat) : ∀ {s : State}, P s → P (retireCancelled n s) := by
  induction n with
  | zero => exact fun hs => hs
  | succ n ih =>
    intro s hs
    unfold Machine.retireCancelled
    split
    · next hc =>
      split
      · exact ih (h.retired hs hc.2)
      · exact hs
    · exact hs

theorem postWaiting (n : Nat) : ∀ {s : State}, P s → P (postWaiting n s) := by
  induction n with
  | zero => exact fun hs => hs
  | succ n ih =>
    intro s hs
    cases he : s.re.completing with
    | nil => simpa only [Machine.postWaiting, he] using hs
    | cons e es =>
      by_cases hspace : completionSpace s = true
      · rw [postWaiting_cons he hspace]
        exact ih (h.posted hs he hspace)
      · simpa only [Machine.postWaiting, he, if_neg hspace] using hs

section
variable {s : State} (hs : P s)
include hs

theorem reTakeStartOfLeaving : P (reTakeStartOfLeaving s) := by
  unfold Machine.reTakeStartOfLeaving
  split
  · exact h.retireCancelled _ (h.cancelled (h.cancelEntries _ (h.same hs ⟨rfl, rfl, rfl, fun _ ho => Or.inl ho⟩)))
  · exact hs

/-- What a consumed completion leads to, when its taking alone keeps the law. -/
theorem completionSpaceGained : P (completionSpaceGained s) := by
  have hretired := h.retireCancelled (Machine.postWaiting s.re.completing.length s).re.queue.length (h.postWaiting s.re.completing.length hs)
  unfold Machine.completionSpaceGained
  dsimp only
  split
  · next hc => exact h.admission (h.unstalled hretired hc)
  · exact h.admission hretired

theorem postWindow : P (postWindow s) := by
  have hset : ∀ r, P (setPostResult r s) := fun r => h.same hs (SameRequester.of_eq rfl rfl rfl rfl)
  unfold Machine.postWindow
  split
  · next hd => exact h.admission (h.queued (hset _) hd)
  · exact hset _

end

end

end RequesterSteps

/-! ### Every command -/

/-- A law that the small changes of the RE keep, and that a CONSUME of a completion and a pin reset leave in force. -/
structure RequesterLaw (strict : Bool) (P : State → Prop) : Prop extends RequesterSteps strict P where
  gained : ∀ {s c rest}, P s → s.lp.completions = c :: rest → P (completionSpaceGained { s with lp := { s.lp with completions := rest } })
  reset : ∀ {s}, s.re = State.reset.re → s.lp = State.reset.lp → s.lc.slot = .empty → P s

/-- A step chooses nothing but what is ready (R121). -/
theorem mem_ready_of_selectOffer {s : State} {e : Fin 8} (h : selectOffer s = some (.request e)) : e ∈ s.re.ready := by
  unfold selectOffer at h
  split at h
  · exact nomatch h
  · exact nomatch h
  · split at h <;> cases h
  · split at h
    · cases h
    split at h
    · cases h
    · obtain ⟨e', he', hoe⟩ := Option.map_eq_some_iff.mp h
      cases hoe
      exact List.mem_of_find?_eq_some he'

theorem reselect_sameRequester (s : State) : SameRequester s (reselect s) := by
  refine ⟨by simp, by simp, by simp, fun e ho => ?_⟩
  unfold reselect at ho
  split at ho
  · cases hsel : selectOffer s with
    | none => rw [hsel] at ho; exact nomatch ho
    | some o =>
      rw [hsel] at ho
      cases ho
      exact Or.inr (mem_ready_of_selectOffer hsel)
  · exact Or.inl ho

/-- The slot offers the same, or nothing, after a step of the line. -/
theorem SameRequester.of_slot {s t : State} (hre : t.re = s.re) (hlp : t.lp = s.lp)
    (hslot : ∀ e, t.lc.slot.offer = some (.request e) → s.lc.slot.offer = some (.request e) ∨ e ∈ s.re.ready) : SameRequester s t :=
  ⟨by rw [hre], by rw [hlp], by rw [hlp], hslot⟩

theorem endReception_sameRequester (s : State) : SameRequester s (endReception s) := by
  refine SameRequester.of_slot rfl rfl fun e ho => Or.inl ?_
  cases hs : s.lc.slot <;> simp [endReception, updateLc, hs, TxSlot.withdrawn, TxSlot.offer] at ho ⊢ <;> exact ho

theorem restartPurge_sameRequester (s : State) : SameRequester s (restartPurge s) := by
  unfold restartPurge
  split
  · exact SameRequester.refl s
  · dsimp only
    split
    · exact ⟨rfl, rfl, rfl, fun _ ho => Or.inl (TxSlot.offer_without ho).1⟩
    · exact SameRequester.of_eq rfl rfl rfl rfl

theorem PortMoved.sameRequester {s t : State} (h : PortMoved s t) : SameRequester s t :=
  .of_eq (congrArg (·.re) h) (congrArg (·.lp.completions) h) (congrArg (·.lp.buffers) h) (congrArg (·.lc.slot) h)

namespace RequesterLaw

section
variable {strict : Bool} {P : State → Prop} (h : RequesterLaw strict P)
include h

theorem reselect {s : State} (hs : P s) : P (reselect s) := h.same hs (reselect_sameRequester s)

theorem announce (a : Announcement) {s : State} (hs : P s) : P (announce a s) := by
  have hslots : ∀ (w : GeWork) (x : Sru), P { sruTakeAnnouncement (giveGe w s) with sru := x } := fun w x =>
    h.same hs (.of_eq (by simp) (by simp) (by simp) (by simp))
  have htold : ∀ w x, P { Machine.reTakeAnnouncement { sruTakeAnnouncement (giveGe w s) with sru := x } with
      re := { (Machine.reTakeAnnouncement { sruTakeAnnouncement (giveGe w s) with sru := x }).re with announced := some a } } := fun w x =>
    h.same (h.reTakeAnnouncement (hslots w x)) ⟨rfl, rfl, rfl, fun _ ho => Or.inl ho⟩
  cases a with
  | restarted p => exact h.same (h.same (htold _ _) (restartPurge_sameRequester _)) (.of_eq rfl rfl rfl rfl)
  | lost p => exact htold _ _
  | departed p => exact htold _ _

theorem hearPlain (p : Station) {s : State} (hs : P s) : P (hearPlain p s) :=
  h.same hs (.of_eq (by simp) (by simp) (by simp) (by simp))

theorem hearLeaving (p : Station) {s : State} (hs : P s) : P (hearLeaving p s) := by
  have hpeer : ∀ f, P (updatePeer p f s) := fun f => h.same hs (.of_eq rfl rfl rfl rfl)
  unfold Machine.hearLeaving
  dsimp only
  split
  · exact hs
  · split
    · exact h.announce _ (hpeer _)
    · exact hpeer _

theorem hearFresh (p : Station) {s : State} (hs : P s) : P (hearFresh p s) := by
  have hpeer : ∀ f, P (updatePeer p f s) := fun f => h.same hs (.of_eq rfl rfl rfl rfl)
  unfold Machine.hearFresh
  dsimp only
  split
  · exact hpeer _
  · exact h.announce _ (hpeer _)

theorem hear (f : Frame) {s : State} (hs : P s) : P (hear f s) := by
  unfold Machine.hear
  split
  · split
    · exact h.hearLeaving _ hs
    · exact h.hearFresh _ hs
    · exact h.hearPlain _ hs
  · exact hs

theorem endOfLoss (p : Station) {s : State} (hs : P s) : P (endOfLoss p s) := by
  unfold Machine.endOfLoss
  dsimp only
  split
  · exact hs
  · have hdown : ∀ ev, P (postEvent ev (updatePeer p Peer.down s)) := fun ev => h.same hs (.of_eq (by simp) (by simp) (by simp) (by simp))
    split
    · exact h.hearFresh p (hdown _)
    split
    · exact h.same hs (.of_eq (by simp) (by simp) (by simp) (by simp))
    · exact hdown _

theorem endOperation (fin : OpEnd) {s : State} (hs : P s) : P (endOperation fin s) := by
  unfold Machine.endOperation
  split
  · exact h.same hs (.of_eq (by simp) (by simp) (by simp) (by simp))
  · split
    · exact h.endOfLoss _ hs
    · exact hs
  · exact h.same hs (.of_eq (by simp) (by simp) (by simp) (by simp))
  · exact h.same hs (.of_eq rfl rfl rfl rfl)
  · exact hs

theorem beginRollbacks (cause : AbortCause) (list : List (Fin 4)) (fin : OpEnd) {s : State} (hs : P s) : P (beginRollbacks cause list fin s) := by
  unfold Machine.beginRollbacks
  split
  · exact h.endOperation fin hs
  · exact h.same hs (.of_eq rfl rfl rfl rfl)

theorem afterRollback (cause : AbortCause) (rest : List (Fin 4)) (fin : OpEnd) {s : State} (hs : P s) : P (afterRollback cause rest fin s) := by
  unfold Machine.afterRollback
  split
  · exact h.endOperation fin (h.same hs (.of_eq (by simp) (by simp) (by simp) (by simp)))
  · exact h.same hs (.of_eq (by simp) (by simp) (by simp) (by simp))

theorem takeAllWaiting {s : State} (hs : P s) : P (takeAllWaiting s) := by
  have hslots : P (sruTakeStartOfLeaving s) := h.same hs (.of_eq (by simp) (by simp) (by simp) (by simp))
  have hleft : P (sruTakeAnnouncement (Machine.reTakeStartOfLeaving (sruTakeStartOfLeaving s))) :=
    h.same (h.reTakeStartOfLeaving hslots) (.of_eq (by simp) (by simp) (by simp) (by simp))
  exact h.same (h.reTakeAnnouncement hleft) (restartPurge_sameRequester _)

theorem takeCommand (c : Command) {s : State} (hs : P s) : P (takeCommand c s) := by
  have hset : ∀ r, P (setCommand c r s) := fun r => h.same hs (.of_eq rfl rfl rfl rfl)
  cases c with
  | configure => exact h.same hs (.of_eq (by simp [Machine.takeCommand]) (by simp [Machine.takeCommand]) (by simp) (by simp [Machine.takeCommand]))
  | revoke => exact h.same hs (.of_eq (by simp [Machine.takeCommand]) (by simp [Machine.takeCommand]) (by simp) (by simp [Machine.takeCommand]))
  | join => exact h.same hs (.of_eq (by simp [Machine.takeCommand]) (by simp [Machine.takeCommand]) (by simp) (by simp [Machine.takeCommand]))
  | leave =>
    show P (commandLeave s)
    unfold commandLeave
    split
    · rw [leaveListening_eq]
      exact h.same (h.takeAllWaiting (hset _)) ⟨rfl, by simp, by simp, fun _ ho => Or.inl (TxSlot.offer_without ho).1⟩
    · rw [leaveJoined_eq]
      exact h.same (hset _) ⟨rfl, by simp, by simp, fun _ ho => Or.inl ho⟩
    · exact hset _
    · exact hset _

theorem portKept : PortKept P where
  moved hm hs := h.same hs hm.sameRequester
  claim hs := h.same hs (.of_eq rfl rfl rfl rfl)
  buffer b j high v hs := h.buffer b j high v hs
  post hs := h.postWindow hs
  completion {s} hs := by
    unfold consumeCompletion
    split
    · exact hs
    · next c rest hc => exact h.gained hs hc
  event hs := h.same hs (.of_eq (by simp) (by simp) (by simp) (by simp))
  command c hs := h.takeCommand c hs

theorem takeGoodFrame (f : Frame) {s : State} (hs : P s) : P (takeGoodFrame f s) := by
  have hwon : P (updateLc (Lc.won f.cls f.sender) (endReception s)) := by
    refine h.same (h.same hs (endReception_sameRequester s)) ?_
    cases f.cls <;> exact .of_eq rfl rfl rfl rfl
  have hcounted : P (countFree (updateLc (Lc.won f.cls f.sender) (endReception s))) := h.same hwon (.of_eq rfl rfl rfl rfl)
  unfold Machine.takeGoodFrame
  dsimp only
  split
  · split
    · exact h.hear f hwon
    · unfold takeResponseFrame
      dsimp only
      split
      · exact h.hear f (h.passToRequester hcounted f)
      · exact h.passToRequester (h.hear f hcounted) f
  · exact h.same (h.hear f hwon) (.of_eq (by simp) (by simp) (by simp) (by simp))

/-- The owner takes the report of a frame of this station, when the slot has left it. -/
theorem reports {s : State} {o : Offer} (hs : P s) (hslot : s.lc.slot = .empty)
    (hready : strict = true → ∀ e, o = .request e → (s.re.table.at e).map (·.state) = some .readyToSend) :
    P (reportSent o s) ∧ P (reportFault o s) := by
  have hreport : ∀ e, o = .request e → strict = true → (s.re.table.at e).map (·.state) = some .readyToSend ∧ s.lc.slot.offer ≠ some (.request e) :=
    fun e he hst => ⟨hready hst e he, by rw [hslot]; nofun⟩
  cases o with
  | response => exact ⟨h.same hs (.of_eq rfl rfl rfl rfl), h.same hs (.of_eq (by simp [reportFault]) (by simp [reportFault]) (by simp [reportFault]) (by simp [reportFault]))⟩
  | presence m =>
    refine ⟨?_, hs⟩
    show P (presenceSent m s)
    unfold presenceSent
    split
    · cases m with
      | plain => exact h.same hs (.of_eq rfl rfl rfl rfl)
      | fresh => exact h.same hs (.of_eq (by simp) (by simp) (by simp) (by simp))
      | leaving =>
        show P (endLeaving s)
        rw [endLeaving_eq]
        exact h.same (h.takeAllWaiting hs) ⟨rfl, by simp, by simp, fun _ ho => Or.inl ho⟩
    · exact hs
  | request e => exact ⟨h.copySent hs (hreport e rfl), h.copyFaulted hs (hreport e rfl)⟩

/-- The commands of the line. -/
theorem exec_line {c : Instr} {s : State} (hs : P s)
    (hc : (∃ k, c = .startDelimiter k) ∨ (∃ f, c = .goodFrame f) ∨ (∃ bs, c = .frameDiscarded bs) ∨
      c ∈ [Instr.contentionWon, .transmitSent, .transmitFault, .lineIdle, .dominantBitInGap]) : Leads P (exec c s) := by
  have hended : P (endReception s) := h.same hs (endReception_sameRequester s)
  simp only [List.mem_cons, List.not_mem_nil, or_false] at hc
  rcases hc with ⟨k, rfl⟩ | ⟨f, rfl⟩ | ⟨bs, rfl⟩ | rfl | rfl | rfl | rfl | rfl
  · simp only [exec, execStartDelimiter]
    split
    · refine leads_next.mpr (h.same hs (.of_slot rfl rfl fun e ho => Or.inr ?_))
      have hsel : selectOffer s = some (.request e) := by
        simp only [updateLc, slotAfterKey] at ho
        split at ho
        · exact nomatch ho
        · next o hsel => split at ho <;> cases ho <;> exact hsel
      exact mem_ready_of_selectOffer hsel
    · exact leads_next.mpr hs
  · simp only [exec, execGoodFrame]
    (repeat' split) <;> simp only [leads_next, leads_nextWithSelection]
    · exact h.reselect (h.takeGoodFrame f hs)
    · exact hended
    · exact hs
  · simp only [exec, execFrameDiscarded]
    (repeat' split) <;> simp only [leads_next, leads_nextWithSelection]
    · exact hs
    · exact hended
    · exact h.reselect (h.takeGoodFrame _ hs)
    · exact hs
  · simp only [exec, execContentionWon]
    split
    · next o k hslot =>
      split
      · exact leads_next.mpr (h.same hs (.of_slot rfl rfl fun e ho => Or.inl (by rw [hslot]; exact ho)))
      · exact leads_next.mpr (h.same hs (.of_slot rfl rfl nofun))
    · exact leads_next.mpr hs
  · simp only [exec, execTransmitSent]
    split
    · next o f b orphan hslot =>
      have hleft : P (updateLc (fun lc => Lc.won o.cls s.stc.address { lc with slot := .empty, view := .gap 0, receive := none }) s) :=
        h.same hs (.of_slot rfl rfl (by cases o <;> nofun))
      refine leads_nextWithSelection.mpr (h.reselect ?_)
      have hframe : ∀ {u : State}, P u → P (frameSent s u) := fun hu => h.same hu (.of_eq (by simp) (by simp) (by simp) (by simp))
      refine hframe ?_
      split
      · exact hleft
      · next horphan =>
        refine (h.reports hleft (by cases o <;> rfl) fun hst e he => ?_).1
        exact h.offered (s := s) hst hs (by rw [hslot, he, Bool.eq_false_iff.mpr horphan]; rfl)
    · exact leads_next.mpr hs
  · simp only [exec, execTransmitFault]
    split
    · next o f b orphan hslot =>
      have hleft : P (updateLc (fun lc => { lc with slot := .empty }) s) := h.same hs (.of_slot rfl rfl nofun)
      refine leads_nextWithSelection.mpr (h.reselect ?_)
      split
      · exact hleft
      · next horphan =>
        refine (h.reports hleft rfl fun hst e he => ?_).2
        exact h.offered (s := s) hst hs (by rw [hslot, he, Bool.eq_false_iff.mpr horphan]; rfl)
    · exact leads_next.mpr hs
  · simp only [exec, execLineIdle]
    (repeat' split) <;> simp only [leads_next, leads_nextWithSelection]
    · exact hs
    · exact hs
    · exact h.reselect (h.same hs (.of_eq rfl rfl rfl rfl))
    · exact hs
    · exact h.reselect (h.same hended (.of_eq rfl rfl rfl rfl))
  · simp only [exec, execDominantBitInGap]
    split
    · exact leads_next.mpr (h.same hs (.of_eq rfl rfl rfl rfl))
    · exact leads_next.mpr hs

/-- The RE's own commands. -/
theorem exec_requester {c : Instr} {s : State} (hs : P s)
    (hc : c = .reTakeAnnouncement ∨ c = .reTakeStartOfLeaving ∨ ∃ e, c = .responseWindowExpiry e ∨ c = .backoffExpiry e ∨ c = .deferralDeadlineExpiry e) :
    Leads P (exec c s) := by
  rcases hc with rfl | rfl | ⟨e, rfl | rfl | rfl⟩
  · exact leads_next.mpr (h.reselect (h.reTakeAnnouncement hs))
  · exact leads_next.mpr (h.reselect (h.reTakeStartOfLeaving hs))
  · simp only [exec, execResponseWindowExpiry]
    split
    · exact leads_next.mpr hs
    · next x hx =>
      split
      · next hst =>
        refine leads_next.mpr (h.reselect (h.copyUnanswered hs hx (fun hstrict => ⟨by rw [hst.1]; nofun, fun ho => ?_⟩) rfl rfl))
        have hready := h.offered hstrict hs ho
        rw [hx, Option.map_some, hst.1] at hready
        exact nomatch hready
      · exact leads_next.mpr hs
  · simp only [exec, execBackoffExpiry]
    split
    · exact leads_next.mpr hs
    · next x hx =>
      split
      · next hst => exact leads_next.mpr (h.reselect (h.readied hs hx hst.1))
      · exact leads_next.mpr hs
  · simp only [exec, execDeferralDeadlineExpiry]
    split
    · exact leads_next.mpr hs
    · next x hx =>
      have hnoted : P (putEntry e (some { x with deadline := .stopped, deadlinePassed := true }) s) := h.noted hs hx rfl
      have hfinished : x.state ≠ .completing → P (Machine.finishEntry e .deferralTimeout .none 0 (putEntry e (some { x with deadline := .stopped }) s)) :=
        fun hlive => h.finishPut (y := { x with deadline := .stopped }) hs hx (fun _ => hlive) rfl _ _ _
      split
      · split
        · next hst => exact leads_next.mpr (h.reselect (hfinished (by rw [hst]; nofun)))
        · next hst =>
          split
          · exact leads_next.mpr hnoted
          · exact leads_next.mpr (h.reselect (hfinished (by rw [hst]; nofun)))
        · exact leads_next.mpr hnoted
        · exact leads_next.mpr hs
      · exact leads_next.mpr hs

/-- The commands of the other blocks leave the RE to itself, but for an announcement. -/
theorem exec {s : State} (hs : P s) (c : Instr) : Leads P (exec c s) := by
  have hre : ∀ {t : State}, P t → P (Machine.reselect t) := h.reselect
  have hsame : ∀ {t : State}, t.re = s.re → t.lp.completions = s.lp.completions → t.lp.buffers = s.lp.buffers → t.lc.slot = s.lc.slot → P t :=
    fun h1 h2 h3 h4 => h.same hs (.of_eq h1 h2 h3 h4)
  cases hb : busOf c with
  | some b => exact h.portKept.exec_bus hre hb hs
  | none =>
    cases c
    case pinReset addr rate => exact leads_next.mpr (h.reset rfl rfl rfl)
    case resetRelease addr rate =>
      simp only [Machine.exec, execResetRelease]
      split
      · exact leads_next.mpr (hsame rfl rfl rfl rfl)
      · exact leads_next.mpr hs
    case clearingDone => exact h.portKept.exec_clearingDone hre (fun _ => hsame rfl (by simp [State.cleared]) (by simp [State.cleared]) rfl) hs
    case localWordRead => exact h.portKept.exec_localWordRead hre (hsame rfl rfl rfl rfl) hs
    case localWordWrite =>
      refine h.portKept.exec_localWordWrite hre (fun la v => ?_) hs
      unfold State.writeClaimed
      split <;> exact hsame (by simp) (by simp) (by simp) (by simp)
    case localCycleEnd => exact h.portKept.exec_localCycleEnd hs
    case quietTimerExpiry | listenTimerExpiry =>
      simp only [Machine.exec, execQuietTimerExpiry, execListenTimerExpiry]
      (repeat' split) <;> simp only [leads_next, leads_nextWithSelection, hs]
      exact hre (hsame rfl rfl rfl rfl)
    case leavingPresenceDue =>
      simp only [Machine.exec, execLeavingPresenceDue]
      split
      · exact leads_next.mpr (hre (h.same hs ⟨rfl, rfl, rfl, fun _ ho => Or.inl (TxSlot.offer_without ho).1⟩))
      · exact leads_next.mpr hs
    case startDelimiter k => exact h.exec_line hs (Or.inl ⟨k, rfl⟩)
    case goodFrame f => exact h.exec_line hs (Or.inr (Or.inl ⟨f, rfl⟩))
    case frameDiscarded bs => exact h.exec_line hs (Or.inr (Or.inr (Or.inl ⟨bs, rfl⟩)))
    case contentionWon | transmitSent | transmitFault | lineIdle | dominantBitInGap => exact h.exec_line hs (Or.inr (Or.inr (Or.inr (by simp))))
    case frameInHand | rdRangeRead | wrApply | rdsEvaluation | slotCapture | sruTakeAnnouncement | sruTakeStartOfLeaving | discardTimerExpiry =>
      simp only [Machine.exec, execFrameInHand, execRdRangeRead, execWrApply, execRdsEvaluation, execSlotCapture, execSruTakeAnnouncement,
        execSruTakeStartOfLeaving, execDiscardTimerExpiry]
      (repeat' split) <;> simp only [leads_next, leads_nextWithSelection, hs]
      all_goals first | exact hre (hsame (by simp) (by simp) (by simp) (by simp)) | exact hsame (by simp) (by simp) (by simp) (by simp)
    case restartPurge => exact leads_next.mpr (hre (h.same hs (restartPurge_sameRequester s)))
    case lastHeardExpiry p =>
      simp only [Machine.exec, execLastHeardExpiry]
      split
      · exact leads_next.mpr (hre (h.announce _ (hsame rfl rfl rfl rfl)))
      · exact leads_next.mpr hs
    case gopen | gwrite | gwriteApply | gclose | groupCommit =>
      simp only [Machine.exec, execGopen, execGwrite, execGwriteApply, execGclose, execGroupCommit]
      (repeat' split) <;> simp only [leads_next, leads_nextWithSelection, hs]
      all_goals first | exact hre (hsame (by simp) (by simp) (by simp) (by simp)) | exact hsame (by simp) (by simp) (by simp) (by simp)
    case gabort =>
      simp only [Machine.exec, execGabort]
      (repeat' split) <;> simp only [leads_next, leads_nextWithSelection, hs]
      · exact hre (hsame (by simp) (by simp) (by simp) (by simp))
      · exact h.beginRollbacks _ _ _ (hsame rfl rfl rfl rfl)
    case groupRollback =>
      simp only [Machine.exec, execGroupRollback]
      (repeat' split) <;> simp only [leads_next, leads_nextWithSelection, hs]
      exact hre (h.afterRollback _ _ _ (hsame (by simp) (by simp) (by simp) (by simp)))
    case idleTimerExpiry g =>
      simp only [Machine.exec, execIdleTimerExpiry]
      (repeat' split) <;> simp only [leads_next, hs]
      exact hsame rfl rfl rfl rfl
    case geTakeExpiry | geTakePeerLost | geTakePeerRestarted | geTakeRevoke | geTakeStartOfLeaving =>
      have hother : P (takeOther s) := hsame rfl rfl rfl rfl
      simp only [Machine.exec, execGeTakeExpiry, execGeTakePeerLost, execGeTakePeerRestarted, execGeTakeRevoke, execGeTakeStartOfLeaving]
      (repeat' split) <;> simp only [leads_next, leads_nextWithSelection, hs, hother]
      all_goals first | exact h.beginRollbacks _ _ _ hother | exact hre (h.beginRollbacks _ _ _ hother)
    case reTakeAnnouncement => exact h.exec_requester hs (Or.inl rfl)
    case reTakeStartOfLeaving => exact h.exec_requester hs (Or.inr (Or.inl rfl))
    case responseWindowExpiry e => exact h.exec_requester hs (Or.inr (Or.inr ⟨e, Or.inl rfl⟩))
    case backoffExpiry e => exact h.exec_requester hs (Or.inr (Or.inr ⟨e, Or.inr (Or.inl rfl)⟩))
    case deferralDeadlineExpiry e => exact h.exec_requester hs (Or.inr (Or.inr ⟨e, Or.inr (Or.inr rfl)⟩))
    all_goals nomatch hb

end

end RequesterLaw

end Sys2Proof.Machine
end

section
/-! PROOFS. The queues keep their sizes (O55): the response queue with the frame in hand, the queues of the RE, the event queue. -/

namespace Sys2Proof.Machine

/-! ### The submission and the completion queue (R93, R146) -/

/-- The submission queue and the completion queue are within their sizes. -/
def RequesterQueuesBounded (s : State) : Prop := s.re.queue.length ≤ 16 ∧ s.lp.completions.length ≤ 16

theorem RequesterQueuesBounded.of_le {s t : State} (h : RequesterQueuesBounded s) (hq : t.re.queue.length ≤ s.re.queue.length)
    (hc : t.lp.completions.length ≤ s.lp.completions.length) : RequesterQueuesBounded t :=
  ⟨hq.trans h.1, hc.trans h.2⟩

/-- A completion is posted where there is space. -/
theorem RequesterQueuesBounded.posted {s t : State} (h : RequesterQueuesBounded s) (hspace : completionSpace s = true)
    (hq : t.re.queue.length ≤ s.re.queue.length) (hc : t.lp.completions.length ≤ s.lp.completions.length + 1) : RequesterQueuesBounded t :=
  ⟨hq.trans h.1, by have := (completionSpace_iff s).mp hspace; omega⟩

theorem length_queue_admitEntry (e : Fin 8) (q : Queued) (s : State) : (admitEntry e q s).re.queue.length ≤ s.re.queue.length := by
  unfold admitEntry
  split
  · exact le_rfl
  · simpa [dequeue] using List.length_erase_le

theorem length_completions_postOldest (e : Fin 8) (es : List (Fin 8)) (s : State) :
    (postOldest e es s).re.queue = s.re.queue ∧ (postOldest e es s).lp.completions.length ≤ s.lp.completions.length + 1 := by
  unfold postOldest
  split
  · split
    · simp [postCompletion]
    · simp
  · simp

theorem requesterQueuesBounded_steps : RequesterSteps false RequesterQueuesBounded where
  same h hs := h.of_le (by rw [hs.re]) (by rw [hs.completions])
  offered := nofun
  noted h _ _ := h
  finished h _ _ _ hspace := h.posted hspace (by simp [entryDone]) (by simp [entryDone, postCompletion])
  held h _ _ _ _ := h
  backedOff h _ _ _ _ := ⟨h, fun _ => h⟩
  readied h _ _ := h
  sent h _ _ := h
  reported _ h := h
  retired {s q st dt} h hspace := h.posted hspace List.length_erase_le (by simp [retire, postCompletion])
  admitted h _ _ _ := h.of_le (length_queue_admitEntry _ _ _) (by simp)
  stalled h _ := h
  unstalled h _ := h
  posted {s e es} h _ hspace := h.posted hspace (by rw [(length_completions_postOldest e es s).1]) (length_completions_postOldest e es s).2
  queued {s d} h hd := by
    refine ⟨?_, h.2⟩
    have hroom : ¬ Config.submissionEntries ≤ s.re.queue.length := fun hfull => by
      unfold decidePost at hd
      rw [if_pos hfull] at hd
      split at hd <;> exact nomatch hd
    simp only [enqueue, List.length_append, List.length_singleton]
    simp only [Config.submissionEntries] at hroom
    omega
  cancelled h := h.of_le (by simp [markCancelled]) le_rfl
  data h _ _ := h.of_le (by simp) (by simp)
  buffer b j high v h := h.of_le (by simp) (by simp)

theorem requesterQueuesBounded_law : RequesterLaw false RequesterQueuesBounded where
  toRequesterSteps := requesterQueuesBounded_steps
  gained h hc := requesterQueuesBounded_steps.completionSpaceGained (h.of_le le_rfl (by rw [hc]; exact Nat.le_succ _))
  reset hre hlp _ := ⟨by rw [hre]; exact Nat.zero_le _, by rw [hlp]; exact Nat.zero_le _⟩

/-! ### The event queue (R147) -/

/-- The event queue is within its size, and the events-lost flag is set only while an event waits. -/
def EventsBounded (es : List Event) (lost : Bool) : Prop := es.length ≤ 16 ∧ (lost = true → es ≠ [])

section
variable {s : State}

@[simp] theorem postEvent_eventsBounded (e : Event) (h : EventsBounded s.lp.events s.lp.eventsLost) :
    EventsBounded (postEvent e s).lp.events (postEvent e s).lp.eventsLost := by
  unfold postEvent
  split
  · next hlt =>
    simp only [Config.eventEntries] at hlt
    exact ⟨by simp only [List.length_append, List.length_singleton]; omega, fun _ => by simp⟩
  · next hfull => exact ⟨h.1, fun _ hn => hfull (by rw [hn]; decide)⟩

@[simp] theorem hearPlain_eventsBounded (p : Station) (h : EventsBounded s.lp.events s.lp.eventsLost) :
    EventsBounded (hearPlain p s).lp.events (hearPlain p s).lp.eventsLost := by
  unfold hearPlain
  dsimp only
  (repeat' split) <;> simp [h]

@[simp] theorem hear_eventsBounded (f : Frame) (h : EventsBounded s.lp.events s.lp.eventsLost) :
    EventsBounded (hear f s).lp.events (hear f s).lp.eventsLost := by
  unfold hear
  (repeat' split) <;> simp [h]

@[simp] theorem endOfLoss_eventsBounded (p : Station) (h : EventsBounded s.lp.events s.lp.eventsLost) :
    EventsBounded (endOfLoss p s).lp.events (endOfLoss p s).lp.eventsLost := by
  unfold endOfLoss
  dsimp only
  (repeat' split) <;> simp [h]

@[simp] theorem endOfRestart_eventsBounded (p : Station) (n : Nat) : ∀ {s : State}, EventsBounded s.lp.events s.lp.eventsLost →
    EventsBounded (endOfRestart p n s).lp.events (endOfRestart p n s).lp.eventsLost := by
  induction n with
  | zero => exact fun h => h
  | succ n ih => exact fun h => ih (postEvent_eventsBounded _ h)

@[simp] theorem endOperation_eventsBounded (fin : OpEnd) (h : EventsBounded s.lp.events s.lp.eventsLost) :
    EventsBounded (endOperation fin s).lp.events (endOperation fin s).lp.eventsLost := by
  unfold endOperation
  (repeat' split) <;> simp [h]

@[simp] theorem beginRollbacks_eventsBounded (cause : AbortCause) (list : List (Fin 4)) (fin : OpEnd) (h : EventsBounded s.lp.events s.lp.eventsLost) :
    EventsBounded (beginRollbacks cause list fin s).lp.events (beginRollbacks cause list fin s).lp.eventsLost := by
  unfold beginRollbacks
  split <;> simp [h]

@[simp] theorem rollbackGroup_eventsBounded (cause : AbortCause) (g : Fin 4) (h : EventsBounded s.lp.events s.lp.eventsLost) :
    EventsBounded (rollbackGroup cause g s).lp.events (rollbackGroup cause g s).lp.eventsLost := by
  unfold rollbackGroup
  split <;> simp [h]

@[simp] theorem afterRollback_eventsBounded (cause : AbortCause) (rest : List (Fin 4)) (fin : OpEnd) (h : EventsBounded s.lp.events s.lp.eventsLost) :
    EventsBounded (afterRollback cause rest fin s).lp.events (afterRollback cause rest fin s).lp.eventsLost := by
  unfold afterRollback
  split <;> simp [h]

@[simp] theorem enterState_eventsBounded (st : StationState) (h : EventsBounded s.lp.events s.lp.eventsLost) :
    EventsBounded (enterState st s).lp.events (enterState st s).lp.eventsLost := by
  simp [enterState, h]

@[simp] theorem endLeaving_eventsBounded (h : EventsBounded s.lp.events s.lp.eventsLost) :
    EventsBounded (endLeaving s).lp.events (endLeaving s).lp.eventsLost := by
  simp [endLeaving, h]

@[simp] theorem reportSent_eventsBounded (o : Offer) (h : EventsBounded s.lp.events s.lp.eventsLost) :
    EventsBounded (reportSent o s).lp.events (reportSent o s).lp.eventsLost := by
  unfold reportSent presenceSent freshSent
  (repeat' split) <;> simp [h]

@[simp] theorem takeGoodFrame_eventsBounded (f : Frame) (h : EventsBounded s.lp.events s.lp.eventsLost) :
    EventsBounded (takeGoodFrame f s).lp.events (takeGoodFrame f s).lp.eventsLost := by
  unfold takeGoodFrame takeResponseFrame
  dsimp only
  (repeat' split) <;> simp [h]

theorem takeCommand_eventsBounded (c : Command) (h : EventsBounded s.lp.events s.lp.eventsLost) :
    EventsBounded (takeCommand c s).lp.events (takeCommand c s).lp.eventsLost := by
  cases c with
  | configure => simpa [takeCommand] using h
  | revoke => simpa [takeCommand] using h
  | join =>
    show EventsBounded (commandJoin s).lp.events (commandJoin s).lp.eventsLost
    unfold commandJoin joinInSetup
    split <;> simp [h]
  | leave =>
    show EventsBounded (commandLeave s).lp.events (commandLeave s).lp.eventsLost
    unfold commandLeave leaveListening leaveJoined
    split <;> simp [h]

theorem eventsBounded_portKept : PortKept (fun t => EventsBounded t.lp.events t.lp.eventsLost) where
  moved {s t} hm h := by
    have he : t.lp.events = s.lp.events := congrArg (·.lp.events) hm
    have hl : t.lp.eventsLost = s.lp.eventsLost := congrArg (·.lp.eventsLost) hm
    rw [he, hl]
    exact h
  claim h := h
  buffer b j high v h := by simpa using h
  post h := by simpa using h
  completion h := by simpa using h
  event {s} h := by
    unfold consumeEvent
    split
    · exact h
    · next e rest he =>
      refine ⟨by have := h.1; rw [he, List.length_cons] at this; exact Nat.le_of_succ_le this, fun hl hn => ?_⟩
      simp only [Bool.and_eq_true, Bool.not_eq_true'] at hl
      rw [show rest = [] from hn] at hl
      exact nomatch hl.2
  command c h := takeCommand_eventsBounded c h

end

theorem exec_eventsBounded (c : Instr) {s : State} (h : EventsBounded s.lp.events s.lp.eventsLost) :
    Leads (fun t => EventsBounded t.lp.events t.lp.eventsLost) (exec c s) := by
  have hre : ∀ {t : State}, EventsBounded t.lp.events t.lp.eventsLost → EventsBounded (reselect t).lp.events (reselect t).lp.eventsLost :=
    fun ht => by simpa using ht
  cases hb : busOf c with
  | some b => exact eventsBounded_portKept.exec_bus hre hb h
  | none =>
    cases c
    case pinReset addr rate => exact leads_next.mpr ⟨Nat.zero_le _, nofun⟩
    case clearingDone =>
      simp only [exec, execClearingDone]
      split
      · exact leads_next.mpr (hre (eventsBounded_portKept.portClosed.resumeAfterClearing _ (by simp [h])))
      · exact leads_next.mpr h
    case localWordRead => exact eventsBounded_portKept.exec_localWordRead hre h h
    case localWordWrite =>
      refine eventsBounded_portKept.exec_localWordWrite hre (fun la v => ?_) h
      unfold State.writeClaimed
      split <;> simp [h]
    case localCycleEnd => exact eventsBounded_portKept.exec_localCycleEnd h
    case resetRelease | quietTimerExpiry | listenTimerExpiry | leavingPresenceDue =>
      simp only [exec, execResetRelease, execQuietTimerExpiry, execListenTimerExpiry, execLeavingPresenceDue]
      (repeat' split) <;> simp [h]
    case startDelimiter | contentionWon | transmitSent | transmitFault | lineIdle | goodFrame | frameDiscarded | dominantBitInGap =>
      simp only [exec, execStartDelimiter, execContentionWon, execTransmitSent, execTransmitFault, execLineIdle, execGoodFrame, execFrameDiscarded,
        execDominantBitInGap]
      (repeat' split) <;> simp [h]
    case frameInHand | rdRangeRead | wrApply | restartPurge | lastHeardExpiry =>
      simp only [exec, execFrameInHand, execRdRangeRead, execWrApply, execRestartPurge, execLastHeardExpiry]
      (repeat' split) <;> simp [h]
    case rdsEvaluation | slotCapture | sruTakeAnnouncement | sruTakeStartOfLeaving | discardTimerExpiry =>
      simp only [exec, execRdsEvaluation, execSlotCapture, execSruTakeAnnouncement, execSruTakeStartOfLeaving, execDiscardTimerExpiry]
      (repeat' split) <;> simp [h]
    case gopen | gwrite | gwriteApply | gclose | groupCommit | gabort | groupRollback =>
      simp only [exec, execGopen, execGwrite, execGwriteApply, execGclose, execGroupCommit, execGabort, execGroupRollback]
      (repeat' split) <;> simp [h]
    case idleTimerExpiry | geTakeExpiry | geTakePeerLost | geTakePeerRestarted | geTakeRevoke | geTakeStartOfLeaving =>
      simp only [exec, execIdleTimerExpiry, execGeTakeExpiry, execGeTakePeerLost, execGeTakePeerRestarted, execGeTakeRevoke, execGeTakeStartOfLeaving]
      (repeat' split) <;> simp [h]
    case reTakeAnnouncement | reTakeStartOfLeaving | responseWindowExpiry | backoffExpiry | deferralDeadlineExpiry =>
      simp only [exec, execReTakeAnnouncement, execReTakeStartOfLeaving, execResponseWindowExpiry, execBackoffExpiry, execDeferralDeadlineExpiry]
      (repeat' split) <;> simp [h]
    all_goals nomatch hb

/-! ### The response queue (R63, R64, R75) -/

/-- The response queue has room for the answer of the frame in hand. -/
def Te.Room (te : Te) : Prop := te.queue.length + (if te.hand.isSome then 1 else 0) ≤ 8

section
variable {s : State}

/-- A TE with no frame in hand and a free place in the queue can answer one. -/
theorem Te.Room.of_free {te : Te} (hh : te.hand = none) (hq : te.queue.length < 8) : te.Room := by
  simp only [Te.Room, hh, Option.isSome_none, Bool.false_eq_true, if_false]
  omega

theorem Te.Room.of_le {te te' : Te} (h : te.Room) (hh : te'.hand = te.hand) (hq : te'.queue.length ≤ te.queue.length) : te'.Room := by
  simp only [Te.Room, hh] at h ⊢
  omega

/-- An answer given with no frame in hand takes a free place. -/
theorem queueResponse_room {p : Station} {q : Byte} {r : Reply} (hh : s.te.hand = none) (hq : s.te.queue.length < 8) : (queueResponse p q r s).te.Room := by
  simp only [Te.Room, queueResponse, hh, Option.isSome_none, Bool.false_eq_true, if_false, List.length_append, List.length_singleton]
  omega

theorem takeInHand_room {p : Station} {r : Request} {st : HandStage} (hq : s.te.queue.length < 8) : (takeInHand p r st s).te.Room := by
  simp only [Te.Room, takeInHand, Option.isSome_some, if_true]
  omega

@[simp] theorem finishHand_room (r : Option Reply) (h : s.te.Room) : (finishHand r s).te.Room := by
  cases hh : s.te.hand with
  | none => simpa only [finishHand, hh] using h
  | some x =>
    have hq : s.te.queue.length < 8 := by simp only [Te.Room, hh, Option.isSome_some, if_true] at h; omega
    cases r with
    | none => rw [finishHand_none hh]; exact .of_free rfl hq
    | some r =>
      rw [finishHand_some hh]
      simp only [Te.Room, State.answered, Te.answered, Option.isSome_none, Bool.false_eq_true, if_false, List.length_append, List.length_singleton]
      omega

theorem takeRds_room (p : Station) (r : Request) (h : s.te.Room) : (takeRds p r s).te.Room := by
  unfold takeRds answerFromSlot
  (repeat' split) <;> simp [h]

theorem dispatchRequest_room {p : Station} {r : Request} (hh : s.te.hand = none) (hq : s.te.queue.length < 8) : (dispatchRequest p r s).te.Room := by
  have hanswered : ∀ k c, (answer p r.seq k c s).te.Room := fun k c => queueResponse_room (s := updatePeer _ _ s) hh hq
  have hgiven : (giveGe .frame (takeInHand p r .ge s)).te.Room := by simpa using takeInHand_room hq
  unfold dispatchRequest afterTests
  split
  · split
    · exact hanswered _ _
    · simpa using takeInHand_room hq
  · split
    · exact hanswered _ _
    · simpa using takeInHand_room hq
  · split
    · exact hanswered _ _
    · exact takeRds_room p r (takeInHand_room hq)
  · exact hgiven

theorem replayOrEvaluate_room {f : Frame} {h : Header} (hh : s.te.hand = none) (hq : s.te.queue.length < 8) : (replayOrEvaluate f h s).te.Room := by
  unfold replayOrEvaluate evaluate
  split
  · split
    · exact .of_free hh hq
    · exact queueResponse_room hh hq
  split
  · exact queueResponse_room (s := updatePeer _ _ s) hh hq
  split
  · exact queueResponse_room (s := updatePeer _ _ s) hh hq
  · exact dispatchRequest_room hh hq

@[simp] theorem takeNextFrame_room (h : s.te.Room) : (takeNextFrame s).te.Room := by
  unfold takeNextFrame
  split
  · next f hh hf =>
    unfold checkSequence
    split
    · exact h
    · next hroom =>
      simp only [Config.responseEntries, Nat.not_le] at hroom
      split
      · exact h
      · exact replayOrEvaluate_room (by rw [(frameTakenReport_te _ _ _).1]; exact hh) (by rw [(frameTakenReport_te _ _ _).1]; exact hroom)
  · exact h

@[simp] theorem passToTarget_room (f : Frame) (h : s.te.Room) : (passToTarget f s).te.Room := by
  have hentered : ∀ u : State, u.te.Room → (if u.te.input.isSome then u else enterInput f u).te.Room := fun u hu => by
    split
    · exact hu
    · rw [enterInput_eq]; exact hu.of_le (by simp) (by simp)
  unfold passToTarget passRequest
  dsimp only
  split
  · split
    · exact hentered _ (by split <;> simp [h])
    · exact h
  · exact h

theorem length_purgeQueue (p : Station) (b : Bool) (q : List Response) : (purgeQueue p b q).length ≤ q.length := by
  cases q with
  | nil => exact le_rfl
  | cons r rs =>
    have hf := List.length_filter_le (fun x : Response => decide (x.requester ≠ p)) rs
    simp only [purgeQueue]
    (repeat' split) <;> simp only [List.length_cons] <;> omega

@[simp] theorem restartPurge_room (h : s.te.Room) : (restartPurge s).te.Room := by
  unfold restartPurge
  split
  · exact h
  · dsimp only
    split <;> exact h.of_le rfl (length_purgeQueue _ _ _)

@[simp] theorem announce_room (a : Announcement) (h : s.te.Room) : (announce a s).te.Room := by
  unfold announce
  cases a with
  | restarted p =>
    have hpurged : ∀ u : State, u.te = s.te → (restartPurge u).te.Room := fun u hu => restartPurge_room (hu ▸ h)
    exact (hpurged _ (by simp)).of_le rfl le_rfl
  | _ => simpa using h

@[simp] theorem hear_room (f : Frame) (h : s.te.Room) : (hear f s).te.Room := by
  unfold hear hearLeaving hearFresh
  dsimp only
  (repeat' split) <;> simp [h]

@[simp] theorem endOperation_room (fin : OpEnd) (h : s.te.Room) : (endOperation fin s).te.Room := by
  unfold endOperation endOfLoss hearFresh
  dsimp only
  (repeat' split) <;> simp [h]

@[simp] theorem beginRollbacks_room (cause : AbortCause) (list : List (Fin 4)) (fin : OpEnd) (h : s.te.Room) : (beginRollbacks cause list fin s).te.Room := by
  unfold beginRollbacks
  split <;> simp [h]

@[simp] theorem afterRollback_room (cause : AbortCause) (rest : List (Fin 4)) (fin : OpEnd) (h : s.te.Room) : (afterRollback cause rest fin s).te.Room := by
  unfold afterRollback
  split <;> simp [h]

@[simp] theorem takeAllWaiting_room (h : s.te.Room) : (takeAllWaiting s).te.Room := by
  refine restartPurge_room ?_
  simpa using h

theorem reports_room (o : Offer) (h : s.te.Room) : (reportSent o s).te.Room ∧ (reportFault o s).te.Room := by
  cases o with
  | response =>
    refine ⟨h.of_le rfl (by simp [reportSent, responseSent]), ?_⟩
    show (responseFaulted s).te.Room
    unfold responseFaulted
    split
    · exact h
    · next r rs hq => split <;> exact h.of_le rfl (by simp [hq])
  | presence m =>
    refine ⟨?_, h⟩
    show (presenceSent m s).te.Room
    unfold presenceSent freshSent
    split
    · cases m with
      | leaving =>
        show (endLeaving s).te.Room
        rw [endLeaving_eq]
        exact (takeAllWaiting_room h).of_le rfl le_rfl
      | fresh => dsimp only; split <;> simpa using h
      | plain => exact h
    · exact h
  | request e => exact ⟨by simpa [reportSent] using h, by simpa [reportFault] using h⟩

@[simp] theorem takeGoodFrame_room (f : Frame) (h : s.te.Room) : (takeGoodFrame f s).te.Room := by
  unfold takeGoodFrame takeResponseFrame
  dsimp only
  (repeat' split) <;> simp [h]

theorem room_portKept : PortKept (fun t => t.te.Room) where
  moved hm h := (congrArg (·.te) hm : _ = _) ▸ h
  claim h := h
  buffer b j high v h := by simpa using h
  post h := by simpa using h
  completion h := by simpa using h
  event h := by simpa using h
  command {s} c h := by
    cases c with
    | leave =>
      show (commandLeave s).te.Room
      unfold commandLeave leaveListening leaveJoined
      split <;> simp [h]
    | _ => simpa [takeCommand] using h

end

theorem exec_room (c : Instr) {s : State} (h : s.te.Room) : Leads (fun t => t.te.Room) (exec c s) := by
  have hre : ∀ {t : State}, t.te.Room → (reselect t).te.Room := fun ht => by simpa using ht
  cases hb : busOf c with
  | some b => exact room_portKept.exec_bus hre hb h
  | none =>
    cases c
    case pinReset addr rate => exact leads_next.mpr (.of_free rfl (Nat.succ_pos 7))
    case clearingDone => exact room_portKept.exec_clearingDone hre (fun _ => h) h
    case localWordRead => exact room_portKept.exec_localWordRead hre h h
    case localWordWrite =>
      refine room_portKept.exec_localWordWrite hre (fun la v => ?_) h
      unfold State.writeClaimed
      split <;> simpa using h
    case localCycleEnd => exact room_portKept.exec_localCycleEnd h
    case resetRelease | quietTimerExpiry | listenTimerExpiry =>
      simp only [exec, execResetRelease, execQuietTimerExpiry, execListenTimerExpiry]
      (repeat' split) <;> simp [h]
    case leavingPresenceDue =>
      simp only [exec, execLeavingPresenceDue]
      split
      · exact leads_next.mpr (hre h)
      · exact leads_next.mpr h
    case transmitSent | transmitFault =>
      have hreports : ∀ (o : Offer) (lc : Lc), (reportSent o { s with lc := lc }).te.Room ∧ (reportFault o { s with lc := lc }).te.Room := fun o lc => reports_room o h
      simp only [exec, execTransmitSent, execTransmitFault, updateLc]
      (repeat' split) <;> simp [h, hreports]
    case startDelimiter | contentionWon | lineIdle | goodFrame | frameDiscarded | dominantBitInGap =>
      simp only [exec, execStartDelimiter, execContentionWon, execLineIdle, execGoodFrame, execFrameDiscarded, execDominantBitInGap]
      (repeat' split) <;> simp [h]
    case frameInHand | rdRangeRead | wrApply | restartPurge | lastHeardExpiry =>
      simp only [exec, execFrameInHand, execRdRangeRead, execWrApply, execRestartPurge, execLastHeardExpiry]
      (repeat' split) <;> simp [h]
    case rdsEvaluation | slotCapture | sruTakeAnnouncement | sruTakeStartOfLeaving | discardTimerExpiry =>
      simp only [exec, execRdsEvaluation, execSlotCapture, execSruTakeAnnouncement, execSruTakeStartOfLeaving, execDiscardTimerExpiry]
      (repeat' split) <;> simp [h]
    case gopen | gwrite | gwriteApply | gclose | groupCommit | gabort | groupRollback =>
      simp only [exec, execGopen, execGwrite, execGwriteApply, execGclose, execGroupCommit, execGabort, execGroupRollback]
      (repeat' split) <;> simp [h]
    case idleTimerExpiry | geTakeExpiry | geTakePeerLost | geTakePeerRestarted | geTakeRevoke | geTakeStartOfLeaving =>
      simp only [exec, execIdleTimerExpiry, execGeTakeExpiry, execGeTakePeerLost, execGeTakePeerRestarted, execGeTakeRevoke, execGeTakeStartOfLeaving]
      (repeat' split) <;> simp [h]
    case reTakeAnnouncement | reTakeStartOfLeaving | responseWindowExpiry | backoffExpiry | deferralDeadlineExpiry =>
      simp only [exec, execReTakeAnnouncement, execReTakeStartOfLeaving, execResponseWindowExpiry, execBackoffExpiry, execDeferralDeadlineExpiry]
      (repeat' split) <;> simp [h]
    all_goals nomatch hb

/-! ### The queues together -/

theorem queuesBounded_iff (s : State) : QueuesBounded s ↔ s.te.Room ∧ RequesterQueuesBounded s ∧ EventsBounded s.lp.events s.lp.eventsLost := by
  simp only [QueuesBounded, Te.Room, RequesterQueuesBounded, EventsBounded, and_assoc]

theorem exec_queuesBounded (c : Instr) {s : State} (h : QueuesBounded s) : Leads QueuesBounded (exec c s) := by
  obtain ⟨hroom, hre, hev⟩ := (queuesBounded_iff s).mp h
  exact fun t ht => (queuesBounded_iff t).mpr ⟨exec_room c hroom t ht, requesterQueuesBounded_law.exec hre c t ht, exec_eventsBounded c hev t ht⟩

/-- What every command keeps every step keeps: the queue of commands is no part of the law (log 21). -/
theorem step_keeps {I : State → Prop} (hq : ∀ {s : State} (q : List Instr), I s → I { s with pending := q })
    (hexec : ∀ (c : Instr) {s : State}, I s → Leads I (exec c s)) {s t : State} (hs : I s) (h : step s = .next t) : I t := by
  unfold step at h
  split at h
  · cases h; exact hs
  · exact hexec _ (hq _ hs) t h

/-- Settles O55. -/
theorem queuesBoundedKept : Obligations.QueuesBoundedKept :=
  fun _ _ hs h => step_keeps (fun _ hs => hs) exec_queuesBounded hs h

end Sys2Proof.Machine
end

section
/-! PROOFS. The memories keep their canonical form (O54): the segment, the hold map and the log; what waits to be stored; the transfer buffers and the entries that are read into them. -/

namespace Sys2Proof.Machine

/-! ### The transfer buffers (R95, R97, R144) -/

/-- The transfer buffers are in canonical form, and every outstanding entry fits its buffer. -/
def BuffersCanonical (s : State) : Prop := Mem.wf 256 s.lp.buffers ∧ ∀ e x, s.re.table.at e = some x → x.desc.fits

theorem BuffersCanonical.of_same {s t : State} (h : BuffersCanonical s) (ht : t.re.table = s.re.table) (hb : t.lp.buffers = s.lp.buffers) : BuffersCanonical t := by
  simp only [BuffersCanonical, ht, hb]
  exact h

/-- An entry is put in the place of one with the same descriptor. -/
theorem BuffersCanonical.put {s t : State} {e : Fin 8} {x y : Entry} (h : BuffersCanonical s) (hx : s.re.table.at e = some x) (hd : y.desc = x.desc)
    (ht : t.re.table = s.re.table.put e (some y)) (hb : t.lp.buffers = s.lp.buffers) : BuffersCanonical t := by
  refine ⟨by rw [hb]; exact h.1, fun i z hz => ?_⟩
  rw [ht, Table.at_put] at hz
  split at hz
  · cases hz
    exact hd ▸ h.2 e x hx
  · exact h.2 i z hz

theorem BuffersCanonical.putNone {s t : State} {e : Fin 8} (h : BuffersCanonical s) (ht : t.re.table = s.re.table.put e none) (hb : t.lp.buffers = s.lp.buffers) :
    BuffersCanonical t := by
  refine ⟨by rw [hb]; exact h.1, fun i z hz => ?_⟩
  rw [ht, Table.at_put] at hz
  split at hz
  · cases hz
  · exact h.2 i z hz

/-- The checks of admission pass a descriptor that fits its buffer alone (R97). -/
theorem fits_of_checkDescriptor {s : State} {d : Descriptor} (h : checkDescriptor s d = none) : d.fits := by
  intro hb
  have hkind : d.kind = 1 ∨ d.kind = 2 ∨ d.kind = 3 ∨ d.kind = 5 := by
    unfold bufferOf at hb
    split at hb
    · assumption
    · exact absurd rfl hb
  unfold checkDescriptor at h
  split at h
  · cases h
  split at h
  · cases h
  split at h
  · cases h
  split at h
  · cases h
  · next hcount => exact (Classical.not_not.mp (mt (count_check d).mpr hcount) hkind).2

theorem admitEntry_buffersCanonical {s : State} {e : Fin 8} {q : Queued} (h : BuffersCanonical s) (hc : checkDescriptor s q.desc = none) :
    BuffersCanonical (admitEntry e q s) := by
  unfold admitEntry
  split
  · exact h
  · refine ⟨h.1, fun i z hz => ?_⟩
    simp only [makeReady, putEntry] at hz
    rw [Table.at_put] at hz
    split at hz
    · cases hz
      exact fits_of_checkDescriptor hc
    · exact h.2 i z hz

theorem writeBuffer_buffersCanonical {s : State} {d : Descriptor} {ws : List Word} (h : BuffersCanonical s) (hf : d.fits) (hl : ws.length = d.count.toNat) :
    BuffersCanonical (writeBuffer d ws s) := by
  refine ⟨?_, fun e x hx => h.2 e x (by simpa using hx)⟩
  unfold writeBuffer
  split
  · next b hb =>
    have hcount := hf (by rw [hb]; nofun)
    exact Mem.wf_writeAll ws h.1 (by have := b.isLt; simp only [bufferKey]; omega)
  · exact h.1

theorem buffersCanonical_steps : RequesterSteps false BuffersCanonical where
  same h hs := h.of_same (by rw [hs.re]) hs.buffers
  offered := nofun
  noted h hx hy := h.put hx (by rw [hy]) rfl rfl
  finished h _ _ _ _ := h.putNone rfl rfl
  held {s e x y st dt n} h hx _ hd _ := h.put (y := { y.stopTimers with state := .completing, result := some ⟨st, dt, n⟩ }) hx hd rfl rfl
  backedOff {s e x us y} h hx _ hd _ := ⟨h.put (y := y.backOff (.running us)) hx hd rfl rfl, fun _ => h.put (y := y.backOff (.running us)) hx hd rfl rfl⟩
  readied {s e x} h hx _ := h.put (y := { x with state := .readyToSend, backoff := .stopped }) hx rfl rfl rfl
  sent {s e x us} h hx _ := h.put (y := { x.attempted with state := .awaitResponse, window := .running us }) hx rfl rfl rfl
  reported _ h := h
  retired h _ := h
  admitted h _ _ hc := admitEntry_buffersCanonical h hc
  stalled h _ := h
  unstalled h _ := h
  posted h _ _ := by
    unfold postOldest
    split
    · split <;> exact h.putNone rfl rfl
    · exact h
  queued h _ := h
  cancelled h := h
  data h hx hl := writeBuffer_buffersCanonical h (h.2 _ _ hx) hl
  buffer {s} b j high v h := by
    unfold writeBufferHalf
    split
    · exact h
    · exact ⟨Mem.wf_write _ h.1 (by have := b.isLt; have := j.isLt; simp only [bufferKey]; omega), h.2⟩

theorem buffersCanonical_law : RequesterLaw false BuffersCanonical where
  toRequesterSteps := buffersCanonical_steps
  gained h _ := buffersCanonical_steps.completionSpaceGained (h.of_same rfl rfl)
  reset hre hlp _ := ⟨by rw [hlp]; exact memoryCanonical_reset.buffers, by rw [hre]; exact memoryCanonical_reset.entries⟩

/-! ### What waits to be stored (R2, R67) -/

/-- A write of the frame in hand that has passed its tests is ready to be stored, and the operation of a GWRITE has its frame in hand. -/
structure HandReady (hand : Option Hand) (op : Option GeOp) : Prop where
  wr : ∀ h, hand = some h → h.stage = .wrClaim → h.req.writeReady
  gwrite : ∀ g, op = some (.gwrite g) → ∃ h, hand = some h ∧ h.stage = .ge ∧ h.req.writeReady
  handed : ∀ h, hand = some h → h.stage = .ge → h.req.kind = .gwrite → h.req.data.length = h.req.count

/-- With no GWRITE in progress an empty hand waits for nothing. -/
theorem HandReady.of_none {op : Option GeOp} (h : ∀ g, op ≠ some (.gwrite g)) : HandReady none op :=
  ⟨nofun, fun g hg => absurd hg (h g), nofun⟩

theorem HandReady.of_op {hand : Option Hand} {op op' : Option GeOp} (h : HandReady hand op) (hop : ∀ g, op' = some (.gwrite g) → op = some (.gwrite g)) :
    HandReady hand op' :=
  ⟨h.wr, fun g hg => h.gwrite g (hop g hg), h.handed⟩

/-- Only a hand that waits for the GE can be that of a GWRITE in progress. -/
theorem HandReady.noGwrite {hand : Option Hand} {op : Option GeOp} (h : HandReady hand op) (hh : hand.map (·.stage) ≠ some .ge) (g : Fin 4) :
    op ≠ some (.gwrite g) := fun hg => by
  obtain ⟨x, hx, hst, -⟩ := h.gwrite g hg
  exact hh (by rw [hx, Option.map_some, hst])

theorem writeFields_length {k : ReqKind} {q fl : Byte} {tag : BitVec 4} {r : List Byte} {x : Request} (h : writeFields k q fl tag r = some x) :
    x.data.length = x.count := by
  unfold writeFields at h
  split at h
  · split at h
    · split at h
      · next hc =>
        cases h
        simp only [Bool.and_eq_true, decide_eq_true_eq] at hc
        exact hc.2
      · cases h
    · cases h
  · cases h

/-- A frame that is not MALFORMED has as many data words as its count, where its kind carries data (R67). -/
theorem requestOf_length {f : Frame} {x : Request} (h : requestOf f = some x) (hk : x.kind = .wr ∨ x.kind = .gwrite) : x.data.length = x.count := by
  have hread : ∀ {k q fl r}, readFields k q fl r = some x → (k ≠ .wr ∧ k ≠ .gwrite) → x.data.length = x.count := fun {k q fl r} hr hne => by
    have hkind := ((readFields_spec k q fl r).2 x hr).1
    rw [hkind] at hk
    exact absurd hk (by rintro (h | h); exact hne.1 h; exact hne.2 h)
  have htag : ∀ {k q fl r}, tagFields k q fl r = some x → (k ≠ .wr ∧ k ≠ .gwrite) → x.data.length = x.count := fun {k q fl r} hr hne => by
    have hkind := ((tagFields_spec k q fl r).2 x hr).1
    rw [hkind] at hk
    exact absurd hk (by rintro (h | h); exact hne.1 h; exact hne.2 h)
  unfold requestOf at h
  split at h
  · split at h
    · exact hread h ⟨nofun, nofun⟩
    split at h
    · exact hread h ⟨nofun, nofun⟩
    split at h
    · exact writeFields_length h
    split at h
    · exact htag h ⟨nofun, nofun⟩
    split at h
    · unfold gwriteFields at h
      split at h
      · exact writeFields_length h
      · cases h
    split at h
    · exact htag h ⟨nofun, nofun⟩
    split at h
    · exact htag h ⟨nofun, nofun⟩
    · cases h
  · cases h

section
variable {s : State}

@[simp] theorem finishHand_hand (r : Option Reply) : (finishHand r s).te.hand = none := by
  cases hh : s.te.hand with
  | none => simp only [finishHand, hh]
  | some h =>
    cases r with
    | none => rw [finishHand_none hh]
    | some r => rw [finishHand_some hh]; rfl

/-- The SRU either keeps the RDS in hand or answers it. -/
theorem takeRds_hand (p : Station) (r : Request) : (takeRds p r s).te.hand = s.te.hand ∨ (takeRds p r s).te.hand = none := by
  unfold takeRds answerFromSlot
  (repeat' split) <;> simp

theorem testRange_none {p : Station} {r : Request} (h : testRange s p r = none) : r.addr + r.count ≤ 4096 := by
  unfold testRange at h
  split at h
  · cases h
  · next hr => exact of_decide_eq_true (Bool.eq_true_of_not_eq_false hr)

/-- A well-formed request is taken into hand ready for what it waits for (R68 to R71). -/
theorem dispatchRequest_handReady {p : Station} {r : Request} (hh : s.te.hand = none) (hop : ∀ g, s.ge.op ≠ some (.gwrite g))
    (hr : r.kind = .wr ∨ r.kind = .gwrite → r.data.length = r.count) : HandReady (dispatchRequest p r s).te.hand s.ge.op := by
  have hanswered : ∀ k c, HandReady (answer p r.seq k c s).te.hand s.ge.op := fun k c => by
    rw [show (answer p r.seq k c s).te.hand = none from by simpa using hh]
    exact .of_none hop
  have hin : ∀ st, (st = .wrClaim → r.writeReady) → (st = .ge → r.kind = .gwrite → r.data.length = r.count) → HandReady (some ⟨p, r, st⟩) s.ge.op :=
    fun st hwr hge => ⟨fun h he hst => by cases he; exact hwr hst, fun g hg => absurd hg (hop g), fun h he hst hk => by cases he; exact hge hst hk⟩
  unfold dispatchRequest afterTests
  split
  · split
    · exact hanswered _ _
    · exact hin .rdClaim nofun nofun
  · next hk =>
    split
    · exact hanswered _ _
    · next ht => exact hin .wrClaim (fun _ => ⟨testRange_none ht, hr (Or.inl hk)⟩) nofun
  · split
    · exact hanswered _ _
    · rcases takeRds_hand (s := takeInHand p r .sru s) p r with h | h <;> rw [h]
      · exact hin .sru nofun nofun
      · exact .of_none hop
  · exact hin .ge nofun fun _ hk => hr (Or.inr hk)

@[simp] theorem takeNextFrame_handReady (h : HandReady s.te.hand s.ge.op) : HandReady (takeNextFrame s).te.hand s.ge.op := by
  unfold takeNextFrame
  split
  · next f hh hf =>
    have hop : ∀ g, s.ge.op ≠ some (.gwrite g) := h.noGwrite (by rw [hh]; nofun)
    have hfree : ∀ u : State, u.te.hand = none → HandReady u.te.hand s.ge.op := fun u hu => hu ▸ .of_none hop
    unfold checkSequence
    split
    · exact hfree _ hh
    split
    · exact hfree _ hh
    · next hd _ =>
      have hte := (frameTakenReport_te f hd { s with te := { s.te with input := none } }).1
      have hhand : (frameTakenReport f hd { s with te := { s.te with input := none } }).te.hand = none := by rw [hte]; exact hh
      unfold replayOrEvaluate evaluate
      split
      · split
        · exact hfree _ hhand
        · exact hfree _ (by simpa using hhand)
      split
      · exact hfree _ (by simpa using hhand)
      split
      · exact hfree _ (by simpa using hhand)
      · next hreq =>
        have hge : (frameTakenReport f hd { s with te := { s.te with input := none } }).ge.op = s.ge.op := by simp
        rw [← hge]
        exact dispatchRequest_handReady hhand (hge ▸ hop) (requestOf_length hreq)
  · exact h

@[simp] theorem passToTarget_handReady (f : Frame) (h : HandReady s.te.hand s.ge.op) : HandReady (passToTarget f s).te.hand s.ge.op := by
  have hentered : ∀ u : State, HandReady u.te.hand s.ge.op → HandReady (if u.te.input.isSome then u else enterInput f u).te.hand s.ge.op := fun u hu => by
    split
    · exact hu
    · rw [enterInput_eq]; simpa using hu
  unfold passToTarget passRequest
  dsimp only
  split
  · split
    · exact hentered _ (by split <;> simp [h])
    · exact h
  · exact h

@[simp] theorem takeGoodFrame_handReady (f : Frame) (h : HandReady s.te.hand s.ge.op) : HandReady (takeGoodFrame f s).te.hand s.ge.op := by
  have hpassed : ∀ u : State, u.te.hand = s.te.hand → u.ge.op = s.ge.op → HandReady (passToTarget f u).te.hand s.ge.op := fun u hh hop => by
    rw [← hop]
    exact passToTarget_handReady f (by rw [hh, hop]; exact h)
  unfold takeGoodFrame takeResponseFrame
  dsimp only
  split
  · (repeat' split) <;> simp [h]
  · exact hpassed _ (by simp) (by simp)

/-- What ends with a list of rollbacks, when no GWRITE is in progress. -/
@[simp] theorem endOperation_handReady (fin : OpEnd) (hop : ∀ g, s.ge.op ≠ some (.gwrite g)) (h : HandReady s.te.hand s.ge.op) :
    HandReady (endOperation fin s).te.hand s.ge.op := by
  cases fin with
  | reply => simpa [endOperation] using HandReady.of_none hop
  | gone p report => simp only [endOperation]; split <;> simpa using h
  | restarted p n => simpa [endOperation] using h
  | noGroupOpen => exact h
  | nothing => exact h

theorem beginRollbacks_handReady (cause : AbortCause) (list : List (Fin 4)) (fin : OpEnd) (hop : ∀ g, s.ge.op ≠ some (.gwrite g)) (h : HandReady s.te.hand s.ge.op) :
    HandReady (beginRollbacks cause list fin s).te.hand (beginRollbacks cause list fin s).ge.op := by
  unfold beginRollbacks
  split
  · simpa using endOperation_handReady fin hop h
  · exact h.of_op (by nofun)

theorem afterRollback_handReady (cause : AbortCause) (rest : List (Fin 4)) (fin : OpEnd) (h : HandReady s.te.hand s.ge.op) :
    HandReady (afterRollback cause rest fin s).te.hand (afterRollback cause rest fin s).ge.op := by
  unfold afterRollback
  split
  · have hnone : HandReady s.te.hand none := h.of_op (by nofun)
    have hend := endOperation_handReady (s := setFollowing false (setOp none (releaseNotice s))) fin (by nofun) (by simpa [setFollowing, setOp] using hnone)
    simpa [setFollowing, setOp] using hend
  · simpa [setFollowing, setOp] using h.of_op (op' := some (.rollback _ _ _)) (by nofun)

theorem stale_handReady {hand : Option Hand} {op : Option GeOp} (h : HandReady hand op) : HandReady hand (op.map GeOp.stale) := by
  refine h.of_op fun g hg => ?_
  obtain ⟨o, ho, hst⟩ := Option.map_eq_some_iff.mp hg
  cases o with
  | rollback => exact nomatch hst
  | _ => exact ho.trans (congrArg some hst)

theorem takeCommand_handReady (c : Command) (h : HandReady s.te.hand s.ge.op) : HandReady (takeCommand c s).te.hand (takeCommand c s).ge.op := by
  cases c with
  | configure => simpa [takeCommand] using h
  | join => simpa [takeCommand] using h
  | revoke => simpa [takeCommand] using h
  | leave =>
    cases hs : s.stc.state with
    | listening =>
      rw [takeCommand, commandLeave_of_listening hs, leaveListening_eq, ← staleReports_eq]
      simpa [staleReports] using stale_handReady h
    | joined => rw [takeCommand, commandLeave_of_joined hs, leaveJoined_eq]; exact h
    | _ => simpa [takeCommand, commandLeave, hs] using h

theorem handReady_portKept : PortKept (fun t => HandReady t.te.hand t.ge.op) where
  moved {s t} hm h := by
    have hh : t.te.hand = s.te.hand := congrArg (·.te.hand) hm
    have ho : t.ge.op = s.ge.op := congrArg (·.ge.op) hm
    rw [hh, ho]
    exact h
  claim h := h
  buffer b j high v h := by simpa using h
  post h := by simpa using h
  completion h := by simpa using h
  event h := by simpa using h
  command c h := takeCommand_handReady c h

theorem reportSent_handReady (o : Offer) (h : HandReady s.te.hand s.ge.op) : HandReady (reportSent o s).te.hand (reportSent o s).ge.op := by
  cases o with
  | response => exact h
  | presence m =>
    show HandReady (presenceSent m s).te.hand (presenceSent m s).ge.op
    unfold presenceSent
    split
    · cases m with
      | plain => exact h
      | fresh => simpa using h
      | leaving =>
        show HandReady (endLeaving s).te.hand (endLeaving s).ge.op
        rw [endLeaving_eq, ← staleReports_eq]
        simpa [staleReports] using stale_handReady h
    · exact h
  | request e => simpa [reportSent] using h

end

/-- The commands of the Group Engine. -/
theorem exec_group_handReady {c : Instr} {s : State} (h : HandReady s.te.hand s.ge.op)
    (hc : c ∈ [Instr.gopen, .gwrite, .gwriteApply, .gclose, .groupCommit, .gabort, .groupRollback]) :
    Leads (fun t => HandReady t.te.hand t.ge.op) (exec c s) := by
  have hfinished : ∀ {r : Option Reply} {u : State}, (∀ g, u.ge.op ≠ some (.gwrite g)) → HandReady (reselect (finishHand r u)).te.hand (reselect (finishHand r u)).ge.op :=
    fun hop => by simpa using HandReady.of_none hop
  have hidle : ∀ {k h}, frameTaken k s = some h → ∀ g, s.ge.op ≠ some (.gwrite g) := fun ht => by
    obtain ⟨-, _, hn⟩ := frameTaken_eq_some ht
    rw [hn.op]
    nofun
  simp only [List.mem_cons, List.not_mem_nil, or_false] at hc
  rcases hc with rfl | rfl | rfl | rfl | rfl | rfl | rfl <;>
    simp only [exec, execGopen, execGwrite, execGwriteApply, execGclose, execGroupCommit, execGabort, execGroupRollback]
  · split
    · exact leads_next.mpr h
    · next ht => split <;> exact leads_nextWithSelection.mpr (hfinished (hidle ht))
  · split
    · exact leads_next.mpr h
    · next x ht =>
      split
      · exact leads_nextWithSelection.mpr (hfinished (hidle ht))
      · next g hd =>
        obtain ⟨hk, _, hn⟩ := frameTaken_eq_some ht
        refine leads_next.mpr ⟨h.wr, fun g' _ => ⟨x, hn.hand, hn.stage, (decideGwrite_ok hd).2, h.handed x hn.hand hn.stage hk⟩, h.handed⟩
  · split
    · split
      · split <;> exact leads_nextWithSelection.mpr (hfinished (by simp [setOp, updateGe, Ge.written]))
      · exact leads_next.mpr h
    · exact leads_next.mpr h
  · split
    · exact leads_next.mpr h
    · next ht =>
      split
      · exact leads_nextWithSelection.mpr (hfinished (hidle ht))
      · exact leads_next.mpr (h.of_op (by nofun))
  · split
    · split
      · split
        · exact leads_next.mpr h
        · exact leads_nextWithSelection.mpr (hfinished (by simp [setOp, updateGe, Ge.ended]))
      · exact leads_next.mpr h
    · exact leads_next.mpr h
  · split
    · exact leads_next.mpr h
    · next ht =>
      split
      · exact leads_nextWithSelection.mpr (hfinished (hidle ht))
      · exact leads_next.mpr (h.of_op (by nofun))
  · split
    · split
      · refine leads_nextWithSelection.mpr ?_
        simp only [reselect_frame]
        exact afterRollback_handReady _ _ _ (by simpa using h)
      · exact leads_next.mpr h
    · exact leads_next.mpr h

theorem exec_handReady (c : Instr) {s : State} (h : HandReady s.te.hand s.ge.op) : Leads (fun t => HandReady t.te.hand t.ge.op) (exec c s) := by
  have hre : ∀ {t : State}, HandReady t.te.hand t.ge.op → HandReady (reselect t).te.hand (reselect t).ge.op := fun ht => by simpa using ht
  have hfinished : ∀ {st : HandStage} {x : Hand}, s.te.hand = some x → x.stage = st → st ≠ .ge → HandReady none s.ge.op := fun hh hst hne =>
    .of_none (h.noGwrite (by rw [hh, Option.map_some, hst]; exact fun he => hne (Option.some.inj he)))
  cases hb : busOf c with
  | some b => exact handReady_portKept.exec_bus hre hb h
  | none =>
    cases c
    case pinReset addr rate => exact leads_next.mpr (.of_none nofun)
    case clearingDone => exact handReady_portKept.exec_clearingDone hre (fun _ => h) h
    case localWordRead => exact handReady_portKept.exec_localWordRead hre h h
    case localWordWrite =>
      refine handReady_portKept.exec_localWordWrite hre (fun la v => ?_) h
      unfold State.writeClaimed
      split <;> simpa using h
    case localCycleEnd => exact handReady_portKept.exec_localCycleEnd h
    case resetRelease | quietTimerExpiry | listenTimerExpiry | leavingPresenceDue =>
      simp only [exec, execResetRelease, execQuietTimerExpiry, execListenTimerExpiry, execLeavingPresenceDue]
      (repeat' split) <;> simpa using h
    case transmitSent =>
      simp only [exec, execTransmitSent]
      (repeat' split) <;> simp only [leads_next, leads_nextWithSelection, reselect_frame, frameSent_frame]
      · simpa using h
      · exact reportSent_handReady _ (by simpa using h)
      · exact h
    case startDelimiter | contentionWon | transmitFault | lineIdle | goodFrame | frameDiscarded | dominantBitInGap =>
      simp only [exec, execStartDelimiter, execContentionWon, execTransmitFault, execLineIdle, execGoodFrame, execFrameDiscarded, execDominantBitInGap]
      (repeat' split) <;> simp [h]
    case frameInHand | restartPurge | lastHeardExpiry =>
      simp only [exec, execFrameInHand, execRestartPurge, execLastHeardExpiry]
      (repeat' split) <;> simp [h]
    case rdRangeRead =>
      simp only [exec, execRdRangeRead]
      split
      · exact leads_next.mpr h
      · next hh =>
        split
        · next hg => exact leads_nextWithSelection.mpr (by simpa using hfinished hh hg.1 nofun)
        · exact leads_next.mpr h
    case wrApply =>
      simp only [exec, execWrApply]
      split
      · exact leads_next.mpr h
      · next hh =>
        split
        · next hg => split <;> exact leads_nextWithSelection.mpr (by simpa using hfinished hh hg.1 nofun)
        · exact leads_next.mpr h
    case rdsEvaluation =>
      simp only [exec, execRdsEvaluation]
      split
      · next hh =>
        split
        · next hg => split <;> exact leads_nextWithSelection.mpr (by simpa using hfinished hh hg.1 nofun)
        · exact leads_next.mpr h
      · exact leads_next.mpr h
    case slotCapture | sruTakeAnnouncement | sruTakeStartOfLeaving | discardTimerExpiry =>
      simp only [exec, execSlotCapture, execSruTakeAnnouncement, execSruTakeStartOfLeaving, execDiscardTimerExpiry]
      (repeat' split) <;> simpa using h
    case gopen | gwrite | gwriteApply | gclose | groupCommit | gabort | groupRollback => exact exec_group_handReady h (by simp)
    case idleTimerExpiry =>
      simp only [exec, execIdleTimerExpiry]
      (repeat' split) <;> simpa [updateGe] using h
    case geTakeExpiry | geTakePeerLost | geTakePeerRestarted | geTakeRevoke | geTakeStartOfLeaving =>
      have hbegun : s.ge.op = none → ∀ cause list fin, HandReady (beginRollbacks cause list fin (takeOther s)).te.hand (beginRollbacks cause list fin (takeOther s)).ge.op :=
        fun hop cause list fin => beginRollbacks_handReady cause list fin (by rw [show (takeOther s).ge.op = s.ge.op from rfl, hop]; nofun) h
      simp only [exec, execGeTakeExpiry, execGeTakePeerLost, execGeTakePeerRestarted, execGeTakeRevoke, execGeTakeStartOfLeaving]
      (repeat' split) <;> simp_all
    case reTakeAnnouncement | reTakeStartOfLeaving | responseWindowExpiry | backoffExpiry | deferralDeadlineExpiry =>
      simp only [exec, execReTakeAnnouncement, execReTakeStartOfLeaving, execResponseWindowExpiry, execBackoffExpiry, execDeferralDeadlineExpiry]
      (repeat' split) <;> simpa using h
    all_goals nomatch hb

/-! ### The segment, the hold map and the log (R1, R19, R20) -/

/-- The segment and the hold map are in canonical form, and the log is of addresses of the segment. -/
structure ImageCanonical (s : State) : Prop where
  words : Mem.wf 4096 s.sgm.words
  holds : Sparse.wf 4096 s.ge.holds
  log : ∀ e ∈ s.ge.undo, e.addr < 4096

theorem ImageCanonical.of_sameImage {s t : State} (h : ImageCanonical s) (hi : SameImage s t) : ImageCanonical t := by
  obtain ⟨hw, hh, hu⟩ := hi
  exact ⟨hw ▸ h.words, hh ▸ h.holds, hu ▸ h.log⟩

theorem ImageCanonical.of_words {s t : State} (h : ImageCanonical s) (hw : Mem.wf 4096 t.sgm.words) (hh : t.ge.holds = s.ge.holds) (hu : t.ge.undo = s.ge.undo) :
    ImageCanonical t :=
  ⟨hw, hh ▸ h.holds, hu ▸ h.log⟩

/-- A group that has ended leaves a part of the hold map and of the log. -/
theorem ImageCanonical.ended {s t : State} (h : ImageCanonical s) (g : Fin 4) (hw : Mem.wf 4096 t.sgm.words) (hg : GroupGone g s t) : ImageCanonical t where
  words := hw
  holds := hg.1 ▸ Sparse.wf_filter _ h.holds
  log e he := h.log e (List.mem_of_mem_filter (hg.2 ▸ he))

theorem wf_restoreLog {log : List UndoEntry} (hl : ∀ e ∈ log, e.addr < 4096) {m : Mem} (h : Mem.wf 4096 m) : Mem.wf 4096 (restoreLog log m) := by
  have hfold : ∀ (l : List UndoEntry) (m : Mem), (∀ e ∈ l, e.addr < 4096) → Mem.wf 4096 m → Mem.wf 4096 (l.foldl (fun m e => m.write e.addr e.old) m) := by
    intro l
    induction l with
    | nil => exact fun _ _ h => h
    | cons e l ih =>
      exact fun m hl h => ih _ (fun e' he' => hl e' (List.mem_cons_of_mem _ he')) (Mem.wf_write _ h (hl e List.mem_cons_self))
  exact hfold _ _ (fun e he => hl e (List.mem_reverse.mp he)) h

theorem wf_holdAll (g : Fin 4) {as : List Nat} (ha : ∀ a ∈ as, a < 4096) {m : Sparse (Fin 4)} (h : Sparse.wf 4096 m) : Sparse.wf 4096 (holdAll g m as) := by
  induction as generalizing m with
  | nil => exact h
  | cons a as ih => exact ih (fun b hb => ha b (List.mem_cons_of_mem _ hb)) (Sparse.wf_put g h (ha a List.mem_cons_self))

section
variable {s : State}

theorem writeClaimed_imageCanonical (la : BitVec 14) (v : Half) (h : ImageCanonical s) : ImageCanonical (s.writeClaimed la v) := by
  unfold State.writeClaimed
  split
  · exact h.of_sameImage (by simp [SameImage])
  · refine h.of_words ?_ (by simp) (by simp)
    simp only [reportStores_frame]
    exact Mem.wf_writeAll [_] h.words (by have := (wordOf la).isLt; simp only [List.length_singleton]; omega)

theorem imageCanonical_portKept : PortKept ImageCanonical where
  moved hm h := h.of_sameImage ⟨congrArg (·.sgm.words) hm, congrArg (·.ge.holds) hm, congrArg (·.ge.undo) hm⟩
  claim h := h.of_sameImage ⟨rfl, rfl, rfl⟩
  buffer b j high v h := h.of_sameImage (by simp [SameImage])
  post h := h.of_sameImage (by simp [SameImage])
  completion h := h.of_sameImage (by simp [SameImage])
  event h := h.of_sameImage (by simp [SameImage])
  command c h := h.of_sameImage (by simp [SameImage])

/-- A GWRITE that stores marks and logs words of its valid range alone. -/
theorem gwriteApplied_imageCanonical {g : Fin 4} {r : Request} (h : ImageCanonical s) (hr : r.writeReady) : ImageCanonical (s.gwriteApplied g r) := by
  obtain ⟨hrange, hlen⟩ := hr
  have hnew : ∀ a ∈ newlyHeld s.ge g r.addr r.count, a < 4096 := fun a ha => by
    have hin := ((mem_newlyHeld s g _ _ a).mp ha).1
    omega
  refine ⟨Mem.wf_writeAll r.data h.words (by omega), wf_holdAll g hnew h.holds, fun e he => ?_⟩
  rcases List.mem_append.mp he with he | he
  · exact h.log e he
  · obtain ⟨a, ha, rfl⟩ := List.mem_map.mp he
    exact hnew a ha

theorem exec_wrApply_imageCanonical (h : ImageCanonical s) (hr : HandReady s.te.hand s.ge.op) : Leads ImageCanonical (exec .wrApply s) := by
  simp only [exec, execWrApply]
  split
  · exact leads_next.mpr h
  · next x hx =>
    split
    · next hst =>
      obtain ⟨hrange, hlen⟩ := hr.wr x hx hst.1
      split
      · exact leads_nextWithSelection.mpr (h.of_sameImage (by simp [SameImage]))
      · refine leads_nextWithSelection.mpr (h.of_words ?_ (by simp) (by simp))
        simp only [reselect_frame, finishHand_frame, reportStores_frame]
        exact Mem.wf_writeAll x.req.data h.words (by omega)
    · exact leads_next.mpr h

theorem exec_gwriteApply_imageCanonical (h : ImageCanonical s) (hr : HandReady s.te.hand s.ge.op) : Leads ImageCanonical (exec .gwriteApply s) := by
  by_cases hop : ∃ g, s.ge.op = some (.gwrite g)
  · obtain ⟨g, hop⟩ := hop
    obtain ⟨x, hx, -, hready⟩ := hr.gwrite g hop
    by_cases hg : Granted .ge s
    · cases hd : decideApply s.ge g x.req.addr x.req.count with
      | some r =>
        rw [exec_gwriteApply_refused hop hx hg hd, leads_next]
        exact h.of_sameImage (by simp [SameImage, State.answered, State.claimEnded, setOp])
      | none =>
        rw [exec_gwriteApply_applied hop hx hg hd, leads_next]
        exact (gwriteApplied_imageCanonical (g := g) h hready).of_sameImage (by simp [SameImage, State.answered])
    · simp [exec, execGwriteApply, hop, hx, Bool.eq_false_iff.mpr (mt (granted_iff _ _).mp hg), h]
  · simp only [exec, execGwriteApply]
    split
    · next hop' _ => exact absurd ⟨_, hop'⟩ hop
    · exact leads_next.mpr h

theorem exec_groupCommit_imageCanonical (h : ImageCanonical s) : Leads ImageCanonical (exec .groupCommit s) := by
  simp only [exec, execGroupCommit]
  split
  · next g hop =>
    split
    · split
      · exact leads_next.mpr h
      · refine leads_nextWithSelection.mpr (h.ended g ?_ ⟨?_, ?_⟩)
        · simpa [updateGe, setOp] using h.words
        · simp only [reselect_frame, finishHand_frame, releaseNotice_frame, postEvent_frame]; rfl
        · simp only [reselect_frame, finishHand_frame, releaseNotice_frame, postEvent_frame]; rfl
    · exact leads_next.mpr h
  · exact leads_next.mpr h

theorem rollbackGroup_imageCanonical (cause : AbortCause) (g : Fin 4) (h : ImageCanonical s) : ImageCanonical (rollbackGroup cause g (takeClaim .ge s)) := by
  cases hx : s.ge.table.at g with
  | none =>
    have hx' : (takeClaim .ge s).ge.table.at g = none := hx
    simp only [rollbackGroup, hx']
    exact h.of_sameImage ⟨rfl, rfl, rfl⟩
  | some x =>
    rw [rollbackGroup_eq hx]
    exact h.ended g (wf_restoreLog (fun e he => h.log e (List.mem_of_mem_filter he)) h.words) groupRolledBack_gone

theorem exec_groupRollback_imageCanonical (h : ImageCanonical s) : Leads ImageCanonical (exec .groupRollback s) := by
  simp only [exec, execGroupRollback]
  split
  · split
    · exact leads_nextWithSelection.mpr ((rollbackGroup_imageCanonical _ _ h).of_sameImage (afterRollback_sameImage _ _ _ _))
    · exact leads_next.mpr h
  · exact leads_next.mpr h

theorem exec_imageCanonical (c : Instr) (h : ImageCanonical s) (hr : HandReady s.te.hand s.ge.op) : Leads ImageCanonical (exec c s) := by
  have hre : ∀ {t : State}, ImageCanonical t → ImageCanonical (reselect t) := fun ht => ht.of_sameImage (by simp [SameImage])
  cases hc : touchesImage c with
  | false => exact fun t ht => h.of_sameImage (exec_sameImage hc s t ht)
  | true =>
    cases c
    case pinReset addr rate => exact leads_next.mpr ⟨h.words, memoryCanonical_reset.holds, memoryCanonical_reset.log⟩
    case clearingDone => exact imageCanonical_portKept.exec_clearingDone hre (fun _ => h.of_words memoryCanonical_reset.words rfl rfl) h
    case localWordWrite => exact imageCanonical_portKept.exec_localWordWrite hre (fun la v => writeClaimed_imageCanonical la v h) h
    case wrApply => exact exec_wrApply_imageCanonical h hr
    case gwriteApply => exact exec_gwriteApply_imageCanonical h hr
    case groupCommit => exact exec_groupCommit_imageCanonical h
    case groupRollback => exact exec_groupRollback_imageCanonical h
    all_goals nomatch hc

end

/-! ### The memories together -/

theorem memoryCanonical_iff (s : State) : MemoryCanonical s ↔ ImageCanonical s ∧ HandReady s.te.hand s.ge.op ∧ BuffersCanonical s :=
  ⟨fun h => ⟨⟨h.words, h.holds, h.log⟩, ⟨h.wr, h.gwrite, h.handed⟩, h.buffers, h.entries⟩,
    fun ⟨hi, hr, hb⟩ => ⟨hi.words, hb.1, hi.holds, hi.log, hr.wr, hr.gwrite, hr.handed, hb.2⟩⟩

theorem exec_memoryCanonical (c : Instr) {s : State} (h : MemoryCanonical s) : Leads MemoryCanonical (exec c s) := by
  obtain ⟨hi, hr, hb⟩ := (memoryCanonical_iff s).mp h
  exact fun t ht => (memoryCanonical_iff t).mpr ⟨exec_imageCanonical c hi hr t ht, exec_handReady c hr t ht, buffersCanonical_law.exec hb c t ht⟩

/-- Settles O54. -/
theorem memoryCanonicalKept : Obligations.MemoryCanonicalKept :=
  fun _ _ hs h => step_keeps (fun _ hs => { hs with }) exec_memoryCanonical hs h

end Sys2Proof.Machine
end

section
/-! PROOFS. The laws of the outstanding table are kept (O58): the entries, the two orders of entries, the loans, and the full completion queue behind every wait. -/

namespace Sys2Proof.Machine

/-! ### The entries: one for each target, with the results and timers of their states (R96, R99) -/

/-- An entry has a result in COMPLETING alone, its window timer runs in AWAIT_RESPONSE alone, its backoff timer in BACKOFF alone. -/
structure Entry.Sound (x : Entry) : Prop where
  result : x.state = .completing ↔ x.result.isSome
  window : x.window.isRunning = true ↔ x.state = .awaitResponse
  backoff : x.backoff.isRunning = true ↔ x.state = .backoff

/-- The entries of a table are sound, and no two are for one target. -/
structure EntriesSound (tb : Table 8 (Option Entry)) : Prop where
  target : ∀ e f x y, tb.at e = some x → tb.at f = some y → x.desc.target = y.desc.target → e = f
  sound : ∀ e x, tb.at e = some x → x.Sound

section
variable {tb : Table 8 (Option Entry)} {e : Fin 8} {x y : Entry}

theorem EntriesSound.put_none (h : EntriesSound tb) (e : Fin 8) : EntriesSound (tb.put e none) := by
  have hold : ∀ f z, (tb.put e none).at f = some z → tb.at f = some z := fun f z hz => by
    rw [Table.at_put] at hz
    split at hz
    · exact nomatch hz
    · exact hz
  exact ⟨fun f g z w hz hw => h.target f g z w (hold f z hz) (hold g w hw), fun f z hz => h.sound f z (hold f z hz)⟩

theorem EntriesSound.put_new (h : EntriesSound tb) (hy : y.Sound) (hnew : ∀ f z, tb.at f = some z → z.desc.target = y.desc.target → f = e) :
    EntriesSound (tb.put e (some y)) := by
  refine ⟨fun f g z w hz hw hzw => ?_, fun f z hz => ?_⟩
  · rw [Table.at_put] at hz hw
    split at hz <;> split at hw
    · next hf hg => exact hf.trans hg.symm
    · next hf _ => cases hz; exact hf.trans (hnew g w hw hzw.symm).symm
    · next _ hg => cases hw; exact (hnew f z hz hzw).trans hg.symm
    · exact h.target f g z w hz hw hzw
  · rw [Table.at_put] at hz
    split at hz
    · cases hz; exact hy
    · exact h.sound f z hz

/-- An entry changes, its descriptor unchanged. -/
theorem EntriesSound.put_changed (h : EntriesSound tb) (hx : tb.at e = some x) (hd : y.desc = x.desc) (hy : y.Sound) : EntriesSound (tb.put e (some y)) :=
  h.put_new hy fun f z hz ht => h.target f e z x hz hx (by rw [ht, hd])

end

section
variable {x y : Entry}

theorem Entry.Noted.sound (h : x.Noted y) (hx : x.Sound) : y.Sound := by
  rw [h]
  exact ⟨hx.result, hx.window, hx.backoff⟩

theorem Entry.sound_completing (y : Entry) (r : Result) : Entry.Sound { y.stopTimers with state := .completing, result := some r } :=
  ⟨by simp, by simp [Entry.stopTimers, Timer.isRunning], by simp [Entry.stopTimers, Timer.isRunning]⟩

theorem Entry.Sound.result_of_live (h : x.Sound) (hl : x.state ≠ .completing) : x.result = none :=
  Option.not_isSome_iff_eq_none.mp fun hr => hl (h.result.mpr hr)

theorem Entry.sound_backOff (y : Entry) (us : Nat) (hr : y.result = none) : (y.backOff (.running us)).Sound :=
  ⟨by simp [Entry.backOff, hr], by simp [Entry.backOff, Timer.isRunning], by simp [Entry.backOff, Timer.isRunning]⟩

theorem Entry.Sound.readied (h : x.Sound) (hb : x.state = .backoff) : Entry.Sound { x with state := .readyToSend, backoff := .stopped } := by
  have hr := h.result_of_live (by rw [hb]; nofun)
  have hw : ¬ x.window.isRunning = true := fun hw => by rw [h.window.mp hw] at hb; exact nomatch hb
  exact ⟨by simp [hr], by simp [hw], by simp [Timer.isRunning]⟩

theorem Entry.Sound.sent (h : x.Sound) (hs : x.state = .readyToSend) (us : Nat) :
    Entry.Sound { x.attempted with state := .awaitResponse, window := .running us } := by
  have hr := h.result_of_live (by rw [hs]; nofun)
  have hb : ¬ x.backoff.isRunning = true := fun hb => by rw [h.backoff.mp hb] at hs; exact nomatch hs
  exact ⟨by simp [Entry.attempted, hr], by simp [Timer.isRunning], by simp [Entry.attempted, hb]⟩

theorem freshEntry_sound (d : Descriptor) (q : Byte) : (freshEntry d q).Sound :=
  ⟨by simp [freshEntry], by simp [freshEntry, Timer.isRunning], by simp [freshEntry, Timer.isRunning]⟩

end

/-! ### The orders of the entries (R99, R100) -/

/-- The list names each entry in the state once and nothing else. -/
def Ordered (l : List (Fin 8)) (st : EntryState) (tb : Table 8 (Option Entry)) : Prop :=
  l.Nodup ∧ ∀ e, e ∈ l ↔ (tb.at e).map (·.state) = some st

namespace Ordered

variable {l : List (Fin 8)} {st : EntryState} {tb : Table 8 (Option Entry)} {e : Fin 8} {y : Option Entry}

theorem map_state_put (tb : Table 8 (Option Entry)) (e f : Fin 8) (y : Option Entry) :
    ((tb.put e y).at f).map (·.state) = if f = e then y.map (·.state) else (tb.at f).map (·.state) := by
  rw [Table.at_put]
  split <;> rfl

/-- The entry is given a state other than that of the order. -/
theorem put_erase (h : Ordered l st tb) (hy : y.map (·.state) ≠ some st) : Ordered (l.erase e) st (tb.put e y) := by
  refine ⟨h.1.erase e, fun f => ?_⟩
  rw [h.1.mem_erase_iff, map_state_put, h.2]
  by_cases hf : f = e
  · simp [hf, hy]
  · simp [hf]

/-- The entry is neither before nor after in the state of the order. -/
theorem put_other (h : Ordered l st tb) (hx : (tb.at e).map (·.state) ≠ some st) (hy : y.map (·.state) ≠ some st) : Ordered l st (tb.put e y) := by
  have hput := h.put_erase (e := e) hy
  rwa [List.erase_of_not_mem (mt (h.2 e).mp hx)] at hput

/-- The entry keeps its state. -/
theorem put_same (h : Ordered l st tb) (hy : y.map (·.state) = (tb.at e).map (·.state)) : Ordered l st (tb.put e y) := by
  refine ⟨h.1, fun f => ?_⟩
  rw [map_state_put, h.2]
  split
  · next hf => rw [hy, hf]
  · rfl

/-- The entry enters the state of the order, as the last. -/
theorem put_append (h : Ordered l st tb) (hx : (tb.at e).map (·.state) ≠ some st) (hy : y.map (·.state) = some st) : Ordered (l ++ [e]) st (tb.put e y) := by
  have he : e ∉ l := mt (h.2 e).mp hx
  refine ⟨List.nodup_append.mpr ⟨h.1, List.nodup_singleton e, fun a ha b hb => ?_⟩, fun f => ?_⟩
  · rintro rfl
    exact he (List.mem_singleton.mp hb ▸ ha)
  · rw [List.mem_append, List.mem_singleton, map_state_put, h.2]
    by_cases hf : f = e
    · simp [hf, hy]
    · simp [hf]

end Ordered

/-! ### The loans (R94) -/

/-- The entries of a table that reference the buffer. -/
def entryLoans (tb : Table 8 (Option Entry)) (b : Fin 16) : Nat :=
  ([0, 1, 2, 3, 4, 5, 6, 7] : List (Fin 8)).countP (fun e => (tb.at e).bind (fun x => bufferOf x.desc) = some b)

/-- The queued descriptors that reference the buffer. -/
def queueLoans (q : List Queued) (b : Fin 16) : Nat := q.countP (fun x => bufferOf x.desc = some b)

/-- A buffer is referenced by at most one queued descriptor or entry. -/
def LoansSound (q : List Queued) (tb : Table 8 (Option Entry)) : Prop := ∀ b, queueLoans q b + entryLoans tb b ≤ 1

/-- What an entry adds to the loans of a buffer. -/
def loanOf (y : Option Entry) (b : Fin 16) : Nat := if y.bind (fun x => bufferOf x.desc) = some b then 1 else 0

/-- The loans of the table after the entry is replaced. -/
theorem entryLoans_put (tb : Table 8 (Option Entry)) (e : Fin 8) (y : Option Entry) (b : Fin 16) :
    entryLoans (tb.put e y) b + loanOf (tb.at e) b = entryLoans tb b + loanOf y b := by
  have hsplit : ∀ t : Table 8 (Option Entry), entryLoans t b =
      (all8.erase e).countP (fun f => (t.at f).bind (fun x => bufferOf x.desc) = some b) + loanOf (t.at e) b := fun t => by
    have hperm := (List.perm_cons_erase (mem_all8 e)).countP_eq (fun f => decide ((t.at f).bind (fun x => bufferOf x.desc) = some b))
    rw [List.countP_cons] at hperm
    simpa [entryLoans, loanOf, all8] using hperm
  have hrest : (all8.erase e).countP (fun f => ((tb.put e y).at f).bind (fun x => bufferOf x.desc) = some b) =
      (all8.erase e).countP (fun f => (tb.at f).bind (fun x => bufferOf x.desc) = some b) := by
    refine List.countP_congr fun f hf => ?_
    have hne : f ≠ e := ((show all8.Nodup by decide).mem_erase_iff.mp hf).1
    rw [Table.at_put_of_ne _ _ hne]
  rw [hsplit, hsplit, hrest, Table.at_put_self]
  omega

namespace LoansSound

variable {q : List Queued} {tb : Table 8 (Option Entry)} {e : Fin 8}

/-- An entry changes, the buffer it references unchanged. -/
theorem put_changed {x y : Entry} (h : LoansSound q tb) (hx : tb.at e = some x) (hd : y.desc = x.desc) : LoansSound q (tb.put e (some y)) := fun b => by
  have hput := entryLoans_put tb e (some y) b
  have hloan : loanOf (some y) b = loanOf (tb.at e) b := by simp only [loanOf, hx, Option.bind_some, hd]
  have hb := h b
  omega

theorem put_none (h : LoansSound q tb) (e : Fin 8) : LoansSound q (tb.put e none) := fun b => by
  have hput := entryLoans_put tb e none b
  have hloan : loanOf none b = 0 := rfl
  have hb := h b
  omega

theorem erase (h : LoansSound q tb) (d : Queued) : LoansSound (q.erase d) tb := fun b =>
  (Nat.add_le_add_right (List.erase_sublist.countP_le) _).trans (h b)

/-- A queued descriptor is admitted to a FREE entry. -/
theorem admitted {d : Queued} {y : Entry} (h : LoansSound q tb) (hq : d ∈ q) (he : tb.at e = none) (hd : y.desc = d.desc) :
    LoansSound (q.erase d) (tb.put e (some y)) := fun b => by
  have hput := entryLoans_put tb e (some y) b
  have hfree : loanOf (tb.at e) b = 0 := by rw [he]; rfl
  have hb := h b
  have hqueue : queueLoans q b = queueLoans (q.erase d) b + loanOf (some y) b := by
    have hperm := (List.perm_cons_erase hq).countP_eq (fun x => decide (bufferOf x.desc = some b))
    rw [List.countP_cons] at hperm
    simpa [queueLoans, loanOf, hd] using hperm
  omega

theorem cancelled (h : LoansSound q tb) : LoansSound (q.map (fun x => { x with cancelled := true })) tb := fun b => by
  have hmap : queueLoans (q.map (fun x => { x with cancelled := true })) b = queueLoans q b := by
    simp only [queueLoans, List.countP_map]
    rfl
  rw [hmap]
  exact h b

end LoansSound

/-- A descriptor whose buffer is not lent is queued (R94). -/
theorem loansSound_enqueue {s : State} {d : Descriptor} (h : LoansSound s.re.queue s.re.table) (hb : bufferBusy s d = false) :
    LoansSound (s.re.queue ++ [⟨d, false⟩]) s.re.table := fun b => by
  have hqueue : queueLoans (s.re.queue ++ [⟨d, false⟩]) b = queueLoans s.re.queue b + if bufferOf d = some b then 1 else 0 := by
    simp [queueLoans, List.countP_append, List.countP_cons]
  have hold := h b
  by_cases hd : bufferOf d = some b
  · have hnone : queueLoans s.re.queue b + entryLoans s.re.table b = 0 := count_of_not_lent (by simpa only [bufferBusy, hd] using hb)
    rw [hqueue, if_pos hd]
    omega
  · rw [hqueue, if_neg hd]
    exact hold

/-! ### The laws of the table but that of the full completion queue -/

/-- The laws of the outstanding table that speak of the RE and the slot. -/
structure TableSound (s : State) : Prop where
  entries : EntriesSound s.re.table
  ready : Ordered s.re.ready .readyToSend s.re.table
  completing : Ordered s.re.completing .completing s.re.table
  loans : LoansSound s.re.queue s.re.table
  slot : ∀ e, s.lc.slot.offer = some (.request e) → e ∈ s.re.ready

/-- Entry e is as before in the orders of states other than its own. -/
theorem state_ne {tb : Table 8 (Option Entry)} {e : Fin 8} {x : Entry} {st : EntryState} (hx : tb.at e = some x) (h : x.state ≠ st) :
    (tb.at e).map (·.state) ≠ some st := by
  rw [hx, Option.map_some]
  exact fun hn => h (Option.some.inj hn)

/-- A slot that does not offer entry e offers what is ready besides it. -/
theorem TableSound.slot_erase {s : State} {e : Fin 8} {sl : TxSlot} (h : TableSound s)
    (hsl : ∀ f, sl.offer = some (.request f) → s.lc.slot.offer = some (.request f) ∧ f ≠ e) : ∀ f, sl.offer = some (.request f) → f ∈ s.re.ready.erase e :=
  fun f hf => h.ready.1.mem_erase_iff.mpr ⟨(hsl f hf).2, h.slot f (hsl f hf).1⟩

theorem TableSound.slot_without {s : State} {e : Fin 8} (h : TableSound s) :
    ∀ f, (s.lc.slot.without (.request e)).offer = some (.request f) → f ∈ s.re.ready.erase e :=
  h.slot_erase fun _ hf => ⟨(TxSlot.offer_without hf).1, fun hfe => (TxSlot.offer_without hf).2 (by rw [hfe])⟩

theorem TableSound.slot_not_offered {s : State} {e : Fin 8} (h : TableSound s) (hn : s.lc.slot.offer ≠ some (.request e)) :
    ∀ f, s.lc.slot.offer = some (.request f) → f ∈ s.re.ready.erase e :=
  h.slot_erase fun _ hf => ⟨hf, fun hfe => hn (hfe ▸ hf)⟩

/-- The blocks but the RE and the slot are of no matter. -/
theorem TableSound.of_eq {s t : State} (h : TableSound s) (hre : t.re = s.re) (hs : t.lc.slot = s.lc.slot) : TableSound t :=
  ⟨hre ▸ h.entries, hre ▸ h.ready, hre ▸ h.completing, hre ▸ h.loans, hs ▸ hre ▸ h.slot⟩

theorem tableSound_steps : RequesterSteps true TableSound where
  same {s t} h hs := by
    have hre := hs.re
    have hslot : ∀ e, t.lc.slot.offer = some (.request e) → e ∈ s.re.ready := fun e he => (hs.slot e he).elim (h.slot e) id
    refine ⟨?_, ?_, ?_, ?_, ?_⟩ <;> rw [hre]
    · exact h.entries
    · exact h.ready
    · exact h.completing
    · exact h.loans
    · exact hslot
  offered _ h ho := (h.ready.2 _).mp (h.slot _ ho)
  noted {s e x y} h hx hy := by
    have hst : (some y : Option Entry).map (·.state) = (s.re.table.at e).map (·.state) := by rw [hx, hy]; rfl
    exact ⟨h.entries.put_changed hx (by rw [hy]) (hy.sound (h.entries.sound e x hx)), h.ready.put_same hst, h.completing.put_same hst,
      h.loans.put_changed hx (by rw [hy]), h.slot⟩
  finished h hx hl _ _ := ⟨h.entries.put_none _, h.ready.put_erase nofun, h.completing.put_other (state_ne hx (hl rfl)) nofun, h.loans.put_none _, h.slot_without⟩
  held {s e x y st dt n} h hx hl hd _ := ⟨h.entries.put_changed hx hd (Entry.sound_completing y _), h.ready.put_erase nofun,
    h.completing.put_append (state_ne hx (hl rfl)) rfl, h.loans.put_changed hx hd, h.slot_without⟩
  backedOff {s e x us y} h hx hl hd hr := by
    obtain ⟨hlive, hn⟩ := hl rfl
    have hsound : (y.backOff (.running us)).Sound := Entry.sound_backOff y us (hr.trans ((h.entries.sound e x hx).result_of_live hlive))
    have hentries : EntriesSound (s.re.table.put e (some (y.backOff (.running us)))) := h.entries.put_changed hx hd hsound
    have hcompleting : Ordered s.re.completing .completing (s.re.table.put e (some (y.backOff (.running us)))) := h.completing.put_other (state_ne hx hlive) nofun
    have hloans : LoansSound s.re.queue (s.re.table.put e (some (y.backOff (.running us)))) := h.loans.put_changed hx hd
    exact ⟨⟨hentries, h.ready.put_erase nofun, hcompleting, hloans, h.slot_not_offered hn⟩,
      fun ha => ⟨hentries, h.ready.put_other (state_ne hx (by rw [ha]; nofun)) nofun, hcompleting, hloans, h.slot⟩⟩
  readied {s e x} h hx hb := ⟨h.entries.put_changed hx rfl ((h.entries.sound e x hx).readied hb), h.ready.put_append (state_ne hx (by rw [hb]; nofun)) rfl,
    h.completing.put_other (state_ne hx (by rw [hb]; nofun)) nofun, h.loans.put_changed hx rfl, fun f hf => List.mem_append_left _ (h.slot f hf)⟩
  sent {s e x us} h hx hl := by
    obtain ⟨hready, hn⟩ := hl rfl
    exact ⟨h.entries.put_changed hx rfl ((h.entries.sound e x hx).sent hready us), h.ready.put_erase nofun,
      h.completing.put_other (state_ne hx (by rw [hready]; nofun)) nofun, h.loans.put_changed hx rfl, h.slot_not_offered hn⟩
  reported := nofun
  retired h _ := ⟨h.entries, h.ready, h.completing, h.loans.erase _, h.slot⟩
  admitted {s e q} h he hq _ := by
    have hfree : s.re.table.at e = none := Option.isNone_iff_eq_none.mp (List.find?_some (p := fun f => (s.re.table.at f).isNone) he)
    have hnew : (s.re.table.at e).map (·.state) ≠ some .readyToSend ∧ (s.re.table.at e).map (·.state) ≠ some .completing := by rw [hfree]; exact ⟨nofun, nofun⟩
    have htarget : ∀ f z, s.re.table.at f = some z → z.desc.target ≠ q.desc.target := fun f z hz ht => by
      have hq' := List.find?_some hq
      rw [(targetTaken_eq_true s q.desc.target).mpr ⟨f, z, hz, ht⟩] at hq'
      exact nomatch hq'
    unfold admitEntry
    split
    · exact h
    · exact ⟨h.entries.put_new (freshEntry_sound _ _) fun f z hz ht => absurd ht (htarget f z hz), h.ready.put_append hnew.1 rfl,
        h.completing.put_other hnew.2 nofun, h.loans.admitted (List.mem_of_find?_eq_some hq) hfree rfl, fun f hf => List.mem_append_left _ (h.slot f hf)⟩
  stalled h _ := ⟨h.entries, h.ready, h.completing, h.loans, h.slot⟩
  unstalled h _ := ⟨h.entries, h.ready, h.completing, h.loans, h.slot⟩
  posted {s e es} h he _ := by
    obtain ⟨x, hx, hst⟩ := Option.map_eq_some_iff.mp ((h.completing.2 e).mp (he ▸ List.mem_cons_self))
    have hcompleting : Ordered es .completing (s.re.table.put e none) := by
      have herase := h.completing.put_erase (e := e) (y := none) nofun
      rwa [he, List.erase_cons_head] at herase
    have hput : ∀ c, TableSound (putEntry e none (postCompletion c { s with re := { s.re with completing := es } })) := fun c =>
      ⟨h.entries.put_none _, h.ready.put_other (state_ne hx (by rw [hst]; nofun)) nofun, hcompleting, h.loans.put_none _, h.slot⟩
    obtain ⟨r, hr⟩ := Option.isSome_iff_exists.mp ((h.entries.sound e x hx).result.mp hst)
    simp only [postOldest, hx, hr]
    exact hput _
  queued {s d} h hd := by
    refine ⟨h.entries, h.ready, h.completing, loansSound_enqueue h.loans ?_, h.slot⟩
    unfold decidePost at hd
    by_contra hb
    rw [Bool.not_eq_false] at hb
    simp only [hb, if_true] at hd
    split at hd
    · exact nomatch hd
    · split at hd <;> exact nomatch hd
  cancelled h := ⟨h.entries, h.ready, h.completing, h.loans.cancelled, h.slot⟩
  data h _ _ := h.of_eq (by simp) (by simp)
  buffer b j high v h := h.of_eq (by simp) (by simp)

theorem tableSound_law : RequesterLaw true TableSound where
  toRequesterSteps := tableSound_steps
  gained h _ := tableSound_steps.completionSpaceGained (h.of_eq rfl rfl)
  reset {s} hre _ hslot := by
    have hfree : ∀ e, s.re.table.at e = none := fun e => by rw [hre]; exact Table.at_const _ _
    have hnone : ∀ {l st}, l = [] → Ordered l st s.re.table := fun hl => ⟨hl ▸ List.nodup_nil, fun e => by rw [hfree, hl]; simp⟩
    refine ⟨⟨fun e _ x _ hx => ?_, fun e x hx => ?_⟩, hnone (by rw [hre]; rfl), hnone (by rw [hre]; rfl), fun b => ?_, fun e he => ?_⟩
    · rw [hfree] at hx; exact nomatch hx
    · rw [hfree] at hx; exact nomatch hx
    · have hq : s.re.queue = [] := by rw [hre]; rfl
      simp [queueLoans, entryLoans, hfree, hq]
    · rw [hslot] at he; exact nomatch he

/-! ### What waits, waits for a full completion queue (R97, R99) -/

/-- A result waits, and admission stalls, only while the completion queue is full. -/
def WaitsWhileFull (s : State) : Prop := s.re.completing ≠ [] ∨ s.re.stalled = true → 16 ≤ s.lp.completions.length

theorem not_space_iff (s : State) : completionSpace s = false ↔ 16 ≤ s.lp.completions.length := by
  rw [Bool.eq_false_iff, ne_eq, completionSpace_iff, Nat.not_lt]

namespace WaitsWhileFull

variable {s t : State}

theorem of_full (h : completionSpace s = false) (hc : t.lp.completions = s.lp.completions) : WaitsWhileFull t :=
  fun _ => hc ▸ (not_space_iff s).mp h

/-- Nothing more waits, and no completion is taken. -/
theorem of_le (h : WaitsWhileFull s) (hc : t.re.completing = s.re.completing) (hs : t.re.stalled = s.re.stalled)
    (hl : s.lp.completions.length ≤ t.lp.completions.length) : WaitsWhileFull t := fun hw => (h (hc ▸ hs ▸ hw)).trans hl

/-- With space in the completion queue nothing waits. -/
theorem nothing_waits (h : WaitsWhileFull s) (hspace : completionSpace s = true) : s.re.completing = [] ∧ s.re.stalled = false := by
  have hno : ¬ (s.re.completing ≠ [] ∨ s.re.stalled = true) := fun hw => Nat.not_lt.mpr (h hw) ((completionSpace_iff s).mp hspace)
  rw [not_or, not_not, Bool.not_eq_true] at hno
  exact hno

end WaitsWhileFull

theorem waitsWhileFull_steps : RequesterSteps false WaitsWhileFull where
  same h hs := h.of_le (by rw [hs.re]) (by rw [hs.re]) (by rw [hs.completions])
  offered := nofun
  noted h _ _ := h
  finished h _ _ _ _ := h.of_le rfl rfl (by simp [entryDone, postCompletion])
  held _ _ _ _ hfull := .of_full hfull rfl
  backedOff h _ _ _ _ := ⟨h, fun _ => h⟩
  readied h _ _ := h
  sent h _ _ := h
  reported _ h := h
  retired h _ := h.of_le rfl rfl (by simp [retire, postCompletion])
  admitted h _ _ _ := h.of_le (by simp) (by simp) (by simp)
  stalled _ hfull := .of_full hfull rfl
  unstalled h hc := fun hw => hw.elim (absurd hc) nofun
  posted h he hspace := by rw [(h.nothing_waits hspace).1] at he; exact nomatch he
  queued h _ := h
  cancelled h := h
  data h _ _ := h.of_le (by simp) (by simp) (by simp)
  buffer b j high v h := h.of_le (by simp) (by simp) (by simp)

/-- As many posts as results wait leave none that waits, or no space (R109). -/
theorem postWaiting_done (n : Nat) : ∀ {s : State}, s.re.completing.length ≤ n →
    (postWaiting n s).re.completing = [] ∨ completionSpace (postWaiting n s) = false := by
  induction n with
  | zero => exact fun h => Or.inl (List.length_eq_zero_iff.mp (Nat.le_zero.mp h))
  | succ n ih =>
    intro s h
    cases he : s.re.completing with
    | nil => left; simp only [postWaiting, he]
    | cons e es =>
      by_cases hspace : completionSpace s = true
      · rw [postWaiting_cons he hspace]
        have hes : (postOldest e es s).re.completing = es := by unfold postOldest; split <;> (try split) <;> rfl
        rw [he, List.length_cons] at h
        exact ih (by rw [hes]; omega)
      · right
        simpa only [postWaiting, he, if_neg hspace] using Bool.eq_false_iff.mpr hspace

/-- A completion taken leads back to the law: no stall outlives the last result that waits (R97, R109). -/
theorem completionSpaceGained_waitsWhileFull (s : State) : WaitsWhileFull (completionSpaceGained s) := by
  have hkept : ∀ n u, (retireCancelled n u).re.completing = u.re.completing := fun n u => by simp
  unfold completionSpaceGained
  dsimp only
  split
  · next hc => exact waitsWhileFull_steps.admission fun hw => hw.elim (absurd hc) nofun
  · next hc =>
    rw [hkept] at hc
    rw [retireCancelled_blocked _ _ hc]
    exact waitsWhileFull_steps.admission (.of_full ((postWaiting_done _ le_rfl).resolve_left hc) rfl)

theorem waitsWhileFull_law : RequesterLaw false WaitsWhileFull where
  toRequesterSteps := waitsWhileFull_steps
  gained _ _ := completionSpaceGained_waitsWhileFull _
  reset hre _ _ := fun hw => by
    rw [hre] at hw
    exact hw.elim (absurd rfl) nofun

/-! ### The laws of the table together -/

theorem tableLaws_iff (s : State) : TableLaws s ↔ TableSound s ∧ WaitsWhileFull s := by
  constructor
  · intro h
    exact ⟨⟨⟨h.target, fun e x hx => ⟨h.result e x hx, (h.timers e x hx).1, (h.timers e x hx).2⟩⟩, h.ready, h.completing, h.loans,
      fun e he => (h.ready.2 e).mpr (h.slot e he)⟩, h.full⟩
  · rintro ⟨h, hfull⟩
    exact ⟨h.entries.target, h.ready, h.completing, fun e x hx => (h.entries.sound e x hx).result,
      fun e x hx => ⟨(h.entries.sound e x hx).window, (h.entries.sound e x hx).backoff⟩, hfull, h.loans, fun e he => (h.ready.2 e).mp (h.slot e he)⟩

theorem exec_tableLaws (c : Instr) {s : State} (h : TableLaws s) : Leads TableLaws (exec c s) := by
  obtain ⟨hsound, hfull⟩ := (tableLaws_iff s).mp h
  exact fun t ht => (tableLaws_iff t).mpr ⟨tableSound_law.exec hsound c t ht, waitsWhileFull_law.exec hfull c t ht⟩

/-- Settles O58. -/
theorem tableLawsKept : Obligations.TableLawsKept :=
  fun _ _ hs h => step_keeps (fun _ hs => { hs with }) exec_tableLaws hs h

end Sys2Proof.Machine
end

section
/-! PROOFS. The laws of the deferred slots are kept (O57): where slots in use come from, and what a READY slot shows of the segment. -/

namespace Sys2Proof.Machine

/-! ### Slots that stay, change or are freed -/

/-- Every slot in use of the later table stood there before, for the same requester and range, and READY with what it is READY with. -/
def SlotsWithin (sl sl' : Table 4 (Option Slot)) : Prop :=
  ∀ i y, sl'.at i = some y → ∃ x, sl.at i = some x ∧ y.requester = x.requester ∧ y.addr = x.addr ∧ y.count = x.count ∧
    ∀ ws, y.state = .ready ws → x.state = .ready ws

theorem SlotsWithin.refl (sl : Table 4 (Option Slot)) : SlotsWithin sl sl := fun _ y hy => ⟨y, hy, rfl, rfl, rfl, fun _ h => h⟩

theorem SlotsWithin.put_none (sl : Table 4 (Option Slot)) (i : Fin 4) : SlotsWithin sl (sl.put i none) := fun j y hy => by
  rw [Table.at_put] at hy
  split at hy
  · exact nomatch hy
  · exact SlotsWithin.refl sl j y hy

/-- What holds of the slots and of what may free them, the slots READY among them come from an earlier table. -/
structure SlotsFrom (sl₀ : Table 4 (Option Slot)) (hand : Option Hand) (st : StationState) (leaves : Bool) (sl : Table 4 (Option Slot)) : Prop where
  one : ∀ i j x y, sl.at i = some x → sl.at j = some y → x.requester = y.requester → i = j
  evaluating : ∀ h, hand = some h → h.stage = .sru → ∀ i x, sl.at i = some x → x.requester ≠ h.sender
  leaving : st = .leaving → leaves = false → ∀ i, sl.at i = none
  ready : ∀ i y ws, sl.at i = some y → y.state = .ready ws → ∃ x, sl₀.at i = some x ∧ x.state = .ready ws ∧ y.addr = x.addr ∧ y.count = x.count

theorem SlotLaws.from {s : State} (h : SlotLaws s) : SlotsFrom s.sru.slots s.te.hand s.stc.state s.sru.startOfLeaving s.sru.slots :=
  ⟨h.one, h.evaluating, h.leaving, fun _ y _ hy hr => ⟨y, hy, hr, rfl, rfl⟩⟩

namespace SlotsFrom

variable {sl₀ sl sl' : Table 4 (Option Slot)} {hand hand' : Option Hand} {st st' : StationState} {leaves : Bool}

theorem within (h : SlotsFrom sl₀ hand st leaves sl) (hw : SlotsWithin sl sl') : SlotsFrom sl₀ hand st leaves sl' where
  one i j x y hx hy hr := by
    obtain ⟨x', hx', hxr, -⟩ := hw i x hx
    obtain ⟨y', hy', hyr, -⟩ := hw j y hy
    exact h.one i j x' y' hx' hy' (by rw [← hxr, ← hyr, hr])
  evaluating k hk hs i x hx := by
    obtain ⟨x', hx', hxr, -⟩ := hw i x hx
    exact hxr ▸ h.evaluating k hk hs i x' hx'
  leaving hst hl i := by
    cases hy : sl'.at i with
    | none => rfl
    | some y =>
      obtain ⟨x, hx, -⟩ := hw i y hy
      exact absurd ((h.leaving hst hl i).symm.trans hx) nofun
  ready i y ws hy hr := by
    obtain ⟨x, hx, -, ha, hn, hready⟩ := hw i y hy
    obtain ⟨z, hz, hzr, hza, hzn⟩ := h.ready i x ws hx (hready ws hr)
    exact ⟨z, hz, hzr, ha.trans hza, hn.trans hzn⟩

/-- No frame in hand waits for the SRU. -/
theorem no_rds (h : SlotsFrom sl₀ hand st leaves sl) (hh : ∀ k, hand' = some k → k.stage ≠ .sru) : SlotsFrom sl₀ hand' st leaves sl :=
  { h with evaluating := fun k hk hs => absurd hs (hh k hk) }

theorem no_hand (h : SlotsFrom sl₀ hand st leaves sl) : SlotsFrom sl₀ none st leaves sl := h.no_rds nofun

/-- The station is in a state other than LEAVING. -/
theorem enter (h : SlotsFrom sl₀ hand st leaves sl) (hst : st' ≠ .leaving) : SlotsFrom sl₀ hand st' leaves sl :=
  { h with leaving := fun hl => absurd hl hst }

/-- The start of LEAVING waits for the SRU. -/
theorem leave (h : SlotsFrom sl₀ hand st leaves sl) : SlotsFrom sl₀ hand st' true sl :=
  { h with leaving := nofun }

/-- No slot is in use. -/
theorem of_none (h : ∀ i, sl.at i = none) : SlotsFrom sl₀ hand st leaves sl where
  one i _ _ _ hx := absurd ((h i).symm.trans hx) nofun
  evaluating _ _ _ i _ hx := absurd ((h i).symm.trans hx) nofun
  leaving _ _ := h
  ready i _ _ hy := absurd ((h i).symm.trans hy) nofun

end SlotsFrom

/-! ### The operations of the SRU -/

section
variable {s : State} {sl₀ sl : Table 4 (Option Slot)} {hand : Option Hand} {st : StationState} {leaves : Bool}

theorem freeSlot_slots (i : Fin 4) (s : State) : (freeSlot i s).sru.slots = s.sru.slots.put i none := by
  unfold freeSlot
  rw [(setSruWork_frame _ _).2.2.2.2.1]

@[simp] theorem freeSlot_slotsFrom (i : Fin 4) (h : SlotsFrom sl₀ hand st leaves s.sru.slots) : SlotsFrom sl₀ hand st leaves (freeSlot i s).sru.slots :=
  h.within (freeSlot_slots i s ▸ SlotsWithin.put_none _ i)

@[simp] theorem freeSlotOf_slotsFrom (p : Station) (h : SlotsFrom sl₀ hand st leaves s.sru.slots) : SlotsFrom sl₀ hand st leaves (freeSlotOf p s).sru.slots := by
  unfold freeSlotOf
  split <;> simp [h]

theorem reportStores_within (addrs : List Nat) (s : State) : SlotsWithin s.sru.slots (reportStores addrs s).sru.slots := fun i y hy => by
  obtain ⟨-, hfree, -⟩ := reportStores_taken addrs s
  cases hx : s.sru.slots.at i with
  | none => rw [hfree i hx] at hy; exact nomatch hy
  | some x =>
    have hxy : x = y := by
      obtain ⟨p, q, a, n, state, t⟩ := x
      simp only [reportStores, Table.at_each, hx] at hy
      unfold slotAfterStore at hy
      split at hy
      · next heq =>
        split at hy
        · exact nomatch hy
        · cases hy; cases heq; rfl
      · cases hy; rfl
    exact ⟨x, rfl, by simp [hxy]⟩

@[simp] theorem reportStores_slotsFrom (addrs : List Nat) (h : SlotsFrom sl₀ hand st leaves s.sru.slots) :
    SlotsFrom sl₀ hand st leaves (reportStores addrs s).sru.slots := h.within (reportStores_within addrs s)

theorem releaseNotice_within (s : State) : SlotsWithin s.sru.slots (releaseNotice s).sru.slots := fun i y hy => by
  have hslots : (releaseNotice s).sru.slots = s.sru.slots.each (fun sl => if capturable s sl then sl.map markPending else sl) := by
    unfold releaseNotice
    rw [(setSruWork_frame _ _).2.2.2.2.1]
  rw [hslots, Table.at_each] at hy
  split at hy
  · obtain ⟨x, hx, rfl⟩ := Option.map_eq_some_iff.mp hy
    exact ⟨x, hx, rfl, rfl, rfl, nofun⟩
  · exact SlotsWithin.refl _ i y hy

@[simp] theorem releaseNotice_slotsFrom (h : SlotsFrom sl₀ hand st leaves s.sru.slots) : SlotsFrom sl₀ hand st leaves (releaseNotice s).sru.slots :=
  h.within (releaseNotice_within s)

@[simp] theorem sruTakeAnnouncement_slotsFrom (h : SlotsFrom sl₀ hand st leaves s.sru.slots) : SlotsFrom sl₀ hand st leaves (sruTakeAnnouncement s).sru.slots := by
  unfold sruTakeAnnouncement
  split <;> simp [h]

/-- After the SRU has taken the start of LEAVING no slot is in use (R59). -/
@[simp] theorem sruTakeStartOfLeaving_slotsFrom (h : SlotsFrom sl₀ hand st s.sru.startOfLeaving s.sru.slots) :
    SlotsFrom sl₀ hand st (sruTakeStartOfLeaving s).sru.startOfLeaving (sruTakeStartOfLeaving s).sru.slots := by
  cases hst : s.sru.startOfLeaving with
  | true =>
    obtain ⟨sl, cs, hnone, -, -, htaken⟩ := sruTakeStartOfLeaving_spec (s := s) hst
    rw [htaken]
    exact .of_none hnone
  | false =>
    rw [sruTakeStartOfLeaving_of_not hst]
    exact h

@[simp] theorem slotsBeforeNotice_slotsFrom (cause : AbortCause) (h : SlotsFrom sl₀ hand st s.sru.startOfLeaving s.sru.slots) :
    SlotsFrom sl₀ hand st (slotsBeforeNotice cause s).sru.startOfLeaving (slotsBeforeNotice cause s).sru.slots := by
  unfold slotsBeforeNotice
  split <;> simp [h]

@[simp] theorem frameTakenReport_slotsFrom (f : Frame) (k : Header) (h : SlotsFrom sl₀ hand st leaves s.sru.slots) :
    SlotsFrom sl₀ hand st leaves (frameTakenReport f k s).sru.slots := by
  unfold frameTakenReport
  (repeat' split) <;> simp [h]

/-! ### The check sequence -/

/-- A re-issue ends with the answer from its slot (R46). -/
theorem answerFromSlot_slotsFrom {i : Fin 4} {k : Hand} (hh : s.te.hand = some k) (hi : s.sru.slots.at i ≠ none) (h : SlotsFrom sl₀ none st leaves s.sru.slots) :
    SlotsFrom sl₀ (answerFromSlot i s).te.hand st leaves (answerFromSlot i s).sru.slots := by
  obtain ⟨x, hx⟩ := Option.ne_none_iff_exists'.mp hi
  cases hst : x.state with
  | waiting b =>
    rw [answerFromSlot_waiting hh hx hst]
    refine h.within fun j y hy => ?_
    simp only [State.answered, Table.at_put] at hy
    split at hy
    · next hj => cases hy; exact ⟨x, hj ▸ hx, rfl, rfl, rfl, fun ws hr => hr⟩
    · exact SlotsWithin.refl _ j y hy
  | ready ws =>
    rw [answerFromSlot_ready hh hx hst]
    exact freeSlot_slotsFrom i h

/-- A requester with one slot has none after it has been freed. -/
theorem freeSlotOf_none (p : Station) (hone : ∀ i j x y, s.sru.slots.at i = some x → s.sru.slots.at j = some y → x.requester = y.requester → i = j)
    (i : Fin 4) (x : Slot) (hx : (freeSlotOf p s).sru.slots.at i = some x) : x.requester ≠ p := fun hp => by
  unfold freeSlotOf at hx
  split at hx
  · next j hj =>
    obtain ⟨y, hy, hyp⟩ := slotOf_holds hj
    rw [freeSlot_slots, Table.at_put] at hx
    split at hx
    · exact nomatch hx
    · next hne => exact hne (hone i j x y hx hy (hp.trans hyp.symm))
  · next hnone => rw [slotOf_eq_some hx hp fun j y hy hyp => hone j i y x hy hx (hyp.trans hp.symm)] at hnone; exact nomatch hnone

theorem takeRds_slotsFrom (p : Station) (r : Request) (h : SlotsFrom sl₀ none st leaves s.sru.slots) :
    SlotsFrom sl₀ (takeRds p r (takeInHand p r .sru s)).te.hand st leaves (takeRds p r (takeInHand p r .sru s)).sru.slots := by
  unfold takeRds
  split
  · next i hi =>
    refine answerFromSlot_slotsFrom (s := takeInHand p r .sru s) rfl (fun hn => ?_) h
    split at hi
    · have hm := List.find?_some hi
      rw [hn] at hm
      exact nomatch hm
    · exact nomatch hi
  · have hfreed : SlotsFrom sl₀ none st leaves (freeSlotOf p (takeInHand p r .sru s)).sru.slots := freeSlotOf_slotsFrom (s := takeInHand p r .sru s) p h
    unfold evaluateAsNew
    dsimp only
    rw [(setSruWork_frame _ _).2.2.2.2.1, (setSruWork_frame _ _).2.2.2.2.2.2.2.1, (freeSlotOf_frame _ _).2.2.2.2.2.2.1]
    refine { hfreed with evaluating := fun k hk _ i x hx => ?_ }
    cases hk
    exact freeSlotOf_none (s := takeInHand p r .sru s) p h.one i x hx

theorem dispatchRequest_slotsFrom (p : Station) (r : Request) (hh : s.te.hand = none) (h : SlotsFrom sl₀ none st leaves s.sru.slots) :
    SlotsFrom sl₀ (dispatchRequest p r s).te.hand st leaves (dispatchRequest p r s).sru.slots := by
  have hanswered : ∀ q k c, SlotsFrom sl₀ (answer p q k c s).te.hand st leaves (answer p q k c s).sru.slots := fun q k c => by simpa [hh] using h
  have htaken : ∀ stage, stage ≠ .sru → SlotsFrom sl₀ (some ⟨p, r, stage⟩) st leaves s.sru.slots := fun stage hs => h.no_rds fun k hk => by cases hk; exact hs
  unfold dispatchRequest afterTests
  split
  · split
    · exact hanswered _ _ _
    · exact htaken .rdClaim nofun
  · split
    · exact hanswered _ _ _
    · exact htaken .wrClaim nofun
  · split
    · exact hanswered _ _ _
    · exact takeRds_slotsFrom p r h
  · simpa [takeInHand] using htaken .ge nofun

@[simp] theorem takeNextFrame_slotsFrom (h : SlotsFrom sl₀ s.te.hand st leaves s.sru.slots) :
    SlotsFrom sl₀ (takeNextFrame s).te.hand st leaves (takeNextFrame s).sru.slots := by
  unfold takeNextFrame
  split
  · next f hh hf =>
    unfold checkSequence
    split
    · exact h
    split
    · exact h
    · next k _ =>
      have hreported : SlotsFrom sl₀ none st leaves (frameTakenReport f k { s with te := { s.te with input := none } }).sru.slots :=
        frameTakenReport_slotsFrom (s := { s with te := { s.te with input := none } }) f k h.no_hand
      have hhand : (frameTakenReport f k { s with te := { s.te with input := none } }).te.hand = none := by simpa using hh
      unfold replayOrEvaluate evaluate
      split
      · split
        · rw [hhand]; exact hreported
        · simpa [hh] using hreported
      split
      · simpa [hh] using hreported
      split
      · simpa [hh] using hreported
      · exact dispatchRequest_slotsFrom f.sender _ hhand hreported
  · exact h

@[simp] theorem passToTarget_slotsFrom (f : Frame) (h : SlotsFrom sl₀ s.te.hand st leaves s.sru.slots) :
    SlotsFrom sl₀ (passToTarget f s).te.hand st leaves (passToTarget f s).sru.slots := by
  have hentered : ∀ u : State, SlotsFrom sl₀ u.te.hand st leaves u.sru.slots →
      SlotsFrom sl₀ (if u.te.input.isSome then u else enterInput f u).te.hand st leaves (if u.te.input.isSome then u else enterInput f u).sru.slots := fun u hu => by
    split
    · exact hu
    · unfold enterInput takeRestartOf
      dsimp only
      split <;> simp [hu]
  unfold passToTarget passRequest
  dsimp only
  split
  · split
    · exact hentered _ (by split <;> simp [h])
    · exact h
  · exact h

/-! ### Announcements, operations of the GE, and the station states -/

@[simp] theorem announce_slotsFrom (a : Announcement) (h : SlotsFrom sl₀ hand st leaves s.sru.slots) : SlotsFrom sl₀ hand st leaves (announce a s).sru.slots := by
  have hgiven : ∀ w, SlotsFrom sl₀ hand st leaves (sruTakeAnnouncement (giveGe w s)).sru.slots := fun w => by simp [h]
  unfold announce
  cases a <;> simp [hgiven]

@[simp] theorem hear_slotsFrom (f : Frame) (h : SlotsFrom sl₀ hand st leaves s.sru.slots) : SlotsFrom sl₀ hand st leaves (hear f s).sru.slots := by
  unfold hear hearLeaving hearFresh
  dsimp only
  (repeat' split) <;> simp [h]

@[simp] theorem endOperation_slotsFrom (fin : OpEnd) (h : SlotsFrom sl₀ s.te.hand st leaves s.sru.slots) :
    SlotsFrom sl₀ (endOperation fin s).te.hand st leaves (endOperation fin s).sru.slots := by
  have hdone : SlotsFrom sl₀ none st leaves s.sru.slots := h.no_hand
  unfold endOperation endOfLoss hearFresh
  dsimp only
  (repeat' split) <;> simp [h, hdone]

@[simp] theorem beginRollbacks_slotsFrom (cause : AbortCause) (list : List (Fin 4)) (fin : OpEnd) (h : SlotsFrom sl₀ s.te.hand st leaves s.sru.slots) :
    SlotsFrom sl₀ (beginRollbacks cause list fin s).te.hand st leaves (beginRollbacks cause list fin s).sru.slots := by
  unfold beginRollbacks
  split <;> simp [h]

@[simp] theorem afterRollback_slotsFrom (cause : AbortCause) (rest : List (Fin 4)) (fin : OpEnd) (h : SlotsFrom sl₀ s.te.hand st leaves s.sru.slots) :
    SlotsFrom sl₀ (afterRollback cause rest fin s).te.hand st leaves (afterRollback cause rest fin s).sru.slots := by
  unfold afterRollback
  split <;> simp [h]

@[simp] theorem takeAllWaiting_slotsFrom (h : SlotsFrom sl₀ hand st s.sru.startOfLeaving s.sru.slots) :
    SlotsFrom sl₀ hand st (takeAllWaiting s).sru.startOfLeaving (takeAllWaiting s).sru.slots := by
  unfold takeAllWaiting
  simp [h]

@[simp] theorem reportSent_slotsFrom (o : Offer) (h : SlotsFrom sl₀ s.te.hand s.stc.state s.sru.startOfLeaving s.sru.slots) :
    SlotsFrom sl₀ (reportSent o s).te.hand (reportSent o s).stc.state (reportSent o s).sru.startOfLeaving (reportSent o s).sru.slots := by
  have hjoined : SlotsFrom sl₀ s.te.hand .joined s.sru.startOfLeaving s.sru.slots := h.enter nofun
  have hsetup : SlotsFrom sl₀ s.te.hand .setup s.sru.startOfLeaving s.sru.slots := h.enter nofun
  cases o with
  | presence m =>
    show SlotsFrom sl₀ (presenceSent m s).te.hand (presenceSent m s).stc.state (presenceSent m s).sru.startOfLeaving (presenceSent m s).sru.slots
    unfold presenceSent
    split
    · cases m with
      | plain => exact h
      | fresh =>
        dsimp only [freshSent]
        split
        · simpa [updateStc, enterState_eq] using hjoined
        · exact h
      | leaving =>
        dsimp only
        rw [endLeaving_eq]
        simpa using takeAllWaiting_slotsFrom hsetup
    · exact h
  | _ => simpa [reportSent] using h

@[simp] theorem takeGoodFrame_slotsFrom (f : Frame) (h : SlotsFrom sl₀ s.te.hand st leaves s.sru.slots) :
    SlotsFrom sl₀ (takeGoodFrame f s).te.hand st leaves (takeGoodFrame f s).sru.slots := by
  unfold takeGoodFrame takeResponseFrame
  dsimp only
  (repeat' split) <;> simp [h]

theorem takeCommand_slotsFrom (c : Command) (h : SlotsFrom sl₀ s.te.hand s.stc.state s.sru.startOfLeaving s.sru.slots) :
    SlotsFrom sl₀ (takeCommand c s).te.hand (takeCommand c s).stc.state (takeCommand c s).sru.startOfLeaving (takeCommand c s).sru.slots := by
  have hsetup : SlotsFrom sl₀ s.te.hand .setup s.sru.startOfLeaving s.sru.slots := h.enter nofun
  have hlistening : SlotsFrom sl₀ s.te.hand .listening s.sru.startOfLeaving s.sru.slots := h.enter nofun
  cases c with
  | configure => simpa [takeCommand] using h
  | revoke => simpa [takeCommand] using h
  | join =>
    show SlotsFrom sl₀ (commandJoin s).te.hand (commandJoin s).stc.state (commandJoin s).sru.startOfLeaving (commandJoin s).sru.slots
    unfold commandJoin
    split
    · simpa [joinInSetup, updateStc, enterState_eq] using hlistening
    · exact h
    · exact h
  | leave =>
    cases hs : s.stc.state with
    | listening =>
      rw [takeCommand, commandLeave_of_listening hs, leaveListening_eq]
      simpa using takeAllWaiting_slotsFrom (s := setCommand .leave .accepted s) hsetup
    | joined =>
      rw [takeCommand, commandLeave_of_joined hs, leaveJoined_eq]
      exact h.leave
    | _ => simpa [takeCommand, commandLeave, hs] using h

end

/-! ### What a READY slot shows of the segment (R54) -/

/-- No word of a READY slot's range is held, and its data is the range as it stands. -/
def SlotsShow (holds : Sparse (Fin 4)) (words : Mem) (sl : Table 4 (Option Slot)) : Prop :=
  ∀ i x ws, sl.at i = some x → x.state = .ready ws →
    (∀ a, x.addr ≤ a → a < x.addr + x.count → Sparse.get holds a = none) ∧ ws = (List.range' x.addr x.count).map (fun a => words.read a)

theorem slotLaws_iff (s : State) : SlotLaws s ↔
    SlotsFrom s.sru.slots s.te.hand s.stc.state s.sru.startOfLeaving s.sru.slots ∧ SlotsShow s.ge.holds s.sgm.words s.sru.slots := by
  constructor
  · refine fun h => ⟨h.from, fun i x ws hx hr => ?_⟩
    obtain ⟨hfree, hws⟩ := h.ready i x ws hx hr
    exact ⟨(rangeHeld_eq_false _ _ _).mp hfree, hws⟩
  · rintro ⟨h, hshow⟩
    refine ⟨h.one, h.evaluating, fun i x ws hx hr => ?_, h.leaving⟩
    obtain ⟨hfree, hws⟩ := hshow i x ws hx hr
    exact ⟨(rangeHeld_eq_false _ _ _).mpr hfree, hws⟩

/-- The READY slots come from slots that showed another image of the segment, which is the same where they show it. -/
theorem SlotsShow.from {holds holds' : Sparse (Fin 4)} {words words' : Mem} {sl₀ sl : Table 4 (Option Slot)} {hand : Option Hand} {st : StationState} {leaves : Bool}
    (h : SlotsShow holds words sl₀) (hf : SlotsFrom sl₀ hand st leaves sl)
    (hsame : ∀ i x ws, sl.at i = some x → x.state = .ready ws → ∀ a, x.addr ≤ a → a < x.addr + x.count →
      (Sparse.get holds a = none → Sparse.get holds' a = none) ∧ words'.read a = words.read a) : SlotsShow holds' words' sl := by
  intro i x ws hx hr
  obtain ⟨y, hy, hyr, ha, hn⟩ := hf.ready i x ws hx hr
  obtain ⟨hfree, hws⟩ := h i y ws hy hyr
  rw [← ha, ← hn] at hfree hws
  refine ⟨fun a h1 h2 => (hsame i x ws hx hr a h1 h2).1 (hfree a h1 h2), hws.trans (List.map_congr_left fun a hm => ?_)⟩
  obtain ⟨h1, h2⟩ := (mem_rangeOf x.addr x.count a).mp hm
  exact ((hsame i x ws hx hr a h1 h2).2).symm

/-- A report of stored addresses leaves no READY slot with one of them in its range. -/
theorem not_stored_of_ready {addrs : List Nat} {s : State} {i : Fin 4} {x : Slot} {ws : List Word} (hx : (reportStores addrs s).sru.slots.at i = some x)
    (hr : x.state = .ready ws) {a : Nat} (h1 : x.addr ≤ a) (h2 : a < x.addr + x.count) : a ∉ addrs := fun ha => by
  obtain ⟨y, hy, -, hya, hyn, hyr⟩ := reportStores_within addrs s i x hx
  have hhit : readyHit addrs y := ⟨⟨ws, hyr ws hr⟩, a, ha, hya ▸ h1, by rw [← hya, ← hyn]; exact h2⟩
  rw [((reportStores_taken addrs s).1 i y hy).1 hhit] at hx
  exact nomatch hx

section
variable {s t : State}

/-- The slots are as the laws have it after a change of the segment's image that has been reported. -/
theorem SlotLaws.of_stored {addrs : List Nat} {u : State} (h : SlotLaws s) (hu : u.sru.slots = s.sru.slots)
    (hf : SlotsFrom (reportStores addrs u).sru.slots t.te.hand t.stc.state t.sru.startOfLeaving t.sru.slots)
    (hsame : ∀ a, a ∉ addrs → (Sparse.get s.ge.holds a = none → Sparse.get t.ge.holds a = none) ∧ t.sgm.words.read a = s.sgm.words.read a) : SlotLaws t := by
  have hreported : SlotsFrom s.sru.slots s.te.hand s.stc.state s.sru.startOfLeaving (reportStores addrs u).sru.slots :=
    reportStores_slotsFrom addrs (hu ▸ h.from)
  have hshow := ((slotLaws_iff s).mp h).2.from (holds' := t.ge.holds) (words' := t.sgm.words) hreported
    fun i x ws hx hr a h1 h2 => hsame a (not_stored_of_ready hx hr h1 h2)
  exact (slotLaws_iff t).mpr ⟨{ hf with ready := fun i y ws hy hr => ⟨y, hy, hr, rfl, rfl⟩ }, hshow.from hf fun _ _ _ _ _ _ _ _ => ⟨id, rfl⟩⟩

/-- The slots are as the laws have it after a change that leaves the words and holds no more of them. -/
theorem SlotLaws.of_from (h : SlotLaws s) (hf : SlotsFrom s.sru.slots t.te.hand t.stc.state t.sru.startOfLeaving t.sru.slots)
    (hholds : ∀ a, Sparse.get s.ge.holds a = none → Sparse.get t.ge.holds a = none) (hwords : t.sgm.words = s.sgm.words) : SlotLaws t :=
  (slotLaws_iff t).mpr ⟨{ hf with ready := fun i y ws hy hr => ⟨y, hy, hr, rfl, rfl⟩ },
    ((slotLaws_iff s).mp h).2.from hf fun _ _ _ _ _ a _ _ => ⟨hholds a, hwords ▸ rfl⟩⟩

theorem SlotLaws.of_sameImage (h : SlotLaws s) (hf : SlotsFrom s.sru.slots t.te.hand t.stc.state t.sru.startOfLeaving t.sru.slots)
    (hi : SameImage s t) : SlotLaws t := h.of_from hf (fun a ha => hi.2.1 ▸ ha) hi.1

end

end Sys2Proof.Machine
end

section
/-! PROOFS. Every command keeps the laws of the deferred slots (O57). -/

namespace Sys2Proof.Machine

section
variable {s : State}

/-- The slots as the start of what follows. -/
theorem SlotsFrom.here {sl₀ sl : Table 4 (Option Slot)} {hand : Option Hand} {st : StationState} {leaves : Bool} (h : SlotsFrom sl₀ hand st leaves sl) :
    SlotsFrom sl hand st leaves sl :=
  { h with ready := fun _ y _ hy hr => ⟨y, hy, hr, rfl, rfl⟩ }

theorem writeClaimed_slotLaws (la : BitVec 14) (v : Half) (h : SlotLaws s) : SlotLaws (s.writeClaimed la v) := by
  unfold State.writeClaimed
  split
  · exact h.of_sameImage (by simpa using h.from) (by simp [SameImage])
  · refine h.of_stored rfl (reportStores_slotsFrom (s := storeWords _ _ (takeClaim .lp s)) _ h.from).here fun a ha => ⟨id, ?_⟩
    simp only [reportStores_frame, storeWords, takeClaim]
    rw [Mem.read_writeAll_getD, if_neg fun hin => ha (List.mem_singleton.mpr ?_)]
    simp only [List.length_singleton] at hin
    omega

theorem slotLaws_portKept : PortKept SlotLaws where
  moved {s t} hm h := by
    have hte : t.te = s.te := congrArg (·.te) hm
    have hsru : t.sru = s.sru := congrArg (·.sru) hm
    have hst : t.stc.state = s.stc.state := congrArg (·.stc.state) hm
    exact h.of_sameImage (by rw [hte, hsru, hst]; exact h.from) ⟨congrArg (·.sgm.words) hm, congrArg (·.ge.holds) hm, congrArg (·.ge.undo) hm⟩
  claim h := h.of_sameImage h.from ⟨rfl, rfl, rfl⟩
  buffer b j high v h := h.of_sameImage (by simpa using h.from) (by simp [SameImage])
  post h := h.of_sameImage (by simpa using h.from) (by simp [SameImage])
  completion h := h.of_sameImage (by simpa using h.from) (by simp [SameImage])
  event h := h.of_sameImage (by simpa using h.from) (by simp [SameImage])
  command c h := h.of_sameImage (takeCommand_slotsFrom c h.from) (by simp [SameImage])

theorem reselect_slotLaws {t : State} (h : SlotLaws t) : SlotLaws (reselect t) := h.of_sameImage (by simpa using h.from) (by simp [SameImage])

theorem SlotLaws.of_none {t : State} (h : ∀ i, t.sru.slots.at i = none) : SlotLaws t :=
  (slotLaws_iff t).mpr ⟨.of_none h, fun i _ _ hx => absurd ((h i).symm.trans hx) nofun⟩

/-! ### The storing claims and the ends of groups -/

theorem exec_wrApply_slotLaws (h : SlotLaws s) (hr : HandReady s.te.hand s.ge.op) : Leads SlotLaws (exec .wrApply s) := by
  simp only [exec, execWrApply]
  split
  · exact leads_next.mpr h
  · next x hx =>
    split
    · next hst =>
      obtain ⟨-, hlen⟩ := hr.wr x hx hst.1
      split
      · exact leads_nextWithSelection.mpr (reselect_slotLaws (h.of_sameImage (by simpa using h.from.no_hand) (by simp [SameImage])))
      · have hreported := (reportStores_slotsFrom (s := storeWords x.req.addr x.req.data (takeClaim .te s)) (rangeOf x.req.addr x.req.count) h.from).here
        refine leads_nextWithSelection.mpr (reselect_slotLaws (h.of_stored (u := storeWords x.req.addr x.req.data (takeClaim .te s))
          (addrs := rangeOf x.req.addr x.req.count) rfl (by simpa using hreported.no_hand) fun a ha => ⟨fun hn => by simpa using hn, ?_⟩))
        simp only [finishHand_frame, reportStores_frame, storeWords, takeClaim]
        rw [Mem.read_writeAll_getD, hlen, if_neg fun hin => ha ((mem_rangeOf _ _ _).mpr hin)]
    · exact leads_next.mpr h

theorem exec_gwriteApply_slotLaws (h : SlotLaws s) (hr : HandReady s.te.hand s.ge.op) : Leads SlotLaws (exec .gwriteApply s) := by
  by_cases hop : ∃ g, s.ge.op = some (.gwrite g)
  · obtain ⟨g, hop⟩ := hop
    obtain ⟨x, hx, -, -, hlen⟩ := hr.gwrite g hop
    by_cases hg : Granted .ge s
    · have hdone : SlotsFrom s.sru.slots none s.stc.state s.sru.startOfLeaving s.sru.slots := h.from.no_hand
      cases hd : decideApply s.ge g x.req.addr x.req.count with
      | some r =>
        rw [exec_gwriteApply_refused hop hx hg hd, leads_next]
        exact reselect_slotLaws (h.of_sameImage hdone ⟨rfl, rfl, rfl⟩)
      | none =>
        rw [exec_gwriteApply_applied hop hx hg hd, leads_next]
        have hwritten := (reportStores_slotsFrom
          (s := storeWords x.req.addr x.req.data (updateGe (Ge.written g x.req.addr x.req.count s.sgm.words (idleLifetime s)) s.claimEnded))
          (rangeOf x.req.addr x.req.count) hdone).here
        refine reselect_slotLaws (h.of_stored rfl hwritten fun a ha => ?_)
        have hout : ¬ (x.req.addr ≤ a ∧ a < x.req.addr + x.req.count) := mt (mem_rangeOf _ _ _).mpr ha
        have hheld := gwriteApplied_heldBy g x.req s a
        have hword := gwriteApplied_words g x.req s a
        rw [if_neg hout] at hheld
        rw [hlen, if_neg hout] at hword
        exact ⟨fun hn => hheld.trans hn, hword⟩
    · simp [exec, execGwriteApply, hop, hx, Bool.eq_false_iff.mpr (mt (granted_iff _ _).mp hg), h]
  · simp only [exec, execGwriteApply]
    split
    · next hop' _ => exact absurd ⟨_, hop'⟩ hop
    · exact leads_next.mpr h

theorem GroupGone.free {t : State} {g : Fin 4} (h : GroupGone g s t) (hm : MemoryCanonical s) (a : Nat) (ha : Sparse.get s.ge.holds a = none) :
    Sparse.get t.ge.holds a = none := by
  have hheld := h.heldBy_eq hm a
  rw [show heldBy s a = none from ha] at hheld
  exact hheld

theorem exec_groupCommit_slotLaws (h : SlotLaws s) (hm : MemoryCanonical s) : Leads SlotLaws (exec .groupCommit s) := by
  simp only [exec, execGroupCommit]
  split
  · next g _ =>
    split
    · split
      · exact leads_next.mpr h
      · next x _ =>
        refine leads_nextWithSelection.mpr (reselect_slotLaws (h.of_from ?_ (GroupGone.free (g := g) ⟨?_, ?_⟩ hm) ?_))
        · have hfrom : SlotsFrom s.sru.slots s.te.hand s.stc.state s.sru.startOfLeaving (postEvent (.groupCommitted x.owner x.tag x.held)
            (updateGe (Ge.ended g) (setOp none (takeClaim .ge s)))).sru.slots := by simpa [updateGe, setOp] using h.from
          simpa [updateGe, setOp] using releaseNotice_slotsFrom hfrom.no_hand
        · simp only [finishHand_frame, releaseNotice_frame, postEvent_frame]; rfl
        · simp only [finishHand_frame, releaseNotice_frame, postEvent_frame]; rfl
        · simp [updateGe, setOp]
    · exact leads_next.mpr h
  · exact leads_next.mpr h

/-- What follows a rollback leaves the words and the holds, and the READY slots with it. -/
theorem afterRollback_slotLaws (cause : AbortCause) (rest : List (Fin 4)) (fin : OpEnd) {u : State} (h : SlotLaws u) :
    SlotLaws (afterRollback cause rest fin (slotsBeforeNotice cause u)) := by
  have hnotice : SlotsFrom u.sru.slots (slotsBeforeNotice cause u).te.hand (slotsBeforeNotice cause u).stc.state
      (slotsBeforeNotice cause u).sru.startOfLeaving (slotsBeforeNotice cause u).sru.slots := by simpa using slotsBeforeNotice_slotsFrom cause h.from
  exact h.of_sameImage (by simpa using afterRollback_slotsFrom cause rest fin hnotice) (by simp [SameImage])

theorem groupRolledBack_slotLaws (cause : AbortCause) (g : Fin 4) (x : Group) (h : SlotLaws s) (hm : MemoryCanonical s) :
    SlotLaws (s.groupRolledBack cause g x) := by
  refine h.of_stored (addrs := (logOf s.ge.undo g).map (·.addr)) rfl (reportStores_slotsFrom _ h.from).here fun a ha => ⟨groupRolledBack_gone.free hm a, ?_⟩
  exact restoreLog_of_not_mem _ _ a fun e he hea => ha (List.mem_map.mpr ⟨e, he, hea⟩)

theorem exec_groupRollback_slotLaws (h : SlotLaws s) (hm : MemoryCanonical s) : Leads SlotLaws (exec .groupRollback s) := by
  simp only [exec, execGroupRollback]
  split
  · next cause g rest fin hop =>
    split
    · refine leads_nextWithSelection.mpr (reselect_slotLaws (afterRollback_slotLaws _ _ _ ?_))
      cases hx : s.ge.table.at g with
      | none =>
        have hx' : (takeClaim .ge s).ge.table.at g = none := hx
        simp only [rollbackGroup, hx']
        exact h.of_sameImage h.from ⟨rfl, rfl, rfl⟩
      | some x => rw [rollbackGroup_eq hx]; exact groupRolledBack_slotLaws _ _ _ h hm
    · exact leads_next.mpr h
  · exact leads_next.mpr h

/-! ### The claims of the SRU -/

theorem sruWorkDone_captured_slots (i : Fin 4) :
    (sruWorkDone (updateSlot i (captured s) s)).sru.slots = s.sru.slots.put i ((s.sru.slots.at i).map (captured s)) := by
  unfold sruWorkDone
  rw [(setSruWork_frame _ _).2.2.2.2.1]
  rfl

/-- A slot in use after the capture of slot i stands as before, or as the capture has made it. -/
theorem captured_at {i j : Fin 4} {y : Slot} (hy : (s.sru.slots.put i ((s.sru.slots.at i).map (captured s))).at j = some y) :
    ∃ x, s.sru.slots.at j = some x ∧ (y = x ∨ y = captured s x) := by
  rw [Table.at_put] at hy
  split at hy
  · next hj =>
    obtain ⟨x, hx, rfl⟩ := Option.map_eq_some_iff.mp hy
    exact ⟨x, hj ▸ hx, Or.inr rfl⟩
  · exact ⟨y, hy, Or.inl rfl⟩

theorem captured_requester {i j : Fin 4} {y : Slot} (hy : (s.sru.slots.put i ((s.sru.slots.at i).map (captured s))).at j = some y) :
    ∃ x, s.sru.slots.at j = some x ∧ y.requester = x.requester := by
  obtain ⟨x, hx, rfl | rfl⟩ := captured_at hy
  · exact ⟨y, hx, rfl⟩
  · exact ⟨x, hx, by unfold captured; split <;> rfl⟩

/-- A captured slot is READY with its range as it stands, which is then free (R52). -/
theorem exec_slotCapture_slotLaws (h : SlotLaws s) : Leads SlotLaws (exec .slotCapture s) := by
  simp only [exec, execSlotCapture]
  split
  · next i rest hw =>
    split
    · refine leads_next.mpr ?_
      have hslots := sruWorkDone_captured_slots (s := s) i
      refine ⟨fun j k x y hx hy hxy => ?_, fun k hk hs j x hx => ?_, fun j x ws hx hr => ?_, fun hst hl j => ?_⟩
      · rw [hslots] at hx hy
        obtain ⟨x', hx', hxr⟩ := captured_requester hx
        obtain ⟨y', hy', hyr⟩ := captured_requester hy
        exact h.one j k x' y' hx' hy' (by rw [← hxr, ← hyr, hxy])
      · rw [hslots] at hx
        obtain ⟨x', hx', hxr⟩ := captured_requester hx
        exact hxr ▸ h.evaluating k (by simpa [sruWorkDone] using hk) hs j x' hx'
      · rw [hslots] at hx
        obtain ⟨y, hy, hxy⟩ := captured_at hx
        have hsame : rangeHeld (sruWorkDone (updateSlot i (captured s) s)) x.addr x.count = rangeHeld s x.addr x.count := by
          simp [rangeHeld, heldBy, sruWorkDone]
        have hwords : (sruWorkDone (updateSlot i (captured s) s)).sgm.words = s.sgm.words := by simp [sruWorkDone, takeClaim]
        rw [hsame, hwords]
        rcases hxy with rfl | rfl
        · exact h.ready j x ws hy hr
        · unfold captured at hr ⊢
          split at hr
          · exact nomatch hr
          · next hfree =>
            rw [if_neg hfree]
            cases hr
            exact ⟨Bool.eq_false_iff.mpr hfree, rfl⟩
      · rw [hslots]
        have hnone := h.leaving (by simpa [sruWorkDone] using hst) (by simpa [sruWorkDone] using hl)
        rw [Table.at_put, hnone i]
        split
        · rfl
        · exact hnone j
    · exact leads_next.mpr h
  · exact leads_next.mpr h

/-- A slot is allocated outside LEAVING alone, in a FREE entry (R48). -/
theorem decideRds_some {k : Hand} {r : Option Reply} {i : Fin 4} (hd : decideRds s k = (r, some i)) : s.stc.state ≠ .leaving ∧ s.sru.slots.at i = none := by
  unfold decideRds at hd
  dsimp only at hd
  split at hd
  · exact nomatch hd
  split at hd
  · exact nomatch hd
  split at hd
  · exact nomatch hd
  split at hd
  · exact nomatch hd
  · next hst _ _ =>
    split at hd
    · next j hj =>
      cases hd
      exact ⟨hst, Option.isNone_iff_eq_none.mp (List.find?_some (p := fun i => (s.sru.slots.at i).isNone) hj)⟩
    · exact nomatch hd

theorem exec_rdsEvaluation_slotLaws (h : SlotLaws s) : Leads SlotLaws (exec .rdsEvaluation s) := by
  simp only [exec, execRdsEvaluation]
  split
  · next b rest k hw hk =>
    split
    · next hst =>
      split
      · next r i hd =>
        obtain ⟨hstate, hfree⟩ := decideRds_some hd
        have hslots : (allocateSlot i k (sruWorkDone s)).sru.slots =
            s.sru.slots.put i (some ⟨k.sender, k.req.seq, k.req.addr, k.req.count, .waiting false, discardTime (sruWorkDone s)⟩) := by
          simp [allocateSlot, sruWorkDone]
        have hallocated : SlotsFrom s.sru.slots none s.stc.state s.sru.startOfLeaving (allocateSlot i k (sruWorkDone s)).sru.slots := by
          rw [hslots]
          have hother : ∀ j x, s.sru.slots.at j = some x → x.requester ≠ k.sender := h.evaluating k hk hst.1
          refine ⟨fun a b x y hx hy hxy => ?_, nofun, fun hl => absurd hl hstate, fun a y ws hy hr => ?_⟩
          · rw [Table.at_put] at hx hy
            split at hx <;> split at hy
            · next ha hb => exact ha.trans hb.symm
            · cases hx; exact absurd hxy.symm (hother b y hy)
            · cases hy; exact absurd hxy (hother a x hx)
            · exact h.one a b x y hx hy hxy
          · rw [Table.at_put] at hy
            split at hy
            · cases hy; exact nomatch hr
            · exact ⟨y, hy, hr, rfl, rfl⟩
        refine leads_nextWithSelection.mpr (reselect_slotLaws (h.of_sameImage ?_ (by simp [SameImage, sruWorkDone, allocateSlot])))
        simpa [sruWorkDone] using hallocated
      · exact leads_nextWithSelection.mpr (reselect_slotLaws (h.of_sameImage (by simpa [sruWorkDone] using h.from.no_hand) (by simp [SameImage, sruWorkDone])))
    · exact leads_next.mpr h
  · exact leads_next.mpr h

/-! ### Every command -/

/-- The commands that leave the segment's image and are no bus cycle, apart from the claims of the SRU. -/
theorem exec_slotsFrom {c : Instr} (hb : busOf c = none) (hi : touchesImage c = false) (hc : c ∉ [Instr.slotCapture, .rdsEvaluation, .localWordRead, .localCycleEnd])
    (h : SlotLaws s) : Leads (fun t => SlotsFrom s.sru.slots t.te.hand t.stc.state t.sru.startOfLeaving t.sru.slots) (exec c s) := by
  have hs := h.from
  have hdone : SlotsFrom s.sru.slots none s.stc.state s.sru.startOfLeaving s.sru.slots := hs.no_hand
  cases c
  case resetRelease | quietTimerExpiry | listenTimerExpiry | leavingPresenceDue =>
    simp only [exec, execResetRelease, execQuietTimerExpiry, execListenTimerExpiry, execLeavingPresenceDue]
    (repeat' split) <;> simp [hs, updateStc]
  case startDelimiter | contentionWon | transmitSent | transmitFault | lineIdle | goodFrame | frameDiscarded | dominantBitInGap =>
    simp only [exec, execStartDelimiter, execContentionWon, execTransmitSent, execTransmitFault, execLineIdle, execGoodFrame, execFrameDiscarded,
      execDominantBitInGap]
    (repeat' split) <;> simp [hs]
  case frameInHand | rdRangeRead | restartPurge | lastHeardExpiry =>
    simp only [exec, execFrameInHand, execRdRangeRead, execRestartPurge, execLastHeardExpiry]
    (repeat' split) <;> simp [hs, hdone]
  case sruTakeAnnouncement | sruTakeStartOfLeaving | discardTimerExpiry =>
    simp only [exec, execSruTakeAnnouncement, execSruTakeStartOfLeaving, execDiscardTimerExpiry]
    (repeat' split) <;> simp [hs]
  case gopen | gwrite | gclose | gabort =>
    simp only [exec, execGopen, execGwrite, execGclose, execGabort]
    (repeat' split) <;> simp [hs, hdone, updateGe, takeWork, setOp]
  case idleTimerExpiry | geTakeExpiry | geTakePeerLost | geTakePeerRestarted | geTakeRevoke | geTakeStartOfLeaving =>
    simp only [exec, execIdleTimerExpiry, execGeTakeExpiry, execGeTakePeerLost, execGeTakePeerRestarted, execGeTakeRevoke, execGeTakeStartOfLeaving]
    (repeat' split) <;> simp [hs, updateGe, takeOther]
  case reTakeAnnouncement | reTakeStartOfLeaving | responseWindowExpiry | backoffExpiry | deferralDeadlineExpiry =>
    simp only [exec, execReTakeAnnouncement, execReTakeStartOfLeaving, execResponseWindowExpiry, execBackoffExpiry, execDeferralDeadlineExpiry]
    (repeat' split) <;> simp [hs]
  case pinReset | clearingDone | localWordWrite | wrApply | gwriteApply | groupCommit | groupRollback => exact nomatch hi
  case slotCapture | rdsEvaluation | localWordRead | localCycleEnd => exact absurd hc (by simp)
  all_goals exact nomatch hb

theorem exec_slotLaws (c : Instr) (h : SlotLaws s) (hc : s.sgm.clearing = true → ∀ i, s.sru.slots.at i = none) (hm : MemoryCanonical s) : Leads SlotLaws (exec c s) := by
  have hre : ∀ {t : State}, SlotLaws t → SlotLaws (reselect t) := reselect_slotLaws
  obtain ⟨-, hr, -⟩ := (memoryCanonical_iff s).mp hm
  cases hb : busOf c with
  | some b => exact slotLaws_portKept.exec_bus hre hb h
  | none =>
    by_cases hclaim : c ∈ [Instr.slotCapture, .rdsEvaluation, .localWordRead, .localCycleEnd]
    · simp only [List.mem_cons, List.not_mem_nil, or_false] at hclaim
      rcases hclaim with rfl | rfl | rfl | rfl
      · exact exec_slotCapture_slotLaws h
      · exact exec_rdsEvaluation_slotLaws h
      · exact slotLaws_portKept.exec_localWordRead hre (h.of_sameImage h.from ⟨rfl, rfl, rfl⟩) h
      · exact slotLaws_portKept.exec_localCycleEnd h
    cases hi : touchesImage c with
    | false => exact fun t ht => h.of_sameImage (exec_slotsFrom hb hi hclaim h t ht) (exec_sameImage hi s t ht)
    | true =>
      cases c
      case pinReset addr rate => exact leads_next.mpr (SlotLaws.of_none reset_slot)
      case clearingDone =>
        exact slotLaws_portKept.exec_clearingDone hre (fun hcl => SlotLaws.of_none (hc hcl)) h
      case localWordWrite => exact slotLaws_portKept.exec_localWordWrite hre (fun la v => writeClaimed_slotLaws la v h) h
      case wrApply => exact exec_wrApply_slotLaws h hr
      case gwriteApply => exact exec_gwriteApply_slotLaws h hr
      case groupCommit => exact exec_groupCommit_slotLaws h hm
      case groupRollback => exact exec_groupRollback_slotLaws h hm
      all_goals exact nomatch hi

end

/-- In CLEARING the SRU is as pin reset left it: no slot is in use. -/
theorem ClearingLaws.no_slot {s : State} (h : ClearingLaws s) (hcl : s.sgm.clearing = true) (i : Fin 4) : s.sru.slots.at i = none := by
  obtain ⟨-, hsru, -⟩ := h.blocks (h.clearing.mp hcl).1
  rw [hsru]
  exact reset_slot i

/-- Settles O57. -/
theorem slotLawsKept : Obligations.SlotLawsKept := fun s t hs hc hm h => by
  unfold step at h
  split at h
  · cases h
    exact hs
  · next c rest _ => exact exec_slotLaws (s := { s with pending := rest }) c { hs with } hc.no_slot { hm with } t h

end Sys2Proof.Machine
end

section
/-! PROOFS. The waiting work and its claims (O60): what the frame in hand, the SRU, the GE and the TE have to do with each other, block by block. -/

namespace Sys2Proof.Machine

/-! ### The parts of the law -/

/-- The SRU has one claim waiting exactly while it has work: the RDS in hand, once, and the captures of the slots with capture pending. -/
structure SruMatched (claims : Nat) (work : List SruWork) (slots : Table 4 (Option Slot)) (stage : Option HandStage) : Prop where
  claim : claims = if work = [] then 0 else 1
  evaluate : work.countP (·.isEvaluate) = if stage = some .sru then 1 else 0
  capture : ∀ i, SruWork.capture i ∈ work ↔ (slots.at i).map (·.state) = some (.waiting true)
  once : work.Nodup

/-- The frames that the operation in progress answers. -/
def GeOp.frames : Option GeOp → Nat
  | some (.gwrite _) => 1
  | some (.commit _) => 1
  | some (.rollback _ _ .reply) => 1
  | _ => 0

/-- The GE has one claim waiting exactly while an operation is in progress, and the frame in hand exactly when the TE waits for it. -/
structure GeMatched (claims : Nat) (op : Option GeOp) (frames : Nat) (stage : Option HandStage) : Prop where
  claim : claims = if op.isSome then 1 else 0
  frame : frames + GeOp.frames op = if stage = some .ge then 1 else 0

/-- The TE has one claim waiting exactly while the frame in hand is an RD or a WR. -/
def TeMatched (claims : Nat) (stage : Option HandStage) : Prop := claims = if stage = some .rdClaim ∨ stage = some .wrClaim then 1 else 0

/-- The local port has one claim waiting exactly while its cycle waits for one. -/
def LpMatched (claims : Nat) (work : Option CycleWork) : Prop := claims = if work = some .claim then 1 else 0

/-- The frame in hand, the SRU, the GE and the TE match. -/
structure WorkMatched (s : State) : Prop where
  sru : SruMatched (s.sgm.claims.count .sru) s.sru.work s.sru.slots (s.te.hand.map (·.stage))
  ge : GeMatched (s.sgm.claims.count .ge) s.ge.op (s.ge.work.count .frame) (s.te.hand.map (·.stage))
  te : TeMatched (s.sgm.claims.count .te) (s.te.hand.map (·.stage))

theorem matches_iff (s : State) : HandMatches s ∧ ClaimsMatch s ↔ WorkMatched s ∧ LpMatched (s.sgm.claims.count .lp) (s.lp.cycle.map (·.work)) := by
  constructor
  · rintro ⟨hh, hc⟩
    have hge : s.ge.work.count .frame + GeOp.frames s.ge.op = if s.te.hand.map (·.stage) = some .ge then 1 else 0 := by
      have hframe := hh.ge
      revert hframe
      cases s.ge.op with
      | none => exact id
      | some op => cases op with
        | rollback c l fin => cases fin <;> exact id
        | _ => exact id
    exact ⟨⟨⟨hc.sru, hh.sru, hh.capture, hh.once⟩, ⟨hc.ge, hge⟩, hc.te⟩, hc.lp⟩
  · rintro ⟨⟨hsru, hge, hte⟩, hlp⟩
    refine ⟨⟨?_, hsru.evaluate, hsru.capture, hsru.once⟩, hge.claim, hsru.claim, hte, hlp⟩
    have hframe := hge.frame
    revert hframe
    cases s.ge.op with
    | none => exact id
    | some op => cases op with
      | rollback c l fin => cases fin <;> exact id
      | _ => exact id

/-! ### A frame in hand that another block has -/

section
variable {c : Nat} {work : List SruWork} {slots : Table 4 (Option Slot)} {op : Option GeOp} {n : Nat} {st st' : Option HandStage}

theorem SruMatched.stage (h : SruMatched c work slots st) (hs : st ≠ some .sru) (hs' : st' ≠ some .sru) : SruMatched c work slots st' :=
  { h with evaluate := by rw [h.evaluate, if_neg hs, if_neg hs'] }

theorem GeMatched.stage (h : GeMatched c op n st) (hs : st ≠ some .ge) (hs' : st' ≠ some .ge) : GeMatched c op n st' :=
  { h with frame := by rw [h.frame, if_neg hs, if_neg hs'] }

theorem TeMatched.stage (h : TeMatched c st) (hs : st = some .sru ∨ st = some .ge ∨ st = none) (hs' : st' = some .sru ∨ st' = some .ge ∨ st' = none) : TeMatched c st' := by
  rcases hs with rfl | rfl | rfl <;> rcases hs' with rfl | rfl | rfl <;> exact h

end

/-! ### The SRU's work and its claim (R45, R53) -/

section
variable {s : State} {slots : Table 4 (Option Slot)} {st : Option HandStage} {c : Claimant}

/-- The claim at the arbiter is that of the new first work. -/
theorem setSruWork_claim (w : List SruWork) (h : s.sgm.claims.count .sru = if s.sru.work = [] then 0 else 1) :
    (setSruWork w s).sgm.claims.count .sru = if w = [] then 0 else 1 := by
  obtain ⟨cs, hcs, heq⟩ := setSruWork_spec w s
  rw [heq]
  by_cases hhead : s.sru.work.head? = w.head?
  · rw [hcs.1 hhead, h]
    have hnil : s.sru.work = [] ↔ w = [] := by rw [← List.head?_eq_none_iff, hhead, List.head?_eq_none_iff]
    simp only [hnil]
  · rw [hcs.2 hhead, List.count_append, List.count_erase_self, h]
    split <;> split <;> simp

@[simp] theorem setSruWork_count (w : List SruWork) (s : State) (hc : c ≠ .sru) : (setSruWork w s).sgm.claims.count c = s.sgm.claims.count c := by
  obtain ⟨cs, hcs, heq⟩ := setSruWork_spec w s
  rw [heq]
  by_cases hhead : s.sru.work.head? = w.head?
  · rw [hcs.1 hhead]
  · rw [hcs.2 hhead, List.count_append, List.count_erase_of_ne hc]
    split
    · rfl
    · rw [List.count_eq_zero_of_not_mem (l := [Claimant.sru]) (by simpa using hc)]; rfl

@[simp] theorem setSruWork_work (w : List SruWork) (s : State) : (setSruWork w s).sru.work = w := by
  obtain ⟨cs, -, heq⟩ := setSruWork_spec w s
  rw [heq]

@[simp] theorem freeSlot_sruMatched (i : Fin 4) (h : SruMatched (s.sgm.claims.count .sru) s.sru.work s.sru.slots st) :
    SruMatched ((freeSlot i s).sgm.claims.count .sru) (freeSlot i s).sru.work (freeSlot i s).sru.slots st := by
  have hwork : (freeSlot i s).sru.work = s.sru.work.filter (fun w => w ≠ .capture i) := setSruWork_work _ _
  rw [freeSlot_slots, hwork]
  refine ⟨setSruWork_claim _ h.claim, ?_, fun j => ?_, h.once.filter _⟩
  · rw [List.countP_filter, ← h.evaluate]
    refine List.countP_congr fun w _ => ?_
    cases w <;> simp [SruWork.isEvaluate]
  · rw [List.mem_filter, h.capture, Table.at_put]
    by_cases hj : j = i
    · simp [hj]
    · simp [hj]

@[simp] theorem freeSlot_count (i : Fin 4) (s : State) (hc : c ≠ .sru) : (freeSlot i s).sgm.claims.count c = s.sgm.claims.count c := by
  simp [freeSlot, hc]

@[simp] theorem freeSlotOf_sruMatched (p : Station) (h : SruMatched (s.sgm.claims.count .sru) s.sru.work s.sru.slots st) :
    SruMatched ((freeSlotOf p s).sgm.claims.count .sru) (freeSlotOf p s).sru.work (freeSlotOf p s).sru.slots st := by
  unfold freeSlotOf
  split <;> simp [h]

@[simp] theorem freeSlotOf_count (p : Station) (s : State) (hc : c ≠ .sru) : (freeSlotOf p s).sgm.claims.count c = s.sgm.claims.count c := by
  unfold freeSlotOf
  split <;> simp [hc]

/-- A report frees READY slots alone, for which no capture is pending. -/
@[simp] theorem reportStores_sruMatched (addrs : List Nat) {claims : Nat} {work : List SruWork} (h : SruMatched claims work s.sru.slots st) :
    SruMatched claims work (reportStores addrs s).sru.slots st := by
  refine { h with capture := fun i => ?_ }
  rw [h.capture]
  simp only [reportStores, Table.at_each]
  cases hx : s.sru.slots.at i with
  | none => rfl
  | some x =>
    obtain ⟨p, q, a, n, state, t⟩ := x
    cases state with
    | waiting b => rfl
    | ready ws =>
      unfold slotAfterStore
      split <;> (try split) <;> simp_all

/-- A release notice queues the captures it sets pending (R51). -/
@[simp] theorem releaseNotice_sruMatched (h : SruMatched (s.sgm.claims.count .sru) s.sru.work s.sru.slots st) :
    SruMatched ((releaseNotice s).sgm.claims.count .sru) (releaseNotice s).sru.work (releaseNotice s).sru.slots st := by
  have hwork : (releaseNotice s).sru.work = s.sru.work ++ (all4.filter (fun i => capturable s (s.sru.slots.at i))).map .capture := setSruWork_work _ _
  have hslots : (releaseNotice s).sru.slots = s.sru.slots.each (fun sl => if capturable s sl then sl.map markPending else sl) := by
    unfold releaseNotice
    rw [(setSruWork_frame _ _).2.2.2.2.1]
  have hnew : ∀ i, capturable s (s.sru.slots.at i) = true → (s.sru.slots.at i).map (·.state) = some (.waiting false) := fun i hi => by
    unfold capturable at hi
    split at hi
    · next heq => rw [heq]; rfl
    · exact nomatch hi
  rw [hwork, hslots]
  refine ⟨setSruWork_claim _ h.claim, ?_, fun i => ?_, ?_⟩
  · rw [List.countP_append, h.evaluate, List.countP_map]
    simp [Function.comp_def, SruWork.isEvaluate]
  · rw [List.mem_append, h.capture, Table.at_each]
    by_cases hi : capturable s (s.sru.slots.at i) = true
    · rw [if_pos hi]
      have hstate : ((s.sru.slots.at i).map markPending).map (·.state) = some (.waiting true) := by
        obtain ⟨x, hx, -⟩ := Option.map_eq_some_iff.mp (hnew i hi)
        rw [hx]; rfl
      simp [hi, hstate, mem_all4]
    · rw [if_neg hi]
      simp [hi]
  · refine List.nodup_append.mpr ⟨h.once, ((show all4.Nodup by decide).filter _).map fun a b hab => by cases hab; rfl, ?_⟩
    rintro w hw w' hw' rfl
    obtain ⟨i, hi, rfl⟩ := List.mem_map.mp hw'
    have hpending := (h.capture i).mp hw
    rw [hnew i (List.mem_filter.mp hi).2] at hpending
    exact nomatch hpending

@[simp] theorem releaseNotice_count (s : State) (hc : c ≠ .sru) : (releaseNotice s).sgm.claims.count c = s.sgm.claims.count c := by
  simp [releaseNotice, hc]

@[simp] theorem sruTakeAnnouncement_sruMatched (h : SruMatched (s.sgm.claims.count .sru) s.sru.work s.sru.slots st) :
    SruMatched ((sruTakeAnnouncement s).sgm.claims.count .sru) (sruTakeAnnouncement s).sru.work (sruTakeAnnouncement s).sru.slots st := by
  unfold sruTakeAnnouncement
  split <;> simp [h]

@[simp] theorem sruTakeAnnouncement_count (s : State) (hc : c ≠ .sru) : (sruTakeAnnouncement s).sgm.claims.count c = s.sgm.claims.count c := by
  unfold sruTakeAnnouncement
  split <;> simp [hc]

@[simp] theorem sruTakeStartOfLeaving_sruMatched (h : SruMatched (s.sgm.claims.count .sru) s.sru.work s.sru.slots st) :
    SruMatched ((sruTakeStartOfLeaving s).sgm.claims.count .sru) (sruTakeStartOfLeaving s).sru.work (sruTakeStartOfLeaving s).sru.slots st := by
  unfold sruTakeStartOfLeaving
  split
  · exact freeSlot_sruMatched 3 (freeSlot_sruMatched 2 (freeSlot_sruMatched 1
      (freeSlot_sruMatched (s := { s with sru := { s.sru with startOfLeaving := false } }) 0 h)))
  · exact h

@[simp] theorem sruTakeStartOfLeaving_count (s : State) (hc : c ≠ .sru) : (sruTakeStartOfLeaving s).sgm.claims.count c = s.sgm.claims.count c := by
  unfold sruTakeStartOfLeaving freeAllSlots all4
  split <;> simp [hc]

@[simp] theorem slotsBeforeNotice_sruMatched (cause : AbortCause) (h : SruMatched (s.sgm.claims.count .sru) s.sru.work s.sru.slots st) :
    SruMatched ((slotsBeforeNotice cause s).sgm.claims.count .sru) (slotsBeforeNotice cause s).sru.work (slotsBeforeNotice cause s).sru.slots st := by
  unfold slotsBeforeNotice
  split <;> simp [h]

@[simp] theorem slotsBeforeNotice_count (cause : AbortCause) (s : State) (hc : c ≠ .sru) : (slotsBeforeNotice cause s).sgm.claims.count c = s.sgm.claims.count c := by
  unfold slotsBeforeNotice
  split <;> simp [hc]

@[simp] theorem frameTakenReport_sruMatched (f : Frame) (k : Header) (h : SruMatched (s.sgm.claims.count .sru) s.sru.work s.sru.slots st) :
    SruMatched ((frameTakenReport f k s).sgm.claims.count .sru) (frameTakenReport f k s).sru.work (frameTakenReport f k s).sru.slots st := by
  unfold frameTakenReport
  (repeat' split) <;> simp [h]

@[simp] theorem frameTakenReport_count (f : Frame) (k : Header) (s : State) (hc : c ≠ .sru) : (frameTakenReport f k s).sgm.claims.count c = s.sgm.claims.count c := by
  unfold frameTakenReport
  (repeat' split) <;> simp [hc]

/-! ### An RDS handed to the SRU (R46, R47) -/

@[simp] theorem takeRds_count (p : Station) (r : Request) (s : State) (hc : c ≠ .sru) : (takeRds p r s).sgm.claims.count c = s.sgm.claims.count c := by
  unfold takeRds answerFromSlot evaluateAsNew
  (repeat' split) <;> simp [hc]

/-- The waiting slot of a re-issue keeps its state. -/
theorem updateSlot_discard_sruMatched (i : Fin 4) (t : Timer) {claims : Nat} {work : List SruWork} (h : SruMatched claims work s.sru.slots st) :
    SruMatched claims work (updateSlot i (fun x => { x with discard := t }) s).sru.slots st := by
  refine { h with capture := fun j => ?_ }
  rw [h.capture]
  simp only [updateSlot, Table.at_put]
  split
  · next hj => rw [hj]; cases s.sru.slots.at i <;> rfl
  · rfl

/-- A new evaluation is the last work of the SRU. -/
theorem evaluateAsNew_sruMatched (p : Station) (h : SruMatched (s.sgm.claims.count .sru) s.sru.work s.sru.slots none) :
    SruMatched ((evaluateAsNew p s).sgm.claims.count .sru) (evaluateAsNew p s).sru.work (evaluateAsNew p s).sru.slots (some .sru) := by
  have hfreed := freeSlotOf_sruMatched p h
  have hnone : ∀ b, SruWork.evaluate b ∉ (freeSlotOf p s).sru.work := fun b hb =>
    absurd (List.countP_eq_zero.mp hfreed.evaluate _ hb) (by simp [SruWork.isEvaluate])
  unfold evaluateAsNew
  dsimp only
  rw [setSruWork_work, (setSruWork_frame _ _).2.2.2.2.1]
  refine ⟨setSruWork_claim _ hfreed.claim, ?_, fun i => ?_, ?_⟩
  · rw [List.countP_append, hfreed.evaluate]
    rfl
  · rw [List.mem_append, hfreed.capture]
    simp
  · refine List.nodup_append.mpr ⟨hfreed.once, List.nodup_singleton _, fun w hw w' hw' heq => ?_⟩
    rw [List.mem_singleton.mp hw'] at heq
    exact hnone _ (heq ▸ hw)

theorem takeRds_sruMatched (p : Station) (r : Request) (h : SruMatched (s.sgm.claims.count .sru) s.sru.work s.sru.slots none) :
    SruMatched ((takeRds p r (takeInHand p r .sru s)).sgm.claims.count .sru) (takeRds p r (takeInHand p r .sru s)).sru.work
      (takeRds p r (takeInHand p r .sru s)).sru.slots ((takeRds p r (takeInHand p r .sru s)).te.hand.map (·.stage)) := by
  unfold takeRds
  split
  · next i hi =>
    unfold answerFromSlot
    split
    · next hx =>
      split at hi
      · have hm := List.find?_some hi
        rw [hx] at hm
        exact nomatch hm
      · exact nomatch hi
    · split
      · simpa [takeInHand] using updateSlot_discard_sruMatched (s := takeInHand p r .sru s) i (discardTime (takeInHand p r .sru s)) h
      · simpa [takeInHand] using freeSlot_sruMatched (s := takeInHand p r .sru s) i h
  · simpa [takeInHand] using evaluateAsNew_sruMatched (s := takeInHand p r .sru s) p h

/-- The SRU's work done, its next claim stands (R45). -/
theorem sruWorkDone_claim {w : SruWork} {rest : List SruWork} (hw : s.sru.work = w :: rest) (hn : s.sru.work.Nodup) (h : s.sgm.claims.count .sru = 1) :
    (sruWorkDone s).sgm.claims.count .sru = if rest = [] then 0 else 1 := by
  have htaken : (takeClaim .sru s).sgm.claims.count .sru = 0 := by simp [takeClaim, List.count_erase_self, h]
  obtain ⟨cs, hcs, heq⟩ := setSruWork_spec s.sru.work.tail (takeClaim .sru s)
  have hhead : (takeClaim .sru s).sru.work.head? ≠ s.sru.work.tail.head? := fun hh => by
    rw [show (takeClaim .sru s).sru.work = s.sru.work from rfl, hw, List.head?_cons, List.tail_cons] at hh
    rw [hw] at hn
    exact (List.nodup_cons.mp hn).1 (List.mem_of_head? hh.symm)
  unfold sruWorkDone
  rw [heq, hcs.2 hhead, List.count_append, List.count_erase_self, htaken, hw, List.tail_cons]
  split <;> rfl

@[simp] theorem sruWorkDone_count (s : State) (hc : c ≠ .sru) : (sruWorkDone s).sgm.claims.count c = s.sgm.claims.count c := by
  simp [sruWorkDone, takeClaim, hc, List.count_erase_of_ne hc]

end

end Sys2Proof.Machine
end

section
/-! PROOFS. Every command keeps the waiting work matched (O60). -/

namespace Sys2Proof.Machine

/-! ### The group frames among the GE's waiting work (R22) -/

theorem count_joinRestart (p : Station) : ∀ {ws ws' : List GeWork}, joinRestart p ws = some ws' → ws'.count .frame = ws.count .frame := by
  intro ws
  induction ws with
  | nil => nofun
  | cons w ws ih =>
    intro ws' h
    unfold joinRestart at h
    split at h
    · next us hu =>
      cases h
      rw [List.count_cons, List.count_cons, ih hu]
    · split at h
      · split at h
        · cases h; simp
        · exact nomatch h
      · exact nomatch h

theorem count_addWork {w : GeWork} (hw : w ≠ .frame) (ws : List GeWork) : (addWork w ws).count .frame = ws.count .frame := by
  have hlast : ∀ w' : GeWork, w' ≠ .frame → (ws ++ [w']).count .frame = ws.count .frame := fun w' hw' => by
    rw [List.count_append, List.count_singleton, if_neg (by simpa using hw'), Nat.add_zero]
  unfold addWork
  split
  · split
    · rfl
    · exact hlast _ nofun
  · split
    · next hj => exact count_joinRestart _ hj
    · exact hlast _ nofun
  · exact hlast _ hw

theorem count_stale (ws : List GeWork) : (ws.map GeWork.stale).count .frame = ws.count .frame := by
  induction ws with
  | nil => rfl
  | cons w ws ih =>
    rw [List.map_cons, List.count_cons, List.count_cons, ih]
    cases w <;> rfl

theorem count_dropExpiry (g : Fin 4) (ws : List GeWork) : (dropExpiry g ws).count .frame = ws.count .frame :=
  List.count_filter (by simp)

theorem count_frameLater (ws : List GeWork) : (frameLater ws).count .frame = ws.count .frame := by
  unfold frameLater
  split
  · split
    · exact (List.Perm.swap _ _ _).count_eq _
    · rfl
  · rfl

section
variable {s : State} {c : Claimant} {st : Option HandStage}

@[simp] theorem giveGe_frames {w : GeWork} (hw : w ≠ .frame) (s : State) : (giveGe w s).ge.work.count .frame = s.ge.work.count .frame := count_addWork hw _

/-- The GE takes work that is no frame (log 36). -/
theorem takeOther_frames {w : GeWork} {rest : List GeWork} (hw : frameLater s.ge.work = w :: rest) (hf : w ≠ .frame) :
    (takeOther s).ge.work.count .frame = s.ge.work.count .frame := by
  have hcount := count_frameLater s.ge.work
  rw [hw, List.count_cons, if_neg (by simpa using hf), Nat.add_zero] at hcount
  simpa [takeOther, hw] using hcount

theorem frames_stale (op : Option GeOp) : GeOp.frames (op.map GeOp.stale) = GeOp.frames op := by
  cases op with
  | none => rfl
  | some o => cases o with
    | rollback cause list fin => cases fin <;> rfl
    | _ => rfl

theorem GeMatched.stale {n : Nat} {op : Option GeOp} {ws : List GeWork} (h : GeMatched n op (ws.count .frame) st) :
    GeMatched n (op.map GeOp.stale) ((ws.map GeWork.stale).count .frame) st :=
  ⟨by rw [h.claim, Option.isSome_map], by rw [count_stale, frames_stale, h.frame]⟩

/-! ### Announcements and what is heard -/

@[simp] theorem announce_count (a : Announcement) (s : State) (hc : c ≠ .sru) : (announce a s).sgm.claims.count c = s.sgm.claims.count c := by
  unfold announce
  cases a <;> simp [hc]

@[simp] theorem announce_frames (a : Announcement) (s : State) : (announce a s).ge.work.count .frame = s.ge.work.count .frame := by
  unfold announce
  cases a <;> simp

@[simp] theorem announce_sruMatched (a : Announcement) (h : SruMatched (s.sgm.claims.count .sru) s.sru.work s.sru.slots st) :
    SruMatched ((announce a s).sgm.claims.count .sru) (announce a s).sru.work (announce a s).sru.slots st := by
  have hgiven : ∀ w, SruMatched ((sruTakeAnnouncement (giveGe w s)).sgm.claims.count .sru) (sruTakeAnnouncement (giveGe w s)).sru.work
      (sruTakeAnnouncement (giveGe w s)).sru.slots st := fun w => by simp [h]
  unfold announce
  cases a <;> simp [hgiven]

@[simp] theorem hear_count (f : Frame) (s : State) (hc : c ≠ .sru) : (hear f s).sgm.claims.count c = s.sgm.claims.count c := by
  unfold hear hearLeaving hearFresh
  dsimp only
  (repeat' split) <;> simp [hc]

@[simp] theorem hear_frames (f : Frame) (s : State) : (hear f s).ge.work.count .frame = s.ge.work.count .frame := by
  unfold hear hearLeaving hearFresh
  dsimp only
  (repeat' split) <;> simp

@[simp] theorem hear_sruMatched (f : Frame) (h : SruMatched (s.sgm.claims.count .sru) s.sru.work s.sru.slots st) :
    SruMatched ((hear f s).sgm.claims.count .sru) (hear f s).sru.work (hear f s).sru.slots st := by
  unfold hear hearLeaving hearFresh
  dsimp only
  (repeat' split) <;> simp [h]

@[simp] theorem endOfLoss_count (p : Station) (s : State) (hc : c ≠ .sru) : (endOfLoss p s).sgm.claims.count c = s.sgm.claims.count c := by
  unfold endOfLoss hearFresh
  dsimp only
  (repeat' split) <;> simp [hc]

@[simp] theorem endOfLoss_frames (p : Station) (s : State) : (endOfLoss p s).ge.work.count .frame = s.ge.work.count .frame := by
  unfold endOfLoss hearFresh
  dsimp only
  (repeat' split) <;> simp

@[simp] theorem endOfLoss_sruMatched (p : Station) (h : SruMatched (s.sgm.claims.count .sru) s.sru.work s.sru.slots st) :
    SruMatched ((endOfLoss p s).sgm.claims.count .sru) (endOfLoss p s).sru.work (endOfLoss p s).sru.slots st := by
  unfold endOfLoss hearFresh
  dsimp only
  (repeat' split) <;> simp [h]

/-! ### Leaving and the station states -/

@[simp] theorem takeAllWaiting_count (s : State) (hc : c ≠ .sru) : (takeAllWaiting s).sgm.claims.count c = s.sgm.claims.count c := by
  simp [takeAllWaiting, hc]

@[simp] theorem takeAllWaiting_sruMatched (h : SruMatched (s.sgm.claims.count .sru) s.sru.work s.sru.slots st) :
    SruMatched ((takeAllWaiting s).sgm.claims.count .sru) (takeAllWaiting s).sru.work (takeAllWaiting s).sru.slots st := by
  unfold takeAllWaiting
  simp [h]

theorem workMatched_iff (s : State) : WorkMatched s ↔
    SruMatched (s.sgm.claims.count .sru) s.sru.work s.sru.slots (s.te.hand.map (·.stage)) ∧
    GeMatched (s.sgm.claims.count .ge) s.ge.op (s.ge.work.count .frame) (s.te.hand.map (·.stage)) ∧
    TeMatched (s.sgm.claims.count .te) (s.te.hand.map (·.stage)) :=
  ⟨fun h => ⟨h.sru, h.ge, h.te⟩, fun ⟨hs, hg, ht⟩ => ⟨hs, hg, ht⟩⟩

/-- The TE, the SRU and the claims of others are of matter, and the GE as far as it has frames. -/
theorem WorkMatched.of_parts {t : State} (h : WorkMatched s) (hh : t.te.hand = s.te.hand)
    (hsru : SruMatched (t.sgm.claims.count .sru) t.sru.work t.sru.slots (s.te.hand.map (·.stage)))
    (hge : GeMatched (t.sgm.claims.count .ge) t.ge.op (t.ge.work.count .frame) (s.te.hand.map (·.stage)))
    (hte : t.sgm.claims.count .te = s.sgm.claims.count .te) : WorkMatched t := by
  refine ⟨?_, ?_, ?_⟩ <;> rw [hh]
  · exact hsru
  · exact hge
  · rw [hte]; exact h.te

theorem endLeaving_workMatched (h : WorkMatched s) : WorkMatched (endLeaving s) := by
  have hsru := takeAllWaiting_sruMatched h.sru
  rw [endLeaving_eq, ← staleReports_eq]
  refine h.of_parts (by simp) hsru ?_ (by simp)
  simpa [staleReports] using h.ge.stale

theorem takeCommand_workMatched (c : Command) (h : WorkMatched s) : WorkMatched (takeCommand c s) := by
  obtain ⟨hsru, hge, hte⟩ := (workMatched_iff s).mp h
  cases c with
  | configure => simp [workMatched_iff, takeCommand, hsru, hge, hte]
  | join => simp [workMatched_iff, takeCommand, hsru, hge, hte]
  | revoke =>
    show WorkMatched (commandRevoke s)
    unfold commandRevoke
    split <;> simp [workMatched_iff, hsru, hge, hte]
  | leave =>
    cases hs : s.stc.state with
    | listening =>
      have hleft := takeAllWaiting_sruMatched (s := setCommand .leave .accepted s) hsru
      rw [takeCommand, commandLeave_of_listening hs, leaveListening_eq, ← staleReports_eq]
      refine h.of_parts (by simp) hleft ?_ (by simp)
      simpa [staleReports] using hge.stale
    | joined =>
      rw [takeCommand, commandLeave_of_joined hs, leaveJoined_eq]
      refine h.of_parts rfl hsru ?_ rfl
      simpa [List.count_append] using hge
    | _ => simp [takeCommand, commandLeave, hs, workMatched_iff, hsru, hge, hte]

theorem reportSent_workMatched (o : Offer) (h : WorkMatched s) : WorkMatched (reportSent o s) := by
  obtain ⟨hsru, hge, hte⟩ := (workMatched_iff s).mp h
  cases o with
  | presence m =>
    show WorkMatched (presenceSent m s)
    unfold presenceSent
    split
    · cases m with
      | leaving => exact endLeaving_workMatched h
      | fresh =>
        dsimp only [freshSent]
        split <;> simp [workMatched_iff, hsru, hge, hte]
      | plain => simp [workMatched_iff, hsru, hge, hte]
    · exact h
  | _ => simp [reportSent, workMatched_iff, hsru, hge, hte]

theorem workMatched_portKept : PortKept WorkMatched where
  moved {s t} hm h := by
    have hte : t.te = s.te := congrArg (·.te) hm
    have hsru : t.sru = s.sru := congrArg (·.sru) hm
    have hge : t.ge = s.ge := congrArg (·.ge) hm
    have hsgm : t.sgm = s.sgm := congrArg (·.sgm) hm
    rw [workMatched_iff, hte, hsru, hge, hsgm, ← workMatched_iff]
    exact h
  claim h := by simpa [workMatched_iff, presentClaim, List.count_append] using (workMatched_iff _).mp h
  buffer b j high v h := by simpa [workMatched_iff] using (workMatched_iff _).mp h
  post h := by simpa [workMatched_iff] using (workMatched_iff _).mp h
  completion h := by simpa [workMatched_iff] using (workMatched_iff _).mp h
  event h := by simpa [workMatched_iff] using (workMatched_iff _).mp h
  command c h := takeCommand_workMatched c h

/-! ### The check sequence (R63, R64) -/

/-- A frame handed to the TE, the SRU or the GE with none in hand. -/
theorem dispatchRequest_workMatched (p : Station) (r : Request) (hh : s.te.hand = none) (h : WorkMatched s) : WorkMatched (dispatchRequest p r s) := by
  obtain ⟨hsru, hge, hte⟩ := (workMatched_iff s).mp h
  rw [hh, Option.map_none] at hsru hge hte
  have hanswered : ∀ q k c, WorkMatched (answer p q k c s) := fun q k c => by simp [workMatched_iff, hh, hsru, hge, hte]
  have hframe : s.ge.work.count .frame = 0 ∧ GeOp.frames s.ge.op = 0 := by
    have hnone := hge.frame
    rw [if_neg nofun] at hnone
    exact Nat.add_eq_zero_iff.mp hnone
  have hclaimed : ∀ stage, stage = .rdClaim ∨ stage = .wrClaim → WorkMatched (presentClaim .te (takeInHand p r stage s)) := fun stage hst => by
    have hte0 : s.sgm.claims.count .te = 0 := hte
    have hother : some stage ≠ some HandStage.sru ∧ some stage ≠ some HandStage.ge := by rcases hst with rfl | rfl <;> exact ⟨nofun, nofun⟩
    have hsru' := hsru.stage (st' := some stage) nofun hother.1
    have hge' := hge.stage (st' := some stage) nofun hother.2
    refine ⟨by simpa [presentClaim, takeInHand, List.count_append] using hsru', by simpa [presentClaim, takeInHand, List.count_append] using hge', ?_⟩
    rcases hst with rfl | rfl <;> simp [TeMatched, presentClaim, takeInHand, List.count_append, hte0]
  unfold dispatchRequest afterTests
  split
  · split
    · exact hanswered _ _ _
    · exact hclaimed .rdClaim (Or.inl rfl)
  · split
    · exact hanswered _ _ _
    · exact hclaimed .wrClaim (Or.inr rfl)
  · split
    · exact hanswered _ _ _
    · have hstage := takeRds_sruMatched p r hsru
      have hends : (takeRds p r (takeInHand p r .sru s)).te.hand.map (·.stage) = some .sru ∨ (takeRds p r (takeInHand p r .sru s)).te.hand.map (·.stage) = none := by
        unfold takeRds answerFromSlot
        (repeat' split) <;> simp [takeInHand]
      refine ⟨hstage, ?_, ?_⟩
      · rcases hends with he | he <;> rw [he]
        · simpa [takeInHand] using hge.stage (st' := some .sru) nofun nofun
        · simpa [takeInHand] using hge
      · rcases hends with he | he <;> rw [he]
        · simpa [takeInHand] using hte.stage (st' := some .sru) (Or.inr (Or.inr rfl)) (Or.inl rfl)
        · simpa [takeInHand] using hte
  · refine ⟨by simpa [takeInHand] using hsru.stage (st' := some .ge) nofun nofun, ⟨by simpa using hge.claim, ?_⟩,
      by simpa [takeInHand] using hte.stage (st' := some .ge) (Or.inr (Or.inr rfl)) (Or.inr (Or.inl rfl))⟩
    simp [giveGe, addWork, takeInHand, List.count_append, hframe.1, hframe.2]

theorem takeNextFrame_workMatched (h : WorkMatched s) : WorkMatched (takeNextFrame s) := by
  unfold takeNextFrame
  split
  · next f hh hf =>
    have hmoved : WorkMatched { s with te := { s.te with input := none } } := ⟨h.sru, h.ge, h.te⟩
    unfold checkSequence
    split
    · exact hmoved
    split
    · exact hmoved
    · next k _ =>
      have hhand : (frameTakenReport f k { s with te := { s.te with input := none } }).te.hand = none := by simpa using hh
      have hreported : WorkMatched (frameTakenReport f k { s with te := { s.te with input := none } }) :=
        h.of_parts (by simp) (frameTakenReport_sruMatched (s := { s with te := { s.te with input := none } }) f k h.sru) (by simpa using h.ge) (by simp)
      obtain ⟨hsru, hge, hte⟩ := (workMatched_iff _).mp hreported
      unfold replayOrEvaluate evaluate
      split
      · split
        · exact hreported
        · exact ⟨hsru, hge, hte⟩
      split
      · simpa [workMatched_iff] using And.intro hsru (And.intro hge hte)
      split
      · simpa [workMatched_iff] using And.intro hsru (And.intro hge hte)
      · exact dispatchRequest_workMatched f.sender _ hhand hreported
  · exact h

theorem passToTarget_workMatched (f : Frame) (h : WorkMatched s) : WorkMatched (passToTarget f s) := by
  have hentered : ∀ u : State, WorkMatched u → WorkMatched (if u.te.input.isSome then u else enterInput f u) := fun u hu => by
    obtain ⟨hsru, hge, hte⟩ := (workMatched_iff u).mp hu
    split
    · exact hu
    · unfold enterInput takeRestartOf
      dsimp only
      split <;> simp [workMatched_iff, hsru, hge, hte]
  unfold passToTarget passRequest
  dsimp only
  split
  · split
    · refine hentered _ ?_
      split
      · exact takeNextFrame_workMatched h
      · exact h
    · exact h
  · exact h

theorem takeGoodFrame_workMatched (f : Frame) (h : WorkMatched s) : WorkMatched (takeGoodFrame f s) := by
  obtain ⟨hsru, hge, hte⟩ := (workMatched_iff s).mp h
  unfold takeGoodFrame takeResponseFrame
  dsimp only
  split
  · (repeat' split) <;> simp [workMatched_iff, hsru, hge, hte]
  · exact passToTarget_workMatched f (by simp [workMatched_iff, hsru, hge, hte])

end

end Sys2Proof.Machine
end

section
/-! PROOFS. Every command keeps the waiting work matched (O60): the claims performed, the frames answered, and the port's own claim. -/

namespace Sys2Proof.Machine

section
variable {s : State} {c d : Claimant} {st : Option HandStage}

@[simp] theorem takeClaim_count_self (c : Claimant) (s : State) : (takeClaim c s).sgm.claims.count c = s.sgm.claims.count c - 1 := List.count_erase_self

@[simp] theorem takeClaim_count_of_ne (s : State) (h : d ≠ c) : (takeClaim c s).sgm.claims.count d = s.sgm.claims.count d := List.count_erase_of_ne h

@[simp] theorem takeClaim_slots (c : Claimant) (s : State) : (takeClaim c s).sru = s.sru := rfl

@[simp] theorem presentClaim_count_self (c : Claimant) (s : State) : (presentClaim c s).sgm.claims.count c = s.sgm.claims.count c + 1 := by
  simp [presentClaim, List.count_append]

@[simp] theorem presentClaim_count_of_ne (s : State) (h : d ≠ c) : (presentClaim c s).sgm.claims.count d = s.sgm.claims.count d := by
  simp [presentClaim, List.count_append, Ne.symm h]

theorem reselect_workMatched {t : State} (h : WorkMatched t) : WorkMatched (reselect t) := by
  simpa [workMatched_iff] using (workMatched_iff t).mp h

/-! ### The claims of the TE and the SRU -/

/-- The claim of the frame in hand has been performed and the frame answered. -/
theorem WorkMatched.teDone {h : Hand} (hm : WorkMatched s) (hx : s.te.hand = some h) (hst : h.stage = .rdClaim ∨ h.stage = .wrClaim) :
    SruMatched (s.sgm.claims.count .sru) s.sru.work s.sru.slots none ∧ GeMatched (s.sgm.claims.count .ge) s.ge.op (s.ge.work.count .frame) none ∧
    TeMatched (s.sgm.claims.count .te - 1) none := by
  obtain ⟨hsru, hge, hte⟩ := (workMatched_iff s).mp hm
  rw [hx, Option.map_some] at hsru hge hte
  refine ⟨hsru.stage ?_ nofun, hge.stage ?_ nofun, ?_⟩
  · rcases hst with he | he <;> rw [he] <;> nofun
  · rcases hst with he | he <;> rw [he] <;> nofun
  · have hone : s.sgm.claims.count .te = 1 := by rw [hte, if_pos (hst.imp (congrArg some) (congrArg some))]
    rw [hone]
    rfl

theorem exec_te_workMatched {c : Instr} (h : WorkMatched s) (hc : c = .rdRangeRead ∨ c = .wrApply) : Leads WorkMatched (exec c s) := by
  rcases hc with rfl | rfl
  · simp only [exec, execRdRangeRead]
    split
    · exact leads_next.mpr h
    · next x hx =>
      split
      · next hst =>
        obtain ⟨hsru, hge, hte⟩ := h.teDone hx (Or.inl hst.1)
        exact leads_nextWithSelection.mpr (reselect_workMatched (by simp [workMatched_iff, hsru, hge, hte]))
      · exact leads_next.mpr h
  · simp only [exec, execWrApply]
    split
    · exact leads_next.mpr h
    · next x hx =>
      split
      · next hst =>
        obtain ⟨hsru, hge, hte⟩ := h.teDone hx (Or.inr hst.1)
        split <;> exact leads_nextWithSelection.mpr (reselect_workMatched (by simp [workMatched_iff, storeWords, hsru, hge, hte]))
      · exact leads_next.mpr h

/-- The first work of the SRU is done, its slot as it leaves it. -/
theorem SruMatched.done {w : SruWork} {rest : List SruWork} {slots₀ slots : Table 4 (Option Slot)} {st st' : Option HandStage}
    (h : SruMatched (s.sgm.claims.count .sru) s.sru.work slots₀ st) (hw : s.sru.work = w :: rest)
    (hev : (if w.isEvaluate then 1 else 0) + (if st' = some .sru then 1 else 0) = if st = some .sru then 1 else 0)
    (hcap : ∀ i, SruWork.capture i ∈ rest ↔ (slots.at i).map (·.state) = some (.waiting true)) :
    SruMatched ((sruWorkDone s).sgm.claims.count .sru) rest slots st' := by
  have hclaim := h.claim
  rw [if_neg (by rw [hw]; nofun)] at hclaim
  have hcount := h.evaluate
  rw [hw, List.countP_cons] at hcount
  refine ⟨sruWorkDone_claim hw h.once hclaim, by omega, hcap, ?_⟩
  have honce := h.once
  rw [hw] at honce
  exact (List.nodup_cons.mp honce).2

@[simp] theorem sruWorkDone_work (s : State) : (sruWorkDone s).sru.work = s.sru.work.tail := setSruWork_work _ _

theorem exec_slotCapture_workMatched (h : WorkMatched s) : Leads WorkMatched (exec .slotCapture s) := by
  simp only [exec, execSlotCapture]
  split
  · next i rest hw =>
    split
    · have hcap : ∀ j, SruWork.capture j ∈ rest ↔ ((s.sru.slots.put i ((s.sru.slots.at i).map (captured s))).at j).map (·.state) = some (.waiting true) := fun j => by
        have honce := h.sru.once
        rw [hw] at honce
        have hold := h.sru.capture j
        rw [hw, List.mem_cons, SruWork.capture.injEq] at hold
        rw [Table.at_put]
        by_cases hj : j = i
        · subst hj
          have hnot : SruWork.capture j ∉ rest := (List.nodup_cons.mp honce).1
          have hstate : ∀ x, (captured s x).state ≠ .waiting true := fun x => by unfold captured; split <;> nofun
          cases hx : s.sru.slots.at j <;> simp [hnot, hstate]
        · rw [if_neg hj, ← hold]
          simp [hj]
      have hdone := SruMatched.done (s := updateSlot i (captured s) s) (slots := s.sru.slots.put i ((s.sru.slots.at i).map (captured s))) h.sru hw (Nat.zero_add _) hcap
      refine leads_next.mpr (h.of_parts (by simp [sruWorkDone]) ?_ (by simpa [sruWorkDone] using h.ge) (by simp))
      rw [sruWorkDone_captured_slots, sruWorkDone_work]
      simpa [hw] using hdone
    · exact leads_next.mpr h
  · exact leads_next.mpr h

theorem exec_rdsEvaluation_workMatched (h : WorkMatched s) : Leads WorkMatched (exec .rdsEvaluation s) := by
  simp only [exec, execRdsEvaluation]
  split
  · next b rest k hw hk =>
    split
    · next hst =>
      obtain ⟨hsru, hge, hte⟩ := (workMatched_iff s).mp h
      rw [hk, Option.map_some, hst.1] at hsru hge hte
      have hge' := hge.stage (st' := none) nofun nofun
      have hte' := hte.stage (st' := none) (Or.inl rfl) (Or.inr (Or.inr rfl))
      have hrest : ∀ i, SruWork.capture i ∈ rest ↔ (s.sru.slots.at i).map (·.state) = some (.waiting true) := fun i => by
        rw [← hsru.capture, hw, List.mem_cons]
        simp
      split
      · next r i hd =>
        have hdone := hsru.done (st' := none)
          (slots := s.sru.slots.put i (some ⟨k.sender, k.req.seq, k.req.addr, k.req.count, .waiting false, discardTime (sruWorkDone s)⟩)) hw rfl fun j => by
            rw [hrest, Table.at_put]
            split
            · next hj => rw [hj, (decideRds_some hd).2]; simp
            · rfl
        refine leads_nextWithSelection.mpr (reselect_workMatched ⟨?_, by simpa [allocateSlot, sruWorkDone] using hge', by simpa [allocateSlot] using hte'⟩)
        have hslots : (sruWorkDone s).sru.slots = s.sru.slots := by simp [sruWorkDone]
        simpa [allocateSlot, hw, hslots] using hdone
      · have hdone := hsru.done (st' := none) hw rfl hrest
        refine leads_nextWithSelection.mpr (reselect_workMatched ⟨?_, by simpa [sruWorkDone] using hge', by simpa using hte'⟩)
        have hslots : (sruWorkDone s).sru.slots = s.sru.slots := by simp [sruWorkDone]
        simpa [hw, hslots] using hdone
    · exact leads_next.mpr h
  · exact leads_next.mpr h

/-! ### The GE -/

/-- The blocks but the GE, when the frame that waits for the GE is answered. -/
theorem WorkMatched.answered (h : WorkMatched s) (hst : s.te.hand.map (·.stage) = some .ge) :
    SruMatched (s.sgm.claims.count .sru) s.sru.work s.sru.slots none ∧ TeMatched (s.sgm.claims.count .te) none := by
  obtain ⟨hsru, -, hte⟩ := (workMatched_iff s).mp h
  rw [hst] at hsru hte
  exact ⟨hsru.stage nofun nofun, hte.stage (Or.inr (Or.inl rfl)) (Or.inr (Or.inr rfl))⟩

/-- An operation that answers a frame has the one that the TE waits with. -/
theorem GeMatched.answers {n m : Nat} {op : Option GeOp} (h : GeMatched n op m st) (hf : GeOp.frames op = 1) : st = some .ge ∧ m = 0 ∧ n = 1 := by
  have hframe := h.frame
  rw [hf] at hframe
  have hst : st = some .ge := by by_contra hn; rw [if_neg hn] at hframe; omega
  have hop : op.isSome := by cases op with
    | none => exact nomatch hf
    | some _ => rfl
  rw [if_pos hst] at hframe
  exact ⟨hst, by omega, by rw [h.claim, if_pos hop]⟩

/-- The frame that is next for the GE: no operation and no other frame, and no claim. -/
theorem WorkMatched.frameNext {x : Hand} {k : ReqKind} (h : WorkMatched s) (hf : frameTaken k s = some x) :
    s.te.hand = some x ∧ x.stage = .ge ∧ s.ge.op = none ∧ s.ge.work.tail.count .frame = 0 ∧ s.sgm.claims.count .ge = 0 := by
  obtain ⟨-, rest, hop, hwork, hhand, hst⟩ := frameTaken_eq_some hf
  have hframe := h.ge.frame
  have hclaim := h.ge.claim
  rw [hop] at hclaim
  rw [hop, hwork, hhand, Option.map_some, hst, List.count_cons_self, if_pos rfl] at hframe
  exact ⟨hhand, hst, hop, by rw [hwork, List.tail_cons]; omega, hclaim⟩

/-- The GE's operation in progress ends without another: no claim, no frame. -/
theorem GeMatched.none {n m : Nat} (hn : n = 0) (hm : m = 0) : GeMatched n Option.none m Option.none := ⟨hn, by rw [hm]; rfl⟩

theorem exec_groupFrame_workMatched {c : Instr} (h : WorkMatched s) (hc : c ∈ [Instr.gopen, .gwrite, .gclose, .gabort]) : Leads WorkMatched (exec c s) := by
  have hanswered : ∀ {k x}, frameTaken k s = some x → ∀ r (u : State), u.sgm = s.sgm → u.sru = s.sru → u.ge.op = s.ge.op → u.ge.work = s.ge.work.tail →
      u.te.hand = s.te.hand → WorkMatched (reselect (finishHand r u)) := fun hf r u hsgm hsru hop hwork hhand => by
    obtain ⟨hx, hst, hnone, hrest, hclaim⟩ := h.frameNext hf
    obtain ⟨hs, ht⟩ := h.answered (by rw [hx, Option.map_some, hst])
    have hge : GeMatched 0 none 0 none := .none rfl rfl
    refine reselect_workMatched ?_
    simp [workMatched_iff, hsgm, hsru, hop, hwork, hnone, hrest, hclaim, hs, ht, hge]
  have hbegun : ∀ {k x}, frameTaken k s = some x → ∀ op, GeOp.frames (some op) = 1 → WorkMatched (presentClaim .ge (setOp (some op) (takeWork s))) := fun hf op hop => by
    obtain ⟨hx, hst, -, hrest, hclaim⟩ := h.frameNext hf
    refine h.of_parts (by simp [presentClaim]) (by simpa [presentClaim, List.count_append] using h.sru) ⟨?_, ?_⟩ (by simp)
    · simp [hclaim, setOp, presentClaim, List.count_append]
    · rw [hx, Option.map_some, hst, if_pos rfl]
      simp [setOp, presentClaim, takeWork, hrest, hop]
  simp only [List.mem_cons, List.not_mem_nil, or_false] at hc
  rcases hc with rfl | rfl | rfl | rfl
  · simp only [exec, execGopen]
    split
    · exact leads_next.mpr h
    · next x hf => split <;> exact leads_nextWithSelection.mpr (hanswered hf _ _ rfl rfl rfl rfl rfl)
  · simp only [exec, execGwrite]
    split
    · exact leads_next.mpr h
    · next x hf =>
      split
      · exact leads_nextWithSelection.mpr (hanswered hf _ _ rfl rfl rfl rfl rfl)
      · exact leads_next.mpr (hbegun hf _ rfl)
  · simp only [exec, execGclose]
    split
    · exact leads_next.mpr h
    · next x hf =>
      split
      · exact leads_nextWithSelection.mpr (hanswered hf _ _ rfl rfl rfl rfl rfl)
      · exact leads_next.mpr (hbegun hf _ rfl)
  · simp only [exec, execGabort]
    split
    · exact leads_next.mpr h
    · next x hf =>
      split
      · exact leads_nextWithSelection.mpr (hanswered hf _ _ rfl rfl rfl rfl rfl)
      · exact leads_next.mpr (hbegun hf _ rfl)

theorem exec_gwriteApply_workMatched (h : WorkMatched s) : Leads WorkMatched (exec .gwriteApply s) := by
  simp only [exec, execGwriteApply]
  split
  · next g x hop hx =>
    split
    · obtain ⟨hst, hframes, hclaim⟩ := h.ge.answers (by rw [hop]; rfl)
      obtain ⟨hs, ht⟩ := h.answered hst
      have hge : GeMatched 0 none 0 none := .none rfl rfl
      split
      · refine leads_nextWithSelection.mpr (reselect_workMatched ?_)
        simp [workMatched_iff, setOp, hs, ht, hge, hframes, hclaim]
      · refine leads_nextWithSelection.mpr (reselect_workMatched ?_)
        have hwork : (dropExpiry g s.ge.work).count .frame = 0 := by rw [count_dropExpiry, hframes]
        simp [workMatched_iff, setOp, updateGe, Ge.written, storeWords, hs, ht, hge, hwork, hclaim]
    · exact leads_next.mpr h
  · exact leads_next.mpr h

theorem exec_groupCommit_workMatched (h : WorkMatched s) : Leads WorkMatched (exec .groupCommit s) := by
  simp only [exec, execGroupCommit]
  split
  · next g hop =>
    split
    · split
      · exact leads_next.mpr h
      · next x _ =>
        obtain ⟨hst, hframes, hclaim⟩ := h.ge.answers (by rw [hop]; rfl)
        obtain ⟨hs, ht⟩ := h.answered hst
        have hge : GeMatched 0 none 0 none := .none rfl rfl
        have hwork : (dropExpiry g s.ge.work).count .frame = 0 := by rw [count_dropExpiry, hframes]
        refine leads_nextWithSelection.mpr (reselect_workMatched ?_)
        simp [workMatched_iff, setOp, updateGe, Ge.ended, hs, ht, hge, hwork, hclaim]
    · exact leads_next.mpr h
  · exact leads_next.mpr h

/-- What ends with a list of rollbacks that answers no frame. -/
theorem endOperation_workMatched {fin : OpEnd} (hfin : fin ≠ .reply) (h : WorkMatched s) : WorkMatched (endOperation fin s) := by
  obtain ⟨hsru, hge, hte⟩ := (workMatched_iff s).mp h
  cases fin with
  | reply => exact absurd rfl hfin
  | gone p report =>
    simp only [endOperation]
    split <;> simp [workMatched_iff, hsru, hge, hte]
  | _ => simp [endOperation, workMatched_iff, hsru, hge, hte]

theorem frames_rollback {cause : AbortCause} {list : List (Fin 4)} {fin : OpEnd} (hfin : fin ≠ .reply) : GeOp.frames (some (.rollback cause list fin)) = 0 := by
  cases fin with
  | reply => exact absurd rfl hfin
  | _ => rfl

theorem beginRollbacks_workMatched (cause : AbortCause) (list : List (Fin 4)) {fin : OpEnd} (hfin : fin ≠ .reply) (hop : s.ge.op = none) (h : WorkMatched s) :
    WorkMatched (beginRollbacks cause list fin s) := by
  unfold beginRollbacks
  split
  · exact endOperation_workMatched hfin h
  · have hclaim := h.ge.claim
    have hframe := h.ge.frame
    rw [hop] at hclaim hframe
    refine h.of_parts (by simp [presentClaim]) (by simpa [presentClaim, List.count_append] using h.sru) ⟨?_, ?_⟩ (by simp)
    · simp [hclaim, setOp, presentClaim, List.count_append]
    · rw [← hframe]
      simp [setOp, presentClaim, frames_rollback hfin, show GeOp.frames none = 0 from rfl]

/-- After a rollback of a list: the next one's claim stands, or the operation is over. -/
theorem afterRollback_workMatched {cause : AbortCause} {g : Fin 4} {rest : List (Fin 4)} {fin : OpEnd} {u : State} (h : WorkMatched s)
    (hop : s.ge.op = some (.rollback cause (g :: rest) fin)) (hhand : u.te.hand = s.te.hand) (hwork : u.ge.work.count .frame = s.ge.work.count .frame)
    (hte : u.sgm.claims.count .te = s.sgm.claims.count .te) (hge : u.sgm.claims.count .ge = s.sgm.claims.count .ge - 1)
    (hsru : SruMatched (u.sgm.claims.count .sru) u.sru.work u.sru.slots (s.te.hand.map (·.stage))) : WorkMatched (afterRollback cause rest fin u) := by
  have hclaim := h.ge.claim
  have hframe := h.ge.frame
  rw [hop, Option.isSome_some, if_pos rfl] at hclaim
  rw [hop] at hframe
  have hone : u.sgm.claims.count .ge = 0 := by rw [hge, hclaim]
  unfold afterRollback
  split
  · by_cases hfin : fin = .reply
    · subst hfin
      obtain ⟨hst, hframes, -⟩ := h.ge.answers (by rw [hop]; rfl)
      obtain ⟨-, ht⟩ := h.answered hst
      rw [hst] at hsru
      have hs := hsru.stage (st' := none) nofun nofun
      have hnone : GeMatched 0 none 0 none := .none rfl rfl
      simp [endOperation, workMatched_iff, setOp, setFollowing, hs, ht, hnone, hone, hwork, hframes, hte]
    · rw [frames_rollback hfin] at hframe
      refine endOperation_workMatched hfin (h.of_parts (by simpa using hhand) (by simpa using releaseNotice_sruMatched hsru) ⟨?_, ?_⟩ (by simpa using hte))
      · simp [setOp, setFollowing, hone]
      · simpa [setOp, setFollowing, hwork, show GeOp.frames none = 0 from rfl] using hframe
  · refine h.of_parts (by simpa [presentClaim, setFollowing, setOp] using hhand)
      (by simpa [presentClaim, List.count_append, setFollowing, setOp] using
        releaseNotice_sruMatched (s := setFollowing true (setOp (some (.rollback cause rest fin)) u)) hsru) ⟨?_, ?_⟩ (by simpa using hte)
    · simp [setOp, setFollowing, hone, presentClaim, List.count_append]
    · rw [← hframe]
      simp [setOp, setFollowing, presentClaim, hwork]
      cases fin <;> rfl

theorem rollbackGroup_sruMatched (cause : AbortCause) (g : Fin 4) {n : Nat} {work : List SruWork} (h : SruMatched n work s.sru.slots st) :
    SruMatched n work (rollbackGroup cause g s).sru.slots st := by
  unfold rollbackGroup
  split
  · exact h
  · simpa [updateGe] using reportStores_sruMatched (s := { s with sgm := { s.sgm with words := restoreLog (logOf s.ge.undo g) s.sgm.words } }) _ h

theorem rollbackGroup_frames (cause : AbortCause) (g : Fin 4) (s : State) : (rollbackGroup cause g s).ge.work.count .frame = s.ge.work.count .frame := by
  unfold rollbackGroup
  split
  · rfl
  · simp [updateGe, Ge.ended, count_dropExpiry]

theorem exec_groupRollback_workMatched (h : WorkMatched s) : Leads WorkMatched (exec .groupRollback s) := by
  simp only [exec, execGroupRollback]
  split
  · next cause g rest fin hop =>
    split
    · refine leads_nextWithSelection.mpr (reselect_workMatched (afterRollback_workMatched h hop (by simp) ?_ (by simp) (by simp) ?_))
      · simpa [takeClaim] using rollbackGroup_frames cause g (takeClaim .ge s)
      · refine slotsBeforeNotice_sruMatched cause ?_
        simpa using rollbackGroup_sruMatched (s := takeClaim .ge s) cause g (by simpa using h.sru)
    · exact leads_next.mpr h
  · exact leads_next.mpr h

theorem exec_geTake_workMatched {c : Instr} (h : WorkMatched s)
    (hc : c ∈ [Instr.geTakeExpiry, .geTakePeerLost, .geTakePeerRestarted, .geTakeRevoke, .geTakeStartOfLeaving]) : Leads WorkMatched (exec c s) := by
  have htaken : ∀ {w rest}, frameLater s.ge.work = w :: rest → w ≠ .frame → WorkMatched (takeOther s) := fun hw hf =>
    h.of_parts rfl h.sru (by rw [takeOther_frames hw hf]; exact h.ge) rfl
  simp only [List.mem_cons, List.not_mem_nil, or_false] at hc
  rcases hc with rfl | rfl | rfl | rfl | rfl
  · simp only [exec, execGeTakeExpiry]
    split
    · next hop hw =>
      split
      · exact leads_next.mpr (htaken hw nofun)
      · exact leads_next.mpr (beginRollbacks_workMatched _ _ nofun hop (htaken hw nofun))
    · exact leads_next.mpr h
  · simp only [exec, execGeTakePeerLost]
    split
    · next hop hw => exact leads_nextWithSelection.mpr (reselect_workMatched (beginRollbacks_workMatched _ _ nofun hop (htaken hw nofun)))
    · exact leads_next.mpr h
  · simp only [exec, execGeTakePeerRestarted]
    split
    · next hop hw => exact leads_next.mpr (beginRollbacks_workMatched _ _ nofun hop (htaken hw nofun))
    · exact leads_next.mpr h
  · simp only [exec, execGeTakeRevoke]
    split
    · next hop hw => exact leads_next.mpr (beginRollbacks_workMatched _ _ nofun hop (htaken hw nofun))
    · exact leads_next.mpr h
  · simp only [exec, execGeTakeStartOfLeaving]
    split
    · next hop hw => exact leads_next.mpr (beginRollbacks_workMatched _ _ nofun hop (htaken hw nofun))
    · exact leads_next.mpr h

end

end Sys2Proof.Machine
end

section
/-! PROOFS. Every step keeps the waiting work matched (O60): every command, and the claim of the local port. -/

namespace Sys2Proof.Machine

section
variable {s : State}

theorem writeClaimed_workMatched (la : BitVec 14) (v : Half) (h : WorkMatched s) : WorkMatched (s.writeClaimed la v) := by
  obtain ⟨hsru, hge, hte⟩ := (workMatched_iff s).mp h
  unfold State.writeClaimed
  split <;> simp [workMatched_iff, storeWords, hsru, hge, hte]

theorem workMatched_reset : WorkMatched State.reset := ((matches_iff _).mp ⟨handMatches_reset, claimsMatch_reset⟩).1

theorem exec_workMatched (c : Instr) (h : WorkMatched s) : Leads WorkMatched (exec c s) := by
  have hre : ∀ {t : State}, WorkMatched t → WorkMatched (reselect t) := reselect_workMatched
  obtain ⟨hsru, hge, hte⟩ := (workMatched_iff s).mp h
  cases hb : busOf c with
  | some b => exact workMatched_portKept.exec_bus hre hb h
  | none =>
    cases c
    case pinReset addr rate => exact leads_next.mpr ⟨workMatched_reset.sru, workMatched_reset.ge, workMatched_reset.te⟩
    case clearingDone => exact workMatched_portKept.exec_clearingDone hre (fun _ => ⟨hsru, hge, hte⟩) h
    case localWordRead => exact workMatched_portKept.exec_localWordRead hre (by simp [workMatched_iff, hsru, hge, hte]) h
    case localWordWrite => exact workMatched_portKept.exec_localWordWrite hre (fun la v => writeClaimed_workMatched la v h) h
    case localCycleEnd => exact workMatched_portKept.exec_localCycleEnd h
    case slotCapture => exact exec_slotCapture_workMatched h
    case rdsEvaluation => exact exec_rdsEvaluation_workMatched h
    case rdRangeRead | wrApply => exact exec_te_workMatched h (by simp)
    case gopen | gwrite | gclose | gabort => exact exec_groupFrame_workMatched h (by simp)
    case gwriteApply => exact exec_gwriteApply_workMatched h
    case groupCommit => exact exec_groupCommit_workMatched h
    case groupRollback => exact exec_groupRollback_workMatched h
    case geTakeExpiry | geTakePeerLost | geTakePeerRestarted | geTakeRevoke | geTakeStartOfLeaving => exact exec_geTake_workMatched h (by simp)
    case transmitSent =>
      simp only [exec, execTransmitSent]
      split
      · next o f b orphan _ =>
        have hleft : WorkMatched (updateLc (fun lc => Lc.won o.cls s.stc.address { lc with slot := .empty, view := .gap 0, receive := none }) s) := ⟨hsru, hge, hte⟩
        have hframe : ∀ {u : State}, WorkMatched u → WorkMatched (frameSent s u) := fun hu => by simpa [workMatched_iff] using (workMatched_iff _).mp hu
        refine leads_nextWithSelection.mpr (hre (hframe ?_))
        split
        · exact hleft
        · exact reportSent_workMatched o hleft
      · exact leads_next.mpr h
    case goodFrame | frameDiscarded =>
      have htaken : ∀ f, WorkMatched (takeGoodFrame f s) := fun f => takeGoodFrame_workMatched f h
      simp only [exec, execGoodFrame, execFrameDiscarded]
      (repeat' split) <;> simp only [leads_next, leads_nextWithSelection]
      all_goals (try exact h)
      all_goals (try exact hre (htaken _))
      all_goals simp [workMatched_iff, hsru, hge, hte]
    case startDelimiter | contentionWon | transmitFault | lineIdle | dominantBitInGap =>
      simp only [exec, execStartDelimiter, execContentionWon, execTransmitFault, execLineIdle, execDominantBitInGap]
      (repeat' split) <;> simp [workMatched_iff, hsru, hge, hte]
    case frameInHand => exact leads_nextWithSelection.mpr (hre (takeNextFrame_workMatched h))
    case resetRelease | quietTimerExpiry | listenTimerExpiry | leavingPresenceDue =>
      simp only [exec, execResetRelease, execQuietTimerExpiry, execListenTimerExpiry, execLeavingPresenceDue]
      (repeat' split) <;> simp [workMatched_iff, hsru, hge, hte]
    case restartPurge | lastHeardExpiry | sruTakeAnnouncement | sruTakeStartOfLeaving | discardTimerExpiry =>
      simp only [exec, execRestartPurge, execLastHeardExpiry, execSruTakeAnnouncement, execSruTakeStartOfLeaving, execDiscardTimerExpiry]
      (repeat' split) <;> simp [workMatched_iff, hsru, hge, hte]
    case idleTimerExpiry =>
      simp only [exec, execIdleTimerExpiry]
      (repeat' split) <;> simp [workMatched_iff, updateGe, hsru, hge, hte]
    case reTakeAnnouncement | reTakeStartOfLeaving | responseWindowExpiry | backoffExpiry | deferralDeadlineExpiry =>
      simp only [exec, execReTakeAnnouncement, execReTakeStartOfLeaving, execResponseWindowExpiry, execBackoffExpiry, execDeferralDeadlineExpiry]
      (repeat' split) <;> simp [workMatched_iff, hsru, hge, hte]
    all_goals nomatch hb

/-! ### The claim of the local port (R141) -/

/-- The port has its claim exactly while its cycle waits for one. -/
def PortMatched (s : State) : Prop := LpMatched (s.sgm.claims.count .lp) (s.lp.cycle.map (·.work))

/-- A cycle that waits for no claim, and no claim of the port. -/
theorem portMatched_of_zero (h : s.sgm.claims.count .lp = 0) (hw : s.lp.cycle.map (·.work) ≠ some .claim) : PortMatched s := by
  rw [PortMatched, LpMatched, h, if_neg hw]

theorem PortMatched.zero (h : PortMatched s) (hw : s.lp.cycle.map (·.work) ≠ some .claim) : s.sgm.claims.count .lp = 0 := by
  rw [PortMatched, LpMatched, if_neg hw] at h
  exact h

@[simp] theorem takeCommand_portCount (c : Command) (s : State) : (takeCommand c s).sgm.claims.count .lp = s.sgm.claims.count .lp := by
  cases c with
  | leave =>
    show (commandLeave s).sgm.claims.count .lp = s.sgm.claims.count .lp
    cases hs : s.stc.state with
    | listening =>
      rw [commandLeave_of_listening hs, leaveListening_eq]
      simp
    | _ => simp [commandLeave, leaveJoined, hs]
  | _ => simp [takeCommand]

theorem writeLocation_portCount (la : Nat) (v : Half) (s : State) : (writeLocation la v s).sgm.claims.count .lp = s.sgm.claims.count .lp := by
  unfold writeLocation writeWindow writeCommand
  (repeat' split) <;> simp

theorem beginCycle_portMatched (b : BusCycle) (h : s.sgm.claims.count .lp = 0) : PortMatched (beginCycle b s) := by
  have hclaim : ∀ b, PortMatched (beginClaim b s) := fun b => by simp [PortMatched, LpMatched, beginClaim, setCycle, h]
  have hset : ∀ (u : State) b strobe w, u.sgm.claims.count .lp = 0 → w ≠ .claim → PortMatched (setCycle (some ⟨b, strobe, w⟩) u) := fun u b strobe w hu hw =>
    portMatched_of_zero hu fun hc => hw (Option.some.inj hc)
  have hnone : ∀ b v (work : State → State), (work s).sgm = s.sgm → PortMatched (beginNoClaim b v work s) := fun b v work hwork => by
    unfold beginNoClaim
    split
    · exact hset _ _ _ _ h nofun
    · exact hset _ _ _ _ (by rw [hwork]; exact h) nofun
  cases b with
  | read la =>
    show PortMatched (beginRead la s)
    unfold beginRead
    split
    · split
      · split
        · exact hnone _ _ _ rfl
        · exact hclaim _
      · exact hclaim _
    · refine hset _ _ _ _ ?_ nofun
      unfold countRead snapshotFor takeSnapshot countFree
      (repeat' split) <;> exact h
  | write la v =>
    show PortMatched (beginWrite la v s)
    unfold beginWrite
    split
    · split
      · exact hclaim _
      · exact hnone _ _ _ rfl
    · exact hset _ _ _ _ ((writeLocation_portCount _ _ _).trans h) nofun

theorem raiseStrobe_portMatched (h : PortMatched s) : PortMatched (raiseStrobe s) := by
  unfold raiseStrobe
  split
  · exact h
  · next hc => exact portMatched_of_zero (h.zero (by rw [hc]; nofun)) nofun
  · next hc =>
    rw [PortMatched, hc] at h
    exact h
  · exact h

theorem busCycle_portMatched (b : BusCycle) (h : PortMatched s) : PortMatched (busCycle b s) := by
  unfold busCycle
  split
  · exact h
  · have hraised := raiseStrobe_portMatched h
    unfold presentStrobe
    split
    · next hc => exact beginCycle_portMatched b (hraised.zero (by rw [hc]; nofun))
    · exact hraised

theorem beginWaiting_portMatched (h : s.sgm.claims.count .lp = 0) (hc : s.lp.cycle = none) : PortMatched (beginWaiting s) := by
  unfold beginWaiting
  split
  · exact portMatched_of_zero h (by rw [hc]; nofun)
  · exact beginCycle_portMatched (s := { s with lp := { s.lp with nextStrobe := none } }) _ h

theorem workDone_portMatched (c : Cycle) (v : Half) (h : s.sgm.claims.count .lp = 0) : PortMatched (workDone c v s) := by
  unfold workDone
  split
  · exact portMatched_of_zero h nofun
  · exact beginWaiting_portMatched h rfl

/-- The claim of the port's cycle, when granted, is its only one. -/
theorem PortMatched.one {c : Cycle} (h : PortMatched s) (hc : claimingCycle s = some c) : s.sgm.claims.count .lp = 1 := by
  unfold claimingCycle at hc
  split at hc
  · next hcycle =>
    rw [PortMatched, hcycle] at h
    exact h
  · exact nomatch hc

theorem exec_portClaim_portMatched {c : Instr} (h : PortMatched s) (hc : c = .localWordRead ∨ c = .localWordWrite) : Leads PortMatched (exec c s) := by
  have hre : ∀ {t : State}, PortMatched t → PortMatched (reselect t) := fun ht => by simpa [PortMatched] using ht
  rcases hc with rfl | rfl
  · simp only [exec, execLocalWordRead]
    split
    · next hcycle =>
      split
      · refine leads_nextWithSelection.mpr (hre ?_)
        have hzero : (takeClaim .lp s).sgm.claims.count .lp = 0 := by simp [h.one hcycle]
        unfold localWordRead
        split <;> exact workDone_portMatched _ _ hzero
      · exact leads_next.mpr h
    · exact leads_next.mpr h
  · simp only [exec, execLocalWordWrite]
    split
    · next hcycle =>
      split
      · refine leads_nextWithSelection.mpr (hre (workDone_portMatched _ _ ?_))
        unfold dropStaged
        dsimp only
        split <;> simp [storeWords, h.one hcycle]
      · exact leads_next.mpr h
    · exact leads_next.mpr h

theorem exec_clearingDone_portMatched (h : PortMatched s) : Leads PortMatched (exec .clearingDone s) := by
  by_cases hcl : s.sgm.clearing = true
  · rw [exec_clearingDone hcl, leads_next]
    have hcleared : PortMatched s.cleared := by simpa [PortMatched, State.cleared] using h
    have hresumed : PortMatched (resumeAfterClearing s.cleared) := by
      unfold resumeAfterClearing
      split
      · next hc => exact workDone_portMatched _ _ (hcleared.zero (by rw [hc]; nofun))
      · next hc => exact workDone_portMatched _ _ (hcleared.zero (by rw [hc]; nofun))
      · exact hcleared
    simpa [PortMatched] using hresumed
  · simpa only [exec, execClearingDone, if_neg hcl, leads_next] using h

/-! ### What is none of the port's leaves its claim -/

@[simp] theorem takeNextFrame_portCount (s : State) : (takeNextFrame s).sgm.claims.count .lp = s.sgm.claims.count .lp := by
  unfold takeNextFrame checkSequence replayOrEvaluate evaluate dispatchRequest afterTests
  (repeat' split) <;> simp [takeInHand]

@[simp] theorem passToTarget_portCount (f : Frame) (s : State) : (passToTarget f s).sgm.claims.count .lp = s.sgm.claims.count .lp := by
  unfold passToTarget passRequest enterInput takeRestartOf
  dsimp only
  (repeat' split) <;> simp

@[simp] theorem takeGoodFrame_portCount (f : Frame) (s : State) : (takeGoodFrame f s).sgm.claims.count .lp = s.sgm.claims.count .lp := by
  unfold takeGoodFrame takeResponseFrame
  dsimp only
  (repeat' split) <;> simp

@[simp] theorem endOperation_portCount (fin : OpEnd) (s : State) : (endOperation fin s).sgm.claims.count .lp = s.sgm.claims.count .lp := by
  unfold endOperation
  (repeat' split) <;> simp

@[simp] theorem beginRollbacks_portCount (cause : AbortCause) (list : List (Fin 4)) (fin : OpEnd) (s : State) :
    (beginRollbacks cause list fin s).sgm.claims.count .lp = s.sgm.claims.count .lp := by
  unfold beginRollbacks
  split <;> simp

@[simp] theorem afterRollback_portCount (cause : AbortCause) (list : List (Fin 4)) (fin : OpEnd) (s : State) :
    (afterRollback cause list fin s).sgm.claims.count .lp = s.sgm.claims.count .lp := by
  unfold afterRollback
  split <;> simp

@[simp] theorem reportSent_portCount (o : Offer) (s : State) : (reportSent o s).sgm.claims.count .lp = s.sgm.claims.count .lp := by
  cases o with
  | presence m =>
    show (presenceSent m s).sgm.claims.count .lp = s.sgm.claims.count .lp
    unfold presenceSent
    split
    · cases m with
      | leaving =>
        dsimp only
        rw [endLeaving_eq]
        simp
      | _ => simp
    · rfl
  | _ => simp [reportSent]

/-- The commands that are none of the port's leave its claims and its cycle. -/
theorem exec_other_portMatched {c : Instr} (hb : busOf c = none)
    (hc : c ∉ [Instr.clearingDone, .localWordRead, .localWordWrite, .localCycleEnd]) (hp : ∀ a r, c ≠ .pinReset a r)
    (h : LpMatched (s.sgm.claims.count .lp) (s.lp.cycle.map (·.work))) :
    Leads (fun t => LpMatched (t.sgm.claims.count .lp) (t.lp.cycle.map (·.work))) (exec c s) := by
  cases c
  case pinReset addr rate => exact absurd rfl (hp addr rate)
  case clearingDone | localWordRead | localWordWrite | localCycleEnd => exact absurd hc (by simp)
  case resetRelease | quietTimerExpiry | listenTimerExpiry | leavingPresenceDue =>
    simp only [exec, execResetRelease, execQuietTimerExpiry, execListenTimerExpiry, execLeavingPresenceDue]
    (repeat' split) <;> simp [h]
  case startDelimiter | contentionWon | transmitSent | transmitFault | lineIdle | goodFrame | frameDiscarded | dominantBitInGap =>
    simp only [exec, execStartDelimiter, execContentionWon, execTransmitSent, execTransmitFault, execLineIdle, execGoodFrame, execFrameDiscarded,
      execDominantBitInGap]
    (repeat' split) <;> simp [h]
  case frameInHand | rdRangeRead | wrApply | restartPurge | lastHeardExpiry =>
    simp only [exec, execFrameInHand, execRdRangeRead, execWrApply, execRestartPurge, execLastHeardExpiry]
    (repeat' split) <;> simp [h, storeWords]
  case rdsEvaluation | slotCapture | sruTakeAnnouncement | sruTakeStartOfLeaving | discardTimerExpiry =>
    simp only [exec, execRdsEvaluation, execSlotCapture, execSruTakeAnnouncement, execSruTakeStartOfLeaving, execDiscardTimerExpiry]
    (repeat' split) <;> simp [h, sruWorkDone]
  case gopen | gwrite | gwriteApply | gclose | groupCommit | gabort | groupRollback =>
    simp only [exec, execGopen, execGwrite, execGwriteApply, execGclose, execGroupCommit, execGabort, execGroupRollback]
    (repeat' split) <;> simp [h, storeWords]
  case idleTimerExpiry | geTakeExpiry | geTakePeerLost | geTakePeerRestarted | geTakeRevoke | geTakeStartOfLeaving =>
    simp only [exec, execIdleTimerExpiry, execGeTakeExpiry, execGeTakePeerLost, execGeTakePeerRestarted, execGeTakeRevoke, execGeTakeStartOfLeaving]
    (repeat' split) <;> simp [h]
  case reTakeAnnouncement | reTakeStartOfLeaving | responseWindowExpiry | backoffExpiry | deferralDeadlineExpiry =>
    simp only [exec, execReTakeAnnouncement, execReTakeStartOfLeaving, execResponseWindowExpiry, execBackoffExpiry, execDeferralDeadlineExpiry]
    (repeat' split) <;> simp [h]
  all_goals exact nomatch hb

theorem exec_portMatched (c : Instr) (h : PortMatched s) : Leads PortMatched (exec c s) := by
  have hre : ∀ {t : State}, PortMatched t → PortMatched (reselect t) := fun ht => by simpa [PortMatched] using ht
  cases hb : busOf c with
  | some b =>
    have hcycle := busCycle_portMatched b h
    rcases exec_of_busOf_at hb s with he | he <;> rw [he, leads_next]
    · exact hcycle
    · exact hre hcycle
  | none =>
    by_cases hc : c ∈ [Instr.clearingDone, .localWordRead, .localWordWrite, .localCycleEnd]
    · simp only [List.mem_cons, List.not_mem_nil, or_false] at hc
      rcases hc with rfl | rfl | rfl | rfl
      · exact exec_clearingDone_portMatched h
      · exact exec_portClaim_portMatched h (Or.inl rfl)
      · exact exec_portClaim_portMatched h (Or.inr rfl)
      · exact leads_next.mpr (raiseStrobe_portMatched h)
    by_cases hp : ∃ a r, c = .pinReset a r
    · obtain ⟨addr, rate, rfl⟩ := hp
      exact leads_next.mpr (portMatched_of_zero rfl nofun)
    · exact exec_other_portMatched hb hc (fun a r hr => hp ⟨a, r, hr⟩) h

end

/-! ### Every step -/

/-- Settles O60. -/
theorem waitingWorkMatches : Obligations.WaitingWorkMatches := fun s t hh hc h => by
  rw [matches_iff]
  have hm := (matches_iff s).mp ⟨hh, hc⟩
  exact step_keeps (I := fun u => WorkMatched u ∧ PortMatched u) (fun _ hu => ⟨⟨hu.1.sru, hu.1.ge, hu.1.te⟩, hu.2⟩)
    (fun c _ hu t ht => ⟨exec_workMatched c hu.1 t ht, exec_portMatched c hu.2 t ht⟩) hm h

end Sys2Proof.Machine
end

section
/-! PROOFS. The laws of reset and clearing are kept (O53): nothing moves while RESET# is low, and in CLEARING nothing but the port, the line and the configuration. -/

namespace Sys2Proof.Machine

/-! ### The blocks in CLEARING (R13, R131, R148) -/

/-- The station is in CLEARING, with every block but the port, the line and the configuration as pin reset left it. -/
structure Idle (s : State) : Prop where
  state : s.stc.state = .clearing
  ge : s.ge = State.reset.ge
  sru : s.sru = State.reset.sru
  te : s.te = State.reset.te
  pt : s.pt = State.reset.pt
  re : s.re = State.reset.re
  slot : s.lc.slot = .empty
  listen : s.stc.listen = .stopped
  quiet : s.stc.quiet = .stopped
  due : s.stc.due = none
  completions : s.lp.completions = []
  events : s.lp.events = []
  eventsLost : s.lp.eventsLost = false

section
variable {s t : State}

theorem ClearingLaws.idle (h : ClearingLaws s) (hs : s.stc.state = .clearing) : Idle s := by
  obtain ⟨hge, hsru, hte, hpt, hre, hslot, hlisten, hquiet, hdue, hc, he, hl⟩ := h.blocks hs
  exact ⟨hs, hge, hsru, hte, hpt, hre, hslot, hlisten, hquiet, hdue, hc, he, hl⟩

theorem HeldInReset.idle (h : HeldInReset s) : Idle s := by
  rw [h]
  exact ⟨rfl, rfl, rfl, rfl, rfl, rfl, rfl, rfl, rfl, rfl, rfl, rfl, rfl⟩

namespace Idle

theorem work (h : Idle s) : s.ge.work = [] ∧ s.ge.op = none ∧ s.sru.work = [] := by
  rw [h.ge, h.sru]
  exact ⟨rfl, rfl, rfl⟩

theorem hand (h : Idle s) : s.te.hand = none ∧ s.te.input = none := by
  rw [h.te]
  exact ⟨rfl, rfl⟩

theorem waiting (h : Idle s) : s.sru.announced = none ∧ s.sru.startOfLeaving = false ∧ s.te.restarted = none ∧ s.re.announced = none ∧
    s.re.startOfLeaving = false := by
  rw [h.sru, h.te, h.re]
  exact ⟨rfl, rfl, rfl, rfl, rfl⟩

theorem entry (h : Idle s) (e : Fin 8) : s.re.table.at e = none := by rw [h.re]; exact reset_entry e

theorem group (h : Idle s) (g : Fin 4) : s.ge.table.at g = none := by rw [h.ge]; exact reset_group g

theorem freeSlot (h : Idle s) (i : Fin 4) : s.sru.slots.at i = none := by rw [h.sru]; exact reset_slot i

theorem peer (h : Idle s) (p : Station) : s.pt.peers.at p = Peer.reset := by rw [h.pt]; exact reset_peer p

/-- Nothing is chosen (R121). -/
theorem nothing_offered (h : Idle s) : selectOffer s = none := by
  simp only [selectOffer, h.state]

end Idle

end

/-- The commands that are steps of the SRU, the TE, the GE, the RE and the PT, and the timers of Station Control. -/
def movesBlock : Instr → Bool
  | .frameInHand | .rdRangeRead | .wrApply | .restartPurge | .lastHeardExpiry _ | .rdsEvaluation | .slotCapture | .sruTakeAnnouncement
  | .sruTakeStartOfLeaving | .discardTimerExpiry _ | .gopen | .gwrite | .gwriteApply | .gclose | .groupCommit | .gabort | .groupRollback
  | .idleTimerExpiry _ | .geTakeExpiry | .geTakePeerLost | .geTakePeerRestarted | .geTakeRevoke | .geTakeStartOfLeaving | .reTakeAnnouncement
  | .reTakeStartOfLeaving | .responseWindowExpiry _ | .backoffExpiry _ | .deferralDeadlineExpiry _ | .quietTimerExpiry | .listenTimerExpiry
  | .leavingPresenceDue => true
  | _ => false

section
variable {s : State}

/-- Those commands have nothing to do. -/
theorem Idle.exec_block (h : Idle s) {c : Instr} (hc : movesBlock c = true) : exec c s = .next s ∨ exec c s = .next (reselect s) := by
  obtain ⟨hwork, hop, hsru⟩ := h.work
  obtain ⟨hhand, hinput⟩ := h.hand
  obtain ⟨hannounced, hleaves, hrestarted, htold, hcancels⟩ := h.waiting
  cases c
  case frameInHand | rdRangeRead | wrApply | rdsEvaluation | slotCapture =>
    simp [exec, execFrameInHand, takeNextFrame, execRdRangeRead, execWrApply, execRdsEvaluation, execSlotCapture, nextWithSelection, hhand, hinput, hsru]
  case restartPurge | sruTakeAnnouncement | sruTakeStartOfLeaving | reTakeAnnouncement | reTakeStartOfLeaving =>
    simp [exec, execRestartPurge, restartPurge, execSruTakeAnnouncement, sruTakeAnnouncement, execSruTakeStartOfLeaving, sruTakeStartOfLeaving,
      execReTakeAnnouncement, reTakeAnnouncement, execReTakeStartOfLeaving, reTakeStartOfLeaving, nextWithSelection, hannounced, hleaves, hrestarted, htold, hcancels]
  case lastHeardExpiry p =>
    simp [exec, execLastHeardExpiry, h.peer, Peer.settled, Peer.reset]
  case discardTimerExpiry i => simp [exec, execDiscardTimerExpiry, h.freeSlot]
  case gopen | gwrite | gclose | gabort => simp [exec, execGopen, execGwrite, execGclose, execGabort, frameTaken, hhand, hwork]
  case gwriteApply | groupCommit | groupRollback => simp [exec, execGwriteApply, execGroupCommit, execGroupRollback, hop]
  case idleTimerExpiry g => simp [exec, execIdleTimerExpiry, h.group]
  case geTakeExpiry | geTakePeerLost | geTakePeerRestarted | geTakeRevoke | geTakeStartOfLeaving =>
    simp [exec, execGeTakeExpiry, execGeTakePeerLost, execGeTakePeerRestarted, execGeTakeRevoke, execGeTakeStartOfLeaving, frameLater, hwork]
  case responseWindowExpiry e | backoffExpiry e | deferralDeadlineExpiry e =>
    simp [exec, execResponseWindowExpiry, execBackoffExpiry, execDeferralDeadlineExpiry, h.entry]
  case quietTimerExpiry | listenTimerExpiry => simp [exec, execQuietTimerExpiry, execListenTimerExpiry, Timer.isRunning, h.quiet, h.listen]
  case leavingPresenceDue => simp [exec, execLeavingPresenceDue, leavingDone, h.state]
  all_goals exact nomatch hc

/-! ### While RESET# is low (R13, R131) -/

theorem HeldInReset.resetLow (h : HeldInReset s) : s.resetLow = true := by rw [h]; rfl

theorem HeldInReset.line (h : HeldInReset s) : s.lc.view = .gap 0 ∧ s.lc.receive = none := by
  rw [h]
  exact ⟨rfl, rfl⟩

theorem HeldInReset.port (h : HeldInReset s) : s.lp.cycle = none ∧ s.sgm.clearing = false := by
  rw [h]
  exact ⟨rfl, rfl⟩

/-- While RESET# is low no command but those of RESET# does anything. -/
theorem exec_of_held {c : Instr} (h : HeldInReset s) (hc : movesReset c = false) : exec c s = .next s := by
  obtain ⟨hview, hreceive⟩ := h.line
  obtain ⟨hcycle, hclearing⟩ := h.port
  have hre : reselect s = s := by
    unfold reselect
    rw [if_neg (by rw [hview]; nofun)]
  cases hb : busOf c with
  | some b =>
    have hbus : busCycle b s = s := by unfold busCycle; rw [if_pos h.resetLow]
    rcases exec_of_busOf_at hb s with he | he <;> rw [he, hbus]
    rw [hre]
  | none =>
    cases hm : movesBlock c with
    | true =>
      rcases h.idle.exec_block hm with he | he <;> rw [he]
      rw [hre]
    | false =>
      cases c
      case clearingDone => simp [exec, execClearingDone, hclearing]
      case localWordRead | localWordWrite | localCycleEnd =>
        simp [exec, execLocalWordRead, execLocalWordWrite, claimingCycle, execLocalCycleEnd, raiseStrobe, hcycle]
      case startDelimiter k => simp [exec, execStartDelimiter, hview]
      case contentionWon | transmitSent | transmitFault => simp [exec, execContentionWon, execTransmitSent, execTransmitFault, h.idle.slot]
      case goodFrame | frameDiscarded => simp [exec, execGoodFrame, execFrameDiscarded, receiving, hreceive]
      case lineIdle => simp [exec, execLineIdle, h.resetLow]
      case dominantBitInGap =>
        have hlc : ({ s.lc with view := .gap 0 } : Lc) = s.lc := by rw [← hview]
        simp only [exec, execDominantBitInGap, hview, updateLc, hlc]
      case pinReset | resetRelease => exact nomatch hc
      all_goals cases hb <;> cases hm

/-! ### In CLEARING, RESET# high -/

/-- The clearing claim is in progress. -/
def Clearing (s : State) : Prop := Idle s ∧ s.sgm.clearing = true

theorem Idle.of_same {t : State} (h : Idle s) (hge : t.ge = s.ge) (hsru : t.sru = s.sru) (hte : t.te = s.te) (hpt : t.pt = s.pt) (hre : t.re = s.re)
    (hslot : t.lc.slot = s.lc.slot) (hstc : t.stc.state = s.stc.state ∧ t.stc.listen = s.stc.listen ∧ t.stc.quiet = s.stc.quiet ∧ t.stc.due = s.stc.due)
    (hlp : t.lp.completions = s.lp.completions ∧ t.lp.events = s.lp.events ∧ t.lp.eventsLost = s.lp.eventsLost) : Idle t := by
  obtain ⟨hst, hlisten, hquiet, hdue⟩ := hstc
  obtain ⟨hc, he, hl⟩ := hlp
  exact ⟨hst.trans h.state, hge.trans h.ge, hsru.trans h.sru, hte.trans h.te, hpt.trans h.pt, hre.trans h.re, hslot.trans h.slot, hlisten.trans h.listen,
    hquiet.trans h.quiet, hdue.trans h.due, hc.trans h.completions, he.trans h.events, hl.trans h.eventsLost⟩

theorem Clearing.of_line {lc : Lc} {n : Nat} (h : Clearing s) (hslot : lc.slot = .empty) : Clearing { s with lc := lc, freeCount := n } :=
  ⟨h.1.of_same rfl rfl rfl rfl rfl (hslot.trans h.1.slot.symm) ⟨rfl, rfl, rfl, rfl⟩ ⟨rfl, rfl, rfl⟩, h.2⟩

theorem reselect_clearing {t : State} (h : Clearing t) : Clearing (reselect t) := by
  unfold reselect
  split
  · rw [h.1.nothing_offered]
    exact h.of_line rfl
  · exact h

theorem takeCommand_clearing (c : Command) (h : Clearing s) : Clearing (takeCommand c s) := by
  have hset : ∀ r, Clearing (setCommand c r s) := fun r => ⟨h.1.of_same rfl rfl rfl rfl rfl rfl ⟨rfl, rfl, rfl, rfl⟩ ⟨rfl, rfl, rfl⟩, h.2⟩
  have hst := Or.inl (b := s.stc.state = .listening ∨ s.stc.state = .joined) h.1.state
  cases c with
  | configure => rw [takeCommand, commandConfigure_of_running hst]; exact hset _
  | join => rw [takeCommand, commandJoin_of_running hst]; exact hset _
  | leave => rw [takeCommand, commandLeave_of_offLink (Or.inl h.1.state)]; exact hset _
  | revoke => rw [takeCommand, commandRevoke_of_outside (Or.inl h.1.state)]; exact hset _

theorem clearing_portKept : PortKept Clearing where
  moved {s t} hm h :=
    ⟨h.1.of_same (congrArg (·.ge) hm) (congrArg (·.sru) hm) (congrArg (·.te) hm) (congrArg (·.pt) hm) (congrArg (·.re) hm) (congrArg (·.lc.slot) hm)
      ⟨congrArg (·.stc.state) hm, congrArg (·.stc.listen) hm, congrArg (·.stc.quiet) hm, congrArg (·.stc.due) hm⟩
      ⟨congrArg (·.lp.completions) hm, congrArg (·.lp.events) hm, congrArg (·.lp.eventsLost) hm⟩, (congrArg (·.sgm.clearing) hm).trans h.2⟩
  claim h := ⟨h.1.of_same rfl rfl rfl rfl rfl rfl ⟨rfl, rfl, rfl, rfl⟩ ⟨rfl, rfl, rfl⟩, h.2⟩
  buffer b j high v h := ⟨h.1.of_same (by simp) (by simp) (by simp) (by simp) (by simp) (by simp) (by simp) (by simp), by simpa using h.2⟩
  post {s} h := by
    have hd : decidePost s s.lp.window = .notJoined := by unfold decidePost; rw [if_pos (by rw [h.1.state]; nofun)]
    simp only [postWindow, hd]
    exact ⟨h.1.of_same rfl rfl rfl rfl rfl rfl ⟨rfl, rfl, rfl, rfl⟩ ⟨rfl, rfl, rfl⟩, h.2⟩
  completion {s} h := by simpa only [consumeCompletion, h.1.completions] using h
  event {s} h := by simpa only [consumeEvent, h.1.events] using h
  command c h := takeCommand_clearing c h

/-- A good frame reaches no block in CLEARING, where only the last winner takes it (R82, R104, R127). -/
theorem takeGoodFrame_clearing (f : Frame) (h : Clearing s) : Clearing (takeGoodFrame f s) := by
  have hheard : ∀ u : State, u.stc.state = .clearing → hear f u = u := fun u hu => by simp [hear, ptUsesFrames, hu]
  have hpassed : ∀ u : State, Clearing u → passToRequester f u = u := fun u hu => by
    have hnone : ∀ p q, matchingEntry u p q = none := fun p q => by
      unfold matchingEntry
      rw [List.find?_eq_none]
      intro e _
      simp [entryMatches, hu.1.entry e]
    unfold passToRequester takeResponse
    (repeat' split) <;> simp_all
  have hended : Clearing (updateLc (Lc.won f.cls f.sender) (endReception s)) := by
    have hslot : s.lc.slot.withdrawn = .empty := by rw [h.1.slot]; rfl
    cases hcls : f.cls <;> exact h.of_line hslot
  have hst := hended.1.state
  unfold takeGoodFrame takeResponseFrame
  dsimp only
  split
  · split
    · rw [hheard _ hst]; exact hended
    · have hcounted : Clearing (countFree (updateLc (Lc.won f.cls f.sender) (endReception s))) := hended.of_line hended.1.slot
      split
      · rw [hpassed _ hcounted, hheard _ hcounted.1.state]; exact hcounted
      · rw [hheard _ hcounted.1.state, hpassed _ hcounted]; exact hcounted
  · have hunused : ptUsesFrames (updateLc (Lc.won f.cls f.sender) (endReception s)) = false := by unfold ptUsesFrames; rw [hst]
    rw [hheard _ hst]
    simpa only [passToTarget, hunused, Bool.and_false, Bool.false_and, Bool.false_eq_true, if_false] using hended

/-- No claim is granted while the clearing claim is in progress (R13). -/
theorem Clearing.not_granted (h : Clearing s) (c : Claimant) : granted c s = false := by
  unfold granted
  rw [h.2]
  rfl

/-- In CLEARING every command but those of RESET# and the end of clearing leaves the blocks idle. -/
theorem exec_clearing {c : Instr} (h : Clearing s) (hc : movesReset c = false) (hd : c ≠ .clearingDone) : Leads Clearing (exec c s) := by
  have hre : ∀ {t : State}, Clearing t → Clearing (reselect t) := reselect_clearing
  cases hb : busOf c with
  | some b => exact clearing_portKept.exec_bus hre hb h
  | none =>
    cases hm : movesBlock c with
    | true =>
      rcases h.1.exec_block hm with he | he <;> rw [he, leads_next]
      · exact h
      · exact hre h
    | false =>
      have hended : Clearing (endReception s) := h.of_line (show s.lc.slot.withdrawn = .empty by rw [h.1.slot]; rfl)
      cases c
      case clearingDone => exact absurd rfl hd
      case localWordRead | localWordWrite =>
        simp only [exec, execLocalWordRead, execLocalWordWrite, h.not_granted]
        split <;> exact leads_next.mpr h
      case localCycleEnd => exact clearing_portKept.exec_localCycleEnd h
      case startDelimiter k =>
        simp only [exec, execStartDelimiter]
        split
        · exact leads_next.mpr (h.of_line (by simp only [slotAfterKey, h.1.nothing_offered]))
        · exact leads_next.mpr h
      case contentionWon | transmitSent | transmitFault =>
        simp only [exec, execContentionWon, execTransmitSent, execTransmitFault, h.1.slot]
        exact leads_next.mpr h
      case goodFrame f =>
        simp only [exec, execGoodFrame]
        split
        · split
          · exact leads_nextWithSelection.mpr (hre (takeGoodFrame_clearing f h))
          · exact leads_next.mpr hended
        · exact leads_next.mpr h
      case frameDiscarded bits =>
        simp only [exec, execFrameDiscarded]
        split
        · split
          · exact leads_next.mpr h
          · exact leads_next.mpr hended
          · exact leads_nextWithSelection.mpr (hre (takeGoodFrame_clearing _ h))
        · exact leads_next.mpr h
      case lineIdle =>
        simp only [exec, execLineIdle]
        split
        · exact leads_next.mpr h
        · split
          · exact leads_next.mpr h
          · exact leads_nextWithSelection.mpr (hre (h.of_line h.1.slot))
          · split
            · exact leads_next.mpr h
            · exact leads_nextWithSelection.mpr (hre (hended.of_line hended.1.slot))
      case dominantBitInGap =>
        simp only [exec, execDominantBitInGap]
        split
        · exact leads_next.mpr (h.of_line h.1.slot)
        · exact leads_next.mpr h
      case pinReset | resetRelease => exact nomatch hc
      all_goals cases hb <;> cases hm

/-! ### After clearing -/

/-- The station has left CLEARING, and its clearing claim is performed. -/
def Cleared (s : State) : Prop := s.stc.state ≠ .clearing ∧ s.sgm.clearing = false

theorem takeCommand_cleared (c : Command) (h : Cleared s) : Cleared (takeCommand c s) := by
  refine ⟨?_, by simpa using h.2⟩
  cases c with
  | configure => simpa [takeCommand] using h.1
  | revoke => simpa [takeCommand] using h.1
  | join =>
    show (commandJoin s).stc.state ≠ .clearing
    unfold commandJoin
    split
    · simp [joinInSetup, updateStc, enterState_eq]
    · exact h.1
    · exact h.1
  | leave =>
    show (commandLeave s).stc.state ≠ .clearing
    cases hs : s.stc.state with
    | listening => rw [commandLeave_of_listening hs, leaveListening_eq]; nofun
    | joined => rw [commandLeave_of_joined hs, leaveJoined_eq]; nofun
    | clearing => exact absurd hs h.1
    | setup => simp [commandLeave, hs]
    | leaving => simp [commandLeave, hs]

theorem reportSent_cleared (o : Offer) (h : Cleared s) : Cleared (reportSent o s) := by
  refine ⟨?_, by simpa using h.2⟩
  cases o with
  | presence m =>
    show (presenceSent m s).stc.state ≠ .clearing
    unfold presenceSent
    split
    · cases m with
      | plain => exact h.1
      | fresh =>
        dsimp only [freshSent]
        split
        · simp [updateStc, enterState_eq]
        · exact h.1
      | leaving =>
        dsimp only
        rw [endLeaving_eq]
        nofun
    · exact h.1
  | _ => simpa [reportSent] using h.1

theorem cleared_portKept : PortKept Cleared where
  moved {s t} hm h := ⟨(congrArg (·.stc.state) hm : t.stc.state = s.stc.state) ▸ h.1, (congrArg (·.sgm.clearing) hm).trans h.2⟩
  claim h := h
  buffer b j high v h := by simpa [Cleared] using h
  post h := by simpa [Cleared] using h
  completion h := by simpa [Cleared] using h
  event h := by simpa [Cleared] using h
  command c h := takeCommand_cleared c h

theorem reselect_cleared {t : State} (h : Cleared t) : Cleared (reselect t) := by simpa [Cleared] using h

theorem writeClaimed_cleared (la : BitVec 14) (v : Half) (h : Cleared s) : Cleared (s.writeClaimed la v) := by
  unfold State.writeClaimed
  split <;> simpa [Cleared, storeWords, takeClaim] using h

/-- CLEARING is entered by pin reset alone. -/
theorem exec_cleared {c : Instr} (h : Cleared s) (hc : movesReset c = false) : Leads Cleared (exec c s) := by
  have hre : ∀ {t : State}, Cleared t → Cleared (reselect t) := reselect_cleared
  obtain ⟨hst, hcl⟩ := h
  cases hb : busOf c with
  | some b => exact cleared_portKept.exec_bus hre hb ⟨hst, hcl⟩
  | none =>
    cases c
    case clearingDone => simp [exec, execClearingDone, hcl, Cleared, hst]
    case localWordRead => exact cleared_portKept.exec_localWordRead hre ⟨hst, hcl⟩ ⟨hst, hcl⟩
    case localWordWrite => exact cleared_portKept.exec_localWordWrite hre (fun la v => writeClaimed_cleared la v ⟨hst, hcl⟩) ⟨hst, hcl⟩
    case localCycleEnd => exact cleared_portKept.exec_localCycleEnd ⟨hst, hcl⟩
    case transmitSent =>
      simp only [exec, execTransmitSent]
      split
      · next o f b orphan _ =>
        have hleft : Cleared (updateLc (fun lc => Lc.won o.cls s.stc.address { lc with slot := .empty, view := .gap 0, receive := none }) s) := ⟨hst, hcl⟩
        refine leads_nextWithSelection.mpr (hre ?_)
        split
        · simpa [Cleared] using hleft
        · simpa [Cleared] using reportSent_cleared o hleft
      · exact leads_next.mpr ⟨hst, hcl⟩
    case startDelimiter | contentionWon | transmitFault | lineIdle | goodFrame | frameDiscarded | dominantBitInGap =>
      simp only [exec, execStartDelimiter, execContentionWon, execTransmitFault, execLineIdle, execGoodFrame, execFrameDiscarded, execDominantBitInGap]
      (repeat' split) <;> simp [Cleared, hst, hcl]
    case quietTimerExpiry | listenTimerExpiry | leavingPresenceDue =>
      simp only [exec, execQuietTimerExpiry, execListenTimerExpiry, execLeavingPresenceDue]
      (repeat' split) <;> simp [Cleared, updateStc, hst, hcl]
    case frameInHand | rdRangeRead | wrApply | restartPurge | lastHeardExpiry =>
      simp only [exec, execFrameInHand, execRdRangeRead, execWrApply, execRestartPurge, execLastHeardExpiry]
      (repeat' split) <;> simp [Cleared, hst, hcl]
    case rdsEvaluation | slotCapture | sruTakeAnnouncement | sruTakeStartOfLeaving | discardTimerExpiry =>
      simp only [exec, execRdsEvaluation, execSlotCapture, execSruTakeAnnouncement, execSruTakeStartOfLeaving, execDiscardTimerExpiry]
      (repeat' split) <;> simp [Cleared, hst, hcl]
    case gopen | gwrite | gwriteApply | gclose | groupCommit | gabort | groupRollback =>
      simp only [exec, execGopen, execGwrite, execGwriteApply, execGclose, execGroupCommit, execGabort, execGroupRollback]
      (repeat' split) <;> simp [Cleared, hst, hcl]
    case idleTimerExpiry | geTakeExpiry | geTakePeerLost | geTakePeerRestarted | geTakeRevoke | geTakeStartOfLeaving =>
      simp only [exec, execIdleTimerExpiry, execGeTakeExpiry, execGeTakePeerLost, execGeTakePeerRestarted, execGeTakeRevoke, execGeTakeStartOfLeaving]
      (repeat' split) <;> simp [Cleared, hst, hcl]
    case reTakeAnnouncement | reTakeStartOfLeaving | responseWindowExpiry | backoffExpiry | deferralDeadlineExpiry =>
      simp only [exec, execReTakeAnnouncement, execReTakeStartOfLeaving, execResponseWindowExpiry, execBackoffExpiry, execDeferralDeadlineExpiry]
      (repeat' split) <;> simp [Cleared, hst, hcl]
    case pinReset | resetRelease => exact nomatch hc
    all_goals cases hb

/-! ### Reset and clearing together -/

theorem Clearing.clearingLaws (h : Clearing s) (hr : s.resetLow = false) : ClearingLaws s where
  reset hl := nomatch hr.symm.trans hl
  clearing := ⟨fun _ => ⟨h.1.state, hr⟩, fun _ => h.2⟩
  blocks _ := ⟨h.1.ge, h.1.sru, h.1.te, h.1.pt, h.1.re, h.1.slot, h.1.listen, h.1.quiet, h.1.due, h.1.completions, h.1.events, h.1.eventsLost⟩

theorem Cleared.clearingLaws (h : Cleared s) (hr : s.resetLow = false) : ClearingLaws s where
  reset hl := nomatch hr.symm.trans hl
  clearing := ⟨fun hc => absurd (h.2.symm.trans hc) nofun, fun hc => absurd hc.1 h.1⟩
  blocks hst := absurd hst h.1

theorem HeldInReset.clearingLaws (h : HeldInReset s) : ClearingLaws s where
  reset _ := h
  clearing := ⟨fun hc => absurd (h.port.2.symm.trans hc) nofun, fun hc => absurd (hc.2.symm.trans h.resetLow) nofun⟩
  blocks _ := by
    have hi := h.idle
    exact ⟨hi.ge, hi.sru, hi.te, hi.pt, hi.re, hi.slot, hi.listen, hi.quiet, hi.due, hi.completions, hi.events, hi.eventsLost⟩

/-- The end of clearing leads to SETUP (R131). -/
theorem exec_clearingDone_cleared (h : s.sgm.clearing = true) : Leads Cleared (exec .clearingDone s) := by
  rw [exec_clearingDone h, leads_next]
  exact reselect_cleared (cleared_portKept.portClosed.resumeAfterClearing s.cleared ⟨nofun, rfl⟩)

theorem exec_clearingLaws (c : Instr) (h : ClearingLaws s) : Leads ClearingLaws (exec c s) := by
  cases hc : movesReset c with
  | true =>
    cases c
    case pinReset addr rate => exact leads_next.mpr (HeldInReset.clearingLaws rfl)
    case resetRelease addr rate =>
      simp only [exec, execResetRelease]
      split
      · next hr =>
        have hi := (h.reset hr).idle
        refine leads_next.mpr (Clearing.clearingLaws ⟨?_, rfl⟩ rfl)
        exact hi.of_same rfl rfl rfl rfl rfl rfl ⟨rfl, rfl, rfl, rfl⟩ ⟨rfl, rfl, rfl⟩
      · exact leads_next.mpr h
    all_goals exact nomatch hc
  | false =>
    intro t ht
    obtain ⟨u, hu, -, hlow, -⟩ := exec_answersStill hc s
    rw [ht] at hu
    cases hu
    cases hr : s.resetLow with
    | true =>
      rw [exec_of_held (h.reset hr) hc] at ht
      cases ht
      exact h
    | false =>
      rw [hr] at hlow
      by_cases hst : s.stc.state = .clearing
      · have hclearing : s.sgm.clearing = true := h.clearing.mpr ⟨hst, hr⟩
        by_cases hd : c = .clearingDone
        · subst hd
          exact (exec_clearingDone_cleared hclearing t ht).clearingLaws hlow
        · exact (exec_clearing ⟨h.idle hst, hclearing⟩ hc hd t ht).clearingLaws hlow
      · have hcl : s.sgm.clearing = false := Bool.eq_false_iff.mpr fun hcl => hst (h.clearing.mp hcl).1
        exact (exec_cleared ⟨hst, hcl⟩ hc t ht).clearingLaws hlow

end

end Sys2Proof.Machine
end

section
/-! PROOFS. The entry of the station's own address is not used (R80, O53): what may write an entry of the peer table, and who sent the frames of the TE. -/

namespace Sys2Proof.Machine

/-! ### The entry of the station's own address -/

/-- A peer entry as pin reset leaves it, its sequence number apart. -/
def Peer.Unused (e : Peer) : Prop := e.presence = .absent ∧ e.departure = none ∧ e.timer = .stopped ∧ e.record = none

/-- The entry of a station is not used. -/
def EntryUnused (own : Station) (ps : Table 16 Peer) : Prop := (ps.at own).Unused

section
variable {s : State} {own p : Station}

/-- The entry of another peer is of no matter. -/
theorem updatePeer_of_ne (f : Peer → Peer) (hp : p ≠ own) (h : EntryUnused own s.pt.peers) : EntryUnused own (updatePeer p f s).pt.peers := by
  unfold EntryUnused updatePeer
  rw [Table.at_put_of_ne _ _ (Ne.symm hp)]
  exact h

/-- A change that leaves an unused entry unused. -/
theorem updatePeer_of_unused {f : Peer → Peer} (hf : ∀ e : Peer, e.Unused → (f e).Unused) (p : Station) (h : EntryUnused own s.pt.peers) :
    EntryUnused own (updatePeer p f s).pt.peers := by
  by_cases hp : p = own
  · subst hp
    unfold EntryUnused updatePeer
    rw [Table.at_put_self]
    exact hf _ h
  · exact updatePeer_of_ne f hp h

theorem EntryUnused.each {ps : Table 16 Peer} {f : Peer → Peer} (h : EntryUnused own ps) (hf : ∀ e : Peer, e.Unused → (f e).Unused) :
    EntryUnused own (ps.each f) := by
  unfold EntryUnused
  rw [Table.at_each]
  exact hf _ h

/-! ### The RE counts sequence numbers alone (R98) -/

theorem admitEntry_unused (e : Fin 8) (q : Queued) (h : EntryUnused own s.pt.peers) : EntryUnused own (admitEntry e q s).pt.peers := by
  unfold admitEntry
  split
  · exact h
  · exact updatePeer_of_unused (s := dequeue q s) (f := fun x => { x with nextSeq := x.nextSeq + 1 }) (fun _ he => he) _ h

theorem attemptAdmission_unused (n : Nat) : ∀ {s : State}, EntryUnused own s.pt.peers → EntryUnused own (attemptAdmission n s).pt.peers := by
  induction n with
  | zero => exact fun h => h
  | succ n ih =>
    intro s h
    unfold attemptAdmission
    split
    · split
      · split
        · split
          · exact ih h
          · exact h
        · exact ih (admitEntry_unused _ _ h)
      · exact h
    · exact h

@[simp] theorem admission_unused (h : EntryUnused own s.pt.peers) : EntryUnused own (admission s).pt.peers := attemptAdmission_unused _ h

@[simp] theorem finishEntry_unused (e : Fin 8) (st : Status) (dt : Detail) (n : Nat) (h : EntryUnused own s.pt.peers) :
    EntryUnused own (finishEntry e st dt n s).pt.peers := by
  unfold finishEntry
  dsimp only
  split
  · exact h
  · split
    · exact admission_unused h
    · exact h

@[simp] theorem copyUnanswered_unused (e : Fin 8) (x : Entry) (h : EntryUnused own s.pt.peers) : EntryUnused own (copyUnanswered e x s).pt.peers := by
  unfold copyUnanswered attemptLost
  dsimp only
  (repeat' split) <;> simp [h]

@[simp] theorem takeAnswer_unused (e : Fin 8) (x : Entry) (a : Answer) (h : EntryUnused own s.pt.peers) : EntryUnused own (takeAnswer e x a s).pt.peers := by
  unfold takeAnswer takeDefer takeBusy backOffOrCancel
  dsimp only
  (repeat' split) <;> simp [h]

@[simp] theorem passToRequester_unused (f : Frame) (h : EntryUnused own s.pt.peers) : EntryUnused own (passToRequester f s).pt.peers := by
  unfold passToRequester takeResponse
  (repeat' split) <;> simp [h]

@[simp] theorem reTakeAnnouncement_unused (h : EntryUnused own s.pt.peers) : EntryUnused own (reTakeAnnouncement s).pt.peers := by
  unfold reTakeAnnouncement
  dsimp only
  (repeat' split) <;> simp [h]

theorem cancelEntries_unused (es : List (Fin 8)) : ∀ {s : State}, EntryUnused own s.pt.peers → EntryUnused own (cancelEntries es s).pt.peers := by
  induction es with
  | nil => exact fun h => h
  | cons e es ih =>
    intro s h
    unfold cancelEntries
    refine ih ?_
    split <;> simp [h]

@[simp] theorem reTakeStartOfLeaving_unused (h : EntryUnused own s.pt.peers) : EntryUnused own (reTakeStartOfLeaving s).pt.peers := by
  unfold reTakeStartOfLeaving
  split
  · simpa [markCancelled] using cancelEntries_unused all8 (s := { s with re := { s.re with startOfLeaving := false } }) h
  · exact h

@[simp] theorem consumeCompletion_unused (h : EntryUnused own s.pt.peers) : EntryUnused own (consumeCompletion s).pt.peers := by
  unfold consumeCompletion completionSpaceGained
  dsimp only
  split
  · exact h
  · split <;> simp [h]

@[simp] theorem postWindow_unused (h : EntryUnused own s.pt.peers) : EntryUnused own (postWindow s).pt.peers := by
  unfold postWindow
  split
  · exact admission_unused h
  · exact h

@[simp] theorem copyFaulted_unused (e : Fin 8) (h : EntryUnused own s.pt.peers) : EntryUnused own (copyFaulted e s).pt.peers := by
  unfold copyFaulted
  split <;> simp [h]

@[simp] theorem reportFault_unused (o : Offer) (h : EntryUnused own s.pt.peers) : EntryUnused own (reportFault o s).pt.peers := by
  cases o <;> simp [reportFault, h]

/-! ### The PT -/

@[simp] theorem announce_unused (a : Announcement) (h : EntryUnused own s.pt.peers) : EntryUnused own (announce a s).pt.peers := by
  unfold announce
  cases a <;> simp [h]

theorem hearFresh_unused (hp : p ≠ own) (h : EntryUnused own s.pt.peers) : EntryUnused own (hearFresh p s).pt.peers := by
  have hput : ∀ f, EntryUnused own (updatePeer p f s).pt.peers := fun f => updatePeer_of_ne f hp h
  unfold hearFresh
  dsimp only
  split <;> simp [hput]

/-- Only frames of other stations are heard (R82). -/
theorem hear_unused (f : Frame) (ha : s.stc.address = own) (h : EntryUnused own s.pt.peers) : EntryUnused own (hear f s).pt.peers := by
  unfold hear
  split
  · next hused =>
    have hp : f.sender ≠ own := by
      rw [← ha]
      simp only [Bool.and_eq_true, decide_eq_true_eq] at hused
      exact hused.2
    have hput : ∀ g, EntryUnused own (updatePeer f.sender g s).pt.peers := fun g => updatePeer_of_ne g hp h
    split
    · unfold hearLeaving
      dsimp only
      (repeat' split) <;> simp [h, hput]
    · exact hearFresh_unused hp h
    · unfold hearPlain
      dsimp only
      (repeat' split) <;> simp [hput]
  · exact h

/-- A loss ends for an entry with a departure pending alone (R86). -/
theorem endOfLoss_unused (p : Station) (h : EntryUnused own s.pt.peers) : EntryUnused own (endOfLoss p s).pt.peers := by
  unfold endOfLoss
  dsimp only
  split
  · exact h
  · next d hd =>
    have hp : p ≠ own := fun hp => by
      obtain ⟨-, hdeparture, -⟩ := h
      rw [← hp, hd] at hdeparture
      exact nomatch hdeparture
    have hdown : ∀ ev, EntryUnused own (postEvent ev (updatePeer p Peer.down s)).pt.peers := fun ev => by
      simpa using updatePeer_of_ne Peer.down hp h
    split
    · exact hearFresh_unused hp (hdown _)
    split
    · have hup := updatePeer_of_ne (Peer.up (absenceTime (postEvent (.peerDown p d) (updatePeer p Peer.down s)))) hp (hdown (.peerDown p d))
      simpa using hup
    · exact hdown _

/-! ### The frames of the TE are those of other stations -/

/-- The station's own entry is not used, and no frame of its own is served. -/
structure OwnUnused (own : Station) (s : State) : Prop where
  entry : EntryUnused own s.pt.peers
  input : ∀ f, s.te.input = some f → f.sender ≠ own
  hand : ∀ h, s.te.hand = some h → h.sender ≠ own

theorem ownEntryUnused_iff (s : State) : OwnEntryUnused s ↔ OwnUnused s.stc.address s :=
  ⟨fun h => ⟨h.entry, h.input, h.hand⟩, fun h => ⟨h.entry, h.input, h.hand⟩⟩

theorem OwnUnused.of_same {t : State} (h : OwnUnused own s) (hpt : EntryUnused own t.pt.peers) (hi : t.te.input = s.te.input) (hh : t.te.hand = s.te.hand) :
    OwnUnused own t :=
  ⟨hpt, hi ▸ h.input, hh ▸ h.hand⟩

theorem answer_unused (q : Byte) (k : BitVec 4) (c : Reply) (hp : p ≠ own) (h : EntryUnused own s.pt.peers) : EntryUnused own (answer p q k c s).pt.peers :=
  updatePeer_of_ne (fun e => { e with record := some ⟨q, k, c.recorded⟩ }) hp h

/-- The frame in hand is answered: the record is another peer's (R72). -/
theorem finishHand_entryUnused (r : Option Reply) (hh : ∀ k, s.te.hand = some k → k.sender ≠ own) (h : EntryUnused own s.pt.peers) :
    EntryUnused own (finishHand r s).pt.peers := by
  unfold finishHand
  split
  · exact h
  · next k hk =>
    dsimp only
    split
    · exact h
    · exact answer_unused (s := { s with te := { s.te with hand := none } }) _ _ _ (hh k hk) h

theorem OwnUnused.answered {t : State} {k : Option Reply} (h : OwnUnused own s) (hpt : t.pt = s.pt) (hi : t.te.input = s.te.input) (hh : t.te.hand = s.te.hand) :
    OwnUnused own (finishHand k t) := by
  refine ⟨finishHand_entryUnused k (hh ▸ h.hand) (hpt ▸ h.entry), ?_, ?_⟩
  · simpa [hi] using h.input
  · simp

theorem takeRds_ownUnused (p : Station) (r : Request) {u : State} (h : OwnUnused own u) : OwnUnused own (takeRds p r u) := by
  unfold takeRds answerFromSlot
  split
  · split
    · exact h
    · split
      · exact h.answered (by simp) (by simp) (by simp)
      · exact h.answered (by simp) (by simp) (by simp)
  · exact h.of_same (by simpa using h.entry) (by simp) (by simp)

theorem dispatchRequest_ownUnused (r : Request) (hp : p ≠ own) (h : OwnUnused own s) : OwnUnused own (dispatchRequest p r s) := by
  have hanswered : ∀ q k c, OwnUnused own (answer p q k c s) := fun q k c => h.of_same (answer_unused _ _ _ hp h.entry) rfl rfl
  have htaken : ∀ st, OwnUnused own (takeInHand p r st s) := fun st => ⟨h.entry, h.input, fun k hk => by cases hk; exact hp⟩
  unfold dispatchRequest afterTests
  split
  · split
    · exact hanswered _ _ _
    · exact (htaken .rdClaim).of_same (htaken .rdClaim).entry rfl rfl
  · split
    · exact hanswered _ _ _
    · exact (htaken .wrClaim).of_same (htaken .wrClaim).entry rfl rfl
  · split
    · exact hanswered _ _ _
    · exact takeRds_ownUnused p r (htaken .sru)
  · exact (htaken .ge).of_same (by simpa using (htaken .ge).entry) (by simp) (by simp)

theorem takeNextFrame_ownUnused (h : OwnUnused own s) : OwnUnused own (takeNextFrame s) := by
  unfold takeNextFrame
  split
  · next f hh hf =>
    have hp := h.input f hf
    have hmoved : OwnUnused own { s with te := { s.te with input := none } } := ⟨h.entry, nofun, h.hand⟩
    unfold checkSequence
    split
    · exact hmoved
    split
    · exact hmoved
    · next k _ =>
      have hreported : OwnUnused own (frameTakenReport f k { s with te := { s.te with input := none } }) :=
        hmoved.of_same (by simpa using hmoved.entry) (by simp) (by simp)
      have hanswered : ∀ q code c, OwnUnused own (answer f.sender q code c (frameTakenReport f k { s with te := { s.te with input := none } })) := fun q code c =>
        hreported.of_same (answer_unused q code c hp hreported.entry) rfl rfl
      unfold replayOrEvaluate evaluate
      split
      · split
        · exact hreported
        · exact hreported.of_same hreported.entry rfl rfl
      split
      · exact hanswered _ _ _
      split
      · exact hanswered _ _ _
      · exact dispatchRequest_ownUnused _ hp hreported
  · exact h

/-- Only frames of other stations are passed to the TE (R61, R82). -/
theorem passToTarget_ownUnused (f : Frame) (ha : s.stc.address = own) (h : OwnUnused own s) : OwnUnused own (passToTarget f s) := by
  unfold passToTarget passRequest
  split
  · next hused =>
    have hp : f.sender ≠ own := by
      rw [← ha]
      simp only [Bool.and_eq_true, decide_eq_true_eq] at hused
      exact hused.1.2
    have hentered : ∀ u : State, OwnUnused own u → OwnUnused own (if u.te.input.isSome then u else enterInput f u) := fun u hu => by
      split
      · exact hu
      · rw [enterInput_eq]
        refine ⟨?_, fun g hg => by cases hg; exact hp, ?_⟩
        · simpa using hu.entry
        · simpa using hu.hand
    split
    · refine hentered _ ?_
      split
      · exact takeNextFrame_ownUnused h
      · exact h
    · exact h
  · exact h

/-! ### The operations of the GE, and the station states -/

theorem endOperation_ownUnused (fin : OpEnd) (h : OwnUnused own s) : OwnUnused own (endOperation fin s) := by
  cases fin with
  | reply => exact h.answered (k := some (.done 0)) rfl rfl rfl
  | gone p report =>
    simp only [endOperation]
    split
    · exact h.of_same (endOfLoss_unused p h.entry) (by simp) (by simp)
    · exact h
  | _ => exact h.of_same (by simpa [endOperation] using h.entry) (by simp) (by simp [endOperation])

theorem beginRollbacks_ownUnused (cause : AbortCause) (list : List (Fin 4)) (fin : OpEnd) (h : OwnUnused own s) : OwnUnused own (beginRollbacks cause list fin s) := by
  unfold beginRollbacks
  split
  · exact endOperation_ownUnused fin h
  · exact h.of_same h.entry rfl rfl

theorem afterRollback_ownUnused (cause : AbortCause) (rest : List (Fin 4)) (fin : OpEnd) (h : OwnUnused own s) : OwnUnused own (afterRollback cause rest fin s) := by
  unfold afterRollback
  split
  · exact endOperation_ownUnused fin (h.of_same (by simpa using h.entry) (by simp) (by simp))
  · exact h.of_same (by simpa using h.entry) (by simp) (by simp)

theorem takeAllWaiting_unused (h : EntryUnused own s.pt.peers) : EntryUnused own (takeAllWaiting s).pt.peers := by
  have hleaves : EntryUnused own (reTakeStartOfLeaving (sruTakeStartOfLeaving s)).pt.peers := reTakeStartOfLeaving_unused (by simpa using h)
  have htold : EntryUnused own (reTakeAnnouncement (sruTakeAnnouncement (reTakeStartOfLeaving (sruTakeStartOfLeaving s)))).pt.peers :=
    reTakeAnnouncement_unused (by simpa using hleaves)
  simpa [takeAllWaiting] using htold

theorem Peer.Unused.down {e : Peer} (h : e.Unused) : e.down.Unused := ⟨rfl, rfl, rfl, h.2.2.2⟩

theorem peersDown_unused (clear : Bool) (h : EntryUnused own s.pt.peers) : EntryUnused own (peersDown clear s).pt.peers := by
  refine h.each fun e he => ?_
  split
  · exact ⟨rfl, rfl, rfl, rfl⟩
  · exact he.down

theorem reportSent_ownUnused (o : Offer) (h : OwnUnused own s) : OwnUnused own (reportSent o s) := by
  cases o with
  | presence m =>
    show OwnUnused own (presenceSent m s)
    unfold presenceSent
    split
    · cases m with
      | plain => exact h.of_same h.entry rfl rfl
      | fresh => exact h.of_same (by simpa using h.entry) (by simp) (by simp)
      | leaving =>
        dsimp only
        rw [endLeaving_eq]
        exact ⟨peersDown_unused true (takeAllWaiting_unused h.entry), nofun, by simpa using h.hand⟩
    · exact h
  | _ => exact h.of_same (by simpa [reportSent] using h.entry) (by simp [reportSent]) (by simp [reportSent])

theorem takeCommand_ownUnused (c : Command) (h : OwnUnused own s) : OwnUnused own (takeCommand c s) := by
  refine h.of_same ?_ (by simp) (by simp)
  cases c with
  | configure => simpa [takeCommand] using h.entry
  | revoke => simpa [takeCommand] using h.entry
  | join =>
    show EntryUnused own (commandJoin s).pt.peers
    unfold commandJoin
    split
    · rw [joinInSetup_eq]
      exact h.entry.each fun e he => he
    · exact h.entry
    · exact h.entry
  | leave =>
    show EntryUnused own (commandLeave s).pt.peers
    cases hs : s.stc.state with
    | listening =>
      rw [commandLeave_of_listening hs, leaveListening_eq]
      exact (takeAllWaiting_unused (s := setCommand .leave .accepted s) h.entry).each fun e he => he.down
    | _ => simpa [commandLeave, leaveJoined, hs] using h.entry

theorem ownUnused_portKept : PortKept (OwnUnused own) where
  moved {s t} hm h := h.of_same ((congrArg (·.pt) hm : t.pt = s.pt) ▸ h.entry) (congrArg (·.te.input) hm) (congrArg (·.te.hand) hm)
  claim h := h.of_same h.entry rfl rfl
  buffer b j high v h := h.of_same (by simpa using h.entry) (by simp) (by simp)
  post h := h.of_same (postWindow_unused h.entry) (by simp) (by simp)
  completion h := h.of_same (consumeCompletion_unused h.entry) (by simp) (by simp)
  event h := h.of_same (by simpa using h.entry) (by simp) (by simp)
  command c h := takeCommand_ownUnused c h

theorem takeGoodFrame_ownUnused (f : Frame) (ha : s.stc.address = own) (h : OwnUnused own s) : OwnUnused own (takeGoodFrame f s) := by
  have hwon : OwnUnused own (updateLc (Lc.won f.cls f.sender) (endReception s)) := h.of_same h.entry rfl rfl
  have hheard : ∀ u : State, u.stc.address = own → OwnUnused own u → OwnUnused own (hear f u) := fun u hu ho =>
    ho.of_same (hear_unused f hu ho.entry) (by simp) (by simp)
  have hpassed : ∀ u : State, OwnUnused own u → OwnUnused own (passToRequester f u) := fun u ho =>
    ho.of_same (passToRequester_unused f ho.entry) (by simp) (by simp)
  have hcounted : OwnUnused own (countFree (updateLc (Lc.won f.cls f.sender) (endReception s))) := hwon.of_same hwon.entry rfl rfl
  unfold takeGoodFrame takeResponseFrame
  dsimp only
  split
  · split
    · exact hheard _ ha hwon
    · split
      · exact hheard _ (by simpa using ha) (hpassed _ hcounted)
      · exact hpassed _ (hheard _ ha hcounted)
  · exact passToTarget_ownUnused f (by simpa using ha) (hheard _ ha hwon)

/-! ### Every command -/

theorem reselect_ownUnused {t : State} (h : OwnUnused own t) : OwnUnused own (reselect t) := h.of_same (by simpa using h.entry) (by simp) (by simp)

theorem writeClaimed_ownUnused (la : BitVec 14) (v : Half) (h : OwnUnused own s) : OwnUnused own (s.writeClaimed la v) := by
  unfold State.writeClaimed
  split <;> exact h.of_same (by simpa [storeWords, takeClaim] using h.entry) (by simp [storeWords]) (by simp [storeWords])

/-- The commands of the TE and the SRU that answer the frame in hand, or leave it. -/
theorem exec_target_ownUnused {c : Instr} (h : OwnUnused own s) (hc : c ∈ [Instr.rdRangeRead, .wrApply, .rdsEvaluation]) :
    Leads (OwnUnused own) (exec c s) := by
  have hdone : ∀ {k : Option Reply} {t : State}, t.pt = s.pt → t.te.input = s.te.input → t.te.hand = s.te.hand →
      Leads (OwnUnused own) (nextWithSelection (finishHand k t)) :=
    fun hpt hi hh => leads_nextWithSelection.mpr (reselect_ownUnused (h.answered hpt hi hh))
  have hkept : Leads (OwnUnused own) (.next s) := leads_next.mpr h
  simp only [List.mem_cons, List.not_mem_nil, or_false] at hc
  rcases hc with rfl | rfl | rfl
  · simp only [exec, execRdRangeRead]
    split
    · exact hkept
    · split
      · exact hdone rfl rfl rfl
      · exact hkept
  · simp only [exec, execWrApply]
    split
    · exact hkept
    · split
      · split <;> exact hdone rfl rfl rfl
      · exact hkept
  · simp only [exec, execRdsEvaluation]
    split
    · split
      · split
        · exact hdone (by simp [sruWorkDone]) (by simp [sruWorkDone]) (by simp [sruWorkDone])
        · exact hdone (by simp [sruWorkDone]) (by simp [sruWorkDone]) (by simp [sruWorkDone])
      · exact hkept
    · exact hkept

/-- The commands of the GE that answer the frame in hand, or leave it. -/
theorem exec_group_ownUnused {c : Instr} (h : OwnUnused own s) (hc : c ∈ [Instr.gopen, .gwrite, .gwriteApply, .gclose, .groupCommit, .gabort]) :
    Leads (OwnUnused own) (exec c s) := by
  have hdone : ∀ {k : Option Reply} {t : State}, t.pt = s.pt → t.te.input = s.te.input → t.te.hand = s.te.hand →
      Leads (OwnUnused own) (nextWithSelection (finishHand k t)) :=
    fun hpt hi hh => leads_nextWithSelection.mpr (reselect_ownUnused (h.answered hpt hi hh))
  have hkept : Leads (OwnUnused own) (.next s) := leads_next.mpr h
  simp only [List.mem_cons, List.not_mem_nil, or_false] at hc
  rcases hc with rfl | rfl | rfl | rfl | rfl | rfl
  · simp only [exec, execGopen]
    split
    · exact hkept
    · split <;> exact hdone rfl rfl rfl
  · simp only [exec, execGwrite]
    split
    · exact hkept
    · split
      · exact hdone rfl rfl rfl
      · exact leads_next.mpr (h.of_same h.entry rfl rfl)
  · simp only [exec, execGwriteApply]
    split
    · split
      · split <;> exact hdone rfl rfl rfl
      · exact hkept
    · exact hkept
  · simp only [exec, execGclose]
    split
    · exact hkept
    · split
      · exact hdone rfl rfl rfl
      · exact leads_next.mpr (h.of_same h.entry rfl rfl)
  · simp only [exec, execGroupCommit]
    split
    · split
      · split
        · exact hkept
        · exact hdone (by simp) (by simp) (by simp)
      · exact hkept
    · exact hkept
  · simp only [exec, execGabort]
    split
    · exact hkept
    · split
      · exact hdone rfl rfl rfl
      · exact leads_next.mpr (h.of_same h.entry rfl rfl)

/-- A rollback, and the other work of the GE. -/
theorem exec_rollback_ownUnused {c : Instr} (h : OwnUnused own s)
    (hc : c ∈ [Instr.groupRollback, .geTakeExpiry, .geTakePeerLost, .geTakePeerRestarted, .geTakeRevoke, .geTakeStartOfLeaving]) : Leads (OwnUnused own) (exec c s) := by
  have hother : OwnUnused own (takeOther s) := h.of_same h.entry rfl rfl
  have hkept : Leads (OwnUnused own) (.next s) := leads_next.mpr h
  simp only [List.mem_cons, List.not_mem_nil, or_false] at hc
  rcases hc with rfl | rfl | rfl | rfl | rfl | rfl
  · simp only [exec, execGroupRollback]
    split
    · split
      · refine leads_nextWithSelection.mpr (reselect_ownUnused (afterRollback_ownUnused _ _ _ (h.of_same ?_ (by simp) (by simp))))
        simpa [takeClaim] using h.entry
      · exact hkept
    · exact hkept
  · simp only [exec, execGeTakeExpiry]
    split
    · split
      · exact leads_next.mpr hother
      · exact leads_next.mpr (beginRollbacks_ownUnused _ _ _ hother)
    · exact hkept
  · simp only [exec, execGeTakePeerLost]
    split
    · exact leads_nextWithSelection.mpr (reselect_ownUnused (beginRollbacks_ownUnused _ _ _ hother))
    · exact hkept
  · simp only [exec, execGeTakePeerRestarted]
    split
    · exact leads_next.mpr (beginRollbacks_ownUnused _ _ _ hother)
    · exact hkept
  · simp only [exec, execGeTakeRevoke]
    split
    · exact leads_next.mpr (beginRollbacks_ownUnused _ _ _ hother)
    · exact hkept
  · simp only [exec, execGeTakeStartOfLeaving]
    split
    · exact leads_next.mpr (beginRollbacks_ownUnused _ _ _ hother)
    · exact hkept

/-- The commands of the line. -/
theorem exec_line_ownUnused {c : Instr} (ha : s.stc.address = own) (h : OwnUnused own s)
    (hc : (∃ f, c = .goodFrame f) ∨ (∃ bits, c = .frameDiscarded bits) ∨ c = .transmitSent ∨ c = .transmitFault) : Leads (OwnUnused own) (exec c s) := by
  have htaken : ∀ f, Leads (OwnUnused own) (nextWithSelection (takeGoodFrame f s)) := fun f =>
    leads_nextWithSelection.mpr (reselect_ownUnused (takeGoodFrame_ownUnused f ha h))
  have hended : Leads (OwnUnused own) (.next (endReception s)) := leads_next.mpr (h.of_same h.entry rfl rfl)
  have hkept : Leads (OwnUnused own) (.next s) := leads_next.mpr h
  rcases hc with ⟨f, rfl⟩ | ⟨bits, rfl⟩ | rfl | rfl
  · simp only [exec, execGoodFrame]
    split
    · split
      · exact htaken f
      · exact hended
    · exact hkept
  · simp only [exec, execFrameDiscarded]
    split
    · split
      · exact hkept
      · exact hended
      · exact htaken _
    · exact hkept
  · simp only [exec, execTransmitSent]
    split
    · next o f b orphan _ =>
      have hleft : OwnUnused own (updateLc (fun lc => Lc.won o.cls s.stc.address { lc with slot := .empty, view := .gap 0, receive := none }) s) :=
        h.of_same h.entry rfl rfl
      have hframe : ∀ {u : State}, OwnUnused own u → OwnUnused own (frameSent s u) := fun hu => hu.of_same (by simpa using hu.entry) (by simp) (by simp)
      refine leads_nextWithSelection.mpr (reselect_ownUnused (hframe ?_))
      split
      · exact hleft
      · exact reportSent_ownUnused o hleft
    · exact hkept
  · simp only [exec, execTransmitFault]
    split
    · next o f b orphan _ =>
      have hleft : OwnUnused own (updateLc (fun lc => { lc with slot := .empty }) s) := h.of_same h.entry rfl rfl
      refine leads_nextWithSelection.mpr (reselect_ownUnused ?_)
      split
      · exact hleft
      · exact hleft.of_same (reportFault_unused o hleft.entry) (by simp) (by simp)
    · exact hkept

/-- An expiry of the last-heard timer is one of a peer that is PRESENT, so not of the station's own entry (R84). -/
theorem exec_lastHeardExpiry_ownUnused (p : Station) (h : OwnUnused own s) : Leads (OwnUnused own) (exec (.lastHeardExpiry p) s) := by
  simp only [exec, execLastHeardExpiry]
  split
  · next hset =>
    have hp : p ≠ own := fun hp => by
      obtain ⟨habsent, -⟩ := h.entry
      simp [Peer.settled, hp, habsent] at hset
    refine leads_nextWithSelection.mpr (reselect_ownUnused (h.of_same ?_ (by simp) (by simp)))
    exact announce_unused _ (updatePeer_of_ne _ hp h.entry)
  · exact leads_next.mpr h

theorem exec_ownUnused {c : Instr} (hm : movesReset c = false) (ha : s.stc.address = own) (h : OwnUnused own s) : Leads (OwnUnused own) (exec c s) := by
  have hre : ∀ {t : State}, OwnUnused own t → OwnUnused own (reselect t) := reselect_ownUnused
  have hentry := h.entry
  cases hb : busOf c with
  | some b => exact ownUnused_portKept.exec_bus hre hb h
  | none =>
    cases c
    case clearingDone => exact ownUnused_portKept.exec_clearingDone hre (fun _ => h.of_same h.entry rfl rfl) h
    case localWordRead => exact ownUnused_portKept.exec_localWordRead hre (h.of_same h.entry rfl rfl) h
    case localWordWrite => exact ownUnused_portKept.exec_localWordWrite hre (fun la v => writeClaimed_ownUnused la v h) h
    case localCycleEnd => exact ownUnused_portKept.exec_localCycleEnd h
    case rdRangeRead | wrApply | rdsEvaluation => exact exec_target_ownUnused h (by simp)
    case gopen | gwrite | gwriteApply | gclose | groupCommit | gabort => exact exec_group_ownUnused h (by simp)
    case groupRollback | geTakeExpiry | geTakePeerLost | geTakePeerRestarted | geTakeRevoke | geTakeStartOfLeaving => exact exec_rollback_ownUnused h (by simp)
    case goodFrame | frameDiscarded | transmitSent | transmitFault => exact exec_line_ownUnused ha h (by simp)
    case lastHeardExpiry p => exact exec_lastHeardExpiry_ownUnused p h
    case frameInHand => exact leads_nextWithSelection.mpr (hre (takeNextFrame_ownUnused h))
    case startDelimiter | contentionWon | lineIdle | dominantBitInGap =>
      simp only [exec, execStartDelimiter, execContentionWon, execLineIdle, execDominantBitInGap]
      (repeat' split) <;> exact fun t ht => by cases ht; exact h.of_same (by simpa using hentry) (by simp) (by simp)
    case quietTimerExpiry | listenTimerExpiry | leavingPresenceDue | restartPurge =>
      simp only [exec, execQuietTimerExpiry, execListenTimerExpiry, execLeavingPresenceDue, execRestartPurge]
      (repeat' split) <;> exact fun t ht => by cases ht; exact h.of_same (by simpa using hentry) (by simp) (by simp)
    case slotCapture | sruTakeAnnouncement | sruTakeStartOfLeaving | discardTimerExpiry | idleTimerExpiry =>
      simp only [exec, execSlotCapture, execSruTakeAnnouncement, execSruTakeStartOfLeaving, execDiscardTimerExpiry, execIdleTimerExpiry]
      (repeat' split) <;> exact fun t ht => by cases ht; exact h.of_same (by simpa using hentry) (by simp) (by simp)
    case reTakeAnnouncement | reTakeStartOfLeaving | responseWindowExpiry | backoffExpiry | deferralDeadlineExpiry =>
      simp only [exec, execReTakeAnnouncement, execReTakeStartOfLeaving, execResponseWindowExpiry, execBackoffExpiry, execDeferralDeadlineExpiry]
      (repeat' split) <;> exact fun t ht => by cases ht; exact h.of_same (by simp [hentry]) (by simp) (by simp)
    case pinReset | resetRelease => exact nomatch hm
    all_goals cases hb

end

theorem ownEntryUnused_of_held {s : State} (h : HeldInReset s) (addr : Station) : OwnUnused addr s := by
  refine ⟨?_, fun f hf => ?_, fun k hk => ?_⟩
  · unfold EntryUnused
    rw [h.idle.peer]
    exact ⟨rfl, rfl, rfl, rfl⟩
  · rw [h.idle.hand.2] at hf; exact nomatch hf
  · rw [h.idle.hand.1] at hk; exact nomatch hk

/-- The station's own entry stays unused, at the address that a reset gives it too. -/
theorem exec_ownEntryUnused (c : Instr) {s : State} (hl : ClearingLaws s) (h : OwnEntryUnused s) : Leads OwnEntryUnused (exec c s) := by
  rw [ownEntryUnused_iff] at h
  cases hc : movesReset c with
  | true =>
    cases c
    case pinReset addr rate => exact leads_next.mpr ((ownEntryUnused_iff _).mpr (ownEntryUnused_of_held (s := setStraps addr rate (resetContents s)) rfl addr))
    case resetRelease addr rate =>
      simp only [exec, execResetRelease]
      split
      · next hr =>
        have hheld := ownEntryUnused_of_held (hl.reset hr) addr
        exact leads_next.mpr ((ownEntryUnused_iff _).mpr ⟨hheld.entry, hheld.input, hheld.hand⟩)
      · exact leads_next.mpr ((ownEntryUnused_iff s).mpr h)
    all_goals exact nomatch hc
  | false =>
    intro t ht
    obtain ⟨u, hu, -, -, haddress, -⟩ := exec_answersStill hc s
    rw [ht] at hu
    cases hu
    rw [ownEntryUnused_iff, haddress]
    exact exec_ownUnused hc rfl h t ht

/-- Settles O53. -/
theorem clearingLawsKept : Obligations.ClearingLawsKept := fun _ _ hs h =>
  ⟨step_keeps (I := ClearingLaws) (fun q hs => ClearingLaws.of_pending hs q) (fun c _ hs => exec_clearingLaws c hs) hs h, fun hown =>
    (step_keeps (I := fun u => ClearingLaws u ∧ OwnEntryUnused u) (fun q hu => ⟨ClearingLaws.of_pending hu.1 q, { hu.2 with }⟩)
      (fun c _ hu t ht => ⟨exec_clearingLaws c hu.1 t ht, exec_ownEntryUnused c hu.1 hu.2 t ht⟩) ⟨hs, hown⟩ h).2⟩

end Sys2Proof.Machine
end
